-- ==== Sys2Proof/Word.lean ====
section
/-! DEFINITION. The widths of the WJ-628 (spec 00_scope.md, sections 1.7 and 1.8): words, word addresses, lanes, and the
indices of windows and batch records. -/

namespace Sys2Proof

/-- One byte: one lane of a word, or one byte of the service link. -/
abbrev Byte := BitVec 8

/-- 32 bits of data, the unit of every memory and upstream transaction. -/
abbrev Word := BitVec 32

/-- A word address, 000000h to FFFFFFh (section 1.8: byte addresses are not used). -/
abbrev Addr := BitVec 24

/-- A lane mask: bit i is lane i, lane 0 the least significant byte. Byte strobes have the same shape. -/
abbrev Lanes := BitVec 4

/-- The index of a window, 0 to 7. -/
abbrev WindowIdx := Fin 8

/-- The index of a batch record, 0 to 15. -/
abbrev RecordIdx := Fin 16

end Sys2Proof
end

