-- ==== Sys2Proof/Syntax.lean ====
section
/-! DEFINITION. The commands of the WJ-628: one constructor for each row of spec/opcode_table.json, with the values that
come from outside with it. The service-link rows carry the request's fields at their width on the wire (R173,
Tables 11-6 to 11-14), so every value a field can carry is there, those the part refuses among them. -/

namespace Sys2Proof

/-- The twelve payload bytes of SET_TIMING as fields (Table 11-11). -/
structure TimingFields where
  lines      : BitVec 16
  firstLine  : BitVec 16
  active     : BitVec 16
  rate       : BitVec 8
  share      : BitVec 8
  stallLimit : BitVec 16
  supervision : BitVec 16
  deriving DecidableEq, Repr

/-- The eighteen bytes of a window record as fields (Table 11-12). -/
structure RecordFields where
  policy         : BitVec 8
  base           : BitVec 24
  pitch          : BitVec 16
  rows           : BitVec 16
  firstRow       : BitVec 16
  commitOffset   : BitVec 24
  receiptPresent : BitVec 8
  receipt        : BitVec 24
  idleSeal       : BitVec 8
  deriving DecidableEq, Repr

/-- One command to the part: an event on its pins, the running out of one of its timers, or the end of a service-link
frame. A service-link row stands for the rest of its frame up to the rising edge of SEL (log 2). -/
inductive Instr where
  /-- UPSTREAM_WRITE: UREQ with UWR high; UA, UBS and UD as they stand. -/
  | upstreamWrite (addr : Addr) (strobes : Lanes) (data : Word)
  /-- UPSTREAM_READ: UREQ with UWR low; the strobes are not used (R94). -/
  | upstreamRead (addr : Addr) (strobes : Lanes)
  /-- UREQ_WITHDRAWN. -/
  | ureqWithdrawn
  /-- DIRECT_WRITE_COMPLETE: the memory asserts DRDY for a direct write. -/
  | directWriteComplete
  /-- MEMORY_READ_COMPLETE: the memory asserts DRDY for a read, with `dd` on DD. -/
  | memoryReadComplete (dd : Word)
  /-- ENTRY_WRITE_COMPLETE: the memory asserts DRDY for an entry write. -/
  | entryWriteComplete
  /-- RECEIPT_WRITE_COMPLETE: the memory asserts DRDY for a receipt write. -/
  | receiptWriteComplete
  /-- DRDY_RELEASE: the memory withdraws DRDY. -/
  | drdyRelease
  /-- STRAY_DRDY: DRDY is asserted with no transaction in flight. -/
  | strayDrdy
  /-- FRAME_START: a pulse on FS. -/
  | frameStart
  /-- LINE_START: a pulse on LS. -/
  | lineStart
  /-- SUPERVISION_EXPIRY: the supervision timer runs out. -/
  | supervisionExpiry
  /-- STALL_EXPIRY: the stall timer runs out. -/
  | stallExpiry
  /-- RESET_LINE: RSTn is asserted. -/
  | resetLine
  /-- FRAME_BEGIN: a falling edge of SEL. -/
  | frameBegin
  /-- READ_BACK: a frame of these whole bytes, and `extra` further bits, ends as a read-back. -/
  | readBack (bytes : List Byte) (extra : Nat)
  /-- MALFORMED_FRAME: a frame of these whole bytes, and `extra` further bits, ends refused. -/
  | malformedFrame (bytes : List Byte) (extra : Nat)
  /-- IDENT. -/
  | ident
  /-- STATUS. -/
  | status
  /-- CLEAR_FLAGS with its two-byte flag set. -/
  | clearFlags (flagSet : BitVec 16)
  /-- SET_MASK with its two-byte mask set. -/
  | setMask (maskSet : BitVec 16)
  /-- SET_TIMING with its seven values. -/
  | setTiming (values : TimingFields)
  /-- GET_TIMING. -/
  | getTiming
  /-- STAGE_WINDOW with the index and the record. -/
  | stageWindow (index : BitVec 8) (record : RecordFields)
  /-- GET_WINDOW with the index and the table selector. -/
  | getWindow (index : BitVec 8) (table : BitVec 8)
  /-- APPLY. -/
  | apply
  /-- ENABLE. -/
  | enable
  /-- DISABLE_DRAIN: DISABLE with its selector byte, 00h for drain. -/
  | disableDrain (selector : BitVec 8)
  /-- DISABLE_DISCARD: DISABLE with its selector byte, 01h for discard. -/
  | disableDiscard (selector : BitVec 8)
  /-- SEAL with its window set: bit i names window i. -/
  | sealWindows (windows : BitVec 8)
  /-- FLUSH with its window set: bit i names window i. -/
  | flush (windows : BitVec 8)
  /-- WINDOW_STATUS with its index. -/
  | windowStatus (index : BitVec 8)
  /-- TAKE_INCIDENT. -/
  | takeIncident
  /-- RESTART. -/
  | restart
  /-- RESET_LINE_END: RSTn is withdrawn. -/
  | resetLineEnd
  /-- SCK_RISING_EDGE, with the level of SDI. -/
  | sckRisingEdge (sdi : Bool)
  /-- SCK_FALLING_EDGE. -/
  | sckFallingEdge
  /-- NO_BIT_RECEIVED: SEL rises on a frame in which no rising edge of SCK came. -/
  | noBitReceived
  deriving DecidableEq, Repr

end Sys2Proof
end

