-- ==== Sys2Proof/Config.lean ====
section
/-! DEFINITION. What is fixed for the WJ-628, and the free values: what the manual leaves open while the part goes on. -/

namespace Sys2Proof.Config

/-- Entry slots of the hold store (R2). -/
def slots : Nat := 1024

/-- Records the incident queue holds (R153). -/
def incidentDepth : Nat := 8

/-- Where the dropped count and every idle count stop (R154, R15). -/
def stopCount : Nat := 255

/-- The largest line number the tracker keeps (R53). -/
def lastLine : Nat := 4095

/-- Whole bytes of a frame that the link stores; one more is the count that stands for "more" (R158). -/
def storedBytes : Nat := 67

/-- The timing values after the reset line, less T, F and A, as Table 4-2 gives them (R45). -/
def resetRate : Nat := 1

/-- P after the reset line (R45). -/
def resetShare : Nat := 4

/-- The stall limit after the reset line, in microseconds (R45). -/
def resetStallLimit : Nat := 1000

/-- S after the reset line, in microseconds (R45). -/
def resetSupervision : Nat := 50000

/-- FREE VALUE (log 5). The lanes of the n-th write cut by the reset line that had reached memory: R125 says each
strobed lane holds either its old value or the transaction's, lane by lane, and not which. -/
opaque cutLanes : Nat → Lanes

/-- FREE VALUE (log 6). Whether, the n-th time the supervision timer and the stall timer run out in the same
microsecond, the supervision expiry is taken first: section 1.8 lets either order happen. -/
opaque supervisionFirst : Nat → Bool

end Sys2Proof.Config
end

