-- ==== Sys2Proof/Machine/State.lean ====
section
/-! DEFINITION. The state of the WJ-628, block by block (section 1.3), as plain data, and the part after the reset line. -/

namespace Sys2Proof.Machine

/-! ## The upstream port (Table 6-1) -/

/-- The phase of the upstream port (R85). -/
inductive UpPhase where
  | idle | wait | direct | read
  deriving DecidableEq, Repr

/-- The cause of a stall (Table 6-3). -/
inductive Cause where
  | a | b | c
  deriving DecidableEq, Repr

/-- The upstream transaction taken and not yet completed (R85). -/
inductive UpTransaction where
  | write (addr : Addr) (strobes : Lanes) (data : Word)
  | read (addr : Addr) (strobes : Lanes)
  deriving DecidableEq, Repr

/-- The upstream port with its stall logic (R85, R86, R104). -/
structure UpstreamPort where
  transaction : Option UpTransaction
  phase       : UpPhase
  cause       : Option Cause
  stallWindow : Option WindowIdx
  /-- The stall timer: the microseconds left, none while it is stopped (R104). -/
  stallTimer  : Option Nat
  /-- URDY, a level (R86). -/
  urdy        : Bool
  /-- What UD carries with URDY for a completed read (R86). -/
  answer      : Option Word
  deriving DecidableEq, Repr

/-! ## The window unit (Tables 3-1 and 3-2) -/

/-- The policy of a window (R30). -/
inductive Policy where
  | off | direct | chase | frame
  deriving DecidableEq, Repr

/-- A window record (Table 3-1, R28). -/
structure WindowRecord where
  policy       : Policy
  base         : Addr
  pitch        : Nat
  rows         : Nat
  firstRow     : Nat
  commitOffset : Nat
  receipt      : Option Addr
  idleSeal     : Nat
  deriving DecidableEq, Repr

/-- The one record of policy OFF (R37, and R31 after the reset line). -/
def offRecord : WindowRecord :=
  ⟨.off, 0, 0, 0, 0, 0, none, 0⟩

/-- The dynamic state of a window index (Table 3-2). -/
structure WindowState where
  openBatch   : Option RecordIdx
  /-- Oldest first; its first member is the head (R7). -/
  sealedQueue : List RecordIdx
  lastSealed  : BitVec 16
  lastRetired : BitVec 16
  retired     : BitVec 16
  idle        : Nat
  closing     : Bool
  deriving DecidableEq, Repr

/-! ## The hold store (Tables 2-1 and 2-2) -/

/-- A held write (Table 2-1). The owning batch is the record whose list holds it. -/
structure Entry where
  addr  : Addr
  data  : Word
  lanes : Lanes
  deriving DecidableEq, Repr

/-- The state of a record in use (R5). -/
inductive BatchState where
  | opened | sealed | releasing
  deriving DecidableEq, Repr

/-- Why a batch was force-marked (R20). -/
inductive ForceReason where
  | stall | oversize | flush
  deriving DecidableEq, Repr

/-- Why a release was allowed to start (R70). -/
inductive Ground where
  | scheduled | free | forced
  deriving DecidableEq, Repr

/-- A batch record in use (Table 2-2). A free record is `none` where records are kept. -/
structure BatchRecord where
  state    : BatchState
  window   : WindowIdx
  /-- In batch order (R8). -/
  entries  : List Entry
  written  : Nat
  firstRow : Nat
  lastRow  : Nat
  seq      : Option (BitVec 16)
  ordinal  : Option (BitVec 32)
  mark     : Option ForceReason
  ground   : Option Ground
  late     : Bool
  deriving DecidableEq, Repr

/-! ## The scan tracker (Tables 4-2 and 4-3) -/

/-- The timing values (R45). The timing is set when `lines`, which is T, is present. -/
structure Timing where
  lines       : Option Nat
  firstLine   : Nat
  active      : Nat
  rate        : Nat
  share       : Nat
  stallLimit  : Nat
  supervision : Nat
  deriving DecidableEq, Repr

/-- How far the tracker trusts its count (R50). -/
inductive TrackerState where
  | lost | acquire | locked
  deriving DecidableEq, Repr

/-- The tracker (Table 4-3). -/
structure Tracker where
  state        : TrackerState
  line         : Option Nat
  overrun      : Bool
  frameCounter : BitVec 16
  /-- The supervision timer: the microseconds left, none while it is stopped (R57). -/
  supervision  : Option Nat
  deriving DecidableEq, Repr

/-! ## The release engine (Table 5-1) -/

/-- The part of a release the engine is in (R61). -/
inductive EnginePhase where
  | idle | entries | receipt
  deriving DecidableEq, Repr

/-- The engine's claim at the downstream port (R61). -/
inductive EngineWrite where
  | none | waiting | inFlight
  deriving DecidableEq, Repr

/-- The release engine (R61). -/
structure Engine where
  phase     : EnginePhase
  releasing : Option RecordIdx
  write     : EngineWrite
  frameByte : Option Byte
  deriving DecidableEq, Repr

/-! ## The downstream port (Table 8-1) -/

/-- The phase of the memory handshake (R118). -/
inductive PortPhase where
  | free | busy | recovering
  deriving DecidableEq, Repr

/-- A memory transaction, as a claim and once granted (R118, R119). Direct writes and memory reads are the upstream
port's, entry and receipt writes the release engine's. -/
inductive Claim where
  | directWrite (addr : Addr) (strobes : Lanes) (data : Word)
  | memoryRead (addr : Addr)
  | entryWrite (addr : Addr) (lanes : Lanes) (data : Word)
  | receiptWrite (addr : Addr) (data : Word)
  deriving DecidableEq, Repr

/-- The downstream port (R118). -/
structure DownstreamPort where
  phase         : PortPhase
  transaction   : Option Claim
  upstreamClaim : Option Claim
  releaseClaim  : Option Claim
  passedOver    : Nat
  /-- The level of DRDY, which the memory drives (R119, R125). -/
  drdy          : Bool
  deriving DecidableEq, Repr

/-! ## The mode controller (Table 9-1) -/

/-- The operating mode (R128). -/
inductive Mode where
  | bypass | active | draining
  deriving DecidableEq, Repr

/-! ## The incident unit (Table 10-1) -/

/-- The kinds of incident (R152). -/
inductive IncidentKind where
  | late | forced | stallExpired | geometry | syncLost | discard
  deriving DecidableEq, Repr

/-- The detail of an incident (R152). -/
inductive Detail where
  | force (reason : ForceReason)
  | cause (cause : Cause)
  | dropped (entries : Nat)
  deriving DecidableEq, Repr

/-- An incident record (Table 10-3). -/
structure Incident where
  kind   : IncidentKind
  window : Option WindowIdx
  seq    : Option (BitVec 16)
  line   : Option Nat
  frame  : BitVec 16
  detail : Option Detail
  deriving DecidableEq, Repr

/-- The incident unit (R147). A flag or mask bit stands at its position of Table 11-7. -/
structure IncidentUnit where
  flags   : BitVec 14
  mask    : BitVec 14
  /-- Oldest first. -/
  queue   : List Incident
  dropped : Nat
  deriving DecidableEq, Repr

/-! ## The service link (Table 11-1) -/

/-- The status codes (Table 11-4). -/
inductive StatusCode where
  | ok | fresh | already | busy | state | range | overlap | empty | check | length | unknown
  deriving DecidableEq, Repr

/-- The one stored response; its length and check byte follow from these (R158, R161). -/
structure Response where
  status  : StatusCode
  payload : List Byte
  deriving DecidableEq, Repr

/-- The service link (R158). -/
structure Link where
  inProgress  : Bool
  bits        : Nat
  /-- The bits of the current byte received so far. -/
  current     : Byte
  byteCount   : Nat
  stored      : List Byte
  response    : Response
  outPosition : Nat
  /-- Falling edges of SCK since the out position last moved. -/
  outBits     : Nat
  deriving DecidableEq, Repr

/-- The link with no frame in progress (R158, R172). -/
def idleLink (response : Response) : Link :=
  ⟨false, 0, 0, 0, [], response, 0, 0⟩

/-! ## The whole part -/

/-- The frame memory's bytes that the part's writes have put there. The key of lane i of word w is 4 w + i. -/
abbrev Memory := List Host.Cell

/-- The state of the part. -/
structure State where
  upstream      : UpstreamPort
  live          : Vector WindowRecord 8
  staged        : Vector WindowRecord 8
  windows       : Vector WindowState 8
  records       : Vector (Option BatchRecord) 16
  /-- The seal ordinal counter (R7). -/
  sealOrdinal   : BitVec 32
  timing        : Timing
  tracker       : Tracker
  engine        : Engine
  port          : DownstreamPort
  mode          : Mode
  applyPending  : Bool
  incidents     : IncidentUnit
  link          : Link
  /-- RSTn is asserted (R145). -/
  resetAsserted : Bool
  memory        : Memory
  /-- The MODEL's own: how many free values have been taken (logs 5, 6, 8). -/
  freeIndex     : Nat
  /-- The commands waiting, first in, first out. -/
  pending       : List Instr
  deriving DecidableEq, Repr

/-- The faults of the part: there are none. R86: "The upstream port has no error response. No write or read is refused";
a link frame that cannot be carried out is answered with a status (Table 11-4). No meaning raises one; safe. -/
inductive Fault where
  deriving DecidableEq, Repr

/-- The refusals. -/
inductive Refusal where
  /-- Raised by an arm of `exec` whose row has no meaning yet, and by nothing else; no arm raises it now. Safe. -/
  | notModelled (mnemonic : String)
  deriving DecidableEq, Repr

/-- What a meaning answers. -/
abbrev Result := Host.Outcome State Fault Refusal

/-- Table 6-1 after the reset line, with the stall timer stopped (R104) and URDY withdrawn (R86). -/
def UpstreamPort.reset : UpstreamPort :=
  ⟨none, .idle, none, none, none, false, none⟩

/-- Table 3-2 after the reset line. -/
def WindowState.reset : WindowState :=
  ⟨none, [], 0, 0, 0, 0, false⟩

/-- Table 4-2 after the reset line: T is unset. -/
def Timing.reset : Timing :=
  ⟨none, 0, 0, Config.resetRate, Config.resetShare, Config.resetStallLimit, Config.resetSupervision⟩

/-- Table 4-3 after the reset line. -/
def Tracker.reset : Tracker :=
  ⟨.lost, none, false, 0, none⟩

/-- Table 5-1 after the reset line, and after RESTART. -/
def Engine.reset : Engine :=
  ⟨.idle, none, .none, none⟩

/-- Table 8-1 after the reset line, with the given level of DRDY. -/
def DownstreamPort.reset (drdy : Bool) : DownstreamPort :=
  ⟨.free, none, none, none, 0, drdy⟩

/-- Table 10-1 after the reset line. -/
def IncidentUnit.reset : IncidentUnit :=
  ⟨0, 0, [], 0⟩

/-- The response after the reset line and after RESTART (R158, R172). -/
def freshResponse : Response :=
  ⟨.fresh, []⟩

/-- The part right after the reset line, RSTn withdrawn again (R145), with DRDY withdrawn (DESIGN CHOICE, log 7) and
no free value taken (DESIGN CHOICE, log 8). -/
def State.reset : State where
  upstream := UpstreamPort.reset
  live := Vector.replicate 8 offRecord
  staged := Vector.replicate 8 offRecord
  windows := Vector.replicate 8 WindowState.reset
  records := Vector.replicate 16 none
  sealOrdinal := 0
  timing := Timing.reset
  tracker := Tracker.reset
  engine := Engine.reset
  port := DownstreamPort.reset false
  mode := .bypass
  applyPending := false
  incidents := IncidentUnit.reset
  link := idleLink freshResponse
  resetAsserted := false
  memory := []
  freeIndex := 0
  pending := []

end Sys2Proof.Machine
end

