-- ==== Sys2Proof/Machine/Operands.lean ====
section
/-! DEFINITION. The forms in which values reach and leave the part: lanes of a word, the fields of a link request and of
its response (section 11.7), the check byte (R161), and the judgement of a frame (R162). -/

namespace Sys2Proof.Machine

/-! ## Lanes -/

/-- The bits of a word that lie in the lanes of a mask. -/
def laneBits (m : Lanes) : Word :=
  (if m.getLsbD 3 then (0xFF : Byte) else 0) ++ (if m.getLsbD 2 then (0xFF : Byte) else 0) ++
    (if m.getLsbD 1 then (0xFF : Byte) else 0) ++ (if m.getLsbD 0 then (0xFF : Byte) else 0)

/-- `new` in the lanes of the mask, `old` in the others (R9, R119). -/
def mergeLanes (old new : Word) (m : Lanes) : Word :=
  (old &&& ~~~laneBits m) ||| (new &&& laneBits m)

/-- The byte of a word in lane i; lane 0 is the least significant (section 1.7). -/
def laneByte (w : Word) (i : Fin 4) : Byte :=
  w.extractLsb' (8 * i.val) 8

/-- All four lanes. -/
def allLanes : Lanes := 0xF

/-! ## Bytes of the link: most significant first (R160, R173) -/

def be16 (x : BitVec 16) : List Byte :=
  [x.extractLsb' 8 8, x.extractLsb' 0 8]

def be24 (x : BitVec 24) : List Byte :=
  [x.extractLsb' 16 8, x.extractLsb' 8 8, x.extractLsb' 0 8]

def byteOf (n : Nat) : Byte :=
  BitVec.ofNat 8 n

/-- yes/no, present/absent, set/unset (Table 11-6). -/
def boolByte (b : Bool) : Byte :=
  if b then 1 else 0

/-- SET_TIMING's payload (Table 11-11). -/
def timingPayload (v : TimingFields) : List Byte :=
  be16 v.lines ++ be16 v.firstLine ++ be16 v.active ++ [v.rate, v.share] ++ be16 v.stallLimit ++ be16 v.supervision

/-- The eighteen bytes of a window record (Table 11-12). -/
def recordPayload (f : RecordFields) : List Byte :=
  [f.policy] ++ be24 f.base ++ be16 f.pitch ++ be16 f.rows ++ be16 f.firstRow ++ be24 f.commitOffset ++
    [f.receiptPresent] ++ be24 f.receipt ++ [f.idleSeal]

/-! ## Codes (Tables 11-4 and 11-6) -/

def statusByte : StatusCode → Byte
  | .ok => 0x00 | .fresh => 0x01 | .already => 0x02 | .busy => 0x03 | .state => 0x04 | .range => 0x05
  | .overlap => 0x06 | .empty => 0x07 | .check => 0x10 | .length => 0x11 | .unknown => 0x12

def modeByte : Mode → Byte
  | .bypass => 0 | .active => 1 | .draining => 2

def trackerByte : TrackerState → Byte
  | .lost => 0 | .acquire => 1 | .locked => 2

def causeCode : Cause → Nat
  | .a => 1 | .b => 2 | .c => 3

def policyByte : Policy → Byte
  | .off => 0 | .direct => 1 | .chase => 2 | .frame => 3

/-- The policy a code names; a code above 3 names none (R169). -/
def policyOf (code : BitVec 8) : Option Policy :=
  match code.toNat with
  | 0 => some .off
  | 1 => some .direct
  | 2 => some .chase
  | 3 => some .frame
  | _ => none

def kindByte : IncidentKind → Byte
  | .late => 0x01 | .forced => 0x02 | .stallExpired => 0x03 | .geometry => 0x04 | .syncLost => 0x05 | .discard => 0x06

def reasonCode : ForceReason → Nat
  | .stall => 1 | .oversize => 2 | .flush => 3

/-- The detail field of an incident record on the link (Table 11-14). -/
def detailCode : Detail → BitVec 16
  | .force r => BitVec.ofNat 16 (reasonCode r)
  | .cause why => BitVec.ofNat 16 (causeCode why)
  | .dropped n => BitVec.ofNat 16 n

/-! ## Requests as values -/

/-- The index a request byte names, none above 7 (R36, R38, R44). -/
def windowOf (index : BitVec 8) : Option WindowIdx :=
  if h : index.toNat < 8 then some ⟨index.toNat, h⟩ else none

/-- The windows a window set names, in ascending index (Table 11-8). -/
def windowsOf (set : BitVec 8) : List WindowIdx :=
  (List.finRange 8).filter fun W => set.getLsbD W.val

/-- R47 step 2: every value lies in its range of Table 4-2, F and A judged against the T and F of the request. -/
def timingInRange (v : TimingFields) : Bool :=
  decide (8 ≤ v.lines.toNat) && decide (v.lines.toNat ≤ 4096) && decide (v.firstLine.toNat < v.lines.toNat) &&
    decide (1 ≤ v.active.toNat) && decide (v.active.toNat + v.firstLine.toNat ≤ v.lines.toNat) &&
    decide (1 ≤ v.rate.toNat) && decide (1 ≤ v.share.toNat) && decide (v.share.toNat ≤ 15) &&
    decide (1 ≤ v.supervision.toNat)

/-- The timing values a request carries (R47). -/
def timingOf (v : TimingFields) : Timing where
  lines := some v.lines.toNat
  firstLine := v.firstLine.toNat
  active := v.active.toNat
  rate := v.rate.toNat
  share := v.share.toNat
  stallLimit := v.stallLimit.toNat
  supervision := v.supervision.toNat

/-- R36 step 4 with R169's receipt-present code: the fields of a record whose policy is not OFF are in range. -/
def recordInRange (f : RecordFields) : Bool :=
  decide (1 ≤ f.pitch.toNat) && decide (f.pitch.toNat ≤ 4096) && decide (1 ≤ f.rows.toNat) &&
    decide (f.rows.toNat ≤ 4096) && decide (f.firstRow.toNat ≤ 4095) &&
    decide (f.commitOffset.toNat < f.pitch.toNat * f.rows.toNat) && decide (f.idleSeal.toNat ≤ 255) &&
    decide (f.base.toNat + f.pitch.toNat * f.rows.toNat ≤ 0x1000000) && decide (f.receiptPresent.toNat ≤ 1)

/-- The record that a request with policy `p`, not OFF, carries (R36, R169). -/
def recordOf (p : Policy) (f : RecordFields) : WindowRecord where
  policy := p
  base := f.base
  pitch := f.pitch.toNat
  rows := f.rows.toNat
  firstRow := f.firstRow.toNat
  commitOffset := f.commitOffset.toNat
  receipt := if f.receiptPresent == 1 then some f.receipt else none
  idleSeal := f.idleSeal.toNat

/-- The record to stage, none where the request is refused with RANGE: an unknown policy code (R169), a field out of
range (R36 step 4). A record of policy OFF is stored as R37 gives, its other fields not looked at. -/
def stagedRecord (f : RecordFields) : Option WindowRecord :=
  match policyOf f.policy with
  | none => none
  | some .off => some offRecord
  | some p => if recordInRange f then some (recordOf p f) else none

/-! ## Response payloads -/

/-- IDENT's ten bytes (Table 11-9). -/
def identityPayload : List Byte :=
  be16 0x5557 ++ be16 0x0628 ++ [0x01, 0x08] ++ be16 0x0400 ++ [0x10, 0x08]

/-- GET_TIMING's thirteen bytes (Table 11-11); T is sent as 0 while unset (R49). -/
def timingResponse (t : Timing) : List Byte :=
  [boolByte t.lines.isSome] ++ be16 (BitVec.ofNat 16 (t.lines.getD 0)) ++ be16 (BitVec.ofNat 16 t.firstLine) ++
    be16 (BitVec.ofNat 16 t.active) ++ [byteOf t.rate, byteOf t.share] ++ be16 (BitVec.ofNat 16 t.stallLimit) ++
    be16 (BitVec.ofNat 16 t.supervision)

/-- GET_WINDOW's eighteen bytes (Table 11-12, R169). -/
def recordResponse (r : WindowRecord) : List Byte :=
  [policyByte r.policy] ++ be24 r.base ++ be16 (BitVec.ofNat 16 r.pitch) ++ be16 (BitVec.ofNat 16 r.rows) ++
    be16 (BitVec.ofNat 16 r.firstRow) ++ be24 (BitVec.ofNat 24 r.commitOffset) ++ [boolByte r.receipt.isSome] ++
    be24 (r.receipt.getD 0) ++ [byteOf r.idleSeal]

/-- The presence byte of an incident record (R174). -/
def presenceByte (i : Incident) : Byte :=
  byteOf ((if i.window.isSome then 1 else 0) + (if i.seq.isSome then 2 else 0) + (if i.line.isSome then 4 else 0) +
    (if i.detail.isSome then 8 else 0))

/-- The eleven bytes of an incident record (Table 11-14); an absent field is sent as 0 (R173). -/
def incidentPayload (i : Incident) : List Byte :=
  [kindByte i.kind, presenceByte i, byteOf ((i.window.map Fin.val).getD 0)] ++ be16 (i.seq.getD 0) ++
    be16 (BitVec.ofNat 16 (i.line.getD 0)) ++ be16 i.frame ++ be16 ((i.detail.map detailCode).getD 0)

/-! ## The check byte (R161) -/

/-- One of the eight shifts of the calculation. -/
def crcShift (reg : Byte) : Byte :=
  if reg.getLsbD 7 then (reg <<< 1) ^^^ 0x2F else reg <<< 1

/-- The register after one more byte. -/
def crcByte (reg b : Byte) : Byte :=
  crcShift (crcShift (crcShift (crcShift (crcShift (crcShift (crcShift (crcShift (reg ^^^ b))))))))

/-- The check byte over the given bytes, in order. -/
def checkByte (bytes : List Byte) : Byte :=
  bytes.foldl crcByte 0xFF

/-- The bytes of the response buffer: status, length, payload, check byte (R158, R161). -/
def responseBytes (r : Response) : List Byte :=
  let body := statusByte r.status :: byteOf r.payload.length :: r.payload
  body ++ [checkByte body]

/-! ## Commands and the judgement of a frame -/

/-- The commands of Table 11-3. -/
inductive Command where
  | ident | status | clearFlags | setMask | setTiming | getTiming | stageWindow | getWindow | apply | enable | disable
  | sealWindows | flush | windowStatus | takeIncident | restart
  deriving DecidableEq, Repr

def commandByte : Command → Byte
  | .ident => 0x41 | .status => 0x42 | .clearFlags => 0x43 | .setMask => 0x44 | .setTiming => 0x45 | .getTiming => 0x46
  | .stageWindow => 0x47 | .getWindow => 0x48 | .apply => 0x49 | .enable => 0x4A | .disable => 0x4B | .sealWindows => 0x4C
  | .flush => 0x4D | .windowStatus => 0x4E | .takeIncident => 0x4F | .restart => 0x5A

def commandList : List Command :=
  [.ident, .status, .clearFlags, .setMask, .setTiming, .getTiming, .stageWindow, .getWindow, .apply, .enable, .disable,
    .sealWindows, .flush, .windowStatus, .takeIncident, .restart]

/-- The command a command byte names. -/
def commandOf (b : Byte) : Option Command :=
  commandList.find? fun c => commandByte c == b

/-- The one payload length of each command (Table 11-3). -/
def payloadLength : Command → Nat
  | .ident | .status | .getTiming | .apply | .enable | .takeIncident | .restart => 0
  | .clearFlags | .setMask | .getWindow => 2
  | .setTiming => 12
  | .stageWindow => 19
  | .disable | .sealWindows | .flush | .windowStatus => 1

/-- A request as bytes: command, length, payload, check byte (R160). -/
def requestBytes (c : Command) (payload : List Byte) : List Byte :=
  let body := commandByte c :: byteOf payload.length :: payload
  body ++ [checkByte body]

/-- What a frame is judged to be (R162, and R164's length of each command). -/
inductive Judgement where
  | noBit | readBack | length | check | unknown | payloadLength | command (c : Command)
  deriving DecidableEq, Repr

/-- R162: the first case that applies to a frame of which the link stored these bytes, counted so many whole bytes (68
for more than 67), and holds so many bits of a further one. -/
def judge (stored : List Byte) (count bits : Nat) : Judgement :=
  if count == 0 && bits == 0 then .noBit
  else if stored[0]? == some 0x00 || stored[0]? == some 0xFF then .readBack
  else
    let l := (stored.getD 1 0).toNat
    if bits != 0 || decide (count < 3) || decide (64 < l) || count != l + 3 then .length
    else if stored.getD (l + 2) 0 != checkByte (stored.take (l + 2)) then .check
    else
      match commandOf (stored.getD 0 0) with
      | none => .unknown
      | some c => if l == payloadLength c then .command c else .payloadLength

/-- The bytes the link stores of a frame of these whole bytes (R158). -/
def storedOf (bytes : List Byte) : List Byte :=
  bytes.take Config.storedBytes

/-- The byte count the link holds after a frame's whole bytes: it stops at 68 (R158). -/
def countOf (bytes : List Byte) : Nat :=
  min bytes.length (Config.storedBytes + 1)

/-- The judgement of a frame of these whole bytes and `extra` further bits. -/
def judgeFrame (bytes : List Byte) (extra : Nat) : Judgement :=
  judge (storedOf bytes) (countOf bytes) extra

end Sys2Proof.Machine
end

