-- ==== Sys2Proof/Machine/Flags.lean ====
section
/-! DEFINITION. The event flags, their mask and ATTN, and the incident queue (chapter 09). -/

namespace Sys2Proof.Machine

/-- The fourteen event flags (Table 10-2). -/
inductive Flag where
  | incident | stall | drained | applied | locked | lost
  | retire (window : WindowIdx)
  deriving DecidableEq, Repr

/-- The bit of a flag in the flag set (Table 11-7). -/
def flagBit : Flag → Nat
  | .lost => 13 | .locked => 12 | .applied => 11 | .drained => 10 | .stall => 9 | .incident => 8
  | .retire W => W.val

/-- A flag as a set of one. -/
def flagMask (f : Flag) : BitVec 14 :=
  1 <<< flagBit f

/-- R148: a handed flag becomes set, or stays set. -/
def handFlag (f : Flag) (s : State) : State :=
  { s with incidents := { s.incidents with flags := s.incidents.flags ||| flagMask f } }

/-- Whether a flag is set. -/
def State.flagSet (s : State) (f : Flag) : Bool :=
  s.incidents.flags.getLsbD (flagBit f)

/-- R149: ATTN is asserted while some flag is set together with its mask bit. -/
def State.attn (s : State) : Bool :=
  s.incidents.flags &&& s.incidents.mask != 0

/-- R153, R154: the record joins the tail of the queue, or is dropped and counted when the queue is full. -/
def queueIncident (i : Incident) (u : IncidentUnit) : IncidentUnit :=
  if u.queue.length < Config.incidentDepth then { u with queue := u.queue ++ [i] }
  else { u with dropped := if u.dropped < Config.stopCount then u.dropped + 1 else u.dropped }

/-- An owner hands an incident (R152 to R154): it is queued or dropped, and INCIDENT is handed either way. -/
def handIncident (i : Incident) (s : State) : State :=
  handFlag .incident { s with incidents := queueIncident i s.incidents }

/-- The flag set of a request or of STATUS names no flag at bits 15 and 14 (R168). -/
def flagSetInRange (set : BitVec 16) : Bool :=
  !set.getLsbD 15 && !set.getLsbD 14

/-- The flags a flag set names (Table 11-7). -/
def flagsOf (set : BitVec 16) : BitVec 14 :=
  set.extractLsb' 0 14

/-- Flags as the link sends them: bits 15 and 14 are 0 (Table 11-7). -/
def flagWord (flags : BitVec 14) : BitVec 16 :=
  flags.setWidth 16

end Sys2Proof.Machine
end

