-- ==== Sys2Proof/Machine/Windows.lean ====
section
/-! DEFINITION. The window unit's answers: ranges, rows and lookups (R29, R33), and the checks of the staged table
(R39 to R43). -/

namespace Sys2Proof.Machine

def Policy.isCoherent : Policy → Bool
  | .chase | .frame => true
  | .off | .direct => false

/-- The number of words of a window's range. -/
def WindowRecord.size (r : WindowRecord) : Nat :=
  r.pitch * r.rows

/-- R29: a non-OFF window covers the words from base to base + pitch × rows − 1; an OFF one covers none (R30). -/
def WindowRecord.covers (r : WindowRecord) (w : Addr) : Bool :=
  r.policy != .off && decide (r.base.toNat ≤ w.toNat) && decide (w.toNat < r.base.toNat + r.size)

/-- R29: the offset of a covered word. -/
def WindowRecord.offset (r : WindowRecord) (w : Addr) : Nat :=
  w.toNat - r.base.toNat

/-- R29: the screen row of a covered word. -/
def WindowRecord.screenRow (r : WindowRecord) (w : Addr) : Nat :=
  r.firstRow + r.offset w / r.pitch

/-- R28, R29: whether a covered word is the window's commit word. -/
def WindowRecord.isCommit (r : WindowRecord) (w : Addr) : Bool :=
  r.offset w == r.commitOffset

/-- R33: the window of a table that covers a word, none when the word is unwindowed. -/
def lookupWindow (table : Vector WindowRecord 8) (w : Addr) : Option WindowIdx :=
  (List.finRange 8).find? fun W => table[W].covers w

/-- The coherent window of a table that covers a word (R87). -/
def coherentWindow (table : Vector WindowRecord 8) (w : Addr) : Option WindowIdx :=
  (lookupWindow table w).filter fun W => table[W].policy.isCoherent

/-- R40: two non-OFF windows overlap when some word lies in both ranges. -/
def WindowRecord.overlaps (a b : WindowRecord) : Bool :=
  a.policy != .off && b.policy != .off && decide (a.base.toNat < b.base.toNat + b.size) &&
    decide (b.base.toNat < a.base.toNat + a.size)

/-- R39 step 2 fails when two distinct indices overlap. -/
def tableOverlaps (table : Vector WindowRecord 8) : Bool :=
  (List.finRange 8).any fun V => (List.finRange 8).any fun W => V != W && table[V].overlaps table[W]

/-- R41: every non-OFF window fits an active area of `active` lines. -/
def tableFits (table : Vector WindowRecord 8) (active : Nat) : Bool :=
  (List.finRange 8).all fun W => table[W].policy == .off || decide (table[W].firstRow + table[W].rows ≤ active)

/-- R42: some coherent window's receipt address lies in a coherent window. -/
def receiptMisplaced (table : Vector WindowRecord 8) : Bool :=
  (List.finRange 8).any fun W => table[W].policy.isCoherent &&
    match table[W].receipt with
    | none => false
    | some a => (List.finRange 8).any fun V => table[V].policy.isCoherent && table[V].covers a

/-- R39: the status of the first step of the validity check that fails, none when all pass. -/
def checkTable (table : Vector WindowRecord 8) (t : Timing) : Option StatusCode :=
  if t.lines.isNone then some .state
  else if tableOverlaps table then some .overlap
  else if !tableFits table t.active then some .range
  else if receiptMisplaced table then some .overlap
  else none

/-- R43: the staged record at an index differs from the live one. -/
def State.differs (s : State) (W : WindowIdx) : Bool :=
  s.staged[W] != s.live[W]

/-- Replace the dynamic state of one window. -/
def State.setWindow (s : State) (W : WindowIdx) (d : WindowState) : State :=
  { s with windows := s.windows.set W.val d W.isLt }

/-- The dynamic state of every window, changed alike. -/
def State.mapWindows (s : State) (f : WindowIdx → WindowState → WindowState) : State :=
  { s with windows := Vector.ofFn fun W => f W s.windows[W] }

end Sys2Proof.Machine
end

