-- ==== Sys2Proof/Machine/Store.lean ====
section
/-! DEFINITION. The hold store: occupancy, lookups, opening, coalescing, appending, sealing and force marks (chapter 01,
and the oversize check of R66). -/

namespace Sys2Proof.Machine

/-- One event being taken: the state so far, and the reports made in it that are acted on once, at its end: to the
release engine (R68) and to the upstream port (R99). -/
structure Work where
  st       : State
  told     : Bool
  reported : Bool

/-- An event that has reported nothing yet. -/
def Work.start (s : State) : Work :=
  ⟨s, false, false⟩

/-- A change that reports nothing. -/
def Work.map (w : Work) (f : State → State) : Work :=
  { w with st := f w.st }

/-- Tell the release engine. -/
def Work.tell (w : Work) : Work :=
  { w with told := true }

/-- Report to the upstream port. -/
def Work.report (w : Work) : Work :=
  { w with reported := true }

/-! ## Records, slots and lookups -/

/-- Replace one batch record; `none` frees it (R5). -/
def State.setRecord (s : State) (r : RecordIdx) (b : Option BatchRecord) : State :=
  { s with records := s.records.set r.val b r.isLt }

/-- The entries of a record, none when it is free. -/
def recordEntries : Option BatchRecord → List Entry
  | none => []
  | some b => b.entries

/-- R2: the number of entries in the store, which is the number of slots taken. -/
def State.occupancy (s : State) : Nat :=
  (s.records.toList.map fun b => (recordEntries b).length).sum

/-- R6: the number of records in use. -/
def State.recordsInUse (s : State) : Nat :=
  s.records.toList.countP Option.isSome

/-- A slot is free (R2). -/
def State.slotFree (s : State) : Bool :=
  decide (s.occupancy < Config.slots)

/-- R6: the free record with the lowest index. -/
def State.freeRecord (s : State) : Option RecordIdx :=
  (List.finRange 16).find? fun r => s.records[r].isNone

/-- R24: the store holds no entry and no record is in use. -/
def State.storeEmpty (s : State) : Bool :=
  s.recordsInUse == 0 && s.occupancy == 0

/-- The releasing batch, when it belongs to window W. -/
def State.releasingOf (s : State) (W : WindowIdx) : Option RecordIdx :=
  s.engine.releasing.filter fun r => s.records[r].any fun b => b.window == W

/-- The batches of a window, newest first: open, sealed from the youngest, releasing (R27). -/
def State.batchesOf (s : State) (W : WindowIdx) : List RecordIdx :=
  s.windows[W].openBatch.toList ++ s.windows[W].sealedQueue.reverse ++ (s.releasingOf W).toList

/-- R141: a window has a batch when it has an open, a SEALED or a RELEASING one. -/
def State.hasBatch (s : State) (W : WindowIdx) : Bool :=
  !(s.batchesOf W).isEmpty

/-- The entry for a word in a batch. -/
def BatchRecord.find (b : BatchRecord) (w : Addr) : Option Entry :=
  b.entries.find? fun e => e.addr == w

/-- R27: the entries for a word, newest first, each with the record that holds it. A word that no coherent window covers
has none. -/
def State.heldFor (s : State) (w : Addr) : List (RecordIdx × Entry) :=
  match coherentWindow s.live w with
  | none => []
  | some W => (s.batchesOf W).filterMap fun r => (s.records[r].bind fun b => b.find w).map fun e => (r, e)

/-- R27: the lanes covered by entries, newest first, and in each covered lane the newest entry's byte. -/
def coverage : List Entry → Lanes × Word
  | [] => (0, 0)
  | e :: older => (e.lanes ||| (coverage older).1, mergeLanes (coverage older).2 e.data e.lanes)

/-- R27: the lookup of a word. -/
def State.lookup (s : State) (w : Addr) : Lanes × Word :=
  coverage ((s.heldFor w).map Prod.snd)

/-! ## Storing a held write (R8 to R11) -/

/-- R9: the write's lanes merged into an entry. -/
def Entry.coalesce (e : Entry) (lanes : Lanes) (data : Word) : Entry :=
  { e with data := mergeLanes e.data data lanes, lanes := e.lanes ||| lanes }

/-- R9, R10: the batch with the write of a word of screen row `row` coalesced or appended. -/
def BatchRecord.add (b : BatchRecord) (row : Nat) (w : Addr) (lanes : Lanes) (data : Word) : BatchRecord :=
  if (b.find w).isSome then
    { b with entries := b.entries.map fun e => if e.addr == w then e.coalesce lanes data else e }
  else
    { b with entries := b.entries ++ [⟨w, data, lanes⟩], firstRow := min b.firstRow row, lastRow := max b.lastRow row }

/-- R8, Table 2-2 at opening. -/
def openedBatch (W : WindowIdx) (row : Nat) (w : Addr) (lanes : Lanes) (data : Word) : BatchRecord where
  state := .opened
  window := W
  entries := [⟨w, data, lanes⟩]
  written := 0
  firstRow := row
  lastRow := row
  seq := none
  ordinal := none
  mark := none
  ground := none
  late := false

/-- R11: the store has what a held write of word w to window W needs: nothing when it coalesces, a slot when it appends,
a slot and a record when it opens a batch. -/
def State.canStore (s : State) (W : WindowIdx) (w : Addr) : Bool :=
  match s.windows[W].openBatch with
  | some r => (s.records[r].any fun b => (b.find w).isSome) || s.slotFree
  | none => s.freeRecord.isSome && s.slotFree

/-- The record that stores a held write of window W: its open batch, or the free record of the lowest index (R8). -/
def State.storeTarget (s : State) (W : WindowIdx) : Option RecordIdx :=
  match s.windows[W].openBatch with
  | some r => some r
  | none => s.freeRecord

/-- R8 to R10: what the storing of a held write makes of the record that takes it. -/
def addHeld (b : Option BatchRecord) (W : WindowIdx) (row : Nat) (w : Addr) (lanes : Lanes) (data : Word) : BatchRecord :=
  match b with
  | some b => b.add row w lanes data
  | none => openedBatch W row w lanes data

/-- R8 to R10: store a held write for which the store has what it needs. The window's idle count becomes 0. -/
def storeHeld (W : WindowIdx) (w : Addr) (lanes : Lanes) (data : Word) (s : State) : State :=
  match s.storeTarget W with
  | none => s
  | some r =>
    (s.setRecord r (some (addHeld s.records[r] W (s.live[W].screenRow w) w lanes data))).setWindow W
      { s.windows[W] with openBatch := some r, idle := 0 }

/-! ## The scan lines of a batch and the oversize check (R63, R66) -/

/-- la: the scan line of a batch's first row (R63). -/
def State.firstLineOf (s : State) (b : BatchRecord) : Nat :=
  s.timing.firstLine + b.firstRow

/-- lb: the scan line of a batch's last row (R63). -/
def State.lastLineOf (s : State) (b : BatchRecord) : Nat :=
  s.timing.firstLine + b.lastRow

/-- T; while the timing is unset no batch exists and T is not used (R45). -/
def Timing.total (t : Timing) : Nat :=
  t.lines.getD 0

/-- R66: the batch is too large for any gap the scan offers its window. -/
def State.oversize (s : State) (b : BatchRecord) : Bool :=
  let n := b.entries.length
  let la := s.firstLineOf b
  let lb := s.lastLineOf b
  let t := s.timing
  match s.live[b.window].policy with
  | .chase => decide (t.rate * (t.total - (lb - la + 1)) < n)
  | .frame =>
      if decide (0 < t.firstLine) || decide (t.active < t.total) then
        decide (t.rate * (la + (t.total - t.firstLine - t.active)) < n)
      else true
  | .off | .direct => false

/-! ## Force marks (R20, R21) -/

/-- R20: the first reason stays. -/
def BatchRecord.force (b : BatchRecord) (reason : ForceReason) : BatchRecord :=
  { b with mark := b.mark <|> some reason }

/-- Mark one record, if it is in use. -/
def markRecord (reason : ForceReason) (r : RecordIdx) (s : State) : State :=
  s.setRecord r (s.records[r].map fun b => b.force reason)

/-- A record in use that carries no force mark. -/
def State.unmarked (s : State) (r : RecordIdx) : Bool :=
  s.records[r].any fun b => b.mark.isNone

/-- Mark the given records; the release engine is told when a mark is newly set (R20). -/
def markAll (reason : ForceReason) (rs : List RecordIdx) (w : Work) : Work where
  st := rs.foldl (fun s r => markRecord reason r s) w.st
  told := w.told || rs.any w.st.unmarked
  reported := w.reported

/-- R21: the SEALED batches of its window that are older than a batch: those ahead of it in the sealed queue. -/
def State.olderThan (s : State) (W : WindowIdx) (r : RecordIdx) : List RecordIdx :=
  if s.windows[W].sealedQueue.contains r then s.windows[W].sealedQueue.takeWhile (· != r) else []

/-- R20, R21: force-mark a batch of window W, and with it the older SEALED batches of the window. -/
def forceMark (reason : ForceReason) (W : WindowIdx) (r : RecordIdx) (w : Work) : Work :=
  markAll reason (w.st.olderThan W r ++ [r]) w

/-! ## Sealing (R12 to R19) -/

/-- R12 steps 1 to 4 for the open batch `b` of window W in record `r`. -/
def sealRecord (W : WindowIdx) (r : RecordIdx) (b : BatchRecord) (s : State) : State :=
  let d := s.windows[W]
  { (s.setRecord r (some { b with state := .sealed, seq := some (d.lastSealed + 1), ordinal := some (s.sealOrdinal + 1) })).setWindow W
      { d with openBatch := none, lastSealed := d.lastSealed + 1, sealedQueue := d.sealedQueue ++ [r] } with
    sealOrdinal := s.sealOrdinal + 1 }

/-- R12 step 5: the oversize check made at the seal. -/
def oversizeCheck (W : WindowIdx) (r : RecordIdx) (b : BatchRecord) (w : Work) : Work :=
  if w.st.oversize b then forceMark .oversize W r w else w

/-- R12: seal window W's open batch, or leave the window as it is when it has none (R13). -/
def sealOpen (W : WindowIdx) (w : Work) : Work :=
  match w.st.windows[W].openBatch with
  | none => w
  | some r =>
    match w.st.records[r] with
    | none => w
    | some b => oversizeCheck W r b (w.map (sealRecord W r b)).tell

/-- Seal the open batches of the given windows, one after another (R12). -/
def sealAll (Ws : List WindowIdx) (w : Work) : Work :=
  Ws.foldl (fun w W => sealOpen W w) w

/-- The SEALED batches of the given windows, each window's oldest first. -/
def State.sealedOf (s : State) (Ws : List WindowIdx) : List RecordIdx :=
  Ws.flatMap fun W => s.windows[W].sealedQueue

/-- R7: X is older than Y when Y's ordinal less X's, modulo 2^32, lies between 1 and 2^31 − 1. -/
def olderOrdinal (x y : BitVec 32) : Bool :=
  decide (1 ≤ (y - x).toNat) && decide ((y - x).toNat ≤ 2 ^ 31 - 1)

/-- The seal ordinal of a record, 0 for one that has none. -/
def State.ordinalOf (s : State) (r : RecordIdx) : BitVec 32 :=
  (s.records[r].bind fun b => b.ordinal).getD 0

/-- R7: the oldest of some sealed batches by seal ordinal. -/
def State.oldest (s : State) : List RecordIdx → Option RecordIdx
  | [] => none
  | r :: rs =>
    match s.oldest rs with
    | none => some r
    | some q => if olderOrdinal (s.ordinalOf q) (s.ordinalOf r) then some q else some r

/-! ## Emptying the store (R25, R26) -/

/-- Drop every entry, free every record, and leave every window without an open batch and with an empty queue. -/
def dropAll (s : State) : State :=
  { s.mapWindows fun _ d => { d with openBatch := none, sealedQueue := [] } with
    records := Vector.replicate 16 none }

end Sys2Proof.Machine
end

