-- ==== Sys2Proof/Machine/Port.lean ====
section
/-! DEFINITION. The downstream port: its handshake, claims and arbiter (chapter 07), and the frame memory beyond it as far
as the part's own writes have set it. -/

namespace Sys2Proof.Machine

/-! ## The frame memory -/

/-- The key of lane i of word w. -/
def laneKey (w : Addr) (i : Nat) : Nat :=
  4 * w.toNat + i

/-- Whether the keys rise strictly from a bound on. -/
def risesFrom : Nat → Memory → Bool
  | _, [] => true
  | low, c :: rest => decide (low ≤ c.1) && risesFrom (c.1 + 1) rest

/-- The canonical form of the memory: keys strictly rising, so equal memories are equal lists. -/
def Memory.wf (m : Memory) : Bool :=
  risesFrom 0 m

/-- The byte the part's writes left at a key, none where none has been written: there the memory's content is its own. -/
def Memory.read (m : Memory) (k : Nat) : Option Byte :=
  (m.find? fun c => c.1 == k).map Prod.snd

/-- Write one byte at a key. -/
def Memory.put (m : Memory) (k : Nat) (b : Byte) : Memory :=
  match m with
  | [] => [(k, b)]
  | c :: rest => if k < c.1 then (k, b) :: c :: rest else if k = c.1 then (k, b) :: rest else c :: Memory.put rest k b

/-- Write lane i of a word when it is strobed. -/
def writeLane (w : Addr) (lanes : Lanes) (data : Word) (i : Fin 4) (m : Memory) : Memory :=
  if lanes.getLsbD i.val then m.put (laneKey w i.val) (laneByte data i) else m

/-- R119: a write changes memory in its strobed lanes and leaves the other lanes as they were. -/
def writeWord (w : Addr) (lanes : Lanes) (data : Word) (m : Memory) : Memory :=
  writeLane w lanes data 3 (writeLane w lanes data 2 (writeLane w lanes data 1 (writeLane w lanes data 0 m)))

/-! ## Transactions -/

/-- The word address a transaction puts on DA. -/
def Claim.addr : Claim → Addr
  | .directWrite a _ _ | .memoryRead a | .entryWrite a _ _ | .receiptWrite a _ => a

/-- The strobes a transaction puts on DBS (R119). -/
def Claim.strobes : Claim → Lanes
  | .directWrite _ m _ | .entryWrite _ m _ => m
  | .memoryRead _ | .receiptWrite _ _ => allLanes

/-- The data a write puts on DD; a read puts none. -/
def Claim.data : Claim → Option Word
  | .directWrite _ _ d | .entryWrite _ _ d | .receiptWrite _ d => some d
  | .memoryRead _ => none

/-- The memory after a transaction whose given lanes reach it. -/
def Claim.store (c : Claim) (lanes : Lanes) (m : Memory) : Memory :=
  match c.data with
  | none => m
  | some d => writeWord c.addr lanes d m

/-- DREQ is asserted while a transaction is presented (R119). -/
def State.dreq (s : State) : Bool :=
  s.port.phase == .busy

/-! ## The arbiter (R122) -/

/-- Grant the upstream claim `c`, with the count after the grant. -/
def grantUpstream (c : Claim) (count : Nat) (s : State) : State :=
  { s with port :=
      { s.port with phase := .busy, transaction := some c, upstreamClaim := none, passedOver := count } }

/-- Grant the release claim `c`; the engine's write is then IN FLIGHT (R71). -/
def grantRelease (c : Claim) (s : State) : State :=
  { s with
    port := { s.port with phase := .busy, transaction := some c, releaseClaim := none, passedOver := 0 }
    engine := { s.engine with write := .inFlight } }

/-- R122: the choice among the claims that wait while the phase is FREE. -/
def arbitrate (s : State) : State :=
  match s.port.upstreamClaim, s.port.releaseClaim with
  | none, none => s
  | some u, none => grantUpstream u 0 s
  | none, some r => grantRelease r s
  | some u, some r => if s.port.passedOver < s.timing.share then grantUpstream u (s.port.passedOver + 1) s else grantRelease r s

/-- R122: the port grants a waiting claim whenever its phase is FREE. -/
def grant (s : State) : State :=
  if s.port.phase == .free then arbitrate s else s

/-- R121: the upstream port places its claim. -/
def placeUpstream (c : Claim) (s : State) : State :=
  grant { s with port := { s.port with upstreamClaim := some c } }

/-- R121: the release engine places its claim, and its write is WAITING (R61). -/
def placeRelease (c : Claim) (s : State) : State :=
  grant { s with
    port := { s.port with releaseClaim := some c }
    engine := { s.engine with write := .waiting } }

/-- R127: a release claim that waits is withdrawn, and the passed-over count becomes 0. -/
def withdrawRelease (s : State) : State :=
  if s.port.releaseClaim.isSome then { s with port := { s.port with releaseClaim := none, passedOver := 0 } } else s

/-- R119 step 2: the memory acknowledges the transaction `c`. DREQ is withdrawn, the phase becomes RECOVERING, and a write
has changed memory in its strobed lanes. -/
def acknowledge (c : Claim) (s : State) : State :=
  { s with
    port := { s.port with phase := .recovering, transaction := none, drdy := true }
    memory := c.store c.strobes s.memory }

end Sys2Proof.Machine
end

