-- ==== Sys2Proof/Machine/Engine.lean ====
section
/-! DEFINITION. The release engine: eligibility, choice and start of a batch, the late check, and the receipt word
(chapter 04, R175). -/

namespace Sys2Proof.Machine

/-- The line that an incident carries: present when the tracker is ACQUIRE or LOCKED (R84, R108, R138). -/
def Tracker.reportedLine (t : Tracker) : Option Nat :=
  match t.state with
  | .lost => none
  | .acquire | .locked => t.line

/-! ## Eligibility (R63 to R65) -/

/-- R64: the scan is on the batch's rows. -/
def inBand (la lb line : Nat) : Bool :=
  decide (la ≤ line) && decide (line ≤ lb)

/-- R64: the number of line events until the scan reaches line la, from a line outside the band. -/
def distance (total la line : Nat) : Nat :=
  if line < la then la - line else total - line + la

/-- R64: band exclusion, distance and rate, for CHASE. -/
def State.clears (s : State) (b : BatchRecord) (line : Nat) : Bool :=
  !inBand (s.firstLineOf b) (s.lastLineOf b) line &&
    decide (b.entries.length ≤ s.timing.rate * distance s.timing.total (s.firstLineOf b) line)

/-- R65: the line lies in blanking. -/
def State.blanking (s : State) (line : Nat) : Bool :=
  decide (line < s.timing.firstLine) || decide (s.timing.firstLine + s.timing.active ≤ line)

/-- The LOCKED lines of Table 5-2. -/
def State.onSchedule (s : State) (b : BatchRecord) (line : Nat) : Bool :=
  match s.live[b.window].policy with
  | .chase => s.clears b line
  | .frame => s.clears b line && s.blanking line
  | .off | .direct => false

/-- Table 5-2 for a batch. -/
def State.batchEligible (s : State) (b : BatchRecord) : Bool :=
  if b.mark.isSome then true
  else
    match s.tracker.state with
    | .lost => true
    | .acquire => false
    | .locked => s.tracker.line.any fun line => s.onSchedule b line

/-- Table 5-2 for the batch of a record. -/
def State.eligible (s : State) (r : RecordIdx) : Bool :=
  s.records[r].any fun b => s.batchEligible b

/-! ## Evaluation and start (R68 to R70) -/

/-- R63: the heads of the sealed queues. -/
def State.candidates (s : State) : List RecordIdx :=
  (List.finRange 8).filterMap fun W => s.windows[W].sealedQueue.head?

/-- R69: the oldest eligible candidate, force-marked ones first. -/
def State.choice (s : State) : Option RecordIdx :=
  let eligible := s.candidates.filter s.eligible
  let marked := eligible.filter fun r => !s.unmarked r
  s.oldest (if marked.isEmpty then eligible else marked)

/-- R70 step 1: the ground. -/
def State.groundOf (s : State) (b : BatchRecord) : Ground :=
  if b.mark.isSome then .forced else if s.tracker.state == .lost then .free else .scheduled

/-- R84: the FORCED incident of a batch at its start. -/
def State.forcedIncident (s : State) (b : BatchRecord) : Incident where
  kind := .forced
  window := some b.window
  seq := b.seq
  line := s.tracker.reportedLine
  frame := s.tracker.frameCounter
  detail := b.mark.map .force

/-- R71: the engine requests the write of the first entry of a list. -/
def requestEntry (entries : List Entry) (s : State) : State :=
  match entries with
  | [] => s
  | e :: _ => placeRelease (.entryWrite e.addr e.lanes e.data) s

/-- R70 steps 2 and 3 with R22: the batch leaves its queue and becomes the releasing batch. -/
def takeBatch (r : RecordIdx) (b : BatchRecord) (s : State) : State :=
  { (s.setRecord r (some { b with state := .releasing, ground := some (s.groundOf b) })).setWindow b.window
      { s.windows[b.window] with sealedQueue := s.windows[b.window].sealedQueue.erase r } with
    engine := ⟨.entries, some r, .none, none⟩ }

/-- R70: the FORCED incident of a batch that starts with ground FORCED. -/
def reportForced (b : BatchRecord) (s : State) : State :=
  if b.mark.isSome then handIncident (s.forcedIncident b) s else s

/-- R70: start the batch of record r. -/
def startBatch (r : RecordIdx) (s : State) : State :=
  match s.records[r] with
  | none => s
  | some b => requestEntry b.entries (reportForced b (takeBatch r b s))

/-- R68: an evaluation, made only while the engine is IDLE. -/
def evaluate (s : State) : State :=
  if s.engine.phase == .idle then
    match s.choice with
    | none => s
    | some r => startBatch r s
  else s

/-! ## The late check (R76) -/

/-- R76: the releasing batch is found late at a line. -/
def State.foundLate (s : State) (b : BatchRecord) (line : Nat) : Bool :=
  !b.late && inBand (s.firstLineOf b) (s.lastLineOf b) line && decide (1 ≤ b.written) && !b.entries.isEmpty

/-- R84: the LATE incident. -/
def State.lateIncident (s : State) (b : BatchRecord) (line : Nat) : Incident where
  kind := .late
  window := some b.window
  seq := b.seq
  line := some line
  frame := s.tracker.frameCounter
  detail := none

/-- R76 for the releasing batch `b` of record r, when the line event leaves `line`. -/
def checkLate (r : RecordIdx) (b : BatchRecord) (line : Nat) (s : State) : State :=
  if s.foundLate b line then handIncident (s.lateIncident b line) (s.setRecord r (some { b with late := true })) else s

/-- R76, R77: the late check of a line event, made with the tracker as the event leaves it, in LOCKED and while the engine
writes entries. -/
def lateCheck (s : State) : State :=
  if s.tracker.state == .locked && s.engine.phase == .entries then
    match s.engine.releasing, s.tracker.line with
    | some r, some line =>
      match s.records[r] with
      | none => s
      | some b => checkLate r b line s
    | _, _ => s
  else s

/-! ## The receipt word (R78, R175) -/

def groundCode : Option Ground → BitVec 2
  | none | some .scheduled => 0
  | some .free => 1
  | some .forced => 2

def markCode : Option ForceReason → BitVec 2
  | none => 0
  | some reason => BitVec.ofNat 2 (reasonCode reason)

/-- Table 11-15. -/
def receiptWord (b : BatchRecord) (frameByte : Byte) : Word :=
  b.seq.getD 0 ++ frameByte ++ groundCode b.ground ++ BitVec.ofBool b.late ++ markCode b.mark ++ BitVec.ofNat 3 b.window.val

end Sys2Proof.Machine
end

