-- ==== Sys2Proof/Machine/Ops.lean ====
section
/-! DEFINITION. The operations that several commands share and that reach several blocks: the classification of a write
(Table 6-2), the re-examination of a waiting one (R99, R100), the end of an event (R68, R99), the completion of an apply
(R143) and of a drain (R135), and retirement (R80). -/

namespace Sys2Proof.Machine

/-! ## Classification of writes (R87 to R89) -/

/-- What becomes of a write with at least one strobe (Table 6-2). -/
inductive Treatment where
  | direct
  | held (window : WindowIdx)
  | wait (cause : Cause) (window : WindowIdx)
  deriving DecidableEq, Repr

/-- Table 6-2 for a write of word w. -/
def State.classify (s : State) (w : Addr) : Treatment :=
  match s.mode with
  | .bypass => .direct
  | .active =>
    match coherentWindow s.live w with
    | none => .direct
    | some W => if s.windows[W].closing then .wait .c W else if s.canStore W w then .held W else .wait .a W
  | .draining =>
    match coherentWindow s.live w with
    | none => .direct
    | some W => if s.windows[W].closing then .wait .c W else if (s.heldFor w).isEmpty then .direct else .wait .b W

/-! ## Completion at the upstream port -/

/-- R86: the transaction completes. The port gives URDY, with the answer for a read, and returns to IDLE; a wait ends, and
its timer stops (R100, R106). -/
def completeUpstream (answer : Option Word) (s : State) : State :=
  { s with upstream := ⟨none, .idle, none, none, none, true, answer⟩ }

/-- R92, R94: the transaction goes to memory; a wait ends, and its timer stops (R100, R106). -/
def sendUpstream (t : UpTransaction) (phase : UpPhase) (claim : Claim) (s : State) : State :=
  placeUpstream claim { s with upstream := ⟨some t, phase, none, none, none, false, none⟩ }

/-- R14: in ACTIVE, a stored write to the commit word seals the open batch that received it. -/
def commitSeal (W : WindowIdx) (addr : Addr) (w : Work) : Work :=
  if w.st.mode == .active && w.st.live[W].isCommit addr then sealOpen W w else w

/-- R91: a held write is stored and completes; the seal of a commit write follows in the same step. -/
def storeWrite (W : WindowIdx) (addr : Addr) (lanes : Lanes) (data : Word) (w : Work) : Work :=
  commitSeal W addr (w.map fun s => completeUpstream none (storeHeld W addr lanes data s))

/-- R92: a direct write is claimed at the downstream port. -/
def sendDirect (addr : Addr) (lanes : Lanes) (data : Word) (s : State) : State :=
  sendUpstream (.write addr lanes data) .direct (.directWrite addr lanes data) s

/-! ## Waits (R98 to R100) -/

/-- R100, R106: the cause and the window a re-examination records; the timer is not restarted. -/
def recordCause (why : Cause) (W : WindowIdx) (s : State) : State :=
  { s with upstream := { s.upstream with cause := some why, stallWindow := some W } }

/-- R105: the stall timer started with a limit; with the limit 0 it stays stopped. -/
def startedTimer (limit : Nat) : Option Nat :=
  if limit == 0 then none else some limit

/-- R98: a wait begins. -/
def beginWait (t : UpTransaction) (why : Cause) (W : WindowIdx) (s : State) : State :=
  handFlag .stall
    { s with upstream := ⟨some t, .wait, some why, some W, startedTimer s.timing.stallLimit, false, none⟩ }

/-- R100: a write classified afresh. -/
def reclassify (addr : Addr) (lanes : Lanes) (data : Word) (w : Work) : Work :=
  match w.st.classify addr with
  | .direct => w.map (sendDirect addr lanes data)
  | .held W => storeWrite W addr lanes data w
  | .wait why W => w.map (recordCause why W)

/-- R99, R100: the re-examination of a waiting write, if there is one. -/
def reexamine (w : Work) : Work :=
  if w.st.upstream.phase == .wait then
    match w.st.upstream.transaction with
    | some (.write addr lanes data) => reclassify addr lanes data w
    | some (.read _ _) | none => w
  else w

/-- The end of an event: one re-examination if anything was reported to the upstream port (R99), after the event's
changes; then one evaluation if the release engine was told anything (R68), by the event or by the re-examination. -/
def settle (w : Work) : State :=
  let w := if w.reported then reexamine w else w
  if w.told then evaluate w.st else w.st

/-! ## Applies (R142, R143) -/

/-- R143: the staged table becomes live, closing marks and apply-pending end, APPLIED is handed. -/
def installStaged (s : State) : State :=
  handFlag .applied
    { s.mapWindows fun _ d => { d with closing := false } with live := s.staged, applyPending := false }

/-- R143: a pending apply completes, and the completion is reported to the upstream port. -/
def completeApply (w : Work) : Work :=
  (w.map installStaged).report

/-- No closing window has a batch (R142). -/
def State.closingEmpty (s : State) : Bool :=
  (List.finRange 8).all fun W => !s.windows[W].closing || !s.hasBatch W

/-- R142 point 1: an apply that is pending completes if no closing window has a batch. -/
def applyIfEmpty (w : Work) : Work :=
  if w.st.applyPending && w.st.closingEmpty then completeApply w else w

/-- R142 point 2: the same, checked while the tracker is LOST. -/
def applyIfLost (w : Work) : Work :=
  if w.st.tracker.state == .lost then applyIfEmpty w else w

/-- R142 point 3: a pending apply completes when the mode becomes BYPASS. -/
def applyAtBypass (w : Work) : Work :=
  if w.st.applyPending then completeApply w else w

/-! ## Modes -/

/-- R130: the new mode, reported to the upstream port and the release engine at the end of the event. -/
def changeMode (m : Mode) (w : Work) : Work :=
  (w.map fun s => { s with mode := m }).tell.report

/-- R135: a drain completes. -/
def completeDrain (w : Work) : Work :=
  (applyAtBypass (changeMode .bypass w)).map (handFlag .drained)

/-- R135, R24: the store reports its emptiness to the mode controller; in DRAINING the drain completes. -/
def drainIfEmpty (w : Work) : Work :=
  if w.st.mode == .draining && w.st.storeEmpty then completeDrain w else w

/-! ## Retirement (R80) -/

/-- R80 steps 1 to 4, and the RETIRE flag. -/
def retireRecord (r : RecordIdx) (b : BatchRecord) (s : State) : State :=
  let d := s.windows[b.window]
  handFlag (.retire b.window)
    { (s.setRecord r none).setWindow b.window
        { d with lastRetired := b.seq.getD d.lastRetired, retired := d.retired + 1 } with
      engine := Engine.reset }

/-- R80: the releasing batch `b` of record r retires. The freed record is reported to the upstream port (R24), the release
engine is to evaluate, and the mode controller completes what the retirement lets it complete. -/
def retire (r : RecordIdx) (b : BatchRecord) (w : Work) : Work :=
  drainIfEmpty (applyIfLost ((w.map (retireRecord r b)).tell.report))

end Sys2Proof.Machine
end

