-- ==== Sys2Proof/Machine/Link.lean ====
section
/-! DEFINITION. The service link's frames (R158 to R164): the edges of SEL and SCK, read-back and malformed frames, and the
one operation by which a request's frame ends with its command. -/

namespace Sys2Proof.Machine

/-! ## Clocking -/

/-- R158: the byte completed by an eighth bit is counted, and stored if it is among the first 67. -/
def Link.takeByte (l : Link) (b : Byte) : Link :=
  { l with
    bits := 0
    current := 0
    byteCount := if l.byteCount ≤ Config.storedBytes then l.byteCount + 1 else l.byteCount
    stored := if l.byteCount < Config.storedBytes then l.stored ++ [b] else l.stored }

/-- R158: a rising edge of SCK samples SDI into the current byte, most significant bit first. -/
def Link.takeBit (l : Link) (sdi : Bool) : Link :=
  let b := (l.current <<< 1) ||| (BitVec.ofBool sdi).setWidth 8
  if l.bits == 7 then l.takeByte b else { l with bits := l.bits + 1, current := b }

/-- R158: a falling edge of SCK presents the next bit; after the eighth of a byte the out position advances. -/
def Link.shiftOut (l : Link) : Link :=
  if l.outBits == 7 then { l with outBits := 0, outPosition := l.outPosition + 1 } else { l with outBits := l.outBits + 1 }

/-- R158: the byte being shifted out; beyond the response every byte is FFh. -/
def Link.outByte (l : Link) : Byte :=
  (responseBytes l.response).getD l.outPosition 0xFF

/-- SDO: driven while a frame is in progress, most significant bit first, and high-impedance (none) otherwise (R158). -/
def State.sdo (s : State) : Option Bool :=
  if s.link.inProgress then some (s.link.outByte.getLsbD (7 - s.link.outBits)) else none

/-- R158: a frame begins. -/
def Link.start (l : Link) : Link :=
  { idleLink l.response with inProgress := true }

/-! ## How a frame's row relates to its bits (log 2) -/

/-- The bits of the current byte agree with byte number `count` of the frame, or with its leftover bits. -/
def Link.fitsBits (l : Link) (bytes : List Byte) (extra : Nat) : Bool :=
  l.bits == 0 || decide (Config.storedBytes < l.byteCount) ||
    match bytes[l.byteCount]? with
    | some b => b >>> (8 - l.bits) == l.current
    | none => decide (l.bits ≤ extra)

/-- What the link has received of the frame in progress, if one is, is the beginning of a frame of these whole bytes and
`extra` further bits. The row then stands for the rest of that frame, up to the rising edge of SEL. -/
def Link.fits (l : Link) (bytes : List Byte) (extra : Nat) : Bool :=
  !l.inProgress ||
    (l.stored.isPrefixOf (storedOf bytes) && decide (l.byteCount ≤ countOf bytes) && l.fitsBits bytes extra)

/-- A frame of these bytes can end now: RSTn is withdrawn (R159) and the link has received nothing else. -/
def State.frameCanBe (s : State) (bytes : List Byte) (extra : Nat) : Bool :=
  !s.resetAsserted && s.link.fits bytes extra

/-! ## Frame ends -/

/-- A frame ends and its response replaces the buffer (R162, R164); the request assembly is empty, as at every frame end
(R172). -/
def answer (r : Response) (s : State) : State :=
  { s with link := idleLink r }

/-- A status with no payload (R164). -/
def answerStatus (c : StatusCode) (s : State) : State :=
  answer ⟨c, []⟩ s

/-- A frame ends and leaves the response buffer as it is (R162 cases 1 and 2). -/
def keepResponse (s : State) : State :=
  answer s.link.response s

/-- The frame of a request with this command and payload can end now, judged as case 6 of R162 with the command's payload
length (R164). -/
def State.requestEnds (s : State) (c : Command) (payload : List Byte) : Bool :=
  s.frameCanBe (requestBytes c payload) 0 && judgeFrame (requestBytes c payload) 0 == .command c

/-- R164: the frame of a request ends, and the command is executed as one change. -/
def onRequest (c : Command) (payload : List Byte) (run : State → State) (s : State) : State :=
  if s.requestEnds c payload then run s else s

/-- The status with which a malformed frame is answered: LENGTH, CHECK or UNKNOWN (R162 cases 3 to 5), and LENGTH for a
known command with another payload length (R164). -/
def malformedStatus : Judgement → Option StatusCode
  | .length | .payloadLength => some .length
  | .check => some .check
  | .unknown => some .unknown
  | .noBit | .readBack | .command _ => none

/-! ## The rows -/

/-- FRAME_BEGIN (R158). SEL cannot fall while a frame is in progress; while RSTn is asserted it is ignored (R159). -/
def execFrameBegin (s : State) : Result :=
  .next (if s.resetAsserted || s.link.inProgress then s else { s with link := s.link.start })

/-- SCK_RISING_EDGE (R158): ignored while no frame is in progress. -/
def execSckRisingEdge (sdi : Bool) (s : State) : Result :=
  .next (if s.link.inProgress then { s with link := s.link.takeBit sdi } else s)

/-- SCK_FALLING_EDGE (R158): ignored while no frame is in progress. -/
def execSckFallingEdge (s : State) : Result :=
  .next (if s.link.inProgress then { s with link := s.link.shiftOut } else s)

/-- NO_BIT_RECEIVED (R162 case 1). -/
def execNoBitReceived (s : State) : Result :=
  .next (if s.frameCanBe [] 0 then keepResponse s else s)

/-- READ_BACK (R162 case 2, R163). -/
def execReadBack (bytes : List Byte) (extra : Nat) (s : State) : Result :=
  .next (if s.frameCanBe bytes extra && judgeFrame bytes extra == .readBack then keepResponse s else s)

/-- MALFORMED_FRAME (R162 cases 3 to 5, R164). -/
def execMalformedFrame (bytes : List Byte) (extra : Nat) (s : State) : Result :=
  .next
    (match malformedStatus (judgeFrame bytes extra) with
     | some c => if s.frameCanBe bytes extra then answerStatus c s else s
     | none => s)

end Sys2Proof.Machine
end

