-- ==== Sys2Proof/Machine/Sync.lean ====
section
/-! DEFINITION. The scan tracker's commands: FRAME_START, LINE_START, SUPERVISION_EXPIRY (chapter 03), with the idle counts
(R15), the late check (R76) and the apply completions (R142) that a line event brings. -/

namespace Sys2Proof.Machine

/-! ## The tracker -/

/-- R53: the provisional count goes on, up to 4095. -/
def Tracker.countOn (k : Tracker) : Tracker :=
  if k.line.getD 0 < Config.lastLine then { k with line := some (k.line.getD 0 + 1) } else { k with overrun := true }

/-- R55: in LOCKED, a line-start finds the frame longer than T lines. -/
def Tracker.runsLong (k : Tracker) (total : Nat) : Bool :=
  k.state == .locked && !decide (k.line.getD 0 < total - 1)

/-- R55: in LOCKED, a frame-start finds the frame shorter than T lines. -/
def Tracker.runsShort (k : Tracker) (total : Nat) : Bool :=
  k.state == .locked && k.line.getD 0 != total - 1

/-- R54: in ACQUIRE, a frame-start finds the frame right. -/
def Tracker.locks (k : Tracker) (total : Nat) : Bool :=
  k.state == .acquire && k.line.getD 0 == total - 1 && !k.overrun

/-- The tracker after a line-start, with the timing set to T and S (R52, R53, R55, R57). -/
def Tracker.afterLine (k : Tracker) (total supervision : Nat) : Tracker :=
  match k.state with
  | .lost => k
  | .acquire => { k.countOn with supervision := some supervision }
  | .locked =>
    if k.runsLong total then { k.countOn with state := .acquire, supervision := some supervision }
    else { k with line := some (k.line.getD 0 + 1), supervision := some supervision }

/-- The state a frame-start leaves (R52, R54, R55). -/
def Tracker.stateAfterFrame (k : Tracker) (total : Nat) : TrackerState :=
  match k.state with
  | .lost => .acquire
  | .acquire => if k.locks total then .locked else .acquire
  | .locked => if k.runsShort total then .acquire else .locked

/-- The tracker after a frame-start, with the timing set to T and S (R52, R54, R55, R57). -/
def Tracker.afterFrame (k : Tracker) (total supervision : Nat) : Tracker where
  state := k.stateAfterFrame total
  line := some 0
  overrun := false
  frameCounter := k.frameCounter + 1
  supervision := some supervision

/-- R48, R57: the tracker enters LOST; the frame counter keeps its value. -/
def Tracker.lose (k : Tracker) : Tracker :=
  { k with state := .lost, line := none, overrun := false, supervision := none }

/-- R59: the record of a tracker's incident, with the line and the frame counter as they stood before the event. -/
def Tracker.incident (k : Tracker) (kind : IncidentKind) : Incident :=
  ⟨kind, none, none, k.line, k.frameCounter, none⟩

/-- R55, R59: a GEOMETRY incident when the event found the frame wrong. -/
def reportGeometry (wrong : Bool) (k : Tracker) (s : State) : State :=
  if wrong then handIncident (k.incident .geometry) s else s

/-- A line-start at the tracker; while the timing is unset the tracker takes no part (R51). -/
def trackLine (s : State) : State :=
  match s.timing.lines with
  | none => s
  | some total =>
    reportGeometry (s.tracker.runsLong total) s.tracker
      { s with tracker := s.tracker.afterLine total s.timing.supervision }

/-- R54: the LOCKED flag at the entry to LOCKED. -/
def reportLock (locks : Bool) (s : State) : State :=
  if locks then handFlag .locked s else s

/-- A frame-start at the tracker; while the timing is unset the tracker takes no part (R51). -/
def trackFrame (s : State) : State :=
  match s.timing.lines with
  | none => s
  | some total =>
    reportLock (s.tracker.locks total)
      (reportGeometry (s.tracker.runsShort total) s.tracker
        { s with tracker := s.tracker.afterFrame total s.timing.supervision })

/-! ## The idle counts (R15) -/

/-- R15: an idle count after a line event. -/
def idleAfter (n : Nat) : Nat :=
  if n < Config.stopCount then n + 1 else n

/-- R15: the windows whose open batch this line event seals: the increment brings the idle count to the idle seal value,
which is not 0. -/
def State.idleSeals (s : State) : List WindowIdx :=
  (List.finRange 8).filter fun W =>
    s.live[W].idleSeal != 0 && decide (s.windows[W].idle < Config.stopCount) &&
      s.windows[W].idle + 1 == s.live[W].idleSeal

/-- R15: every idle count is incremented. -/
def countIdle (s : State) : State :=
  s.mapWindows fun _ d => { d with idle := idleAfter d.idle }

/-- R15: the idle counts of a line event, and the seals they bring, in ascending index. -/
def idleEvent (w : Work) : Work :=
  sealAll w.st.idleSeals (w.map countIdle)

/-! ## The rows -/

/-- R58: a line event that the tracker has taken. The release engine makes its late check and is to evaluate; the idle
counts follow (log 9). -/
def lineEvent (s : State) : Work :=
  idleEvent ((Work.start (lateCheck s)).tell)

/-- FRAME_START (R51, R52, R54, R55, R58, R142). While RSTn is asserted no frame-start is taken (R145). -/
def execFrameStart (s : State) : Result :=
  .next (if s.resetAsserted then s else settle (applyIfEmpty (lineEvent (trackFrame s))))

/-- LINE_START (R51 to R53, R55, R58). While RSTn is asserted no line-start is taken (R145). -/
def execLineStart (s : State) : Result :=
  .next (if s.resetAsserted then s else settle (lineEvent (trackLine s)))

/-- R57: the supervision timer runs out. -/
def expireSupervision (s : State) : State :=
  settle (applyIfLost ((Work.start (handFlag .lost
    { handIncident (s.tracker.incident .syncLost) s with tracker := s.tracker.lose })).tell))

/-- SUPERVISION_EXPIRY (R57). A timer that is stopped does not run out (log 1). -/
def execSupervisionExpiry (s : State) : Result :=
  .next (if s.tracker.supervision.isSome then expireSupervision s else s)

end Sys2Proof.Machine
end

