-- ==== Sys2Proof/Machine/Configuration.lean ====
section
/-! DEFINITION. The commands that change the configuration: SET_TIMING (R47), STAGE_WINDOW (R36), APPLY (R139). -/

namespace Sys2Proof.Machine

/-! ## SET_TIMING -/

/-- R47: the status of SET_TIMING, OK when all three checks pass. -/
def State.timingStatus (s : State) (v : TimingFields) : StatusCode :=
  if s.mode != .bypass then .state
  else if !timingInRange v then .range
  else if !tableFits s.live v.active.toNat then .range
  else .ok

/-- R48, R58: the tracker enters LOST. From ACQUIRE or LOCKED this is a change of tracker state: it sets the LOST flag and
is reported to the release engine and the mode controller. A tracker that is LOST does not change. -/
def loseTracker (w : Work) : Work :=
  if w.st.tracker.state == .lost then w
  else applyIfLost ((w.map fun s => handFlag .lost { s with tracker := s.tracker.lose }).tell)

/-- R47: the seven values are replaced and the timing becomes set. -/
def acceptTiming (v : TimingFields) (s : State) : State :=
  settle (loseTracker (Work.start { s with timing := timingOf v }))

/-- R47. -/
def setTiming (v : TimingFields) (s : State) : State :=
  if s.timingStatus v == .ok then answerStatus .ok (acceptTiming v s) else answerStatus (s.timingStatus v) s

/-- SET_TIMING (R47, R48). -/
def execSetTiming (v : TimingFields) (s : State) : Result :=
  .next (onRequest .setTiming (timingPayload v) (setTiming v) s)

/-! ## STAGE_WINDOW -/

/-- R36 step 2 on: the staged record replaced, or RANGE. -/
def stageRecord (index : BitVec 8) (f : RecordFields) (s : State) : State :=
  match windowOf index, stagedRecord f with
  | some W, some r => answerStatus .ok { s with staged := s.staged.set W.val r W.isLt }
  | _, _ => answerStatus .range s

/-- R36: the BUSY check comes first. -/
def stageWindow (index : BitVec 8) (f : RecordFields) (s : State) : State :=
  if s.applyPending then answerStatus .busy s else stageRecord index f s

/-- STAGE_WINDOW (R36, R37, R169). -/
def execStageWindow (index : BitVec 8) (f : RecordFields) (s : State) : Result :=
  .next (onRequest .stageWindow (index :: recordPayload f) (stageWindow index f) s)

/-! ## APPLY -/

/-- R139: the status of APPLY, OK when it is accepted. -/
def State.applyStatus (s : State) : StatusCode :=
  if s.applyPending then .busy
  else if s.staged == s.live then .already
  else (checkTable s.staged s.timing).getD .ok

/-- R140: the effect of an APPLY accepted in BYPASS. -/
def applyNow (w : Work) : Work :=
  (w.map fun s => handFlag .applied { s with live := s.staged }).report

/-- R141 steps 1 and 2: apply-pending, and the closing marks of the windows whose records differ. -/
def markClosing (s : State) : State :=
  { s.mapWindows fun W d => { d with closing := d.closing || s.differs W } with applyPending := true }

/-- R141: the effect of an APPLY accepted in ACTIVE or DRAINING. -/
def applyLater (w : Work) : Work :=
  applyIfLost (sealAll ((List.finRange 8).filter w.st.differs) (w.map markClosing)).report

/-- R139 step 4. -/
def acceptApply (s : State) : State :=
  settle (if s.mode == .bypass then applyNow (Work.start s) else applyLater (Work.start s))

/-- R139. -/
def applyStaged (s : State) : State :=
  if s.applyStatus == .ok then answerStatus .ok (acceptApply s) else answerStatus s.applyStatus s

/-- APPLY (R139 to R141). -/
def execApply (s : State) : Result :=
  .next (onRequest .apply [] applyStaged s)

end Sys2Proof.Machine
end

