-- ==== Sys2Proof/Machine/MemoryBus.lean ====
section
/-! DEFINITION. What the memory does on DRDY: the four completions (R124), DRDY_RELEASE (R119) and STRAY_DRDY (R125). A
completion row is taken when such a transaction is in flight; otherwise it is not that event (log 1). -/

namespace Sys2Proof.Machine

/-! ## Entry writes (R23, R71, R72) -/

/-- R23: the first entry leaves the batch `b` of record r, and the engine's write is over (R61). -/
def removeEntry (r : RecordIdx) (b : BatchRecord) (s : State) : State :=
  { s.setRecord r (some { b with entries := b.entries.tail, written := b.written + 1 }) with
    engine := { s.engine with write := .none } }

/-- R72: the frame byte, the low eight bits of the frame counter. -/
def captureFrameByte (s : State) : State :=
  { s with engine := { s.engine with frameByte := some (s.tracker.frameCounter.setWidth 8) } }

/-- R72, R78: the receipt word is composed and its write requested. -/
def requestReceipt (b : BatchRecord) (a : Addr) (s : State) : State :=
  placeRelease (.receiptWrite a (receiptWord b (s.engine.frameByte.getD 0)))
    { s with engine := { s.engine with phase := .receipt } }

/-- R72: the entries phase of the batch `b` of record r ends. -/
def endEntries (r : RecordIdx) (b : BatchRecord) (w : Work) : Work :=
  match w.st.live[b.window].receipt with
  | some a => w.map fun s => requestReceipt b a (captureFrameByte s)
  | none => retire r b (w.map captureFrameByte)

/-- R71, R72: what follows the departure of an entry. The batch is as the departure leaves it. -/
def continueRelease (r : RecordIdx) (b : BatchRecord) (w : Work) : Work :=
  if b.entries.isEmpty then endEntries r b w else w.map (requestEntry b.entries)

/-- R23, R71: the completion of the releasing batch's entry write, reported to the upstream port. -/
def finishEntry (r : RecordIdx) (b : BatchRecord) (w : Work) : Work :=
  continueRelease r { b with entries := b.entries.tail, written := b.written + 1 } (w.map (removeEntry r b)).report

/-- The releasing batch whose write in the given phase is in flight. When discard or RESTART has ended its release, the
completion's owner has gone (R124). -/
def State.inFlightBatch (s : State) (phase : EnginePhase) : Option (RecordIdx × BatchRecord) :=
  if s.engine.phase == phase && s.engine.write == .inFlight then
    s.engine.releasing.bind fun r => s.records[r].map fun b => (r, b)
  else none

/-- R124: the owner's part of an entry write's completion. -/
def ownEntryCompletion (w : Work) : Work :=
  match w.st.inFlightBatch .entries with
  | some (r, b) => finishEntry r b w
  | none => w

/-- R124: the owner's part of a receipt write's completion. -/
def ownReceiptCompletion (w : Work) : Work :=
  match w.st.inFlightBatch .receipt with
  | some (r, b) => retire r b w
  | none => w

/-! ## The rows -/

/-- DIRECT_WRITE_COMPLETE (R92, R124). -/
def execDirectWriteComplete (s : State) : Result :=
  match s.port.transaction with
  | some (.directWrite a m d) => .next (completeUpstream none (acknowledge (.directWrite a m d) s))
  | _ => .next s

/-- MEMORY_READ_COMPLETE (R95, R124): the second lookup's lanes over the word the port takes on DD. -/
def execMemoryReadComplete (dd : Word) (s : State) : Result :=
  match s.port.transaction with
  | some (.memoryRead a) =>
      .next (completeUpstream (some (mergeLanes dd (s.lookup a).2 (s.lookup a).1)) (acknowledge (.memoryRead a) s))
  | _ => .next s

/-- ENTRY_WRITE_COMPLETE (R23, R71, R72, R124). -/
def execEntryWriteComplete (s : State) : Result :=
  match s.port.transaction with
  | some (.entryWrite a m d) =>
      .next (settle (ownEntryCompletion (Work.start (acknowledge (.entryWrite a m d) s))))
  | _ => .next s

/-- RECEIPT_WRITE_COMPLETE (R78, R80, R124). -/
def execReceiptWriteComplete (s : State) : Result :=
  match s.port.transaction with
  | some (.receiptWrite a d) =>
      .next (settle (ownReceiptCompletion (Work.start (acknowledge (.receiptWrite a d) s))))
  | _ => .next s

/-- R119 steps 3 and 4: DRDY is withdrawn, the phase becomes FREE and a waiting claim is granted. While RSTn is asserted
only the level changes (R125). -/
def releaseDrdy (s : State) : State :=
  if s.resetAsserted then { s with port := { s.port with drdy := false } }
  else grant { s with port := { s.port with drdy := false, phase := .free } }

/-- DRDY_RELEASE (R119). A DRDY that is not asserted cannot be withdrawn (log 1). -/
def execDrdyRelease (s : State) : Result :=
  .next (if s.port.drdy then releaseDrdy s else s)

/-- STRAY_DRDY (R125): an assertion of DRDY while the phase is FREE. While RSTn is asserted only the level changes. -/
def execStrayDrdy (s : State) : Result :=
  .next
    (if s.resetAsserted then { s with port := { s.port with drdy := true } }
     else if s.port.phase == .free then { s with port := { s.port with drdy := true, phase := .recovering } }
     else s)

end Sys2Proof.Machine
end

