-- ==== Sys2Proof/Machine/Modes.lean ====
section
/-! DEFINITION. The commands that change the mode, ENABLE and DISABLE (chapter 08), and those that seal and mark, SEAL
(R16) and FLUSH (R116). -/

namespace Sys2Proof.Machine

/-! ## ENABLE -/

/-- R132. -/
def enable (s : State) : State :=
  match s.mode with
  | .bypass =>
    if s.timing.lines.isSome then answerStatus .ok (settle (changeMode .active (Work.start s)))
    else answerStatus .state s
  | .active => answerStatus .already s
  | .draining => answerStatus .busy s

/-- ENABLE (R132). -/
def execEnable (s : State) : Result :=
  .next (onRequest .enable [] enable s)

/-! ## DISABLE with drain -/

/-- R133: the drain begins, and completes at once when the seals leave the store empty. -/
def beginDrain (s : State) : State :=
  settle (drainIfEmpty (sealAll (List.finRange 8) (changeMode .draining (Work.start s))))

/-- R133. -/
def disableDrain (s : State) : State :=
  if s.mode == .active then answerStatus .ok (beginDrain s) else answerStatus .already s

/-- DISABLE_DRAIN (R133, R170): the selector 00h drains; a selector naming neither is refused with RANGE. With 01h the
frame is the other row (log 1). -/
def execDisableDrain (selector : BitVec 8) (s : State) : Result :=
  .next
    (if selector == 0x00 then onRequest .disable [selector] disableDrain s
     else if selector == 0x01 then s
     else onRequest .disable [selector] (answerStatus .range) s)

/-! ## DISABLE with discard -/

/-- R138: the DISCARD incident. -/
def State.discardIncident (s : State) : Incident where
  kind := .discard
  window := none
  seq := none
  line := s.tracker.reportedLine
  frame := s.tracker.frameCounter
  detail := some (.dropped s.occupancy)

/-- R81: a release in progress ends without retirement; a waiting claim is withdrawn, a write in flight goes on. -/
def endRelease (s : State) : State :=
  withdrawRelease { s with engine := Engine.reset }

/-- R138: the incident is queued when at least one entry was dropped. `before` is the part before the discard. -/
def reportDiscard (before : State) (s : State) : State :=
  if 1 ≤ before.occupancy then handIncident before.discardIncident s else s

/-- R137: the discard. -/
def discard (s : State) : State :=
  settle ((applyAtBypass (changeMode .bypass (Work.start (endRelease (dropAll s))))).map (reportDiscard s))

/-- R137. -/
def disableDiscard (s : State) : State :=
  if s.mode == .bypass then answerStatus .already s else answerStatus .ok (discard s)

/-- DISABLE_DISCARD (R137, R170): the selector 01h discards; a selector naming neither is refused with RANGE. With 00h the
frame is the other row (log 1). -/
def execDisableDiscard (selector : BitVec 8) (s : State) : Result :=
  .next
    (if selector == 0x01 then onRequest .disable [selector] disableDiscard s
     else if selector == 0x00 then s
     else onRequest .disable [selector] (answerStatus .range) s)

/-! ## SEAL and FLUSH -/

/-- R16. -/
def sealNamed (Ws : List WindowIdx) (s : State) : State :=
  settle (sealAll Ws (Work.start s))

/-- SEAL (R16). -/
def execSealWindows (set : BitVec 8) (s : State) : Result :=
  .next (onRequest .sealWindows [set] (fun s => answerStatus .ok (sealNamed (windowsOf set) s)) s)

/-- R116 step 2: every SEALED batch of the named windows is marked FLUSH. -/
def markSealed (reason : ForceReason) (Ws : List WindowIdx) (w : Work) : Work :=
  markAll reason (w.st.sealedOf Ws) w

/-- R116: all the seals, then all the marks, then one evaluation. -/
def flushNamed (Ws : List WindowIdx) (s : State) : State :=
  settle (markSealed .flush Ws (sealAll Ws (Work.start s)))

/-- FLUSH (R116, R17). -/
def execFlush (set : BitVec 8) (s : State) : Result :=
  .next (onRequest .flush [set] (fun s => answerStatus .ok (flushNamed (windowsOf set) s)) s)

end Sys2Proof.Machine
end

