-- ==== Sys2Proof/Machine/Reports.lean ====
section
/-! DEFINITION. The commands that report and keep events: IDENT, STATUS, GET_TIMING, GET_WINDOW, WINDOW_STATUS (snapshots,
R165), CLEAR_FLAGS, SET_MASK, TAKE_INCIDENT (chapters 09 and 10). -/

namespace Sys2Proof.Machine

/-! ## Snapshots -/

/-- R60: the line of STATUS, FFFFh in LOST. -/
def Tracker.statusLine (k : Tracker) : BitVec 16 :=
  match k.state with
  | .lost => 0xFFFF
  | .acquire | .locked => BitVec.ofNat 16 (k.line.getD 0)

/-- R102: a stall is active while the phase is WAIT. -/
def UpstreamPort.stallByte (u : UpstreamPort) : Byte :=
  if u.phase == .wait then byteOf ((u.cause.map causeCode).getD 0) else 0

/-- STATUS's fifteen bytes (R167, Table 11-10). -/
def State.statusPayload (s : State) : List Byte :=
  [modeByte s.mode, trackerByte s.tracker.state] ++ be16 s.tracker.statusLine ++ be16 s.tracker.frameCounter ++
    be16 (BitVec.ofNat 16 s.occupancy) ++ [byteOf s.recordsInUse, boolByte s.applyPending, s.upstream.stallByte] ++
    be16 (flagWord s.incidents.flags) ++ be16 (flagWord s.incidents.mask)

/-- The entry count of a window's open batch (R44). -/
def State.openEntries (s : State) (W : WindowIdx) : Option Nat :=
  s.windows[W].openBatch.map fun r => (recordEntries s.records[r]).length

/-- WINDOW_STATUS's thirteen bytes (R44, Table 11-13). -/
def State.windowPayload (s : State) (W : WindowIdx) : List Byte :=
  let d := s.windows[W]
  [byteOf W.val, boolByte d.openBatch.isSome] ++ be16 (BitVec.ofNat 16 ((s.openEntries W).getD 0)) ++
    [byteOf d.sealedQueue.length] ++ be16 d.lastSealed ++ be16 d.lastRetired ++ be16 d.retired ++
    [boolByte d.closing, boolByte (s.releasingOf W).isSome]

/-- R38, R169: the record that GET_WINDOW names, none where it is refused with RANGE. -/
def State.namedRecord (s : State) (index table : BitVec 8) : Option WindowRecord :=
  match windowOf index, table.toNat with
  | some W, 0 => some s.live[W]
  | some W, 1 => some s.staged[W]
  | _, _ => none

/-! ## Flags and incidents -/

/-- R150, R168. -/
def clearFlags (set : BitVec 16) (s : State) : State :=
  if flagSetInRange set then
    answerStatus .ok
      { s with incidents := { s.incidents with flags := s.incidents.flags &&& ~~~flagsOf set } }
  else answerStatus .range s

/-- R151, R168. -/
def setMask (set : BitVec 16) (s : State) : State :=
  if flagSetInRange set then
    answerStatus .ok { s with incidents := { s.incidents with mask := flagsOf set } }
  else answerStatus .range s

/-- R155: the oldest record and the dropped count, or the dropped count alone. -/
def takeIncident (s : State) : State :=
  match s.incidents.queue with
  | [] => answer ⟨.empty, [byteOf s.incidents.dropped]⟩ { s with incidents := { s.incidents with dropped := 0 } }
  | i :: rest =>
    answer ⟨.ok, byteOf s.incidents.dropped :: incidentPayload i⟩
      { s with incidents := { s.incidents with queue := rest, dropped := 0 } }

/-! ## The rows -/

/-- IDENT (R166). -/
def execIdent (s : State) : Result :=
  .next (onRequest .ident [] (answer ⟨.ok, identityPayload⟩) s)

/-- STATUS (R167). -/
def execStatus (s : State) : Result :=
  .next (onRequest .status [] (fun s => answer ⟨.ok, s.statusPayload⟩ s) s)

/-- CLEAR_FLAGS (R150, R168). -/
def execClearFlags (set : BitVec 16) (s : State) : Result :=
  .next (onRequest .clearFlags (be16 set) (clearFlags set) s)

/-- SET_MASK (R151, R168). -/
def execSetMask (set : BitVec 16) (s : State) : Result :=
  .next (onRequest .setMask (be16 set) (setMask set) s)

/-- GET_TIMING (R49). -/
def execGetTiming (s : State) : Result :=
  .next (onRequest .getTiming [] (fun s => answer ⟨.ok, timingResponse s.timing⟩ s) s)

/-- R38: the record, or RANGE. -/
def getWindow (index table : BitVec 8) (s : State) : State :=
  match s.namedRecord index table with
  | some r => answer ⟨.ok, recordResponse r⟩ s
  | none => answerStatus .range s

/-- GET_WINDOW (R38, R169). -/
def execGetWindow (index table : BitVec 8) (s : State) : Result :=
  .next (onRequest .getWindow [index, table] (getWindow index table) s)

/-- R44: the snapshot, or RANGE. -/
def windowStatus (index : BitVec 8) (s : State) : State :=
  match windowOf index with
  | some W => answer ⟨.ok, s.windowPayload W⟩ s
  | none => answerStatus .range s

/-- WINDOW_STATUS (R44, R170). -/
def execWindowStatus (index : BitVec 8) (s : State) : Result :=
  .next (onRequest .windowStatus [index] (windowStatus index) s)

/-- TAKE_INCIDENT (R155, R171, R174). -/
def execTakeIncident (s : State) : Result :=
  .next (onRequest .takeIncident [] takeIncident s)

end Sys2Proof.Machine
end

