-- ==== Sys2Proof/Machine/Resets.lean ====
section
/-! DEFINITION. RESTART (R146) and the reset line (R145, R125, R159). -/

namespace Sys2Proof.Machine

/-! ## RESTART -/

/-- R146 with Table 3-2: what RESTART makes of a window's dynamic state. -/
def WindowState.restart (d : WindowState) : WindowState :=
  { d with openBatch := none, sealedQueue := [], idle := 0, closing := false }

/-- R157: flags cleared, queue emptied, dropped count 0, mask kept. -/
def IncidentUnit.restart (u : IncidentUnit) : IncidentUnit :=
  { IncidentUnit.reset with mask := u.mask }

/-- Table 8-1 after RESTART: a waiting release claim is withdrawn, a transaction in flight and an upstream claim are kept. -/
def DownstreamPort.restart (p : DownstreamPort) : DownstreamPort :=
  { p with releaseClaim := none, passedOver := 0 }

/-- R146: the change RESTART makes, block by block (Table 9-3), before the waiting write is re-examined. The upstream port
is kept (R101), and so are both tables and the timing. -/
def restartState (s : State) : State :=
  { s with
    windows := Vector.ofFn fun W => s.windows[W].restart
    records := Vector.replicate 16 none
    sealOrdinal := 0
    tracker := Tracker.reset
    engine := Engine.reset
    port := s.port.restart
    mode := .bypass
    applyPending := false
    incidents := s.incidents.restart }

/-- R146: RESTART, with the change of mode reported (R130). -/
def restartPart (s : State) : State :=
  settle (Work.start (restartState s)).tell.report

/-- RESTART (R146, R172): answered FRESH. -/
def execRestart (s : State) : Result :=
  .next (onRequest .restart [] (fun s => answer freshResponse (restartPart s)) s)

/-! ## The reset line -/

/-- R125: the transaction in flight when the reset line is asserted. -/
def State.cutWrite (s : State) : Option Claim :=
  s.port.transaction.filter fun c => c.data.isSome

/-- R125: the memory after the cut. Each strobed lane of a cut write holds its old value or the transaction's; which is a
free value (log 5). -/
def cutMemory (c : Claim) (n : Nat) (m : Memory) : Memory :=
  c.store (c.strobes &&& Config.cutLanes n) m

/-- R145: every block takes the values after the reset line. The memory, the level of DRDY and what is the model's own
stay. -/
def assertReset (s : State) : State :=
  { State.reset with
    port := DownstreamPort.reset s.port.drdy
    resetAsserted := true
    memory := s.memory
    freeIndex := s.freeIndex
    pending := s.pending }

/-- R125: the cut of a write in flight, which takes one free value. -/
def cutTransaction (s : State) : State :=
  match s.cutWrite with
  | none => s
  | some c => { s with memory := cutMemory c s.freeIndex s.memory, freeIndex := s.freeIndex + 1 }

/-- RESET_LINE (R145, R125, R159). -/
def execResetLine (s : State) : Result :=
  .next (assertReset (cutTransaction s))

/-- R125: when the reset line ends, the port is FREE if DRDY is withdrawn and RECOVERING if it is asserted. -/
def endReset (s : State) : State :=
  { s with
    resetAsserted := false
    port := { s.port with phase := if s.port.drdy then .recovering else .free } }

/-- RESET_LINE_END (R145). An RSTn that is not asserted cannot be withdrawn (log 1). -/
def execResetLineEnd (s : State) : Result :=
  .next (if s.resetAsserted then endReset s else s)

end Sys2Proof.Machine
end

