-- ==== Sys2Proof/Machine/Stalls.lean ====
section
/-! DEFINITION. STALL_EXPIRY: the running out of the stall timer and its action (chapter 06). -/

namespace Sys2Proof.Machine

/-- R108: the STALL_EXPIRED incident. -/
def State.stallIncident (s : State) : Incident where
  kind := .stallExpired
  window := s.upstream.stallWindow
  seq := none
  line := s.tracker.reportedLine
  frame := s.tracker.frameCounter
  detail := s.upstream.cause.map .cause

/-! ## The action of cause A (R110, R111) -/

/-- R110: the SEALED batches without a force mark, in any window. -/
def State.unmarkedSealed (s : State) : List RecordIdx :=
  (s.sealedOf (List.finRange 8)).filter s.unmarked

/-- The window of a record in use, window 0 for a free one. -/
def State.windowOfRecord (s : State) (r : RecordIdx) : WindowIdx :=
  (s.records[r].map fun b => b.window).getD 0

/-- The number of entries of a window's open batch, 0 when it has none. -/
def State.openCount (s : State) (W : WindowIdx) : Nat :=
  match s.windows[W].openBatch with
  | none => 0
  | some r => (recordEntries s.records[r]).length

/-- R111: of some windows in ascending index, the one with the most entries in its open batch, the first among equals;
windows without an open batch are passed over. -/
def State.largestOpen (s : State) : List WindowIdx → Option WindowIdx
  | [] => none
  | W :: rest =>
    if s.windows[W].openBatch.isSome then
      match s.largestOpen rest with
      | none => some W
      | some V => if s.openCount W < s.openCount V then some V else some W
    else s.largestOpen rest

/-- R111: seal the largest open batch and force-mark it STALL. -/
def sealLargest (w : Work) : Work :=
  match w.st.largestOpen (List.finRange 8) with
  | none => w
  | some W =>
    match w.st.windows[W].openBatch with
    | none => w
    | some r => forceMark .stall W r (sealOpen W w)

/-- The expiry action of cause A. -/
def expireA (w : Work) : Work :=
  match w.st.oldest w.st.unmarkedSealed with
  | some r => forceMark .stall (w.st.windowOfRecord r) r w
  | none => sealLargest w

/-! ## The actions of causes B and C (R112, R113) -/

/-- R112: mark the newest batch that holds an entry for the waited-on word. -/
def expireB (w : Work) : Work :=
  match w.st.upstream.transaction with
  | some (.write addr _ _) =>
    match w.st.heldFor addr with
    | [] => w
    | h :: _ => forceMark .stall (w.st.windowOfRecord h.1) h.1 w
  | some (.read _ _) | none => w

/-- The windows whose closing mark is set. -/
def State.closingWindows (s : State) : List WindowIdx :=
  (List.finRange 8).filter fun W => s.windows[W].closing

/-- R113: mark every SEALED batch of every closing window. -/
def expireC (w : Work) : Work :=
  markAll .stall (w.st.sealedOf w.st.closingWindows) w

/-- Table 7-1. -/
def expiryAction (w : Work) : Work :=
  match w.st.upstream.cause with
  | some .a => expireA w
  | some .b => expireB w
  | some .c => expireC w
  | none => w

/-- R107 step 3: the timer is restarted with the full stall limit. -/
def restartTimer (s : State) : State :=
  { s with upstream := { s.upstream with stallTimer := startedTimer s.timing.stallLimit } }

/-- R107: the incident, the action, the restart; then the release engine evaluates what it was told. -/
def expireStall (s : State) : State :=
  settle ((expiryAction (Work.start (handIncident s.stallIncident s))).map restartTimer)

/-- STALL_EXPIRY (R107). The timer runs out only while a write waits and it is running (log 1). -/
def execStallExpiry (s : State) : Result :=
  .next (if s.upstream.phase == .wait && s.upstream.stallTimer.isSome then expireStall s else s)

end Sys2Proof.Machine
end

