-- ==== Sys2Proof/Machine/Upstream.lean ====
section
/-! DEFINITION. The upstream port's commands: UPSTREAM_WRITE, UPSTREAM_READ, UREQ_WITHDRAWN (chapter 05). -/

namespace Sys2Proof.Machine

/-- R86: the port takes a transaction when UREQ is asserted while its phase is IDLE and URDY is withdrawn; it takes none
while RSTn is asserted (R145). -/
def State.canTake (s : State) : Bool :=
  !s.resetAsserted && s.upstream.phase == .idle && !s.upstream.urdy

/-- R90: the one effect of a zero-strobe write, a sealing request from the commit word of a coherent window that is not
closing, in ACTIVE. -/
def zeroStrobeSeal (addr : Addr) (w : Work) : Work :=
  if w.st.mode == .active then
    match coherentWindow w.st.live addr with
    | none => w
    | some W => if !w.st.windows[W].closing && w.st.live[W].isCommit addr then sealOpen W w else w
  else w

/-- R88, R89, R98: a write with at least one strobe, at its taking. -/
def takeStrobedWrite (addr : Addr) (lanes : Lanes) (data : Word) (w : Work) : Work :=
  match w.st.classify addr with
  | .direct => w.map (sendDirect addr lanes data)
  | .held W => storeWrite W addr lanes data w
  | .wait why W => w.map (beginWait (.write addr lanes data) why W)

/-- A write at its taking (R88 to R90). -/
def takeWrite (addr : Addr) (strobes : Lanes) (data : Word) (s : State) : State :=
  if strobes == 0 then settle (zeroStrobeSeal addr (Work.start (completeUpstream none s)))
  else settle (takeStrobedWrite addr strobes data (Work.start s))

/-- A read at its taking (R94). -/
def takeRead (addr : Addr) (strobes : Lanes) (s : State) : State :=
  if (s.lookup addr).1 == allLanes then completeUpstream (some (s.lookup addr).2) s
  else sendUpstream (.read addr strobes) .read (.memoryRead addr) s

/-- UPSTREAM_WRITE (R86, R88 to R92, R98). A request the port cannot take waits on the bus, outside the part (log 3). -/
def execUpstreamWrite (addr : Addr) (strobes : Lanes) (data : Word) (s : State) : Result :=
  .next (if s.canTake then takeWrite addr strobes data s else s)

/-- UPSTREAM_READ (R86, R94). A request the port cannot take waits on the bus, outside the part (log 3). -/
def execUpstreamRead (addr : Addr) (strobes : Lanes) (s : State) : Result :=
  .next (if s.canTake then takeRead addr strobes s else s)

/-- UREQ_WITHDRAWN: the port withdraws URDY, and the answer with it (R86). While URDY is not given it is withdrawn already. -/
def execUreqWithdrawn (s : State) : Result :=
  .next { s with upstream := { s.upstream with urdy := false, answer := none } }

end Sys2Proof.Machine
end

