-- ==== Sys2Proof/Machine/Dispatch.lean ====
section
/-! DEFINITION. One arm for each command: its meaning. -/

namespace Sys2Proof.Machine

def exec (i : Instr) (s : State) : Host.Outcome State Fault Refusal :=
  match i with
  | .upstreamWrite addr strobes data => Sys2Proof.Machine.execUpstreamWrite addr strobes data s
  | .upstreamRead addr strobes => Sys2Proof.Machine.execUpstreamRead addr strobes s
  | .ureqWithdrawn => Sys2Proof.Machine.execUreqWithdrawn s
  | .directWriteComplete => Sys2Proof.Machine.execDirectWriteComplete s
  | .memoryReadComplete dd => Sys2Proof.Machine.execMemoryReadComplete dd s
  | .entryWriteComplete => Sys2Proof.Machine.execEntryWriteComplete s
  | .receiptWriteComplete => Sys2Proof.Machine.execReceiptWriteComplete s
  | .drdyRelease => Sys2Proof.Machine.execDrdyRelease s
  | .strayDrdy => Sys2Proof.Machine.execStrayDrdy s
  | .frameStart => Sys2Proof.Machine.execFrameStart s
  | .lineStart => Sys2Proof.Machine.execLineStart s
  | .supervisionExpiry => Sys2Proof.Machine.execSupervisionExpiry s
  | .stallExpiry => Sys2Proof.Machine.execStallExpiry s
  | .resetLine => Sys2Proof.Machine.execResetLine s
  | .frameBegin => Sys2Proof.Machine.execFrameBegin s
  | .readBack bytes extra => Sys2Proof.Machine.execReadBack bytes extra s
  | .malformedFrame bytes extra => Sys2Proof.Machine.execMalformedFrame bytes extra s
  | .ident => Sys2Proof.Machine.execIdent s
  | .status => Sys2Proof.Machine.execStatus s
  | .clearFlags flagSet => Sys2Proof.Machine.execClearFlags flagSet s
  | .setMask maskSet => Sys2Proof.Machine.execSetMask maskSet s
  | .setTiming values => Sys2Proof.Machine.execSetTiming values s
  | .getTiming => Sys2Proof.Machine.execGetTiming s
  | .stageWindow index record => Sys2Proof.Machine.execStageWindow index record s
  | .getWindow index table => Sys2Proof.Machine.execGetWindow index table s
  | .apply => Sys2Proof.Machine.execApply s
  | .enable => Sys2Proof.Machine.execEnable s
  | .disableDrain selector => Sys2Proof.Machine.execDisableDrain selector s
  | .disableDiscard selector => Sys2Proof.Machine.execDisableDiscard selector s
  | .sealWindows windows => Sys2Proof.Machine.execSealWindows windows s
  | .flush windows => Sys2Proof.Machine.execFlush windows s
  | .windowStatus index => Sys2Proof.Machine.execWindowStatus index s
  | .takeIncident => Sys2Proof.Machine.execTakeIncident s
  | .restart => Sys2Proof.Machine.execRestart s
  | .resetLineEnd => Sys2Proof.Machine.execResetLineEnd s
  | .sckRisingEdge sdi => Sys2Proof.Machine.execSckRisingEdge sdi s
  | .sckFallingEdge => Sys2Proof.Machine.execSckFallingEdge s
  | .noBitReceived => Sys2Proof.Machine.execNoBitReceived s

end Sys2Proof.Machine
end

