-- ==== Sys2Proof/Machine/Timers.lean ====
section
/-! DEFINITION. One microsecond of REFCLK: the two timers of the part count down, and one that runs out expires (R57,
R107). It is what a step does with no command waiting (log 4). -/

namespace Sys2Proof.Machine

/-- A running timer with one microsecond less left. -/
def countDown (t : Option Nat) : Option Nat :=
  t.map (· - 1)

/-- A timer has run out: it was running and no time is left. -/
def runsOut (t : Option Nat) : Bool :=
  t == some 0

/-- Both timers, one microsecond later. -/
def countTimers (s : State) : State :=
  { s with
    tracker := { s.tracker with supervision := countDown s.tracker.supervision }
    upstream := { s.upstream with stallTimer := countDown s.upstream.stallTimer } }

/-- The supervision expiry, if that timer runs out (R57). -/
def supervisionDue (s : State) : State :=
  if runsOut s.tracker.supervision then expireSupervision s else s

/-- The stall expiry, if that timer runs out while a write waits (R107). -/
def stallDue (s : State) : State :=
  if s.upstream.phase == .wait && runsOut s.upstream.stallTimer then expireStall s else s

/-- Both timers run out in one microsecond. -/
def State.bothDue (s : State) : Bool :=
  runsOut s.tracker.supervision && s.upstream.phase == .wait && runsOut s.upstream.stallTimer

/-- Both expiries, in the order given; the second happens only if the first has left it due (R109). -/
def expireBoth (supervisionFirst : Bool) (s : State) : State :=
  if supervisionFirst then stallDue (supervisionDue s) else supervisionDue (stallDue s)

/-- The expiries of one microsecond. When both timers run out, either may be taken first (section 1.8): a free value
(log 6). -/
def expireDue (s : State) : State :=
  if s.bothDue then expireBoth (Config.supervisionFirst s.freeIndex) { s with freeIndex := s.freeIndex + 1 }
  else expireBoth true s

/-- One microsecond passes. -/
def tick (s : State) : State :=
  expireDue (countTimers s)

end Sys2Proof.Machine
end

