-- ==== Sys2Proof/Machine/Step.lean ====
section
/-! DEFINITION. One step: the command at the front of the queue, or, with none waiting, one microsecond (log 4). -/

namespace Sys2Proof.Machine

/-- Take the command at the front of the queue and run it on the part with the queue's rest; with no command waiting, one
microsecond passes (DESIGN CHOICE, log 4). -/
def step (s : State) : Host.Outcome State Fault Refusal :=
  match s.pending with
  | [] => .next (tick s)
  | i :: rest => exec i { s with pending := rest }

/-- `s` with the command that a table word spells at the front of its queue; no row of this table gives bits. -/
def State.withFetchWord (s : State) (nbits w : Nat) : State :=
  match decodeTableWord nbits w with
  | none => s
  | some i => { s with pending := i :: s.pending }

end Sys2Proof.Machine
end

