-- ==== Sys2Proof/Safety.lean ====
section
/-! DEFINITION. The terms in which the statements about the part speak: runs of commands, what a command leaves alone, and
the laws of the manual that hold of every state a step reaches (section 1.2: "laws" of the part). -/

namespace Sys2Proof.Machine

/-! ## Runs -/

/-- The commands of a list, one after another. -/
def execAll : List Instr → State → Result
  | [], s => .next s
  | i :: rest, s =>
    match exec i s with
    | .next t => execAll rest t
    | stop => stop

/-- The bits of a byte as the link samples them, most significant first (R158). -/
def bitsOf (b : Byte) : List Bool :=
  (List.range 8).map fun i => b.getLsbD (7 - i)

/-- Whether a step that answers a next state from a state of which `P` holds answers one of which it holds. -/
def KeptByEveryStep (P : State → Prop) : Prop :=
  ∀ s t : State, P s → step s = .next t → P t

/-! ## Words and lanes -/

/-- A byte of memory is unchanged: the part's writes have left there what they had left before. -/
def SameByte (s t : State) (k : Nat) : Prop :=
  t.memory.read k = s.memory.read k

/-- Lane i of word w reads this byte in memory. -/
def ByteIs (s : State) (w : Addr) (i : Fin 4) (b : Byte) : Prop :=
  s.memory.read (laneKey w i.val) = some b

/-- The byte a read of lane i of word w is answered with, where held entries or the part's own writes decide it: the
newest held byte that covers the lane, else what the part's writes have left in memory (R27, R95). -/
def State.seen (s : State) (w : Addr) (i : Fin 4) : Option Byte :=
  if (s.lookup w).1.getLsbD i.val then some (laneByte (s.lookup w).2 i) else s.memory.read (laneKey w i.val)

/-! ## How the upstream port treats a transaction (Table 6-2, R94) -/

/-- What the upstream port is once a transaction has completed, with the answer of a read (R86). -/
def UpstreamPort.done (answer : Option Word) : UpstreamPort :=
  ⟨none, .idle, none, none, none, true, answer⟩

/-- The lines of Table 6-2 that say direct. -/
def GoesDirect (s : State) (a : Addr) : Prop :=
  s.mode = .bypass ∨ coherentWindow s.live a = none ∨
    s.mode = .draining ∧ s.heldFor a = [] ∧ ∀ W, coherentWindow s.live a = some W → s.windows[W].closing = false

/-- The line of Table 6-2 that says held, for window W. -/
def GoesHeld (s : State) (a : Addr) (W : WindowIdx) : Prop :=
  s.mode = .active ∧ coherentWindow s.live a = some W ∧ s.windows[W].closing = false

/-- The lines of Table 6-2 that say wait: under this cause, with this stall window. -/
def Blocked (s : State) (a : Addr) (W : WindowIdx) : Cause → Prop
  | .a => GoesHeld s a W ∧ s.canStore W a = false
  | .b => s.mode = .draining ∧ coherentWindow s.live a = some W ∧ s.windows[W].closing = false ∧ s.heldFor a ≠ []
  | .c => s.mode ≠ .bypass ∧ coherentWindow s.live a = some W ∧ s.windows[W].closing = true

/-- The part with an upstream transaction claimed at the downstream port: granted at once while that port is FREE, and
waiting there otherwise (R92, R94, R121). -/
def State.withUpstreamClaim (s : State) (t : UpTransaction) (p : UpPhase) (c : Claim) : State :=
  { s with
    upstream := ⟨some t, p, none, none, none, false, none⟩
    port :=
      if s.port.phase = .free then
        { s.port with phase := .busy, transaction := some c, upstreamClaim := none, releaseClaim := none, passedOver := 0 }
      else { s.port with upstreamClaim := some c } }

/-- No release claim waits while the downstream port is FREE (the last clause of HandshakeSound). -/
def NoClaimWaitsInFree (s : State) : Prop :=
  s.port.phase = .free → s.port.upstreamClaim = none ∧ s.port.releaseClaim = none

/-! ## What the memory's acknowledgement does (R23, R80, R119, R175) -/

/-- The downstream port once the memory has acknowledged its transaction (R119 step 2). -/
def DownstreamPort.acknowledged (p : DownstreamPort) : DownstreamPort :=
  { p with phase := .recovering, transaction := none, drdy := true }

/-- A write has changed memory in its strobed lanes and left every other byte as it was (R119). -/
def WrittenLanes (before after : Memory) (a : Addr) (m : Lanes) (d : Word) : Prop :=
  (∀ i : Fin 4, m.getLsbD i.val = true → after.read (laneKey a i.val) = some (laneByte d i)) ∧
    ∀ k, (∀ i : Fin 4, m.getLsbD i.val = true → k ≠ laneKey a i.val) → after.read k = before.read k

/-- The releasing batch of record r whose write, of an entry or of a receipt, is in flight. -/
def WriteInFlight (s : State) (phase : EnginePhase) (r : RecordIdx) (b : BatchRecord) : Prop :=
  s.engine.phase = phase ∧ s.engine.write = .inFlight ∧ s.engine.releasing = some r ∧ s.records[r] = some b

/-- The completion `c` retires the batch `b` of record r: the receipt's write, or the last entry's where the window has no
receipt address (R80). `a`, `m` and `d` are what the completing write carries. -/
def RetiresAt (c : Instr) (s : State) (r : RecordIdx) (b : BatchRecord) (a : Addr) (m : Lanes) (d : Word) : Prop :=
  (c = .receiptWriteComplete ∧ WriteInFlight s .receipt r b ∧ m = 0xF ∧ s.port.transaction = some (.receiptWrite a d)) ∨
    (c = .entryWriteComplete ∧ WriteInFlight s .entries r b ∧ b.entries.length = 1 ∧
      s.live[b.window].receipt = none ∧ s.port.transaction = some (.entryWrite a m d))

/-- The fields of a receipt word (Table 11-15) for a batch and the frame byte. -/
def ReceiptFields (w : Word) (b : BatchRecord) (frame : Byte) : Prop :=
  (∀ q, b.seq = some q → w.extractLsb' 16 16 = q) ∧ w.extractLsb' 8 8 = frame ∧
    (∀ g, b.ground = some g → w.extractLsb' 6 2 = match g with | .scheduled => 0 | .free => 1 | .forced => 2) ∧
    w.getLsbD 5 = b.late ∧
    (w.extractLsb' 3 2 = match b.mark with | none => 0 | some .stall => 1 | some .oversize => 2 | some .flush => 3) ∧
    (w.extractLsb' 0 3).toNat = b.window.val

/-! ## What each command leaves alone: the blocks that a command may change -/

/-- The commands that may change the upstream port. -/
def changesUpstream : Instr → Bool
  | .upstreamWrite _ _ _ | .upstreamRead _ _ | .ureqWithdrawn | .directWriteComplete | .memoryReadComplete _
  | .entryWriteComplete | .receiptWriteComplete | .frameStart | .supervisionExpiry | .stallExpiry | .resetLine
  | .setTiming _ | .apply | .enable | .disableDrain _ | .disableDiscard _ | .restart => true
  | _ => false

/-- The commands that may change the live table (R31, R140, R143): an apply takes effect, or the reset line. -/
def changesLive : Instr → Bool
  | .entryWriteComplete | .receiptWriteComplete | .frameStart | .supervisionExpiry | .resetLine | .setTiming _
  | .apply | .disableDrain _ | .disableDiscard _ => true
  | _ => false

/-- The commands that may change the staged table (R31, R36). -/
def changesStaged : Instr → Bool
  | .resetLine | .stageWindow _ _ => true
  | _ => false

/-- The commands that may change the dynamic state of some window. -/
def changesWindows : Instr → Bool
  | .upstreamWrite _ _ _ | .entryWriteComplete | .receiptWriteComplete | .frameStart | .lineStart
  | .supervisionExpiry | .stallExpiry | .resetLine | .setTiming _ | .apply | .enable | .disableDrain _
  | .disableDiscard _ | .sealWindows _ | .flush _ | .restart => true
  | _ => false

/-- The commands that may change some batch record, and with it the store. -/
def changesRecords : Instr → Bool
  | .upstreamWrite _ _ _ | .entryWriteComplete | .receiptWriteComplete | .frameStart | .lineStart
  | .supervisionExpiry | .stallExpiry | .resetLine | .setTiming _ | .apply | .enable | .disableDrain _
  | .disableDiscard _ | .sealWindows _ | .flush _ | .restart => true
  | _ => false

/-- The commands that may change the seal ordinal counter (R7). -/
def changesSealOrdinal : Instr → Bool
  | .upstreamWrite _ _ _ | .entryWriteComplete | .receiptWriteComplete | .frameStart | .lineStart
  | .supervisionExpiry | .stallExpiry | .resetLine | .setTiming _ | .apply | .enable | .disableDrain _
  | .disableDiscard _ | .sealWindows _ | .flush _ | .restart => true
  | _ => false

/-- The commands that may change the timing values (R46). -/
def changesTiming : Instr → Bool
  | .resetLine | .setTiming _ => true
  | _ => false

/-- The commands that may change the tracker (Table 4-4, R146). -/
def changesTracker : Instr → Bool
  | .frameStart | .lineStart | .supervisionExpiry | .resetLine | .setTiming _ | .restart => true
  | _ => false

/-- The commands that may change the release engine. -/
def changesEngine : Instr → Bool
  | .upstreamWrite _ _ _ | .upstreamRead _ _ | .entryWriteComplete | .receiptWriteComplete | .drdyRelease
  | .frameStart | .lineStart | .supervisionExpiry | .stallExpiry | .resetLine | .setTiming _ | .apply | .enable
  | .disableDrain _ | .disableDiscard _ | .sealWindows _ | .flush _ | .restart => true
  | _ => false

/-- The commands that may change the downstream port. -/
def changesPort : Instr → Bool
  | .upstreamWrite _ _ _ | .upstreamRead _ _ | .directWriteComplete | .memoryReadComplete _
  | .entryWriteComplete | .receiptWriteComplete | .drdyRelease | .strayDrdy | .frameStart | .lineStart
  | .supervisionExpiry | .stallExpiry | .resetLine | .setTiming _ | .apply | .enable | .disableDrain _
  | .disableDiscard _ | .sealWindows _ | .flush _ | .restart | .resetLineEnd => true
  | _ => false

/-- The commands that may change the mode (Table 9-2). -/
def changesMode : Instr → Bool
  | .entryWriteComplete | .receiptWriteComplete | .resetLine | .enable | .disableDrain _ | .disableDiscard _
  | .restart => true
  | _ => false

/-- The commands that may change apply-pending (R128). -/
def changesApplyPending : Instr → Bool
  | .entryWriteComplete | .receiptWriteComplete | .frameStart | .supervisionExpiry | .resetLine | .setTiming _
  | .apply | .disableDrain _ | .disableDiscard _ | .restart => true
  | _ => false

/-- The commands that may change the flags, the mask, the incident queue or the dropped count (R147). -/
def changesIncidents : Instr → Bool
  | .upstreamWrite _ _ _ | .entryWriteComplete | .receiptWriteComplete | .frameStart | .lineStart
  | .supervisionExpiry | .stallExpiry | .resetLine | .clearFlags _ | .setMask _ | .setTiming _ | .apply
  | .enable | .disableDrain _ | .disableDiscard _ | .sealWindows _ | .flush _ | .takeIncident | .restart => true
  | _ => false

/-- The commands that may change the service link (R158, R164). -/
def changesLink : Instr → Bool
  | .resetLine | .frameBegin | .readBack _ _ | .malformedFrame _ _ | .ident | .status | .clearFlags _
  | .setMask _ | .setTiming _ | .getTiming | .stageWindow _ _ | .getWindow _ _ | .apply | .enable
  | .disableDrain _ | .disableDiscard _ | .sealWindows _ | .flush _ | .windowStatus _ | .takeIncident
  | .restart | .sckRisingEdge _ | .sckFallingEdge | .noBitReceived => true
  | _ => false

/-- The commands that may change the level of RSTn. -/
def changesResetAsserted : Instr → Bool
  | .resetLine | .resetLineEnd => true
  | _ => false

/-- The commands that may change memory (R119, R125). -/
def changesMemory : Instr → Bool
  | .directWriteComplete | .entryWriteComplete | .receiptWriteComplete | .resetLine => true
  | _ => false

/-- The commands that may change the count of free values taken (the model's own, log 8). -/
def changesFreeIndex : Instr → Bool
  | .resetLine => true
  | _ => false

/-! ## Lines and batches (R53, R63, R64, R70) -/

/-- A line-start in ACQUIRE, or one that finds the frame too long in LOCKED: the count goes on, up to 4095 (R53, R55). -/
def Tracker.counted (k : Tracker) (supervision : Nat) : Tracker :=
  { k with
    state := .acquire
    line := some (min 4095 (k.line.getD 0 + 1))
    overrun := k.overrun || decide (k.line = some 4095)
    supervision := some supervision }

/-- The scan is off the batch's rows la to lb, and its n entries can be written before it comes to them (R64). -/
def ClearsTheScan (la lb n total rate line : Nat) : Prop :=
  line < la ∧ n ≤ rate * (la - line) ∨ lb < line ∧ n ≤ rate * (total - line + la)

/-- R66: the batch `b` is too large for any gap the scan offers its window. T is taken as 0 while it is unset, when no batch
exists (R45). -/
def TooLarge (s : State) (b : BatchRecord) : Prop :=
  let n := b.entries.length
  let la := s.timing.firstLine + b.firstRow
  let lb := s.timing.firstLine + b.lastRow
  let K := s.timing.rate
  let T := s.timing.lines.getD 0
  let F := s.timing.firstLine
  let A := s.timing.active
  (s.live[b.window].policy = .chase ∧ n > K * (T - (lb - la + 1))) ∨
    (s.live[b.window].policy = .frame ∧ (F > 0 ∨ A < T) ∧ n > K * (la + (T - F - A))) ∨
    (s.live[b.window].policy = .frame ∧ ¬(F > 0 ∨ A < T))

/-- Window W has an open batch, and it is too large for any gap (R66). -/
def OpenBatchTooLarge (s : State) (W : WindowIdx) : Prop :=
  ∃ r b, s.windows[W].openBatch = some r ∧ s.records[r] = some b ∧ TooLarge s b

/-- The release of the batch `b` of record r has started, with the port as `before` (R22, R70, R71, R121). -/
def Started (before after : State) (r : RecordIdx) (b : BatchRecord) (ground : Ground) : Prop :=
  after.records[r] = some { b with state := .releasing, ground := some ground } ∧
    after.windows[b.window].sealedQueue = before.windows[b.window].sealedQueue.erase r ∧
    after.engine.phase = .entries ∧ after.engine.releasing = some r ∧ after.engine.frameByte = none ∧
    ∀ e rest, b.entries = e :: rest →
      (before.port.phase ≠ .free →
        after.engine.write = .waiting ∧ after.port.releaseClaim = some (.entryWrite e.addr e.lanes e.data)) ∧
      (before.port.phase = .free → before.port.upstreamClaim = none →
        after.engine.write = .inFlight ∧ after.port.phase = .busy ∧
          after.port.transaction = some (.entryWrite e.addr e.lanes e.data))

/-! ## Requests and their answers (R162, R164) -/

/-- The frame of a request with this command and payload can end now: RSTn is withdrawn, and the link has received no bits,
or bits that begin that frame (log 2). -/
def Ends (s : State) (c : Command) (payload : List Byte) : Prop :=
  s.frameCanBe (requestBytes c payload) 0 = true

/-- The part with a frame ended and this response in the buffer, and nothing else changed. -/
def State.answered (s : State) (status : StatusCode) (payload : List Byte) : State :=
  { s with link := ⟨false, 0, 0, 0, [], ⟨status, payload⟩, 0, 0⟩ }

/-- What WINDOW_STATUS says of a window with dynamic state `d` (Table 11-13). -/
def windowStatusBytes (W : WindowIdx) (count : Option Nat) (d : WindowState) (releasing : Bool) : List Byte :=
  [BitVec.ofNat 8 W.val, if count = none then 0 else 1] ++ be16 (BitVec.ofNat 16 (count.getD 0)) ++
    [BitVec.ofNat 8 d.sealedQueue.length] ++ be16 d.lastSealed ++ be16 d.lastRetired ++ be16 d.retired ++
    [if d.closing then 1 else 0, if releasing then 1 else 0]

/-- The bytes of an incident record (Table 11-14): an absent field is sent as 0, its presence bit clear (R174). -/
def incidentBytes (i : Incident) : List Byte :=
  let kind : Byte :=
    match i.kind with
    | .late => 1 | .forced => 2 | .stallExpired => 3 | .geometry => 4 | .syncLost => 5 | .discard => 6
  let present : Byte :=
    (if i.window = none then 0 else 1) ||| (if i.seq = none then 0 else 2) ||| (if i.line = none then 0 else 4) |||
      (if i.detail = none then 0 else 8)
  let window : Byte :=
    match i.window with
    | none => 0
    | some W => BitVec.ofNat 8 W.val
  let detail : BitVec 16 :=
    match i.detail with
    | none => 0
    | some (.force .stall) => 1 | some (.force .oversize) => 2 | some (.force .flush) => 3
    | some (.cause .a) => 1 | some (.cause .b) => 2 | some (.cause .c) => 3
    | some (.dropped n) => BitVec.ofNat 16 n
  [kind, present, window] ++ be16 (i.seq.getD 0) ++ be16 (BitVec.ofNat 16 (i.line.getD 0)) ++ be16 i.frame ++ be16 detail

/-- Every value of a SET_TIMING request lies in its range of Table 4-2 (R47 step 2). -/
def TimingInRange (v : TimingFields) : Prop :=
  8 ≤ v.lines.toNat ∧ v.lines.toNat ≤ 4096 ∧ v.firstLine.toNat < v.lines.toNat ∧ 1 ≤ v.active.toNat ∧
    v.active.toNat + v.firstLine.toNat ≤ v.lines.toNat ∧ 1 ≤ v.rate.toNat ∧ 1 ≤ v.share.toNat ∧ v.share.toNat ≤ 15 ∧
    1 ≤ v.supervision.toNat

/-- Every non-OFF window of a table fits an active area of so many lines (R41). -/
def FitsActive (table : Vector WindowRecord 8) (active : Nat) : Prop :=
  ∀ W : WindowIdx, table[W].policy ≠ .off → table[W].firstRow + table[W].rows ≤ active

/-- The ranges of two non-OFF windows of a table meet: each begins at or below the other's last word (R40). -/
def Overlapping (table : Vector WindowRecord 8) : Prop :=
  ∃ V W : WindowIdx, V ≠ W ∧ table[V].policy ≠ .off ∧ table[W].policy ≠ .off ∧
    table[V].base.toNat < table[W].base.toNat + table[W].pitch * table[W].rows ∧
    table[W].base.toNat < table[V].base.toNat + table[V].pitch * table[V].rows

/-- A receipt address of a coherent window of a table lies in a coherent window (R42). -/
def ReceiptInside (table : Vector WindowRecord 8) : Prop :=
  ∃ (V W : WindowIdx) (a : Addr), table[V].policy.isCoherent = true ∧ table[V].receipt = some a ∧
    table[W].policy.isCoherent = true ∧ table[W].covers a = true

/-- The field checks of R36 step 4 on a record, with R169's receipt-present code. -/
def RecordInRange (f : RecordFields) : Prop :=
  1 ≤ f.pitch.toNat ∧ f.pitch.toNat ≤ 4096 ∧ 1 ≤ f.rows.toNat ∧ f.rows.toNat ≤ 4096 ∧ f.firstRow.toNat ≤ 4095 ∧
    f.commitOffset.toNat ≤ f.pitch.toNat * f.rows.toNat - 1 ∧ f.idleSeal.toNat ≤ 255 ∧
    f.base.toNat + f.pitch.toNat * f.rows.toNat - 1 ≤ 0xFFFFFF ∧ f.receiptPresent.toNat ≤ 1

/-- A window's open batch is sealed, if it has one (R12); otherwise the window's seal is as it was (R13). -/
def SealedIn (s t : State) (W : WindowIdx) : Prop :=
  t.windows[W].openBatch = none ∧
    t.windows[W].lastSealed =
      (if s.windows[W].openBatch = none then s.windows[W].lastSealed else s.windows[W].lastSealed + 1)

/-- A window's open batch is a record in use. -/
def OpenInUse (s : State) : Prop :=
  ∀ (W : WindowIdx) (r : RecordIdx), s.windows[W].openBatch = some r → s.records[r] ≠ none

/-- The staged table has become live, no window is closing, no apply is pending, and APPLIED is set (R143). -/
def AppliedIn (s t : State) : Prop :=
  t.live = s.staged ∧ t.applyPending = false ∧ (∀ W : WindowIdx, t.windows[W].closing = false) ∧ t.flagSet .applied = true

/-- A write that waited has gone to memory: it is direct, and no wait is left (R100, R130). -/
def WaitIsDirect (s t : State) : Prop :=
  ∀ (a : Addr) (m : Lanes) (d : Word), s.upstream.phase = .wait → s.upstream.transaction = some (.write a m d) →
    t.upstream = ⟨some (.write a m d), .direct, none, none, none, false, none⟩

/-! ## Incidents and flags -/

/-- The incident was handed: INCIDENT is set, and the record stands in the queue right behind those that were there, or,
where the queue was full, the queue is as it was and one more drop is counted at least (R153, R154). -/
def Handed (i : Incident) (s t : State) : Prop :=
  t.flagSet .incident = true ∧
    (s.incidents.queue.length < 8 → s.incidents.queue ++ [i] <+: t.incidents.queue) ∧
    (8 ≤ s.incidents.queue.length →
      t.incidents.queue = s.incidents.queue ∧ min 255 (s.incidents.dropped + 1) ≤ t.incidents.dropped)

/-! ## The laws -/

/-- The memory's list is in its one canonical form. -/
def MemoryCanonical (s : State) : Prop :=
  s.memory.wf = true

/-- R2: the store never holds more than 1024 entries. -/
def AtMost1024Entries (s : State) : Prop :=
  s.occupancy ≤ 1024

/-- R3: no batch holds two entries with the same word address. -/
def NoWordTwice (s : State) : Prop :=
  ∀ (r : RecordIdx) (b : BatchRecord), s.records[r] = some b → (b.entries.map Entry.addr).Nodup

/-- R129: while the mode is BYPASS, the store holds no entry and no record is in use. -/
def BypassHoldsNothing (s : State) : Prop :=
  s.mode = .bypass → s.occupancy = 0 ∧ s.recordsInUse = 0

/-- R62 with R61: at most one batch is RELEASING; it is the one the engine names, and an idle engine names none. -/
def OneReleasing (s : State) : Prop :=
  (∀ (r : RecordIdx) (b : BatchRecord), s.records[r] = some b → b.state = .releasing → s.engine.releasing = some r) ∧
    (s.engine.phase = .idle → s.engine.releasing = none)

/-- R6: a batch that is OPEN is its window's open batch, so a window has at most one. -/
def OneOpenBatch (s : State) : Prop :=
  ∀ (r : RecordIdx) (b : BatchRecord), s.records[r] = some b → b.state = .opened →
    s.windows[b.window].openBatch = some r

/-- R5, R6, R7, R22, R62: each window's open batch is an OPEN one of that window, its sealed queue holds its SEALED ones,
each once, and the batch the engine names is RELEASING. -/
def BatchesStand (s : State) : Prop :=
  (∀ (W : WindowIdx) (r : RecordIdx), s.windows[W].openBatch = some r →
      ∃ b, s.records[r] = some b ∧ b.state = .opened ∧ b.window = W) ∧
    (∀ (W : WindowIdx) (r : RecordIdx), r ∈ s.windows[W].sealedQueue →
      ∃ b, s.records[r] = some b ∧ b.state = .sealed ∧ b.window = W) ∧
    (∀ (r : RecordIdx) (b : BatchRecord), s.records[r] = some b → b.state = .sealed →
      r ∈ s.windows[b.window].sealedQueue) ∧
    (∀ W : WindowIdx, (s.windows[W].sealedQueue).Nodup) ∧
    ∀ r : RecordIdx, s.engine.releasing = some r → ∃ b, s.records[r] = some b ∧ b.state = .releasing

/-- Table 2-2, R19: a batch that is not RELEASING holds an entry, none of it is written and it is not late; it has a seq and
an ordinal once it is sealed and a ground once its release has started. -/
def BatchFieldsFollowItsState (s : State) : Prop :=
  ∀ (r : RecordIdx) (b : BatchRecord), s.records[r] = some b →
    (b.state ≠ .releasing → b.entries ≠ [] ∧ b.written = 0 ∧ b.late = false) ∧
      (b.seq = none ↔ b.state = .opened) ∧ (b.ordinal = none ↔ b.state = .opened) ∧
      (b.ground ≠ none ↔ b.state = .releasing)

/-- R4, R10, R29: a batch belongs to a coherent window of the live table, that window covers each of its entries, and its row
span takes in each entry's row and lies in the window. -/
def EntriesLieInTheirWindow (s : State) : Prop :=
  ∀ (r : RecordIdx) (b : BatchRecord), s.records[r] = some b →
    s.live[b.window].policy.isCoherent = true ∧ b.firstRow ≤ b.lastRow ∧
      b.lastRow < s.live[b.window].firstRow + s.live[b.window].rows ∧
      ∀ e ∈ b.entries, coherentWindow s.live e.addr = some b.window ∧
        b.firstRow ≤ s.live[b.window].screenRow e.addr ∧ s.live[b.window].screenRow e.addr ≤ b.lastRow

/-- R43, R141: while an apply is pending, each window whose staged record differs from its live one is closing. -/
def DifferingWindowsClose (s : State) : Prop :=
  s.applyPending = true → ∀ W : WindowIdx, s.staged[W] ≠ s.live[W] → s.windows[W].closing = true

/-- R71, R121: the upstream port claims direct writes and memory reads; while the engine writes entries, what it claims, and
the entry write in flight that it owns, carry the releasing batch's first entry. -/
def ReleaseWritesTheFirstEntry (s : State) : Prop :=
  (∀ c, s.port.upstreamClaim = some c → (∃ a m d, c = .directWrite a m d) ∨ ∃ a, c = .memoryRead a) ∧
    (s.engine.phase = .entries → ∀ c, s.port.releaseClaim = some c →
      ∃ r b e rest, s.engine.releasing = some r ∧ s.records[r] = some b ∧ b.entries = e :: rest ∧
        c = .entryWrite e.addr e.lanes e.data) ∧
    (s.engine.phase = .entries → s.engine.write = .inFlight → ∀ a m d, s.port.transaction = some (.entryWrite a m d) →
      ∃ r b e rest, s.engine.releasing = some r ∧ s.records[r] = some b ∧ b.entries = e :: rest ∧
        a = e.addr ∧ m = e.lanes ∧ d = e.data)

/-- R45 with Table 4-2: the timing values are those after the reset line while the timing is unset, and lie in their ranges,
F and A judged against a set T; and no line number exceeds 4095 (R53). -/
def TimingWithinRanges (s : State) : Prop :=
  (s.timing.lines = none → s.timing = ⟨none, 0, 0, 1, 4, 1000, 50000⟩) ∧
  (∀ T, s.timing.lines = some T →
      8 ≤ T ∧ T ≤ 4096 ∧ s.timing.firstLine < T ∧ 1 ≤ s.timing.active ∧ s.timing.firstLine + s.timing.active ≤ T) ∧
    (1 ≤ s.timing.rate ∧ s.timing.rate ≤ 255) ∧ (1 ≤ s.timing.share ∧ s.timing.share ≤ 15) ∧
    s.timing.stallLimit ≤ 65535 ∧ (1 ≤ s.timing.supervision ∧ s.timing.supervision ≤ 65535) ∧
    ∀ line, s.tracker.line = some line → line ≤ 4095

/-- R45, R56: a set T is 8 at least, and while the tracker is LOCKED the line is below T. -/
def LockedLineBelowT (s : State) : Prop :=
  (∀ T, s.timing.lines = some T → 8 ≤ T) ∧
    (s.tracker.state = .locked → ∃ T line, s.timing.lines = some T ∧ s.tracker.line = some line ∧ line < T)

/-- R40, R42: no two non-OFF windows of a table overlap, and no receipt address of a coherent one lies in a coherent
one. -/
def TableSound (table : Vector WindowRecord 8) : Prop :=
  tableOverlaps table = false ∧ receiptMisplaced table = false

/-- R32: the live table is sound, and so is the staged one while an apply waits to copy it. -/
def LiveTableSound (s : State) : Prop :=
  TableSound s.live ∧ (s.applyPending = true → TableSound s.staged)

/-- R41, section 4.2: with the timing set, every non-OFF window of the live table fits the active area; with it unset the
mode is BYPASS and no window is live. The staged table fits while an apply waits to copy it. -/
def LiveTableFits (s : State) : Prop :=
  (s.timing.lines ≠ none → FitsActive s.live s.timing.active) ∧
    (s.timing.lines = none → s.mode = .bypass ∧ ∀ W : WindowIdx, s.live[W].policy = .off) ∧
    (s.applyPending = true → FitsActive s.staged s.timing.active)

/-- R128, R35: an apply is pending only outside BYPASS, and a closing mark stands only while one is. -/
def ClosingOnlyWhilePending (s : State) : Prop :=
  (s.applyPending = true → s.mode ≠ .bypass) ∧
    ∀ W : WindowIdx, s.windows[W].closing = true → s.applyPending = true

/-- R153, R154: the queue holds at most 8 records, and the dropped count stops at 255. -/
def QueueWithinBounds (s : State) : Prop :=
  s.incidents.queue.length ≤ 8 ∧ s.incidents.dropped ≤ 255

/-- R85, R86, R104: the port is IDLE exactly while it has no transaction; what waits or is direct is a write, and READ is for a
read; a wait has a cause and a stall window, and there is none of them, and no running timer, outside a wait; URDY is given in
IDLE, and an answer with it. -/
def UpstreamPortSound (s : State) : Prop :=
  (s.upstream.phase = .idle ↔ s.upstream.transaction = none) ∧
    (s.upstream.phase = .wait ∨ s.upstream.phase = .direct → ∃ a m d, s.upstream.transaction = some (.write a m d)) ∧
    (s.upstream.phase = .read → ∃ a m, s.upstream.transaction = some (.read a m)) ∧
    (s.upstream.phase = .wait → s.upstream.cause ≠ none ∧ s.upstream.stallWindow ≠ none) ∧
    (s.upstream.phase ≠ .wait → s.upstream.cause = none ∧ s.upstream.stallWindow = none ∧ s.upstream.stallTimer = none) ∧
    (s.upstream.urdy = true → s.upstream.phase = .idle) ∧
    (s.upstream.answer ≠ none → s.upstream.urdy = true)

/-- R92, R94, R121: a direct write or a memory read at the downstream port, claimed or in flight, is the upstream port's one
transaction, there once; and a transaction that is direct, or a read, stands there. The release place holds the engine's
writes alone. -/
def UpstreamClaimIsItsOwn (s : State) : Prop :=
  (∀ a m d, s.port.upstreamClaim = some (.directWrite a m d) ∨ s.port.transaction = some (.directWrite a m d) →
      s.upstream.phase = .direct ∧ s.upstream.transaction = some (.write a m d)) ∧
    (∀ a, s.port.upstreamClaim = some (.memoryRead a) ∨ s.port.transaction = some (.memoryRead a) →
      s.upstream.phase = .read ∧ ∃ m, s.upstream.transaction = some (.read a m)) ∧
    (∀ c, s.port.upstreamClaim = some c →
      ((∃ a m d, c = .directWrite a m d) ∨ ∃ a, c = .memoryRead a) ∧
        ∀ x, s.port.transaction = some x → (∃ a m d, x = .entryWrite a m d) ∨ ∃ a d, x = .receiptWrite a d) ∧
    (s.upstream.phase = .direct ∨ s.upstream.phase = .read →
      ∃ c, (s.port.upstreamClaim = some c ∨ s.port.transaction = some c) ∧
        ((∃ a m d, c = .directWrite a m d) ∨ ∃ a, c = .memoryRead a)) ∧
    ∀ c, s.port.releaseClaim = some c → (∃ a m d, c = .entryWrite a m d) ∨ ∃ a d, c = .receiptWrite a d

/-- R93: while a write is direct, no batch holds an entry for its word. -/
def DirectWriteMeetsNoEntry (s : State) : Prop :=
  s.upstream.phase = .direct → ∀ (a : Addr) (m : Lanes) (d : Word), s.upstream.transaction = some (.write a m d) →
    ∀ (r : RecordIdx) (b : BatchRecord), s.records[r] = some b → ∀ e ∈ b.entries, e.addr ≠ a

/-- R158: the link counts at most 68 bytes and stores the first 67 of them, and each byte has eight bits. -/
def LinkWithinBounds (s : State) : Prop :=
  s.link.stored.length = min s.link.byteCount 67 ∧ s.link.byteCount ≤ 68 ∧ s.link.bits < 8 ∧ s.link.outBits < 8

/-- R104, R130: what waits is a write, and none waits in BYPASS (R101). -/
def NoWaitInBypass (s : State) : Prop :=
  (s.upstream.phase = .wait → ∃ a m d, s.upstream.transaction = some (.write a m d)) ∧
    (s.mode = .bypass → s.upstream.phase ≠ .wait)

/-- R145: while RSTn is asserted, every block holds the values it has after the reset line. The level of DRDY, the memory
and what is the model's own are not blocks' values. -/
def HeldInReset (s : State) : Prop :=
  s.resetAsserted = true →
    s = { State.reset with
          port := DownstreamPort.reset s.port.drdy
          resetAsserted := true
          memory := s.memory
          freeIndex := s.freeIndex
          pending := s.pending }

/-- R118, R119, R120: a transaction is in flight exactly in BUSY, DRDY is asserted exactly in RECOVERING, and no claim
waits in FREE. -/
def HandshakeSound (s : State) : Prop :=
  (s.port.phase = .busy ↔ s.port.transaction.isSome) ∧
    (s.resetAsserted = false → (s.port.drdy = true ↔ s.port.phase = .recovering)) ∧
    (s.port.phase = .free → s.port.upstreamClaim = none ∧ s.port.releaseClaim = none)

/-- R61, R122: the passed-over count reaches at most P and is 0 while no release claim waits; the engine's write is WAITING
exactly while its claim waits; an idle engine has no write and names no batch; a busy one names a record in use; and in
BYPASS the engine is idle. -/
def ReleaseShareBound (s : State) : Prop :=
  s.port.passedOver ≤ s.timing.share ∧
    (s.port.releaseClaim = none → s.port.passedOver = 0) ∧
    (s.engine.write = .waiting ↔ s.port.releaseClaim.isSome) ∧
    (s.engine.phase = .idle → s.engine.write = .none ∧ s.engine.releasing = none) ∧
    (s.engine.phase ≠ .idle → ∃ r b, s.engine.releasing = some r ∧ s.records[r] = some b) ∧
    (s.mode = .bypass → s.engine.phase = .idle)

end Sys2Proof.Machine
end

