-- ==== Sys2Proof/Certificates/Slice0/Obligations.lean ====
section
/-! DEFINITION. The statements about the part that are to be proved. Each cites the rules of the manual it rests on. -/

section

open Sys2Proof Sys2Proof.Machine

/-! ## Steps and the reset state -/

/-- A step takes the command at the front of the queue and runs it on the part with the queue's rest. -/
def Obligations.StepTakesTheFrontCommand : Prop :=
  ∀ (c : Instr) (s : State), step { s with pending := c :: s.pending } = exec c s

/-- With no command waiting, a step is one microsecond (the model's choice, log 4): both running timers count it, and a
timer with no time left runs out (R57, R107). When both run out, either order may happen (section 1.8, log 6). -/
def Obligations.EmptyQueueIsOneMicrosecond : Prop :=
  ∀ s : State, s.pending = [] →
    let u : State :=
      { s with
        tracker := { s.tracker with supervision := s.tracker.supervision.map (· - 1) }
        upstream := { s.upstream with stallTimer := s.upstream.stallTimer.map (· - 1) } }
    let scan : Prop := u.tracker.supervision = some 0
    let stall : Prop := s.upstream.phase = .wait ∧ u.upstream.stallTimer = some 0
    (¬scan → ¬stall → step s = .next u) ∧
    (scan → ¬stall → step s = exec .supervisionExpiry u) ∧
    (¬scan → stall → step s = exec .stallExpiry u) ∧
    (scan → stall →
      step s = execAll [.supervisionExpiry, .stallExpiry] { u with freeIndex := s.freeIndex + 1 } ∨
        step s = execAll [.stallExpiry, .supervisionExpiry] { u with freeIndex := s.freeIndex + 1 })

/-- The part right after the reset line obeys every law of the part. -/
def Obligations.ResetMeetsEveryLaw : Prop :=
  let s := State.reset
  MemoryCanonical s ∧ QueueWithinBounds s ∧ LinkWithinBounds s ∧ AtMost1024Entries s ∧ NoWordTwice s ∧
    BypassHoldsNothing s ∧ OneReleasing s ∧ OneOpenBatch s ∧ BatchesStand s ∧ BatchFieldsFollowItsState s ∧
    EntriesLieInTheirWindow s ∧ LiveTableSound s ∧ LiveTableFits s ∧ DifferingWindowsClose s ∧
    ClosingOnlyWhilePending s ∧ TimingWithinRanges s ∧ LockedLineBelowT s ∧ UpstreamPortSound s ∧
    UpstreamClaimIsItsOwn s ∧ DirectWriteMeetsNoEntry s ∧ NoWaitInBypass s ∧ HeldInReset s ∧ HandshakeSound s ∧
    ReleaseShareBound s ∧ ReleaseWritesTheFirstEntry s

/-! ## Upstream traffic (chapter 05) -/

/-- R88, R89, R92: a write that Table 6-2 sends direct is claimed at the downstream port. -/
def Obligations.DirectWriteIsClaimed : Prop :=
  ∀ (s : State) (a : Addr) (m : Lanes) (d : Word), s.canTake = true → m ≠ 0 → GoesDirect s a → NoClaimWaitsInFree s →
    exec (.upstreamWrite a m d) s =
      .next (s.withUpstreamClaim (.write a m d) .direct (.directWrite a m d))

/-- R8, R91: the first held write of a window opens a batch in the lowest free record. -/
def Obligations.HeldWriteOpensABatch : Prop :=
  ∀ (s : State) (a : Addr) (m : Lanes) (d : Word) (W : WindowIdx) (r : RecordIdx), s.canTake = true → m ≠ 0 →
    GoesHeld s a W → s.live[W].isCommit a = false → s.windows[W].openBatch = none → s.occupancy < 1024 →
    s.records[r] = none → (∀ q : RecordIdx, q < r → s.records[q].isSome = true) →
    exec (.upstreamWrite a m d) s =
      .next
        { (s.setRecord r
            (some ⟨.opened, W, [⟨a, d, m⟩], 0, s.live[W].screenRow a, s.live[W].screenRow a, none, none, none, none,
              false⟩)).setWindow W { s.windows[W] with openBatch := some r, idle := 0 } with
          upstream := UpstreamPort.done none }

/-- R9, R91: a held write whose word stands in the open batch merges its lanes into the entry; the other lanes keep their
bytes, and neither the order, nor the count, nor the row span changes. -/
def Obligations.HeldWriteCoalesces : Prop :=
  ∀ (s : State) (a : Addr) (m : Lanes) (d : Word) (W : WindowIdx) (r : RecordIdx) (b : BatchRecord) (e : Entry)
    (before after : List Entry), s.canTake = true → m ≠ 0 → GoesHeld s a W → s.live[W].isCommit a = false →
    s.windows[W].openBatch = some r → s.records[r] = some b → b.entries = before ++ e :: after → e.addr = a →
    (∀ x ∈ before ++ after, x.addr ≠ a) →
    ∃ merged : Word,
      exec (.upstreamWrite a m d) s =
        .next
          { (s.setRecord r (some { b with entries := before ++ ⟨a, merged, e.lanes ||| m⟩ :: after })).setWindow W
              { s.windows[W] with openBatch := some r, idle := 0 } with
            upstream := UpstreamPort.done none } ∧
      ∀ i : Fin 4, laneByte merged i = if m.getLsbD i.val then laneByte d i else laneByte e.data i

/-- R10, R91: a held write of a word new to the open batch is appended, and widens the row span. -/
def Obligations.HeldWriteAppends : Prop :=
  ∀ (s : State) (a : Addr) (m : Lanes) (d : Word) (W : WindowIdx) (r : RecordIdx) (b : BatchRecord),
    s.canTake = true → m ≠ 0 → GoesHeld s a W → s.live[W].isCommit a = false → s.windows[W].openBatch = some r →
    s.records[r] = some b → (∀ x ∈ b.entries, x.addr ≠ a) → s.occupancy < 1024 →
    exec (.upstreamWrite a m d) s =
      .next
        { (s.setRecord r
            (some { b with
              entries := b.entries ++ [⟨a, d, m⟩]
              firstRow := min b.firstRow (s.live[W].screenRow a)
              lastRow := max b.lastRow (s.live[W].screenRow a) })).setWindow W
            { s.windows[W] with openBatch := some r, idle := 0 } with
          upstream := UpstreamPort.done none }

/-- R14, R91, R12: a held write to the commit word is stored, completes, and seals the batch that holds it, in one step. -/
def Obligations.CommitWriteSealsItsBatch : Prop :=
  ∀ (s : State) (a : Addr) (m : Lanes) (d : Word) (W : WindowIdx), s.canTake = true → m ≠ 0 → GoesHeld s a W →
    s.live[W].isCommit a = true → s.canStore W a = true →
    ∃ (t : State) (r : RecordIdx) (b : BatchRecord) (e : Entry),
      exec (.upstreamWrite a m d) s = .next t ∧ t.upstream = UpstreamPort.done none ∧
        t.windows[W].openBatch = none ∧ t.windows[W].idle = 0 ∧
        t.windows[W].lastSealed = s.windows[W].lastSealed + 1 ∧ t.sealOrdinal = s.sealOrdinal + 1 ∧
        s.storeTarget W = some r ∧ t.records[r] = some b ∧ b.seq = some (s.windows[W].lastSealed + 1) ∧
        b.ordinal = some (s.sealOrdinal + 1) ∧ e ∈ b.entries ∧ e.addr = a ∧ m &&& e.lanes = m ∧
        (∀ i : Fin 4, m.getLsbD i.val = true → laneByte e.data i = laneByte d i) ∧
        (b.state = .sealed ∧ t.windows[W].sealedQueue.getLast? = some r ∨
          b.state = .releasing ∧ t.engine.releasing = some r)

/-- R90: a zero-strobe write completes at its taking, and but for a commit word in ACTIVE it does nothing else. -/
def Obligations.ZeroStrobeWriteCompletes : Prop :=
  ∀ (s : State) (a : Addr) (d : Word), s.canTake = true →
    (∃ t, exec (.upstreamWrite a 0 d) s = .next t ∧ t.upstream = UpstreamPort.done none) ∧
    ((s.mode ≠ .active ∨ coherentWindow s.live a = none ∨
        ∃ W, coherentWindow s.live a = some W ∧
          (s.live[W].isCommit a = false ∨ s.windows[W].closing = true ∨ s.windows[W].openBatch = none)) →
      exec (.upstreamWrite a 0 d) s = .next { s with upstream := UpstreamPort.done none }) ∧
    ∀ (W : WindowIdx) (r : RecordIdx) (b : BatchRecord), GoesHeld s a W → s.live[W].isCommit a = true →
      s.windows[W].openBatch = some r → s.records[r] = some b →
      ∃ t c, exec (.upstreamWrite a 0 d) s = .next t ∧ t.windows[W].openBatch = none ∧
        t.windows[W].idle = s.windows[W].idle ∧ t.windows[W].lastSealed = s.windows[W].lastSealed + 1 ∧
        t.sealOrdinal = s.sealOrdinal + 1 ∧ t.records[r] = some c ∧ c.entries = b.entries ∧
        c.seq = some (s.windows[W].lastSealed + 1) ∧ c.ordinal = some (s.sealOrdinal + 1)

/-- R98, R105: a blocked write waits. The port keeps it, records the cause and the window, starts the timer and hands the
STALL flag; nothing else changes. -/
def Obligations.BlockedWriteWaits : Prop :=
  ∀ (s : State) (a : Addr) (m : Lanes) (d : Word) (why : Cause) (W : WindowIdx), s.canTake = true → m ≠ 0 →
    Blocked s a W why →
    exec (.upstreamWrite a m d) s =
      .next
        { s with
          upstream :=
            ⟨some (.write a m d), .wait, some why, some W,
              if s.timing.stallLimit = 0 then none else some s.timing.stallLimit, false, none⟩
          incidents := { s.incidents with flags := s.incidents.flags ||| flagMask .stall } }

/-- R86: a request is taken only in IDLE with URDY withdrawn and RSTn withdrawn; otherwise it stays on the bus (log 3). URDY
is withdrawn when the processor withdraws UREQ. -/
def Obligations.OneUpstreamTransactionAtATime : Prop :=
  ∀ (s : State) (a : Addr) (m : Lanes) (d : Word),
    (s.resetAsserted = true ∨ s.upstream.phase ≠ .idle ∨ s.upstream.urdy = true →
      exec (.upstreamWrite a m d) s = .next s ∧ exec (.upstreamRead a m) s = .next s) ∧
    exec .ureqWithdrawn s = .next { s with upstream := { s.upstream with urdy := false, answer := none } }

/-- R94: a read whose word held entries cover is answered at its taking; any other claims one memory read. The strobes are
not used. -/
def Obligations.ReadIsAnsweredOrClaimed : Prop :=
  ∀ (s : State) (a : Addr) (m : Lanes), s.canTake = true →
    ((s.lookup a).1 = 0xF → exec (.upstreamRead a m) s = .next { s with upstream := UpstreamPort.done (some (s.lookup a).2) }) ∧
    ((s.lookup a).1 ≠ 0xF → NoClaimWaitsInFree s →
      exec (.upstreamRead a m) s = .next (s.withUpstreamClaim (.read a m) .read (.memoryRead a)))

/-- R27: the lookup examines the open batch, then the SEALED ones from the youngest, then the RELEASING one of the word's
coherent window, and gives in each lane the newest entry's byte; a lane that none covers is not covered. -/
def Obligations.LookupTakesTheNewestByte : Prop :=
  ∀ (s : State) (w : Addr) (i : Fin 4),
    ((s.lookup w).1.getLsbD i.val = true ↔ ∃ x ∈ s.heldFor w, x.2.lanes.getLsbD i.val = true) ∧
    (∀ (newer older : List (RecordIdx × Entry)) (x : RecordIdx × Entry), s.heldFor w = newer ++ x :: older →
      x.2.lanes.getLsbD i.val = true → (∀ y ∈ newer, y.2.lanes.getLsbD i.val = false) →
      laneByte (s.lookup w).2 i = laneByte x.2.data i) ∧
    (∀ x ∈ s.heldFor w, ∃ W b, coherentWindow s.live w = some W ∧ s.records[x.1] = some b ∧ x.2 ∈ b.entries ∧ x.2.addr = w) ∧
    (∀ W, coherentWindow s.live w = some W →
      s.heldFor w =
        ((s.windows[W].openBatch.toList ++ s.windows[W].sealedQueue.reverse ++
            s.engine.releasing.toList.filter fun r => s.records[r].any fun b => b.window == W).filterMap fun r =>
          ((recordEntries s.records[r]).find? fun e => e.addr == w).map fun e => (r, e)))

/-- R95: at the completion of a memory read a second lookup is made; each lane it covers takes the held byte, each other the
byte the memory returned. -/
def Obligations.MemoryReadMergesHeldLanes : Prop :=
  ∀ (s : State) (a : Addr) (dd : Word), s.port.transaction = some (.memoryRead a) →
    ∃ answer : Word,
      exec (.memoryReadComplete dd) s =
        .next
          { s with
            upstream := UpstreamPort.done (some answer)
            port := { s.port with phase := .recovering, transaction := none, drdy := true } } ∧
      ∀ i : Fin 4,
        laneByte answer i = if (s.lookup a).1.getLsbD i.val then laneByte (s.lookup a).2 i else laneByte dd i

/-! ## Completions at the memory (chapters 01, 04, 07) -/

/-- R92, R119, R124: when the memory acknowledges a direct write, its strobed lanes stand in memory, the upstream port gives
URDY and returns to IDLE, and the downstream port is RECOVERING; nothing else changes. -/
def Obligations.DirectWriteCompletes : Prop :=
  ∀ (s : State) (a : Addr) (m : Lanes) (d : Word), s.port.transaction = some (.directWrite a m d) →
    ∃ memory, WrittenLanes s.memory memory a m d ∧
      exec .directWriteComplete s =
        .next { s with upstream := UpstreamPort.done none, port := s.port.acknowledged, memory := memory }

/-- R23, R71: at the completion of an entry's write the entry leaves the store, the written count goes up, and while entries
remain the write of the next is requested; it waits, since the port is RECOVERING. -/
def Obligations.EntryWriteAsksForTheNext : Prop :=
  ∀ (s : State) (r : RecordIdx) (b : BatchRecord) (e next : Entry) (rest : List Entry) (a : Addr) (m : Lanes) (d : Word),
    WriteInFlight s .entries r b → b.entries = e :: next :: rest → s.port.transaction = some (.entryWrite a m d) →
    s.upstream.phase ≠ .wait →
    ∃ memory, WrittenLanes s.memory memory a m d ∧
      exec .entryWriteComplete s =
        .next
          { s.setRecord r (some { b with entries := next :: rest, written := b.written + 1 }) with
            port := { s.port.acknowledged with releaseClaim := some (.entryWrite next.addr next.lanes next.data) }
            engine := { s.engine with write := .waiting }
            memory := memory }

/-- R72, R78, R175: the last entry's completion captures the frame byte and, where the window has a receipt address,
requests the write of the receipt word there. -/
def Obligations.LastEntryAsksForTheReceipt : Prop :=
  ∀ (s : State) (r : RecordIdx) (b : BatchRecord) (e : Entry) (address a : Addr) (m : Lanes) (d : Word),
    WriteInFlight s .entries r b → b.entries = [e] → s.live[b.window].receipt = some address →
    s.port.transaction = some (.entryWrite a m d) → s.upstream.phase ≠ .wait →
    ∃ (memory : Memory) (word : Word) (frame : Byte), WrittenLanes s.memory memory a m d ∧
      frame = s.tracker.frameCounter.extractLsb' 0 8 ∧ ReceiptFields word b frame ∧
      exec .entryWriteComplete s =
        .next
          { s.setRecord r (some { b with entries := [], written := b.written + 1 }) with
            port := { s.port.acknowledged with releaseClaim := some (.receiptWrite address word) }
            engine := ⟨.receipt, some r, .waiting, some frame⟩
            memory := memory }

/-- R80: a retirement sets the window's last-retired seq, counts it, sets the RETIRE flag, and, where no waiting write takes
the freed record at once, leaves the record free; every other window keeps its counters. -/
def Obligations.RetirementFreesTheRecord : Prop :=
  ∀ (c : Instr) (s : State) (r : RecordIdx) (b : BatchRecord) (q : BitVec 16) (a : Addr) (m : Lanes) (d : Word),
    RetiresAt c s r b a m d → b.seq = some q →
    ∃ t, exec c s = .next t ∧ WrittenLanes s.memory t.memory a m d ∧ t.windows[b.window].lastRetired = q ∧
      t.windows[b.window].retired = s.windows[b.window].retired + 1 ∧ t.flagSet (.retire b.window) = true ∧
      (∀ V : WindowIdx, V ≠ b.window →
        t.windows[V].lastRetired = s.windows[V].lastRetired ∧ t.windows[V].retired = s.windows[V].retired) ∧
      t.port.phase = .recovering ∧ t.port.transaction = none ∧
      (s.upstream.phase ≠ .wait → t.records[r] = none ∧ t.engine.releasing ≠ some r ∧ t.upstream = s.upstream)

/-- R24, R135, R142 point 3, R130: in DRAINING the retirement that empties the store makes the mode BYPASS, completes a
pending apply, sets DRAINED and sends a waiting write direct; any other retirement leaves the mode. -/
def Obligations.LastRetirementCompletesTheDrain : Prop :=
  ∀ (c : Instr) (s : State) (r : RecordIdx) (b : BatchRecord) (a : Addr) (m : Lanes) (d : Word),
    RetiresAt c s r b a m d → s.mode = .draining →
    ∃ t, exec c s = .next t ∧
      ((∃ q : RecordIdx, q ≠ r ∧ s.records[q].isSome = true) → t.mode = .draining) ∧
      ((∀ q : RecordIdx, q ≠ r → s.records[q] = none) →
        t.mode = .bypass ∧ t.flagSet .drained = true ∧ t.applyPending = false ∧ (∀ q : RecordIdx, t.records[q] = none) ∧
        (s.applyPending = true →
          t.live = s.staged ∧ t.flagSet .applied = true ∧ ∀ V : WindowIdx, t.windows[V].closing = false) ∧
        (s.applyPending = false → t.live = s.live) ∧
        ∀ (w : Addr) (strobes : Lanes) (data : Word), s.upstream.phase = .wait →
          s.upstream.transaction = some (.write w strobes data) →
          t.upstream = ⟨some (.write w strobes data), .direct, none, none, none, false, none⟩ ∧
            t.port.upstreamClaim = some (.directWrite w strobes data))

/-- R124, R25: the completion of a release write whose release discard or RESTART has ended reaches memory and changes
nothing at the engine or in the store. -/
def Obligations.CompletionWithoutOwnerChangesMemoryAlone : Prop :=
  ∀ (s : State) (a : Addr) (m : Lanes) (d : Word), s.engine.phase = .idle ∨ s.engine.write ≠ .inFlight →
    (s.port.transaction = some (.entryWrite a m d) →
      ∃ memory, WrittenLanes s.memory memory a m d ∧
        exec .entryWriteComplete s = .next { s with port := s.port.acknowledged, memory := memory }) ∧
    (s.port.transaction = some (.receiptWrite a d) →
      ∃ memory, WrittenLanes s.memory memory a 0xF d ∧
        exec .receiptWriteComplete s = .next { s with port := s.port.acknowledged, memory := memory })

/-- R23, R99, R100: the departure of an entry re-examines the waiting write. A held write that now finds a slot is stored and
completes; a write waiting for the entries of its word goes direct when the last has left; while another remains it waits on,
its timer untouched. -/
def Obligations.DepartureReexaminesTheWaitingWrite : Prop :=
  ∀ (s : State) (r : RecordIdx) (b : BatchRecord) (e next : Entry) (rest : List Entry) (x : Addr) (y : Lanes) (z : Word)
    (a : Addr) (m : Lanes) (d : Word),
    WriteInFlight s .entries r b → b.entries = e :: next :: rest → s.port.transaction = some (.entryWrite x y z) →
    s.upstream.phase = .wait → s.upstream.transaction = some (.write a m d) →
    (∀ (W : WindowIdx) (q : RecordIdx) (o : BatchRecord), GoesHeld s a W → s.live[W].isCommit a = false →
      s.windows[W].openBatch = some q → q ≠ r → s.records[q] = some o → (∀ f ∈ o.entries, f.addr ≠ a) →
      s.occupancy ≤ 1024 →
      ∃ t, exec .entryWriteComplete s = .next t ∧ t.upstream = UpstreamPort.done none ∧ t.windows[W].idle = 0 ∧
        t.records[q] =
          some { o with
            entries := o.entries ++ [⟨a, d, m⟩]
            firstRow := min o.firstRow (s.live[W].screenRow a)
            lastRow := max o.lastRow (s.live[W].screenRow a) }) ∧
    (∀ W : WindowIdx, s.mode = .draining → coherentWindow s.live a = some W → s.windows[W].closing = false →
      s.heldFor a = [(r, e)] → (∀ f ∈ next :: rest, f.addr ≠ a) →
      ∃ t, exec .entryWriteComplete s = .next t ∧
        t.upstream = ⟨some (.write a m d), .direct, none, none, none, false, none⟩ ∧
        t.port.upstreamClaim = some (.directWrite a m d)) ∧
    (∀ (W : WindowIdx) (h : RecordIdx × Entry), s.mode = .draining → coherentWindow s.live a = some W →
      s.windows[W].closing = false → h ∈ s.heldFor a → h.1 ≠ r →
      ∃ t, exec .entryWriteComplete s = .next t ∧
        t.upstream = { s.upstream with cause := some .b, stallWindow := some W })

/-- R119 steps 3 and 4, R122: when the memory withdraws DRDY the port is FREE and grants a waiting claim at once, the
upstream one first unless the release claim has been passed over P times. -/
def Obligations.DrdyReleaseGrantsByTheShare : Prop :=
  ∀ (s : State) (u v : Claim), s.resetAsserted = false → s.port.drdy = true →
    (s.port.upstreamClaim = none → s.port.releaseClaim = none →
      exec .drdyRelease s = .next { s with port := { s.port with drdy := false, phase := .free } }) ∧
    (s.port.upstreamClaim = some u → s.port.releaseClaim = none →
      exec .drdyRelease s =
        .next { s with port :=
          { s.port with drdy := false, phase := .busy, transaction := some u, upstreamClaim := none, passedOver := 0 } }) ∧
    (s.port.upstreamClaim = none → s.port.releaseClaim = some v →
      exec .drdyRelease s =
        .next { s with
          port :=
            { s.port with drdy := false, phase := .busy, transaction := some v, releaseClaim := none, passedOver := 0 }
          engine := { s.engine with write := .inFlight } }) ∧
    (s.port.upstreamClaim = some u → s.port.releaseClaim = some v → s.port.passedOver < s.timing.share →
      exec .drdyRelease s =
        .next { s with port :=
          { s.port with
            drdy := false, phase := .busy, transaction := some u, upstreamClaim := none
            passedOver := s.port.passedOver + 1 } }) ∧
    (s.port.upstreamClaim = some u → s.port.releaseClaim = some v → s.port.passedOver = s.timing.share →
      exec .drdyRelease s =
        .next { s with
          port :=
            { s.port with drdy := false, phase := .busy, transaction := some v, releaseClaim := none, passedOver := 0 }
          engine := { s.engine with write := .inFlight } })

/-- R125: an assertion of DRDY while the port is FREE belongs to no transaction: the port becomes RECOVERING, nothing is
completed and memory is as it was. -/
def Obligations.StrayDrdyCompletesNothing : Prop :=
  ∀ s : State, s.resetAsserted = false → s.port.phase = .free →
    exec .strayDrdy s = .next { s with port := { s.port with drdy := true, phase := .recovering } }

/-- R119, R125: whatever command is taken, a byte of memory changes only if the transaction in flight is a write that
strobes it, and then it holds that write's byte; so does a byte that the reset line's cut has changed. A command that is no
completion of such a write and not the reset line changes no byte. -/
def Obligations.MemoryChangesOnlyInStrobedLanes : Prop :=
  ∀ (c : Instr) (s t : State) (k : Nat), exec c s = .next t →
    (SameByte s t k ∨
      ∃ (x : Claim) (d : Word) (i : Fin 4), s.port.transaction = some x ∧ x.data = some d ∧
        x.strobes.getLsbD i.val = true ∧ k = laneKey x.addr i.val ∧ t.memory.read k = some (laneByte d i)) ∧
    (c ≠ .directWriteComplete → c ≠ .entryWriteComplete → c ≠ .receiptWriteComplete → c ≠ .resetLine → SameByte s t k)

/-! ## The scan (chapter 03) -/

/-- R52, R54, R55, R57, R59 (Table 4-4): what a frame-start makes of the tracker, with the timing set. -/
def Obligations.FrameStartMovesTheTracker : Prop :=
  ∀ (s : State) (T : Nat), s.resetAsserted = false → s.timing.lines = some T → 8 ≤ T →
    ∃ t, exec .frameStart s = .next t ∧
      t.tracker =
        ⟨match s.tracker.state with
          | .lost => .acquire
          | .acquire => if s.tracker.line = some (T - 1) ∧ s.tracker.overrun = false then .locked else .acquire
          | .locked => if s.tracker.line = some (T - 1) then .locked else .acquire,
          some 0, false, s.tracker.frameCounter + 1, some s.timing.supervision⟩ ∧
      (s.tracker.state = .acquire → t.tracker.state = .locked → t.flagSet .locked = true) ∧
      (s.tracker.state = .locked → t.tracker.state = .acquire →
        Handed ⟨.geometry, none, none, s.tracker.line, s.tracker.frameCounter, none⟩ s t)

/-- R52, R53, R55, R57, R59 (Table 4-4): what a line-start makes of the tracker, with the timing set. -/
def Obligations.LineStartMovesTheTracker : Prop :=
  ∀ (s : State) (T : Nat), s.resetAsserted = false → s.timing.lines = some T → 8 ≤ T →
    ∃ t, exec .lineStart s = .next t ∧
      (s.tracker.state = .lost → t.tracker = s.tracker) ∧
      (s.tracker.state = .acquire → ∀ line, s.tracker.line = some line → line ≤ 4095 →
        t.tracker = s.tracker.counted s.timing.supervision) ∧
      (s.tracker.state = .locked → ∀ line, s.tracker.line = some line → line < T - 1 →
        t.tracker = { s.tracker with line := some (line + 1), supervision := some s.timing.supervision }) ∧
      (s.tracker.state = .locked → s.tracker.line = some (T - 1) → T ≤ 4096 →
        t.tracker = s.tracker.counted s.timing.supervision ∧
          Handed ⟨.geometry, none, none, some (T - 1), s.tracker.frameCounter, none⟩ s t)

/-- R51: while the timing is unset, line events leave the tracker as it is; R145: while RSTn is asserted, none is taken. -/
def Obligations.UnsetTimingIgnoresTheScan : Prop :=
  ∀ (s : State) (c : Instr), c = .frameStart ∨ c = .lineStart →
    (s.resetAsserted = true → exec c s = .next s) ∧
    (s.timing.lines = none → ∃ t, exec c s = .next t ∧ t.tracker = s.tracker)

/-- R57, R59: when the supervision timer runs out the tracker is LOST, its frame counter kept, the LOST flag is set and a
SYNC_LOST incident is handed with the line and the counter as they stood. A stopped timer does not run out (log 1). -/
def Obligations.SupervisionExpiryLosesTheScan : Prop :=
  ∀ s : State,
    (s.tracker.supervision = none → exec .supervisionExpiry s = .next s) ∧
    (s.tracker.supervision ≠ none →
      ∃ t, exec .supervisionExpiry s = .next t ∧ t.tracker = ⟨.lost, none, false, s.tracker.frameCounter, none⟩ ∧
        t.flagSet .lost = true ∧
        Handed ⟨.syncLost, none, none, s.tracker.line, s.tracker.frameCounter, none⟩ s t)

/-- R7: compared by their ordinals' difference, no batch is older than one that is older than it, and among ordinals that lie
less than 2^31 apart the order is that of sealing, across the wrap. -/
def Obligations.OrdinalsCompareAcrossTheWrap : Prop :=
  (∀ x y : BitVec 32, olderOrdinal x y = true → olderOrdinal y x = false) ∧
    ∀ (base : BitVec 32) (i j : Nat), i < 2 ^ 31 → j < 2 ^ 31 →
      (olderOrdinal (base + BitVec.ofNat 32 i) (base + BitVec.ofNat 32 j) = true ↔ i < j)

/-! ## Line events, late checks and expiries (chapters 01, 04, 06) -/

/-- R15, R12: every line event counts one more toward each window's idle count, up to 255; a window whose idle seal value
that increment reaches has its open batch sealed, and no other window's open batch is touched. -/
def Obligations.LineEventsCountAndSealIdleWindows : Prop :=
  ∀ (s : State) (c : Instr) (W : WindowIdx), s.resetAsserted = false →
    c = .lineStart ∨ c = .frameStart ∧ (s.upstream.phase ≠ .wait ∨ s.applyPending = false) →
    ∃ t, exec c s = .next t ∧
      t.windows[W].idle = (if s.windows[W].idle < 255 then s.windows[W].idle + 1 else s.windows[W].idle) ∧
      (∀ (r : RecordIdx) (b : BatchRecord), s.windows[W].openBatch = some r → s.records[r] = some b →
        s.live[W].idleSeal ≠ 0 → s.windows[W].idle < 255 → s.windows[W].idle + 1 = s.live[W].idleSeal →
        t.windows[W].openBatch = none ∧ t.windows[W].lastSealed = s.windows[W].lastSealed + 1) ∧
      (s.windows[W].openBatch = none ∨ s.live[W].idleSeal = 0 ∨ 255 ≤ s.windows[W].idle ∨
          s.windows[W].idle + 1 ≠ s.live[W].idleSeal →
        t.windows[W].openBatch = s.windows[W].openBatch ∧ t.windows[W].lastSealed = s.windows[W].lastSealed)

/-- R76, R77, R84: a line event that leaves the tracker LOCKED finds the releasing batch late exactly when the scan is on its
rows, some of its entries are written and some are not; a LATE incident is then handed, and the release goes on. -/
def Obligations.LateCheckMarksATornBatch : Prop :=
  ∀ (s : State) (c : Instr) (r : RecordIdx) (b : BatchRecord), s.resetAsserted = false → c = .lineStart ∨ c = .frameStart →
    NoClaimWaitsInFree s → s.engine.phase = .entries → s.engine.releasing = some r → s.records[r] = some b →
    ∃ t b', exec c s = .next t ∧ t.records[r] = some b' ∧ t.engine = s.engine ∧ b'.ground = b.ground ∧
      (b.late = true → b'.late = true) ∧
      (b.late = false →
        ((b'.late = true ↔
          t.tracker.state = .locked ∧ 1 ≤ b.written ∧ b.entries ≠ [] ∧
            ∃ line, t.tracker.line = some line ∧ s.timing.firstLine + b.firstRow ≤ line ∧
              line ≤ s.timing.firstLine + b.lastRow) ∧
          (b'.late = true →
            Handed ⟨.late, some b.window, b.seq, t.tracker.line, t.tracker.frameCounter, none⟩ s t)))

/-- R107, R108: an expiry hands its incident, restarts the timer with the full limit, and the wait goes on unchanged. -/
def Obligations.StallExpiryReportsAndRestarts : Prop :=
  ∀ s : State, s.upstream.phase = .wait → s.upstream.stallTimer ≠ none →
    ∃ t, exec .stallExpiry s = .next t ∧
      t.upstream =
        { s.upstream with stallTimer := if s.timing.stallLimit = 0 then none else some s.timing.stallLimit } ∧
      Handed ⟨.stallExpired, s.upstream.stallWindow, none, if s.tracker.state = .lost then none else s.tracker.line,
        s.tracker.frameCounter, s.upstream.cause.map .cause⟩ s t

/-- R110, R20, R21: an expiry under cause A marks the oldest SEALED batch without a mark, and beside it only batches ahead of
it in its window's queue. R111, R12, R66: with no unmarked SEALED batch, it seals the open batch of the most entries, of the
lowest window among equals, and marks it STALL unless the oversize check of the seal has marked it. -/
def Obligations.ExpiryUnderAMarksTheOldestOrSealsTheLargest : Prop :=
  (∀ (s : State) (V W : WindowIdx) (r : RecordIdx) (b : BatchRecord), s.upstream.phase = .wait →
    s.upstream.stallTimer ≠ none → s.upstream.cause = some .a → r ∈ s.windows[W].sealedQueue → s.records[r] = some b →
    b.window = V → b.mark = none →
    (∀ (U : WindowIdx) (q : RecordIdx) (d : BatchRecord), q ∈ s.windows[U].sealedQueue → s.records[q] = some d →
      d.mark = none → q ≠ r → olderOrdinal (s.ordinalOf r) (s.ordinalOf q) = true) →
    ∃ t b', exec .stallExpiry s = .next t ∧ t.records[r] = some b' ∧ b'.mark = some .stall ∧ b'.entries = b.entries ∧
      ∀ (q : RecordIdx) (d : BatchRecord), q ≠ r → s.records[q] = some d → q ∉ s.olderThan V r →
        ∃ d', t.records[q] = some d' ∧ d'.mark = d.mark ∧ d'.entries = d.entries) ∧
  ∀ (s : State) (W : WindowIdx) (r : RecordIdx) (b : BatchRecord), s.upstream.phase = .wait →
      s.upstream.stallTimer ≠ none → s.upstream.cause = some .a →
      (∀ (U : WindowIdx) (q : RecordIdx) (d : BatchRecord), q ∈ s.windows[U].sealedQueue → s.records[q] = some d →
        d.mark ≠ none) →
      s.windows[W].openBatch = some r → s.records[r] = some b → b.mark = none →
      (∀ V : WindowIdx, s.windows[V].openBatch ≠ none → V ≠ W →
        s.openCount V < s.openCount W ∨ s.openCount V = s.openCount W ∧ W < V) →
      ∃ t b', exec .stallExpiry s = .next t ∧ t.windows[W].openBatch = none ∧
        t.windows[W].lastSealed = s.windows[W].lastSealed + 1 ∧ t.records[r] = some b' ∧ b'.entries = b.entries ∧
        b'.seq = some (s.windows[W].lastSealed + 1) ∧ b'.ordinal = some (s.sealOrdinal + 1) ∧
        (TooLarge s b → b'.mark = some .oversize) ∧ (¬TooLarge s b → b'.mark = some .stall)

/-- R112, R113, R20, R21: an expiry under cause B marks the newest batch that holds an entry for the waited-on word and the
older SEALED batches of its window; under cause C, every SEALED batch of every closing window, and no other batch. -/
def Obligations.ExpiryUnderBAndC : Prop :=
  ∀ (s : State) (q : RecordIdx) (d : BatchRecord), s.upstream.phase = .wait → s.upstream.stallTimer ≠ none →
    s.records[q] = some d →
    ∃ t d', exec .stallExpiry s = .next t ∧ t.records[q] = some d' ∧ d'.entries = d.entries ∧
      (∀ (a : Addr) (m : Lanes) (x : Word) (h : RecordIdx × Entry) (older : List (RecordIdx × Entry)) (b : BatchRecord),
        s.upstream.cause = some .b → s.upstream.transaction = some (.write a m x) → s.heldFor a = h :: older →
        s.records[h.1] = some b →
        d'.mark = if q = h.1 ∨ q ∈ s.olderThan b.window h.1 then d.mark <|> some .stall else d.mark) ∧
      (s.upstream.cause = some .c →
        ((∃ W : WindowIdx, s.windows[W].closing = true ∧ q ∈ s.windows[W].sealedQueue) →
          d'.mark = (d.mark <|> some .stall)) ∧
        ((∀ W : WindowIdx, s.windows[W].closing = true → q ∉ s.windows[W].sealedQueue) → d'.mark = d.mark))

/-- R63, R64, R65 (Table 5-2): when a candidate is eligible. The premise on the row span is R10's (first row, last row). -/
def Obligations.EligibilityFollowsTheScan : Prop :=
  ∀ (s : State) (r : RecordIdx) (b : BatchRecord) (T : Nat), s.records[r] = some b → b.firstRow ≤ b.lastRow →
    s.timing.lines = some T →
    (s.eligible r = true ↔
      b.mark ≠ none ∨ s.tracker.state = .lost ∨
        (s.tracker.state = .locked ∧ ∃ line, s.tracker.line = some line ∧
          ClearsTheScan (s.timing.firstLine + b.firstRow) (s.timing.firstLine + b.lastRow) b.entries.length T
            s.timing.rate line ∧
          (s.live[b.window].policy = .chase ∨
            s.live[b.window].policy = .frame ∧
              (line < s.timing.firstLine ∨ s.timing.firstLine + s.timing.active ≤ line))))

/-- R66, R12, R16, R20, R21: the oversize check of a seal marks OVERSIZE the batches that are too large for any gap, and with
such a batch every SEALED one of its window, each keeping a mark it has; it marks no other batch. R67: a batch that is not too
large is eligible at its window's line of Table 5-3. -/
def Obligations.NotOversizeIsEligibleOnceAFrame : Prop :=
  (∀ (s : State) (set : BitVec 8) (q : RecordIdx) (d : BatchRecord), BatchesStand s → Ends s .sealWindows [set] →
    s.records[q] = some d →
    ∃ t d', exec (.sealWindows set) s = .next t ∧ t.records[q] = some d' ∧ d'.entries = d.entries ∧
      (set.getLsbD d.window.val = true ∧ OpenBatchTooLarge s d.window ∧
          (s.windows[d.window].openBatch = some q ∨ q ∈ s.windows[d.window].sealedQueue) →
        d'.mark = (d.mark <|> some .oversize)) ∧
      (set.getLsbD d.window.val = false ∨ ¬OpenBatchTooLarge s d.window ∨
          s.windows[d.window].openBatch ≠ some q ∧ q ∉ s.windows[d.window].sealedQueue →
        d'.mark = d.mark)) ∧
  ∀ (s : State) (r : RecordIdx) (b : BatchRecord) (T line : Nat), s.records[r] = some b → b.firstRow ≤ b.lastRow →
    s.timing.lines = some T → b.lastRow < s.timing.active → s.timing.firstLine + s.timing.active ≤ T →
    ¬TooLarge s b → s.tracker.state = .locked → s.tracker.line = some line →
    (s.live[b.window].policy = .chase →
      line = (if s.timing.firstLine + b.lastRow = T - 1 then 0 else s.timing.firstLine + b.lastRow + 1) →
      b.entries ≠ [] → s.eligible r = true) ∧
    (s.live[b.window].policy = .frame →
      line = (if s.timing.firstLine + s.timing.active = T then 0 else s.timing.firstLine + s.timing.active) →
      s.eligible r = true)

/-- R68, R69, R70, R84: at a line event, a line-start or a frame-start, an idle engine starts the oldest of the eligible heads,
the force-marked ones first; with none eligible it starts nothing. The heads are judged with the tracker as the event leaves
it, and with the live table as it leaves it: a frame-start may complete an apply (R142, R143), which log 9 puts before the one
evaluation. The premises keep out a seal by idle counting in the same event, which adds a candidate, and a waiting write that such an
apply has re-examined (R99). -/
def Obligations.LineEventStartsTheOldestEligibleHead : Prop :=
  ∀ (s : State) (c : Instr), s.resetAsserted = false → s.engine.phase = .idle →
    c = .lineStart ∨ c = .frameStart ∧ (s.upstream.phase ≠ .wait ∨ s.applyPending = false) →
    (∀ W : WindowIdx, s.windows[W].openBatch = none ∨ s.live[W].idleSeal = 0 ∨ s.windows[W].idle + 1 ≠ s.live[W].idleSeal) →
    ∃ t u, exec c s = .next t ∧ u = ({ s with tracker := t.tracker, live := t.live } : State) ∧
      ((∀ r ∈ s.candidates, u.eligible r = false) → t.engine = s.engine ∧ t.records = s.records ∧ t.port = s.port) ∧
      ∀ (r : RecordIdx) (b : BatchRecord), r ∈ s.candidates → s.records[r] = some b → u.eligible r = true →
        (b.mark = none → ∀ q ∈ s.candidates, u.eligible q = true → s.unmarked q = true) →
        (∀ q ∈ s.candidates, q ≠ r → u.eligible q = true →
          (b.mark ≠ none → s.unmarked q = false) → olderOrdinal (s.ordinalOf r) (s.ordinalOf q) = true) →
        Started s t r b
            (if b.mark ≠ none then .forced else if t.tracker.state = .lost then .free else .scheduled) ∧
          (∀ reason, b.mark = some reason →
            t.flagSet .incident = true ∧
              (s.incidents.queue.length < 7 →
                ⟨.forced, some b.window, b.seq, if t.tracker.state = .lost then none else t.tracker.line,
                  t.tracker.frameCounter, some (.force reason)⟩ ∈ t.incidents.queue))

/-! ## The reset line and the link (chapters 08, 10) -/

/-- R145, R125: the reset line gives every block the values it has after reset, whatever was going on; a write that it cuts
leaves each strobed lane its old byte or the write's, and every other byte of memory is kept. When RSTn is withdrawn the
port is FREE with DRDY withdrawn and RECOVERING with it asserted, and nothing else changes. -/
def Obligations.ResetLineClearsThePart : Prop :=
  ∀ s : State,
    (∃ t, exec .resetLine s = .next t ∧
      t = { State.reset with
            port := ⟨.free, none, none, none, 0, s.port.drdy⟩
            resetAsserted := true
            memory := t.memory
            freeIndex := t.freeIndex
            pending := s.pending } ∧
      ∀ k, SameByte s t k ∨
        ∃ (c : Claim) (d : Word) (i : Fin 4), s.port.transaction = some c ∧ c.data = some d ∧
          c.strobes.getLsbD i.val = true ∧ k = laneKey c.addr i.val ∧ t.memory.read k = some (laneByte d i)) ∧
    (s.resetAsserted = true →
      exec .resetLineEnd s =
        .next
          { s with
            resetAsserted := false
            port := { s.port with phase := if s.port.drdy then .recovering else .free } }) ∧
    (s.resetAsserted = false → exec .resetLineEnd s = .next s)

/-- R158, R159: a falling edge of SEL begins a frame; eight rising edges of SCK bring in a byte, which is counted up to 68 and
stored up to 67; the falling edges shift the response out, most significant bit first, and FFh beyond it. With no frame in
progress every edge of SCK is ignored, and SDO is not driven. -/
def Obligations.LinkClocksBytesInAndOut : Prop :=
  ∀ s : State,
    (s.resetAsserted = false → s.link.inProgress = false →
      exec .frameBegin s = .next { s with link := ⟨true, 0, 0, 0, [], s.link.response, 0, 0⟩ }) ∧
    (s.link.inProgress = true → s.link.bits < 7 → ∀ b : Bool,
      exec (.sckRisingEdge b) s =
        .next
          { s with link :=
              { s.link with bits := s.link.bits + 1, current := s.link.current.extractLsb' 0 7 ++ BitVec.ofBool b } }) ∧
    (s.link.inProgress = true → s.link.outBits < 7 →
      exec .sckFallingEdge s = .next { s with link := { s.link with outBits := s.link.outBits + 1 } }) ∧
    (s.link.inProgress = false → s.sdo = none ∧ exec .sckFallingEdge s = .next s ∧ ∀ b, exec (.sckRisingEdge b) s = .next s) ∧
    (s.link.inProgress = true → s.link.bits = 0 → s.link.stored.length = min s.link.byteCount 67 → ∀ b : Byte,
      execAll ((bitsOf b).map .sckRisingEdge) s =
        .next
          { s with link :=
              { s.link with
                current := 0
                byteCount := if s.link.byteCount < 68 then s.link.byteCount + 1 else s.link.byteCount
                stored := (s.link.stored ++ [b]).take 67 } }) ∧
    (s.link.inProgress = true → s.link.outPosition = 0 → s.link.outBits = 0 → ∀ p j : Nat, j < 8 →
      ∃ t, execAll (List.replicate (8 * p + j) .sckFallingEdge) s = .next t ∧
        t = { s with link := { s.link with outPosition := p, outBits := j } } ∧
        t.sdo = some (((responseBytes s.link.response).getD p 0xFF).getLsbD (7 - j)))

/-- R162, R163, R164, R161: a frame with no bit and a read-back frame keep the response; a frame whose size does not follow
from its length byte, or does not suit its command, is answered LENGTH, one with a wrong check byte CHECK, and one whose
command byte names no command UNKNOWN. None executes anything. The check byte over bytes and their check byte is 0. -/
def Obligations.FramesThatAreNoCommand : Prop :=
  (∀ s : State, s.frameCanBe [] 0 = true →
    exec .noBitReceived s = .next (s.answered s.link.response.status s.link.response.payload)) ∧
  (∀ (s : State) (b : Byte) (rest : List Byte) (extra : Nat), b = 0x00 ∨ b = 0xFF →
    s.frameCanBe (b :: rest) extra = true →
    exec (.readBack (b :: rest) extra) s = .next (s.answered s.link.response.status s.link.response.payload)) ∧
  (∀ (s : State) (bytes : List Byte) (extra : Nat), s.frameCanBe bytes extra = true → bytes ≠ [] ∨ extra ≠ 0 →
    bytes.head? ≠ some 0x00 → bytes.head? ≠ some 0xFF →
    let l := (bytes.getD 1 0).toNat
    let wellSized := extra = 0 ∧ l ≤ 64 ∧ bytes.length = l + 3
    (¬wellSized → exec (.malformedFrame bytes extra) s = .next (s.answered .length [])) ∧
    (wellSized → bytes.getD (l + 2) 0 ≠ checkByte (bytes.take (l + 2)) →
      exec (.malformedFrame bytes extra) s = .next (s.answered .check [])) ∧
    (wellSized → bytes.getD (l + 2) 0 = checkByte (bytes.take (l + 2)) →
      ((∀ c : Command, commandByte c ≠ bytes.getD 0 0) →
        exec (.malformedFrame bytes extra) s = .next (s.answered .unknown [])) ∧
      ∀ c : Command, commandByte c = bytes.getD 0 0 → l ≠ payloadLength c →
        exec (.malformedFrame bytes extra) s = .next (s.answered .length []))) ∧
  ∀ bs : List Byte, checkByte (bs ++ [checkByte bs]) = 0

/-- R165, R166, R167, R49, R38, R44: the five reports are composed from the part as it stands, and change nothing else. -/
def Obligations.ReportsAreSnapshots : Prop :=
  ∀ s : State,
    (Ends s .ident [] →
      exec .ident s = .next (s.answered .ok [0x55, 0x57, 0x06, 0x28, 0x01, 0x08, 0x04, 0x00, 0x10, 0x08])) ∧
    (Ends s .status [] →
      exec .status s =
        .next (s.answered .ok
          (([match s.mode with | .bypass => 0 | .active => 1 | .draining => 2,
            match s.tracker.state with | .lost => 0 | .acquire => 1 | .locked => 2] : List Byte) ++
            be16 (if s.tracker.state = .lost then 0xFFFF else BitVec.ofNat 16 (s.tracker.line.getD 0)) ++
            be16 s.tracker.frameCounter ++ be16 (BitVec.ofNat 16 s.occupancy) ++
            [BitVec.ofNat 8 s.recordsInUse, if s.applyPending then 1 else 0,
              if s.upstream.phase = .wait then
                match s.upstream.cause with | none => 0 | some .a => 1 | some .b => 2 | some .c => 3
              else 0] ++
            be16 (0#2 ++ s.incidents.flags) ++ be16 (0#2 ++ s.incidents.mask)))) ∧
    (Ends s .getTiming [] →
      exec .getTiming s =
        .next (s.answered .ok
          ([if s.timing.lines = none then 0 else 1] ++ be16 (BitVec.ofNat 16 (s.timing.lines.getD 0)) ++
            be16 (BitVec.ofNat 16 s.timing.firstLine) ++ be16 (BitVec.ofNat 16 s.timing.active) ++
            [BitVec.ofNat 8 s.timing.rate, BitVec.ofNat 8 s.timing.share] ++
            be16 (BitVec.ofNat 16 s.timing.stallLimit) ++ be16 (BitVec.ofNat 16 s.timing.supervision)))) ∧
    (∀ index table : BitVec 8, Ends s .getWindow [index, table] →
      (∀ (W : WindowIdx) (r : WindowRecord), index.toNat = W.val →
        (table = 0 ∧ s.live[W] = r ∨ table = 1 ∧ s.staged[W] = r) →
        exec (.getWindow index table) s =
          .next (s.answered .ok
            (([match r.policy with | .off => 0 | .direct => 1 | .chase => 2 | .frame => 3] : List Byte) ++ be24 r.base ++
              be16 (BitVec.ofNat 16 r.pitch) ++ be16 (BitVec.ofNat 16 r.rows) ++ be16 (BitVec.ofNat 16 r.firstRow) ++
              be24 (BitVec.ofNat 24 r.commitOffset) ++ [if r.receipt = none then 0 else 1] ++
              be24 (r.receipt.getD 0) ++ [BitVec.ofNat 8 r.idleSeal]))) ∧
      (8 ≤ index.toNat ∨ 2 ≤ table.toNat → exec (.getWindow index table) s = .next (s.answered .range []))) ∧
    (∀ index : BitVec 8, Ends s .windowStatus [index] →
      (∀ W : WindowIdx, index.toNat = W.val →
        exec (.windowStatus index) s =
          .next (s.answered .ok
            (windowStatusBytes W (s.windows[W].openBatch.map fun r => (recordEntries s.records[r]).length) s.windows[W]
              (s.engine.releasing.any fun r => s.records[r].any fun b => b.window == W)))) ∧
      (8 ≤ index.toNat → exec (.windowStatus index) s = .next (s.answered .range [])))

/-- R149, R150, R151, R168: CLEAR_FLAGS clears the named flags and SET_MASK replaces the mask, and neither touches the other;
a set naming bit 15 or 14 is refused with RANGE. ATTN is asserted while a flag is set together with its mask bit. -/
def Obligations.FlagsAreClearedAndMasked : Prop :=
  ∀ (s : State) (set : BitVec 16),
    (s.attn = true ↔ ∃ f : Flag, s.flagSet f = true ∧ s.incidents.mask.getLsbD (flagBit f) = true) ∧
    (set.getLsbD 15 = false → set.getLsbD 14 = false →
      (Ends s .clearFlags (be16 set) →
        ∃ t : State, exec (.clearFlags set) s = .next (t.answered .ok []) ∧
          t = { s with incidents := { s.incidents with flags := t.incidents.flags } } ∧
          ∀ f : Flag, t.flagSet f = (s.flagSet f && !set.getLsbD (flagBit f))) ∧
      (Ends s .setMask (be16 set) →
        ∃ t : State, exec (.setMask set) s = .next (t.answered .ok []) ∧
          t = { s with incidents := { s.incidents with mask := t.incidents.mask } } ∧
          ∀ f : Flag, t.incidents.mask.getLsbD (flagBit f) = set.getLsbD (flagBit f))) ∧
    (set.getLsbD 15 = true ∨ set.getLsbD 14 = true →
      (Ends s .clearFlags (be16 set) → exec (.clearFlags set) s = .next (s.answered .range [])) ∧
      (Ends s .setMask (be16 set) → exec (.setMask set) s = .next (s.answered .range [])))

/-! ## Incidents, timing and tables (chapters 02, 03, 09) -/

/-- R155, R171, R174: TAKE_INCIDENT gives the oldest record and the dropped count, and clears the count; with the queue
empty it gives the count alone, with EMPTY. -/
def Obligations.TakeIncidentTakesTheOldest : Prop :=
  ∀ s : State, Ends s .takeIncident [] →
    (∀ (i : Incident) (rest : List Incident), s.incidents.queue = i :: rest →
      exec .takeIncident s =
        .next (({ s with incidents := { s.incidents with queue := rest, dropped := 0 } } : State).answered .ok
          (BitVec.ofNat 8 s.incidents.dropped :: incidentBytes i))) ∧
    (s.incidents.queue = [] →
      exec .takeIncident s =
        .next (({ s with incidents := { s.incidents with dropped := 0 } } : State).answered .empty
          [BitVec.ofNat 8 s.incidents.dropped]))

/-- R47, R48: SET_TIMING is refused outside BYPASS, out of range, and where a live window does not fit; otherwise all seven
values are replaced and the tracker is LOST, with the LOST flag where that is a change. The premises are invariants: in BYPASS the
store is empty and no apply is pending. -/
def Obligations.SetTimingIsJudgedInOrder : Prop :=
  ∀ (s : State) (v : TimingFields), Ends s .setTiming (timingPayload v) →
    (s.mode ≠ .bypass → exec (.setTiming v) s = .next (s.answered .state [])) ∧
    (s.mode = .bypass →
      (¬TimingInRange v ∨ ¬FitsActive s.live v.active.toNat → exec (.setTiming v) s = .next (s.answered .range [])) ∧
      (TimingInRange v → FitsActive s.live v.active.toNat → BypassHoldsNothing s → ClosingOnlyWhilePending s →
        exec (.setTiming v) s =
          .next (({ s with
              timing :=
                ⟨some v.lines.toNat, v.firstLine.toNat, v.active.toNat, v.rate.toNat, v.share.toNat, v.stallLimit.toNat,
                  v.supervision.toNat⟩
              tracker :=
                if s.tracker.state = .lost then s.tracker else ⟨.lost, none, false, s.tracker.frameCounter, none⟩
              incidents :=
                if s.tracker.state = .lost then s.incidents
                else { s.incidents with flags := s.incidents.flags ||| flagMask .lost } } : State).answered .ok [])))

/-- R36, R37, R169: STAGE_WINDOW is refused with BUSY while an apply is pending, and with RANGE for an index, a policy code
or a field out of its range; otherwise it replaces the staged record, an OFF one by the one OFF record. -/
def Obligations.StageWindowIsJudgedInOrder : Prop :=
  ∀ (s : State) (index : BitVec 8) (f : RecordFields), Ends s .stageWindow (index :: recordPayload f) →
    (s.applyPending = true → exec (.stageWindow index f) s = .next (s.answered .busy [])) ∧
    (s.applyPending = false →
      (8 ≤ index.toNat ∨ 4 ≤ f.policy.toNat ∨ f.policy ≠ 0 ∧ ¬RecordInRange f →
        exec (.stageWindow index f) s = .next (s.answered .range [])) ∧
      ∀ W : WindowIdx, index.toNat = W.val →
        (f.policy = 0 →
          exec (.stageWindow index f) s =
            .next (({ s with staged := s.staged.set W.val ⟨.off, 0, 0, 0, 0, 0, none, 0⟩ W.isLt } : State).answered .ok [])) ∧
        ∀ p : Policy, (p = .direct ∧ f.policy = 1 ∨ p = .chase ∧ f.policy = 2 ∨ p = .frame ∧ f.policy = 3) →
          RecordInRange f →
          exec (.stageWindow index f) s =
            .next (({ s with
                staged := s.staged.set W.val
                  ⟨p, f.base, f.pitch.toNat, f.rows.toNat, f.firstRow.toNat, f.commitOffset.toNat,
                    if f.receiptPresent = 1 then some f.receipt else none, f.idleSeal.toNat⟩ W.isLt } : State).answered .ok []))

/-- R139, R39, R140: APPLY is judged in the order of R139 and R39; accepted in BYPASS, it takes effect at once. The premise
is an invariant: no write waits in BYPASS. -/
def Obligations.ApplyIsJudgedInOrder : Prop :=
  ∀ s : State, Ends s .apply [] →
    (s.applyPending = true → exec .apply s = .next (s.answered .busy [])) ∧
    (s.applyPending = false →
      (s.staged = s.live → exec .apply s = .next (s.answered .already [])) ∧
      (s.staged ≠ s.live →
        (s.timing.lines = none → exec .apply s = .next (s.answered .state [])) ∧
        (s.timing.lines ≠ none →
          (Overlapping s.staged → exec .apply s = .next (s.answered .overlap [])) ∧
          (¬Overlapping s.staged →
            (¬FitsActive s.staged s.timing.active → exec .apply s = .next (s.answered .range [])) ∧
            (FitsActive s.staged s.timing.active →
              (ReceiptInside s.staged → exec .apply s = .next (s.answered .overlap [])) ∧
              (¬ReceiptInside s.staged → s.mode = .bypass → s.upstream.phase ≠ .wait →
                exec .apply s =
                  .next (({ s with
                      live := s.staged
                      incidents := { s.incidents with flags := s.incidents.flags ||| flagMask .applied } } : State).answered
                    .ok [])))))))

/-- R141, R142 point 2: an APPLY accepted outside BYPASS marks the windows that differ as closing and seals their open
batches; it completes at once when the tracker is LOST and no closing window has a batch, and is pending otherwise. -/
def Obligations.ApplyClosesTheWindowsThatDiffer : Prop :=
  ∀ s : State, Ends s .apply [] → s.applyStatus = .ok → s.mode ≠ .bypass → OpenInUse s →
    ∃ t, exec .apply s = .next t ∧ t.link = ⟨false, 0, 0, 0, [], ⟨.ok, []⟩, 0, 0⟩ ∧ t.staged = s.staged ∧ t.mode = s.mode ∧
      ((s.tracker.state = .lost ∧
          ∀ W : WindowIdx, s.windows[W].closing = true ∨ s.staged[W] ≠ s.live[W] → s.hasBatch W = false) →
        AppliedIn s t) ∧
      (¬(s.tracker.state = .lost ∧
          ∀ W : WindowIdx, s.windows[W].closing = true ∨ s.staged[W] ≠ s.live[W] → s.hasBatch W = false) →
        t.applyPending = true ∧ t.live = s.live ∧
          ∀ W : WindowIdx,
            (t.windows[W].closing = true ↔ s.windows[W].closing = true ∨ s.staged[W] ≠ s.live[W]) ∧
            (s.staged[W] ≠ s.live[W] → SealedIn s t W))

/-- R142 point 1, R143: a frame-start completes a pending apply exactly when no closing window has a batch. A waiting write is
then judged by the new table. -/
def Obligations.FrameStartCompletesAPendingApply : Prop :=
  ∀ s : State, s.resetAsserted = false → s.applyPending = true →
    ∃ t, exec .frameStart s = .next t ∧ t.staged = s.staged ∧ t.mode = s.mode ∧
      (∀ W : WindowIdx, t.windows[W].lastRetired = s.windows[W].lastRetired ∧ t.windows[W].retired = s.windows[W].retired) ∧
      ((∀ W : WindowIdx, s.windows[W].closing = true → s.hasBatch W = false) →
        AppliedIn s t ∧
          ∀ (a : Addr) (m : Lanes) (d : Word), s.upstream.phase = .wait → s.upstream.transaction = some (.write a m d) →
            coherentWindow s.staged a = none →
            t.upstream = ⟨some (.write a m d), .direct, none, none, none, false, none⟩) ∧
      (¬(∀ W : WindowIdx, s.windows[W].closing = true → s.hasBatch W = false) →
        t.applyPending = true ∧ t.live = s.live ∧ t.upstream = s.upstream ∧
          ∀ W : WindowIdx, t.windows[W].closing = s.windows[W].closing)

/-! ## Modes, seals and RESTART (chapter 08) -/

/-- R132: ENABLE is answered by mode and timing; accepted, it makes the mode ACTIVE. The premises are invariants: in BYPASS
the store is empty and no write waits. -/
def Obligations.EnableIsAnsweredByModeAndTiming : Prop :=
  ∀ s : State, Ends s .enable [] →
    (s.mode = .bypass → s.timing.lines = none → exec .enable s = .next (s.answered .state [])) ∧
    (s.mode = .bypass → s.timing.lines ≠ none → BypassHoldsNothing s → s.upstream.phase ≠ .wait →
      exec .enable s = .next (({ s with mode := .active } : State).answered .ok [])) ∧
    (s.mode = .active → exec .enable s = .next (s.answered .already [])) ∧
    (s.mode = .draining → exec .enable s = .next (s.answered .busy []))

/-- R133, R135, R170: DISABLE with drain is answered ALREADY outside ACTIVE. In ACTIVE it seals every open batch and the mode
becomes DRAINING, or BYPASS with DRAINED, and a pending apply completed, where the store is empty. A selector of no meaning is
refused with RANGE. -/
def Obligations.DisableDrainSealsEverything : Prop :=
  ∀ (s : State) (selector : BitVec 8), Ends s .disable [selector] →
    (selector ≠ 0 → selector ≠ 1 → exec (.disableDrain selector) s = .next (s.answered .range [])) ∧
    (selector = 0 → s.mode ≠ .active → exec (.disableDrain selector) s = .next (s.answered .already [])) ∧
    (selector = 0 → s.mode = .active → OpenInUse s →
      ∃ t, exec (.disableDrain selector) s = .next t ∧ t.link = ⟨false, 0, 0, 0, [], ⟨.ok, []⟩, 0, 0⟩ ∧
        t.staged = s.staged ∧ (∀ W : WindowIdx, SealedIn s t W) ∧
        (s.recordsInUse ≠ 0 →
          t.mode = .draining ∧ t.live = s.live ∧ t.applyPending = s.applyPending ∧
            ∀ W : WindowIdx, t.windows[W].closing = s.windows[W].closing) ∧
        (s.recordsInUse = 0 →
          t.mode = .bypass ∧ t.flagSet .drained = true ∧ WaitIsDirect s t ∧
            (s.applyPending = true → AppliedIn s t) ∧ (s.applyPending = false → t.live = s.live)))

/-- R137, R138, R25, R81, R127, R170: DISABLE with discard is answered ALREADY in BYPASS. Outside BYPASS it drops every entry
and frees every record, ends a release without retirement and withdraws its waiting claim, completes a pending apply and makes
the mode BYPASS; a DISCARD incident is handed where it dropped an entry. -/
def Obligations.DisableDiscardDropsEverything : Prop :=
  ∀ (s : State) (selector : BitVec 8), Ends s .disable [selector] →
    (selector ≠ 0 → selector ≠ 1 → exec (.disableDiscard selector) s = .next (s.answered .range [])) ∧
    (selector = 1 → s.mode = .bypass → exec (.disableDiscard selector) s = .next (s.answered .already [])) ∧
    (selector = 1 → s.mode ≠ .bypass →
      ∃ t, exec (.disableDiscard selector) s = .next t ∧ t.link = ⟨false, 0, 0, 0, [], ⟨.ok, []⟩, 0, 0⟩ ∧
        t.mode = .bypass ∧ t.staged = s.staged ∧ t.sealOrdinal = s.sealOrdinal ∧ t.tracker = s.tracker ∧
        (∀ r : RecordIdx, t.records[r] = none) ∧
        (∀ W : WindowIdx,
          t.windows[W] =
            { s.windows[W] with
              openBatch := none
              sealedQueue := []
              closing := !s.applyPending && s.windows[W].closing }) ∧
        t.engine = ⟨.idle, none, .none, none⟩ ∧ t.port.releaseClaim = none ∧
        (s.applyPending = true → t.live = s.staged ∧ t.applyPending = false ∧ t.flagSet .applied = true) ∧
        (s.applyPending = false → t.live = s.live ∧ t.applyPending = false) ∧
        (s.upstream.phase ≠ .wait → t.upstream = s.upstream) ∧ WaitIsDirect s t ∧
        (s.occupancy = 0 → t.incidents.queue = s.incidents.queue ∧ t.incidents.dropped = s.incidents.dropped) ∧
        (1 ≤ s.occupancy →
          Handed ⟨.discard, none, none, if s.tracker.state = .lost then none else s.tracker.line, s.tracker.frameCounter,
            some (.dropped s.occupancy)⟩ s t))

/-- R16, R116, R17, R13: SEAL seals the open batch of each named window and touches no other window's; FLUSH does the same and
leaves a force mark on every SEALED batch of a named window, keeping the first reason. Both are always answered OK. -/
def Obligations.SealAndFlushActOnTheNamedWindows : Prop :=
  ∀ (s : State) (set : BitVec 8), OpenInUse s →
    (Ends s .sealWindows [set] →
      ∃ t, exec (.sealWindows set) s = .next t ∧ t.link = ⟨false, 0, 0, 0, [], ⟨.ok, []⟩, 0, 0⟩ ∧
        ∀ W : WindowIdx,
          (set.getLsbD W.val = true → SealedIn s t W) ∧
          (set.getLsbD W.val = false →
            t.windows[W].openBatch = s.windows[W].openBatch ∧ t.windows[W].lastSealed = s.windows[W].lastSealed)) ∧
    (Ends s .flush [set] →
      ∃ t, exec (.flush set) s = .next t ∧ t.link = ⟨false, 0, 0, 0, [], ⟨.ok, []⟩, 0, 0⟩ ∧
        ∀ W : WindowIdx,
          (set.getLsbD W.val = true → SealedIn s t W ∧
            ∀ (r : RecordIdx) (b : BatchRecord),
              r ∈ s.windows[W].sealedQueue ∨ s.windows[W].openBatch = some r → s.records[r] = some b →
              ∃ b', t.records[r] = some b' ∧ b'.entries = b.entries ∧ b'.mark ≠ none ∧
                (∀ reason, b.mark = some reason → b'.mark = some reason) ∧
                (b.mark = none → (∀ V : WindowIdx, s.windows[V].openBatch = none) → b'.mark = some .flush)) ∧
          (set.getLsbD W.val = false →
            t.windows[W].openBatch = s.windows[W].openBatch ∧ t.windows[W].lastSealed = s.windows[W].lastSealed))

/-- R146, R26, R35, R82, R101, R127, R157, R172: RESTART, in every mode, is answered FRESH. It empties the store, ends the
release, puts the tracker in LOST and the mode in BYPASS, cancels a pending apply and clears flags and incidents; it keeps the
mask, the timing, both tables and the windows' counters, and a waiting write becomes direct. -/
def Obligations.RestartClearsTheRunTimeState : Prop :=
  ∀ s : State, Ends s .restart [] →
    ∃ t, exec .restart s = .next t ∧ t.link = ⟨false, 0, 0, 0, [], ⟨.fresh, []⟩, 0, 0⟩ ∧ t.mode = .bypass ∧
      t.applyPending = false ∧ t.live = s.live ∧ t.staged = s.staged ∧ t.timing = s.timing ∧
      (∀ r : RecordIdx, t.records[r] = none) ∧ t.sealOrdinal = 0 ∧
      (∀ W : WindowIdx,
        t.windows[W] = { s.windows[W] with openBatch := none, sealedQueue := [], idle := 0, closing := false }) ∧
      t.tracker = ⟨.lost, none, false, 0, none⟩ ∧ t.engine = ⟨.idle, none, .none, none⟩ ∧
      t.incidents = ⟨0, s.incidents.mask, [], 0⟩ ∧ t.port.releaseClaim = none ∧ t.port.passedOver = 0 ∧
      (s.upstream.phase ≠ .wait →
        t.upstream = s.upstream ∧ t.port = { s.port with releaseClaim := none, passedOver := 0 }) ∧
      WaitIsDirect s t

/-! ## Frames, and what a read sees -/

/-- What a command leaves alone: each block, and the model's own values, change only by the commands that the manual lets
change them. -/
def Obligations.BlocksChangeOnlyByTheirCommands : Prop :=
  ∀ (c : Instr) (s t : State), exec c s = .next t →
    (changesUpstream c = false → t.upstream = s.upstream) ∧ (changesLive c = false → t.live = s.live) ∧
    (changesStaged c = false → t.staged = s.staged) ∧ (changesWindows c = false → t.windows = s.windows) ∧
    (changesRecords c = false → t.records = s.records) ∧
    (changesSealOrdinal c = false → t.sealOrdinal = s.sealOrdinal) ∧
    (changesTiming c = false → t.timing = s.timing) ∧ (changesTracker c = false → t.tracker = s.tracker) ∧
    (changesEngine c = false → t.engine = s.engine) ∧ (changesPort c = false → t.port = s.port) ∧
    (changesMode c = false → t.mode = s.mode) ∧ (changesApplyPending c = false → t.applyPending = s.applyPending) ∧
    (changesIncidents c = false → t.incidents = s.incidents) ∧ (changesLink c = false → t.link = s.link) ∧
    (changesResetAsserted c = false → t.resetAsserted = s.resetAsserted) ∧
    (changesMemory c = false → ∀ k, SameByte s t k) ∧
    (changesFreeIndex c = false → t.freeIndex = s.freeIndex) ∧ t.pending = s.pending

/-- R96, one command at a time: a read of a lane returns the latest write to it. The storing of a held write as it is taken, and
the completion of a direct one, make its byte what is seen in its strobed lanes and change no other lane; the move to memory of
an entry that is not its batch's last changes none; a read that is answered from the store gives what is seen, and so does a read
merged at its memory read's completion, where the memory returns what the part's writes have left there. The premises are laws
that every step keeps. It says nothing of the completions of a batch's last entry and of a receipt, of writes that have waited,
or of a discard. -/
def Obligations.ReadsSeeTheLatestWrite : Prop :=
  ∀ s : State,
    (∀ (a : Addr) (m : Lanes) (d : Word) (W : WindowIdx), BatchesStand s → OneReleasing s → s.canTake = true → m ≠ 0 →
      GoesHeld s a W → s.canStore W a = true →
      ∃ t, exec (.upstreamWrite a m d) s = .next t ∧
        ∀ (w : Addr) (i : Fin 4),
          t.seen w i = if w = a ∧ m.getLsbD i.val = true then some (laneByte d i) else s.seen w i) ∧
    (∀ (a : Addr) (m : Lanes) (d : Word), DirectWriteMeetsNoEntry s → UpstreamClaimIsItsOwn s →
      s.port.transaction = some (.directWrite a m d) →
      ∃ t, exec .directWriteComplete s = .next t ∧
        ∀ (w : Addr) (i : Fin 4),
          t.seen w i = if w = a ∧ m.getLsbD i.val = true then some (laneByte d i) else s.seen w i) ∧
    (∀ (r : RecordIdx) (b : BatchRecord) (e next : Entry) (rest : List Entry) (a : Addr) (m : Lanes) (d : Word),
      NoWordTwice s → BatchesStand s → EntriesLieInTheirWindow s → ReleaseWritesTheFirstEntry s →
      WriteInFlight s .entries r b → b.entries = e :: next :: rest → s.port.transaction = some (.entryWrite a m d) →
      s.upstream.phase ≠ .wait →
      ∃ t, exec .entryWriteComplete s = .next t ∧ ∀ (w : Addr) (i : Fin 4), t.seen w i = s.seen w i) ∧
    (∀ (a : Addr) (m : Lanes), s.canTake = true → (s.lookup a).1 = 0xF →
      ∃ t answer, exec (.upstreamRead a m) s = .next t ∧ t.upstream = UpstreamPort.done (some answer) ∧
        ∀ i : Fin 4, s.seen a i = some (laneByte answer i)) ∧
    ∀ (a : Addr) (dd : Word), s.port.transaction = some (.memoryRead a) →
      (∀ (i : Fin 4) (b : Byte), s.memory.read (laneKey a i.val) = some b → laneByte dd i = b) →
      ∃ t answer, exec (.memoryReadComplete dd) s = .next t ∧ t.upstream = UpstreamPort.done (some answer) ∧
        ∀ (i : Fin 4) (b : Byte), s.seen a i = some b → laneByte answer i = b

/-! ## The laws of the part -/

/-- The memory's list stays in its one canonical form; the incident queue holds at most 8 records and the dropped count stops
at 255 (R153, R154); the link counts at most 68 bytes and stores the first 67 of them (R158). -/
def Obligations.MemoryQueueAndLinkStayWithinBounds : Prop :=
  KeptByEveryStep MemoryCanonical ∧ KeptByEveryStep QueueWithinBounds ∧ KeptByEveryStep LinkWithinBounds

/-- R2, R3, R62, R129, R6, R7: what the store and its batches obey, whatever command is taken. -/
def Obligations.StoreAndBatchesKeepTheirLaws : Prop :=
  KeptByEveryStep AtMost1024Entries ∧ KeptByEveryStep NoWordTwice ∧ KeptByEveryStep OneReleasing ∧
    KeptByEveryStep OneOpenBatch ∧ KeptByEveryStep BypassHoldsNothing ∧ KeptByEveryStep BatchesStand ∧
    KeptByEveryStep fun s => BatchesStand s ∧ BatchFieldsFollowItsState s

/-- R32, R4, R93: the live table stays sound, every entry stays in the range of its batch's window, across every apply, and a
write is direct only while no batch holds an entry for its word. The laws are kept together, since each rests on the others. -/
def Obligations.EntriesStayInTheirWindows : Prop :=
  KeptByEveryStep LiveTableSound ∧
    KeptByEveryStep fun s =>
      OneReleasing s ∧ OneOpenBatch s ∧ BatchesStand s ∧ LiveTableSound s ∧ BypassHoldsNothing s ∧
        DifferingWindowsClose s ∧ EntriesLieInTheirWindow s ∧ DirectWriteMeetsNoEntry s

/-- R45, R53, R56, R41, R35, R128: the timing values stay in their ranges, the line number within its bounds, the live table
within the active area, and a closing mark stands only while an apply is pending. -/
def Obligations.TimingScanAndTablesStayWithinBounds : Prop :=
  KeptByEveryStep TimingWithinRanges ∧ KeptByEveryStep LockedLineBelowT ∧ KeptByEveryStep ClosingOnlyWhilePending ∧
    KeptByEveryStep fun s => ClosingOnlyWhilePending s ∧ LiveTableFits s

/-- R85, R104, R119, R120, R122, R130, R145, R71: the two ports, the arbiter and the release engine keep their handshakes and
claims in order, no write waits in BYPASS, and RSTn holds every block at its values after the reset line. -/
def Obligations.PortsKeepTheirLaws : Prop :=
  KeptByEveryStep UpstreamPortSound ∧ KeptByEveryStep NoWaitInBypass ∧ KeptByEveryStep HeldInReset ∧
    (KeptByEveryStep fun s => HandshakeSound s ∧ UpstreamClaimIsItsOwn s ∧ HeldInReset s) ∧
    (KeptByEveryStep fun s => ReleaseShareBound s ∧ BypassHoldsNothing s) ∧
    KeptByEveryStep fun s =>
      ReleaseWritesTheFirstEntry s ∧ ReleaseShareBound s ∧ BypassHoldsNothing s ∧ BatchesStand s

end
end

