-- ==== Sys2Proof/Laws/State.lean ====
section
/-! SUPPORT. What each named update of State leaves in each field, so that no proof unfolds a record update. -/

namespace Sys2Proof.Machine

/-! ## setRecord -/

@[simp] theorem setRecord_upstream (s : State) (r : RecordIdx) (b : Option BatchRecord) :
    (s.setRecord r b).upstream = s.upstream := rfl
@[simp] theorem setRecord_live (s : State) (r : RecordIdx) (b : Option BatchRecord) :
    (s.setRecord r b).live = s.live := rfl
@[simp] theorem setRecord_staged (s : State) (r : RecordIdx) (b : Option BatchRecord) :
    (s.setRecord r b).staged = s.staged := rfl
@[simp] theorem setRecord_windows (s : State) (r : RecordIdx) (b : Option BatchRecord) :
    (s.setRecord r b).windows = s.windows := rfl
@[simp] theorem setRecord_records (s : State) (r : RecordIdx) (b : Option BatchRecord) :
    (s.setRecord r b).records = s.records.set r.val b r.isLt := rfl
@[simp] theorem setRecord_sealOrdinal (s : State) (r : RecordIdx) (b : Option BatchRecord) :
    (s.setRecord r b).sealOrdinal = s.sealOrdinal := rfl
@[simp] theorem setRecord_timing (s : State) (r : RecordIdx) (b : Option BatchRecord) :
    (s.setRecord r b).timing = s.timing := rfl
@[simp] theorem setRecord_tracker (s : State) (r : RecordIdx) (b : Option BatchRecord) :
    (s.setRecord r b).tracker = s.tracker := rfl
@[simp] theorem setRecord_engine (s : State) (r : RecordIdx) (b : Option BatchRecord) :
    (s.setRecord r b).engine = s.engine := rfl
@[simp] theorem setRecord_port (s : State) (r : RecordIdx) (b : Option BatchRecord) :
    (s.setRecord r b).port = s.port := rfl
@[simp] theorem setRecord_mode (s : State) (r : RecordIdx) (b : Option BatchRecord) :
    (s.setRecord r b).mode = s.mode := rfl
@[simp] theorem setRecord_applyPending (s : State) (r : RecordIdx) (b : Option BatchRecord) :
    (s.setRecord r b).applyPending = s.applyPending := rfl
@[simp] theorem setRecord_incidents (s : State) (r : RecordIdx) (b : Option BatchRecord) :
    (s.setRecord r b).incidents = s.incidents := rfl
@[simp] theorem setRecord_link (s : State) (r : RecordIdx) (b : Option BatchRecord) :
    (s.setRecord r b).link = s.link := rfl
@[simp] theorem setRecord_resetAsserted (s : State) (r : RecordIdx) (b : Option BatchRecord) :
    (s.setRecord r b).resetAsserted = s.resetAsserted := rfl
@[simp] theorem setRecord_memory (s : State) (r : RecordIdx) (b : Option BatchRecord) :
    (s.setRecord r b).memory = s.memory := rfl
@[simp] theorem setRecord_freeIndex (s : State) (r : RecordIdx) (b : Option BatchRecord) :
    (s.setRecord r b).freeIndex = s.freeIndex := rfl
@[simp] theorem setRecord_pending (s : State) (r : RecordIdx) (b : Option BatchRecord) :
    (s.setRecord r b).pending = s.pending := rfl

/-! ## setWindow -/

@[simp] theorem setWindow_upstream (s : State) (W : WindowIdx) (d : WindowState) :
    (s.setWindow W d).upstream = s.upstream := rfl
@[simp] theorem setWindow_live (s : State) (W : WindowIdx) (d : WindowState) : (s.setWindow W d).live = s.live := rfl
@[simp] theorem setWindow_staged (s : State) (W : WindowIdx) (d : WindowState) :
    (s.setWindow W d).staged = s.staged := rfl
@[simp] theorem setWindow_windows (s : State) (W : WindowIdx) (d : WindowState) :
    (s.setWindow W d).windows = s.windows.set W.val d W.isLt := rfl
@[simp] theorem setWindow_records (s : State) (W : WindowIdx) (d : WindowState) :
    (s.setWindow W d).records = s.records := rfl
@[simp] theorem setWindow_sealOrdinal (s : State) (W : WindowIdx) (d : WindowState) :
    (s.setWindow W d).sealOrdinal = s.sealOrdinal := rfl
@[simp] theorem setWindow_timing (s : State) (W : WindowIdx) (d : WindowState) :
    (s.setWindow W d).timing = s.timing := rfl
@[simp] theorem setWindow_tracker (s : State) (W : WindowIdx) (d : WindowState) :
    (s.setWindow W d).tracker = s.tracker := rfl
@[simp] theorem setWindow_engine (s : State) (W : WindowIdx) (d : WindowState) :
    (s.setWindow W d).engine = s.engine := rfl
@[simp] theorem setWindow_port (s : State) (W : WindowIdx) (d : WindowState) : (s.setWindow W d).port = s.port := rfl
@[simp] theorem setWindow_mode (s : State) (W : WindowIdx) (d : WindowState) : (s.setWindow W d).mode = s.mode := rfl
@[simp] theorem setWindow_applyPending (s : State) (W : WindowIdx) (d : WindowState) :
    (s.setWindow W d).applyPending = s.applyPending := rfl
@[simp] theorem setWindow_incidents (s : State) (W : WindowIdx) (d : WindowState) :
    (s.setWindow W d).incidents = s.incidents := rfl
@[simp] theorem setWindow_link (s : State) (W : WindowIdx) (d : WindowState) : (s.setWindow W d).link = s.link := rfl
@[simp] theorem setWindow_resetAsserted (s : State) (W : WindowIdx) (d : WindowState) :
    (s.setWindow W d).resetAsserted = s.resetAsserted := rfl
@[simp] theorem setWindow_memory (s : State) (W : WindowIdx) (d : WindowState) :
    (s.setWindow W d).memory = s.memory := rfl
@[simp] theorem setWindow_freeIndex (s : State) (W : WindowIdx) (d : WindowState) :
    (s.setWindow W d).freeIndex = s.freeIndex := rfl
@[simp] theorem setWindow_pending (s : State) (W : WindowIdx) (d : WindowState) :
    (s.setWindow W d).pending = s.pending := rfl

/-! ## mapWindows -/

@[simp] theorem mapWindows_upstream (s : State) (f : WindowIdx → WindowState → WindowState) :
    (s.mapWindows f).upstream = s.upstream := rfl
@[simp] theorem mapWindows_live (s : State) (f : WindowIdx → WindowState → WindowState) :
    (s.mapWindows f).live = s.live := rfl
@[simp] theorem mapWindows_staged (s : State) (f : WindowIdx → WindowState → WindowState) :
    (s.mapWindows f).staged = s.staged := rfl
@[simp] theorem mapWindows_windows (s : State) (f : WindowIdx → WindowState → WindowState) :
    (s.mapWindows f).windows = Vector.ofFn fun W => f W s.windows[W] := rfl
@[simp] theorem mapWindows_records (s : State) (f : WindowIdx → WindowState → WindowState) :
    (s.mapWindows f).records = s.records := rfl
@[simp] theorem mapWindows_sealOrdinal (s : State) (f : WindowIdx → WindowState → WindowState) :
    (s.mapWindows f).sealOrdinal = s.sealOrdinal := rfl
@[simp] theorem mapWindows_timing (s : State) (f : WindowIdx → WindowState → WindowState) :
    (s.mapWindows f).timing = s.timing := rfl
@[simp] theorem mapWindows_tracker (s : State) (f : WindowIdx → WindowState → WindowState) :
    (s.mapWindows f).tracker = s.tracker := rfl
@[simp] theorem mapWindows_engine (s : State) (f : WindowIdx → WindowState → WindowState) :
    (s.mapWindows f).engine = s.engine := rfl
@[simp] theorem mapWindows_port (s : State) (f : WindowIdx → WindowState → WindowState) :
    (s.mapWindows f).port = s.port := rfl
@[simp] theorem mapWindows_mode (s : State) (f : WindowIdx → WindowState → WindowState) :
    (s.mapWindows f).mode = s.mode := rfl
@[simp] theorem mapWindows_applyPending (s : State) (f : WindowIdx → WindowState → WindowState) :
    (s.mapWindows f).applyPending = s.applyPending := rfl
@[simp] theorem mapWindows_incidents (s : State) (f : WindowIdx → WindowState → WindowState) :
    (s.mapWindows f).incidents = s.incidents := rfl
@[simp] theorem mapWindows_link (s : State) (f : WindowIdx → WindowState → WindowState) :
    (s.mapWindows f).link = s.link := rfl
@[simp] theorem mapWindows_resetAsserted (s : State) (f : WindowIdx → WindowState → WindowState) :
    (s.mapWindows f).resetAsserted = s.resetAsserted := rfl
@[simp] theorem mapWindows_memory (s : State) (f : WindowIdx → WindowState → WindowState) :
    (s.mapWindows f).memory = s.memory := rfl
@[simp] theorem mapWindows_freeIndex (s : State) (f : WindowIdx → WindowState → WindowState) :
    (s.mapWindows f).freeIndex = s.freeIndex := rfl
@[simp] theorem mapWindows_pending (s : State) (f : WindowIdx → WindowState → WindowState) :
    (s.mapWindows f).pending = s.pending := rfl

/-! ## handFlag -/

@[simp] theorem handFlag_upstream (f : Flag) (s : State) : (handFlag f s).upstream = s.upstream := rfl
@[simp] theorem handFlag_live (f : Flag) (s : State) : (handFlag f s).live = s.live := rfl
@[simp] theorem handFlag_staged (f : Flag) (s : State) : (handFlag f s).staged = s.staged := rfl
@[simp] theorem handFlag_windows (f : Flag) (s : State) : (handFlag f s).windows = s.windows := rfl
@[simp] theorem handFlag_records (f : Flag) (s : State) : (handFlag f s).records = s.records := rfl
@[simp] theorem handFlag_sealOrdinal (f : Flag) (s : State) : (handFlag f s).sealOrdinal = s.sealOrdinal := rfl
@[simp] theorem handFlag_timing (f : Flag) (s : State) : (handFlag f s).timing = s.timing := rfl
@[simp] theorem handFlag_tracker (f : Flag) (s : State) : (handFlag f s).tracker = s.tracker := rfl
@[simp] theorem handFlag_engine (f : Flag) (s : State) : (handFlag f s).engine = s.engine := rfl
@[simp] theorem handFlag_port (f : Flag) (s : State) : (handFlag f s).port = s.port := rfl
@[simp] theorem handFlag_mode (f : Flag) (s : State) : (handFlag f s).mode = s.mode := rfl
@[simp] theorem handFlag_applyPending (f : Flag) (s : State) : (handFlag f s).applyPending = s.applyPending := rfl
@[simp] theorem handFlag_incidents (f : Flag) (s : State) :
    (handFlag f s).incidents = { s.incidents with flags := s.incidents.flags ||| flagMask f } := rfl
@[simp] theorem handFlag_link (f : Flag) (s : State) : (handFlag f s).link = s.link := rfl
@[simp] theorem handFlag_resetAsserted (f : Flag) (s : State) : (handFlag f s).resetAsserted = s.resetAsserted := rfl
@[simp] theorem handFlag_memory (f : Flag) (s : State) : (handFlag f s).memory = s.memory := rfl
@[simp] theorem handFlag_freeIndex (f : Flag) (s : State) : (handFlag f s).freeIndex = s.freeIndex := rfl
@[simp] theorem handFlag_pending (f : Flag) (s : State) : (handFlag f s).pending = s.pending := rfl

/-! ## handIncident -/

@[simp] theorem handIncident_upstream (i : Incident) (s : State) : (handIncident i s).upstream = s.upstream := rfl
@[simp] theorem handIncident_live (i : Incident) (s : State) : (handIncident i s).live = s.live := rfl
@[simp] theorem handIncident_staged (i : Incident) (s : State) : (handIncident i s).staged = s.staged := rfl
@[simp] theorem handIncident_windows (i : Incident) (s : State) : (handIncident i s).windows = s.windows := rfl
@[simp] theorem handIncident_records (i : Incident) (s : State) : (handIncident i s).records = s.records := rfl
@[simp] theorem handIncident_sealOrdinal (i : Incident) (s : State) :
    (handIncident i s).sealOrdinal = s.sealOrdinal := rfl
@[simp] theorem handIncident_timing (i : Incident) (s : State) : (handIncident i s).timing = s.timing := rfl
@[simp] theorem handIncident_tracker (i : Incident) (s : State) : (handIncident i s).tracker = s.tracker := rfl
@[simp] theorem handIncident_engine (i : Incident) (s : State) : (handIncident i s).engine = s.engine := rfl
@[simp] theorem handIncident_port (i : Incident) (s : State) : (handIncident i s).port = s.port := rfl
@[simp] theorem handIncident_mode (i : Incident) (s : State) : (handIncident i s).mode = s.mode := rfl
@[simp] theorem handIncident_applyPending (i : Incident) (s : State) :
    (handIncident i s).applyPending = s.applyPending := rfl
@[simp] theorem handIncident_incidents (i : Incident) (s : State) :
    (handIncident i s).incidents =
      { queueIncident i s.incidents with flags := (queueIncident i s.incidents).flags ||| flagMask .incident } := rfl
@[simp] theorem handIncident_link (i : Incident) (s : State) : (handIncident i s).link = s.link := rfl
@[simp] theorem handIncident_resetAsserted (i : Incident) (s : State) :
    (handIncident i s).resetAsserted = s.resetAsserted := rfl
@[simp] theorem handIncident_memory (i : Incident) (s : State) : (handIncident i s).memory = s.memory := rfl
@[simp] theorem handIncident_freeIndex (i : Incident) (s : State) : (handIncident i s).freeIndex = s.freeIndex := rfl
@[simp] theorem handIncident_pending (i : Incident) (s : State) : (handIncident i s).pending = s.pending := rfl

/-! ## markRecord -/

@[simp] theorem markRecord_upstream (reason : ForceReason) (r : RecordIdx) (s : State) :
    (markRecord reason r s).upstream = s.upstream := rfl
@[simp] theorem markRecord_live (reason : ForceReason) (r : RecordIdx) (s : State) :
    (markRecord reason r s).live = s.live := rfl
@[simp] theorem markRecord_staged (reason : ForceReason) (r : RecordIdx) (s : State) :
    (markRecord reason r s).staged = s.staged := rfl
@[simp] theorem markRecord_windows (reason : ForceReason) (r : RecordIdx) (s : State) :
    (markRecord reason r s).windows = s.windows := rfl
@[simp] theorem markRecord_records (reason : ForceReason) (r : RecordIdx) (s : State) :
    (markRecord reason r s).records = s.records.set r.val (s.records[r].map fun b => b.force reason) r.isLt := rfl
@[simp] theorem markRecord_sealOrdinal (reason : ForceReason) (r : RecordIdx) (s : State) :
    (markRecord reason r s).sealOrdinal = s.sealOrdinal := rfl
@[simp] theorem markRecord_timing (reason : ForceReason) (r : RecordIdx) (s : State) :
    (markRecord reason r s).timing = s.timing := rfl
@[simp] theorem markRecord_tracker (reason : ForceReason) (r : RecordIdx) (s : State) :
    (markRecord reason r s).tracker = s.tracker := rfl
@[simp] theorem markRecord_engine (reason : ForceReason) (r : RecordIdx) (s : State) :
    (markRecord reason r s).engine = s.engine := rfl
@[simp] theorem markRecord_port (reason : ForceReason) (r : RecordIdx) (s : State) :
    (markRecord reason r s).port = s.port := rfl
@[simp] theorem markRecord_mode (reason : ForceReason) (r : RecordIdx) (s : State) :
    (markRecord reason r s).mode = s.mode := rfl
@[simp] theorem markRecord_applyPending (reason : ForceReason) (r : RecordIdx) (s : State) :
    (markRecord reason r s).applyPending = s.applyPending := rfl
@[simp] theorem markRecord_incidents (reason : ForceReason) (r : RecordIdx) (s : State) :
    (markRecord reason r s).incidents = s.incidents := rfl
@[simp] theorem markRecord_link (reason : ForceReason) (r : RecordIdx) (s : State) :
    (markRecord reason r s).link = s.link := rfl
@[simp] theorem markRecord_resetAsserted (reason : ForceReason) (r : RecordIdx) (s : State) :
    (markRecord reason r s).resetAsserted = s.resetAsserted := rfl
@[simp] theorem markRecord_memory (reason : ForceReason) (r : RecordIdx) (s : State) :
    (markRecord reason r s).memory = s.memory := rfl
@[simp] theorem markRecord_freeIndex (reason : ForceReason) (r : RecordIdx) (s : State) :
    (markRecord reason r s).freeIndex = s.freeIndex := rfl
@[simp] theorem markRecord_pending (reason : ForceReason) (r : RecordIdx) (s : State) :
    (markRecord reason r s).pending = s.pending := rfl

/-! ## sealRecord -/

@[simp] theorem sealRecord_upstream (W : WindowIdx) (r : RecordIdx) (b : BatchRecord) (s : State) :
    (sealRecord W r b s).upstream = s.upstream := rfl
@[simp] theorem sealRecord_live (W : WindowIdx) (r : RecordIdx) (b : BatchRecord) (s : State) :
    (sealRecord W r b s).live = s.live := rfl
@[simp] theorem sealRecord_staged (W : WindowIdx) (r : RecordIdx) (b : BatchRecord) (s : State) :
    (sealRecord W r b s).staged = s.staged := rfl
@[simp] theorem sealRecord_windows (W : WindowIdx) (r : RecordIdx) (b : BatchRecord) (s : State) :
    (sealRecord W r b s).windows =
      s.windows.set W.val { s.windows[W] with openBatch := none, lastSealed := s.windows[W].lastSealed + 1, sealedQueue := s.windows[W].sealedQueue ++ [r] } W.isLt := rfl
@[simp] theorem sealRecord_records (W : WindowIdx) (r : RecordIdx) (b : BatchRecord) (s : State) :
    (sealRecord W r b s).records =
      s.records.set r.val (some { b with state := .sealed, seq := some (s.windows[W].lastSealed + 1), ordinal := some (s.sealOrdinal + 1) }) r.isLt := rfl
@[simp] theorem sealRecord_sealOrdinal (W : WindowIdx) (r : RecordIdx) (b : BatchRecord) (s : State) :
    (sealRecord W r b s).sealOrdinal = s.sealOrdinal + 1 := rfl
@[simp] theorem sealRecord_timing (W : WindowIdx) (r : RecordIdx) (b : BatchRecord) (s : State) :
    (sealRecord W r b s).timing = s.timing := rfl
@[simp] theorem sealRecord_tracker (W : WindowIdx) (r : RecordIdx) (b : BatchRecord) (s : State) :
    (sealRecord W r b s).tracker = s.tracker := rfl
@[simp] theorem sealRecord_engine (W : WindowIdx) (r : RecordIdx) (b : BatchRecord) (s : State) :
    (sealRecord W r b s).engine = s.engine := rfl
@[simp] theorem sealRecord_port (W : WindowIdx) (r : RecordIdx) (b : BatchRecord) (s : State) :
    (sealRecord W r b s).port = s.port := rfl
@[simp] theorem sealRecord_mode (W : WindowIdx) (r : RecordIdx) (b : BatchRecord) (s : State) :
    (sealRecord W r b s).mode = s.mode := rfl
@[simp] theorem sealRecord_applyPending (W : WindowIdx) (r : RecordIdx) (b : BatchRecord) (s : State) :
    (sealRecord W r b s).applyPending = s.applyPending := rfl
@[simp] theorem sealRecord_incidents (W : WindowIdx) (r : RecordIdx) (b : BatchRecord) (s : State) :
    (sealRecord W r b s).incidents = s.incidents := rfl
@[simp] theorem sealRecord_link (W : WindowIdx) (r : RecordIdx) (b : BatchRecord) (s : State) :
    (sealRecord W r b s).link = s.link := rfl
@[simp] theorem sealRecord_resetAsserted (W : WindowIdx) (r : RecordIdx) (b : BatchRecord) (s : State) :
    (sealRecord W r b s).resetAsserted = s.resetAsserted := rfl
@[simp] theorem sealRecord_memory (W : WindowIdx) (r : RecordIdx) (b : BatchRecord) (s : State) :
    (sealRecord W r b s).memory = s.memory := rfl
@[simp] theorem sealRecord_freeIndex (W : WindowIdx) (r : RecordIdx) (b : BatchRecord) (s : State) :
    (sealRecord W r b s).freeIndex = s.freeIndex := rfl
@[simp] theorem sealRecord_pending (W : WindowIdx) (r : RecordIdx) (b : BatchRecord) (s : State) :
    (sealRecord W r b s).pending = s.pending := rfl

/-! ## dropAll -/

@[simp] theorem dropAll_upstream (s : State) : (dropAll s).upstream = s.upstream := rfl
@[simp] theorem dropAll_live (s : State) : (dropAll s).live = s.live := rfl
@[simp] theorem dropAll_staged (s : State) : (dropAll s).staged = s.staged := rfl
@[simp] theorem dropAll_windows (s : State) :
    (dropAll s).windows = Vector.ofFn fun W => { s.windows[W] with openBatch := none, sealedQueue := [] } := rfl
@[simp] theorem dropAll_records (s : State) : (dropAll s).records = Vector.replicate 16 none := rfl
@[simp] theorem dropAll_sealOrdinal (s : State) : (dropAll s).sealOrdinal = s.sealOrdinal := rfl
@[simp] theorem dropAll_timing (s : State) : (dropAll s).timing = s.timing := rfl
@[simp] theorem dropAll_tracker (s : State) : (dropAll s).tracker = s.tracker := rfl
@[simp] theorem dropAll_engine (s : State) : (dropAll s).engine = s.engine := rfl
@[simp] theorem dropAll_port (s : State) : (dropAll s).port = s.port := rfl
@[simp] theorem dropAll_mode (s : State) : (dropAll s).mode = s.mode := rfl
@[simp] theorem dropAll_applyPending (s : State) : (dropAll s).applyPending = s.applyPending := rfl
@[simp] theorem dropAll_incidents (s : State) : (dropAll s).incidents = s.incidents := rfl
@[simp] theorem dropAll_link (s : State) : (dropAll s).link = s.link := rfl
@[simp] theorem dropAll_resetAsserted (s : State) : (dropAll s).resetAsserted = s.resetAsserted := rfl
@[simp] theorem dropAll_memory (s : State) : (dropAll s).memory = s.memory := rfl
@[simp] theorem dropAll_freeIndex (s : State) : (dropAll s).freeIndex = s.freeIndex := rfl
@[simp] theorem dropAll_pending (s : State) : (dropAll s).pending = s.pending := rfl

/-! ## grantUpstream -/

@[simp] theorem grantUpstream_upstream (c : Claim) (n : Nat) (s : State) :
    (grantUpstream c n s).upstream = s.upstream := rfl
@[simp] theorem grantUpstream_live (c : Claim) (n : Nat) (s : State) : (grantUpstream c n s).live = s.live := rfl
@[simp] theorem grantUpstream_staged (c : Claim) (n : Nat) (s : State) :
    (grantUpstream c n s).staged = s.staged := rfl
@[simp] theorem grantUpstream_windows (c : Claim) (n : Nat) (s : State) :
    (grantUpstream c n s).windows = s.windows := rfl
@[simp] theorem grantUpstream_records (c : Claim) (n : Nat) (s : State) :
    (grantUpstream c n s).records = s.records := rfl
@[simp] theorem grantUpstream_sealOrdinal (c : Claim) (n : Nat) (s : State) :
    (grantUpstream c n s).sealOrdinal = s.sealOrdinal := rfl
@[simp] theorem grantUpstream_timing (c : Claim) (n : Nat) (s : State) :
    (grantUpstream c n s).timing = s.timing := rfl
@[simp] theorem grantUpstream_tracker (c : Claim) (n : Nat) (s : State) :
    (grantUpstream c n s).tracker = s.tracker := rfl
@[simp] theorem grantUpstream_engine (c : Claim) (n : Nat) (s : State) :
    (grantUpstream c n s).engine = s.engine := rfl
@[simp] theorem grantUpstream_port (c : Claim) (n : Nat) (s : State) :
    (grantUpstream c n s).port =
      { s.port with phase := .busy, transaction := some c, upstreamClaim := none, passedOver := n } := rfl
@[simp] theorem grantUpstream_mode (c : Claim) (n : Nat) (s : State) : (grantUpstream c n s).mode = s.mode := rfl
@[simp] theorem grantUpstream_applyPending (c : Claim) (n : Nat) (s : State) :
    (grantUpstream c n s).applyPending = s.applyPending := rfl
@[simp] theorem grantUpstream_incidents (c : Claim) (n : Nat) (s : State) :
    (grantUpstream c n s).incidents = s.incidents := rfl
@[simp] theorem grantUpstream_link (c : Claim) (n : Nat) (s : State) : (grantUpstream c n s).link = s.link := rfl
@[simp] theorem grantUpstream_resetAsserted (c : Claim) (n : Nat) (s : State) :
    (grantUpstream c n s).resetAsserted = s.resetAsserted := rfl
@[simp] theorem grantUpstream_memory (c : Claim) (n : Nat) (s : State) :
    (grantUpstream c n s).memory = s.memory := rfl
@[simp] theorem grantUpstream_freeIndex (c : Claim) (n : Nat) (s : State) :
    (grantUpstream c n s).freeIndex = s.freeIndex := rfl
@[simp] theorem grantUpstream_pending (c : Claim) (n : Nat) (s : State) :
    (grantUpstream c n s).pending = s.pending := rfl

/-! ## grantRelease -/

@[simp] theorem grantRelease_upstream (c : Claim) (s : State) : (grantRelease c s).upstream = s.upstream := rfl
@[simp] theorem grantRelease_live (c : Claim) (s : State) : (grantRelease c s).live = s.live := rfl
@[simp] theorem grantRelease_staged (c : Claim) (s : State) : (grantRelease c s).staged = s.staged := rfl
@[simp] theorem grantRelease_windows (c : Claim) (s : State) : (grantRelease c s).windows = s.windows := rfl
@[simp] theorem grantRelease_records (c : Claim) (s : State) : (grantRelease c s).records = s.records := rfl
@[simp] theorem grantRelease_sealOrdinal (c : Claim) (s : State) :
    (grantRelease c s).sealOrdinal = s.sealOrdinal := rfl
@[simp] theorem grantRelease_timing (c : Claim) (s : State) : (grantRelease c s).timing = s.timing := rfl
@[simp] theorem grantRelease_tracker (c : Claim) (s : State) : (grantRelease c s).tracker = s.tracker := rfl
@[simp] theorem grantRelease_engine (c : Claim) (s : State) :
    (grantRelease c s).engine = { s.engine with write := .inFlight } := rfl
@[simp] theorem grantRelease_port (c : Claim) (s : State) :
    (grantRelease c s).port =
      { s.port with phase := .busy, transaction := some c, releaseClaim := none, passedOver := 0 } := rfl
@[simp] theorem grantRelease_mode (c : Claim) (s : State) : (grantRelease c s).mode = s.mode := rfl
@[simp] theorem grantRelease_applyPending (c : Claim) (s : State) :
    (grantRelease c s).applyPending = s.applyPending := rfl
@[simp] theorem grantRelease_incidents (c : Claim) (s : State) : (grantRelease c s).incidents = s.incidents := rfl
@[simp] theorem grantRelease_link (c : Claim) (s : State) : (grantRelease c s).link = s.link := rfl
@[simp] theorem grantRelease_resetAsserted (c : Claim) (s : State) :
    (grantRelease c s).resetAsserted = s.resetAsserted := rfl
@[simp] theorem grantRelease_memory (c : Claim) (s : State) : (grantRelease c s).memory = s.memory := rfl
@[simp] theorem grantRelease_freeIndex (c : Claim) (s : State) : (grantRelease c s).freeIndex = s.freeIndex := rfl
@[simp] theorem grantRelease_pending (c : Claim) (s : State) : (grantRelease c s).pending = s.pending := rfl

/-! ## acknowledge -/

@[simp] theorem acknowledge_upstream (c : Claim) (s : State) : (acknowledge c s).upstream = s.upstream := rfl
@[simp] theorem acknowledge_live (c : Claim) (s : State) : (acknowledge c s).live = s.live := rfl
@[simp] theorem acknowledge_staged (c : Claim) (s : State) : (acknowledge c s).staged = s.staged := rfl
@[simp] theorem acknowledge_windows (c : Claim) (s : State) : (acknowledge c s).windows = s.windows := rfl
@[simp] theorem acknowledge_records (c : Claim) (s : State) : (acknowledge c s).records = s.records := rfl
@[simp] theorem acknowledge_sealOrdinal (c : Claim) (s : State) : (acknowledge c s).sealOrdinal = s.sealOrdinal := rfl
@[simp] theorem acknowledge_timing (c : Claim) (s : State) : (acknowledge c s).timing = s.timing := rfl
@[simp] theorem acknowledge_tracker (c : Claim) (s : State) : (acknowledge c s).tracker = s.tracker := rfl
@[simp] theorem acknowledge_engine (c : Claim) (s : State) : (acknowledge c s).engine = s.engine := rfl
@[simp] theorem acknowledge_port (c : Claim) (s : State) :
    (acknowledge c s).port = { s.port with phase := .recovering, transaction := none, drdy := true } := rfl
@[simp] theorem acknowledge_mode (c : Claim) (s : State) : (acknowledge c s).mode = s.mode := rfl
@[simp] theorem acknowledge_applyPending (c : Claim) (s : State) :
    (acknowledge c s).applyPending = s.applyPending := rfl
@[simp] theorem acknowledge_incidents (c : Claim) (s : State) : (acknowledge c s).incidents = s.incidents := rfl
@[simp] theorem acknowledge_link (c : Claim) (s : State) : (acknowledge c s).link = s.link := rfl
@[simp] theorem acknowledge_resetAsserted (c : Claim) (s : State) :
    (acknowledge c s).resetAsserted = s.resetAsserted := rfl
@[simp] theorem acknowledge_memory (c : Claim) (s : State) :
    (acknowledge c s).memory = c.store c.strobes s.memory := rfl
@[simp] theorem acknowledge_freeIndex (c : Claim) (s : State) : (acknowledge c s).freeIndex = s.freeIndex := rfl
@[simp] theorem acknowledge_pending (c : Claim) (s : State) : (acknowledge c s).pending = s.pending := rfl

/-! ## takeBatch -/

@[simp] theorem takeBatch_upstream (r : RecordIdx) (b : BatchRecord) (s : State) :
    (takeBatch r b s).upstream = s.upstream := rfl
@[simp] theorem takeBatch_live (r : RecordIdx) (b : BatchRecord) (s : State) : (takeBatch r b s).live = s.live := rfl
@[simp] theorem takeBatch_staged (r : RecordIdx) (b : BatchRecord) (s : State) :
    (takeBatch r b s).staged = s.staged := rfl
@[simp] theorem takeBatch_windows (r : RecordIdx) (b : BatchRecord) (s : State) :
    (takeBatch r b s).windows =
      s.windows.set b.window.val { s.windows[b.window] with sealedQueue := s.windows[b.window].sealedQueue.erase r } b.window.isLt := rfl
@[simp] theorem takeBatch_records (r : RecordIdx) (b : BatchRecord) (s : State) :
    (takeBatch r b s).records =
      s.records.set r.val (some { b with state := .releasing, ground := some (s.groundOf b) }) r.isLt := rfl
@[simp] theorem takeBatch_sealOrdinal (r : RecordIdx) (b : BatchRecord) (s : State) :
    (takeBatch r b s).sealOrdinal = s.sealOrdinal := rfl
@[simp] theorem takeBatch_timing (r : RecordIdx) (b : BatchRecord) (s : State) :
    (takeBatch r b s).timing = s.timing := rfl
@[simp] theorem takeBatch_tracker (r : RecordIdx) (b : BatchRecord) (s : State) :
    (takeBatch r b s).tracker = s.tracker := rfl
@[simp] theorem takeBatch_engine (r : RecordIdx) (b : BatchRecord) (s : State) :
    (takeBatch r b s).engine = ⟨.entries, some r, .none, none⟩ := rfl
@[simp] theorem takeBatch_port (r : RecordIdx) (b : BatchRecord) (s : State) : (takeBatch r b s).port = s.port := rfl
@[simp] theorem takeBatch_mode (r : RecordIdx) (b : BatchRecord) (s : State) : (takeBatch r b s).mode = s.mode := rfl
@[simp] theorem takeBatch_applyPending (r : RecordIdx) (b : BatchRecord) (s : State) :
    (takeBatch r b s).applyPending = s.applyPending := rfl
@[simp] theorem takeBatch_incidents (r : RecordIdx) (b : BatchRecord) (s : State) :
    (takeBatch r b s).incidents = s.incidents := rfl
@[simp] theorem takeBatch_link (r : RecordIdx) (b : BatchRecord) (s : State) : (takeBatch r b s).link = s.link := rfl
@[simp] theorem takeBatch_resetAsserted (r : RecordIdx) (b : BatchRecord) (s : State) :
    (takeBatch r b s).resetAsserted = s.resetAsserted := rfl
@[simp] theorem takeBatch_memory (r : RecordIdx) (b : BatchRecord) (s : State) :
    (takeBatch r b s).memory = s.memory := rfl
@[simp] theorem takeBatch_freeIndex (r : RecordIdx) (b : BatchRecord) (s : State) :
    (takeBatch r b s).freeIndex = s.freeIndex := rfl
@[simp] theorem takeBatch_pending (r : RecordIdx) (b : BatchRecord) (s : State) :
    (takeBatch r b s).pending = s.pending := rfl

/-! ## completeUpstream -/

@[simp] theorem completeUpstream_upstream (a : Option Word) (s : State) :
    (completeUpstream a s).upstream = ⟨none, .idle, none, none, none, true, a⟩ := rfl
@[simp] theorem completeUpstream_live (a : Option Word) (s : State) : (completeUpstream a s).live = s.live := rfl
@[simp] theorem completeUpstream_staged (a : Option Word) (s : State) :
    (completeUpstream a s).staged = s.staged := rfl
@[simp] theorem completeUpstream_windows (a : Option Word) (s : State) :
    (completeUpstream a s).windows = s.windows := rfl
@[simp] theorem completeUpstream_records (a : Option Word) (s : State) :
    (completeUpstream a s).records = s.records := rfl
@[simp] theorem completeUpstream_sealOrdinal (a : Option Word) (s : State) :
    (completeUpstream a s).sealOrdinal = s.sealOrdinal := rfl
@[simp] theorem completeUpstream_timing (a : Option Word) (s : State) :
    (completeUpstream a s).timing = s.timing := rfl
@[simp] theorem completeUpstream_tracker (a : Option Word) (s : State) :
    (completeUpstream a s).tracker = s.tracker := rfl
@[simp] theorem completeUpstream_engine (a : Option Word) (s : State) :
    (completeUpstream a s).engine = s.engine := rfl
@[simp] theorem completeUpstream_port (a : Option Word) (s : State) : (completeUpstream a s).port = s.port := rfl
@[simp] theorem completeUpstream_mode (a : Option Word) (s : State) : (completeUpstream a s).mode = s.mode := rfl
@[simp] theorem completeUpstream_applyPending (a : Option Word) (s : State) :
    (completeUpstream a s).applyPending = s.applyPending := rfl
@[simp] theorem completeUpstream_incidents (a : Option Word) (s : State) :
    (completeUpstream a s).incidents = s.incidents := rfl
@[simp] theorem completeUpstream_link (a : Option Word) (s : State) : (completeUpstream a s).link = s.link := rfl
@[simp] theorem completeUpstream_resetAsserted (a : Option Word) (s : State) :
    (completeUpstream a s).resetAsserted = s.resetAsserted := rfl
@[simp] theorem completeUpstream_memory (a : Option Word) (s : State) :
    (completeUpstream a s).memory = s.memory := rfl
@[simp] theorem completeUpstream_freeIndex (a : Option Word) (s : State) :
    (completeUpstream a s).freeIndex = s.freeIndex := rfl
@[simp] theorem completeUpstream_pending (a : Option Word) (s : State) :
    (completeUpstream a s).pending = s.pending := rfl

/-! ## recordCause -/

@[simp] theorem recordCause_upstream (why : Cause) (W : WindowIdx) (s : State) :
    (recordCause why W s).upstream = { s.upstream with cause := some why, stallWindow := some W } := rfl
@[simp] theorem recordCause_live (why : Cause) (W : WindowIdx) (s : State) :
    (recordCause why W s).live = s.live := rfl
@[simp] theorem recordCause_staged (why : Cause) (W : WindowIdx) (s : State) :
    (recordCause why W s).staged = s.staged := rfl
@[simp] theorem recordCause_windows (why : Cause) (W : WindowIdx) (s : State) :
    (recordCause why W s).windows = s.windows := rfl
@[simp] theorem recordCause_records (why : Cause) (W : WindowIdx) (s : State) :
    (recordCause why W s).records = s.records := rfl
@[simp] theorem recordCause_sealOrdinal (why : Cause) (W : WindowIdx) (s : State) :
    (recordCause why W s).sealOrdinal = s.sealOrdinal := rfl
@[simp] theorem recordCause_timing (why : Cause) (W : WindowIdx) (s : State) :
    (recordCause why W s).timing = s.timing := rfl
@[simp] theorem recordCause_tracker (why : Cause) (W : WindowIdx) (s : State) :
    (recordCause why W s).tracker = s.tracker := rfl
@[simp] theorem recordCause_engine (why : Cause) (W : WindowIdx) (s : State) :
    (recordCause why W s).engine = s.engine := rfl
@[simp] theorem recordCause_port (why : Cause) (W : WindowIdx) (s : State) :
    (recordCause why W s).port = s.port := rfl
@[simp] theorem recordCause_mode (why : Cause) (W : WindowIdx) (s : State) :
    (recordCause why W s).mode = s.mode := rfl
@[simp] theorem recordCause_applyPending (why : Cause) (W : WindowIdx) (s : State) :
    (recordCause why W s).applyPending = s.applyPending := rfl
@[simp] theorem recordCause_incidents (why : Cause) (W : WindowIdx) (s : State) :
    (recordCause why W s).incidents = s.incidents := rfl
@[simp] theorem recordCause_link (why : Cause) (W : WindowIdx) (s : State) :
    (recordCause why W s).link = s.link := rfl
@[simp] theorem recordCause_resetAsserted (why : Cause) (W : WindowIdx) (s : State) :
    (recordCause why W s).resetAsserted = s.resetAsserted := rfl
@[simp] theorem recordCause_memory (why : Cause) (W : WindowIdx) (s : State) :
    (recordCause why W s).memory = s.memory := rfl
@[simp] theorem recordCause_freeIndex (why : Cause) (W : WindowIdx) (s : State) :
    (recordCause why W s).freeIndex = s.freeIndex := rfl
@[simp] theorem recordCause_pending (why : Cause) (W : WindowIdx) (s : State) :
    (recordCause why W s).pending = s.pending := rfl

/-! ## beginWait -/

@[simp] theorem beginWait_upstream (t : UpTransaction) (why : Cause) (W : WindowIdx) (s : State) :
    (beginWait t why W s).upstream =
      ⟨some t, .wait, some why, some W, startedTimer s.timing.stallLimit, false, none⟩ := rfl
@[simp] theorem beginWait_live (t : UpTransaction) (why : Cause) (W : WindowIdx) (s : State) :
    (beginWait t why W s).live = s.live := rfl
@[simp] theorem beginWait_staged (t : UpTransaction) (why : Cause) (W : WindowIdx) (s : State) :
    (beginWait t why W s).staged = s.staged := rfl
@[simp] theorem beginWait_windows (t : UpTransaction) (why : Cause) (W : WindowIdx) (s : State) :
    (beginWait t why W s).windows = s.windows := rfl
@[simp] theorem beginWait_records (t : UpTransaction) (why : Cause) (W : WindowIdx) (s : State) :
    (beginWait t why W s).records = s.records := rfl
@[simp] theorem beginWait_sealOrdinal (t : UpTransaction) (why : Cause) (W : WindowIdx) (s : State) :
    (beginWait t why W s).sealOrdinal = s.sealOrdinal := rfl
@[simp] theorem beginWait_timing (t : UpTransaction) (why : Cause) (W : WindowIdx) (s : State) :
    (beginWait t why W s).timing = s.timing := rfl
@[simp] theorem beginWait_tracker (t : UpTransaction) (why : Cause) (W : WindowIdx) (s : State) :
    (beginWait t why W s).tracker = s.tracker := rfl
@[simp] theorem beginWait_engine (t : UpTransaction) (why : Cause) (W : WindowIdx) (s : State) :
    (beginWait t why W s).engine = s.engine := rfl
@[simp] theorem beginWait_port (t : UpTransaction) (why : Cause) (W : WindowIdx) (s : State) :
    (beginWait t why W s).port = s.port := rfl
@[simp] theorem beginWait_mode (t : UpTransaction) (why : Cause) (W : WindowIdx) (s : State) :
    (beginWait t why W s).mode = s.mode := rfl
@[simp] theorem beginWait_applyPending (t : UpTransaction) (why : Cause) (W : WindowIdx) (s : State) :
    (beginWait t why W s).applyPending = s.applyPending := rfl
@[simp] theorem beginWait_incidents (t : UpTransaction) (why : Cause) (W : WindowIdx) (s : State) :
    (beginWait t why W s).incidents = { s.incidents with flags := s.incidents.flags ||| flagMask .stall } := rfl
@[simp] theorem beginWait_link (t : UpTransaction) (why : Cause) (W : WindowIdx) (s : State) :
    (beginWait t why W s).link = s.link := rfl
@[simp] theorem beginWait_resetAsserted (t : UpTransaction) (why : Cause) (W : WindowIdx) (s : State) :
    (beginWait t why W s).resetAsserted = s.resetAsserted := rfl
@[simp] theorem beginWait_memory (t : UpTransaction) (why : Cause) (W : WindowIdx) (s : State) :
    (beginWait t why W s).memory = s.memory := rfl
@[simp] theorem beginWait_freeIndex (t : UpTransaction) (why : Cause) (W : WindowIdx) (s : State) :
    (beginWait t why W s).freeIndex = s.freeIndex := rfl
@[simp] theorem beginWait_pending (t : UpTransaction) (why : Cause) (W : WindowIdx) (s : State) :
    (beginWait t why W s).pending = s.pending := rfl

/-! ## installStaged -/

@[simp] theorem installStaged_upstream (s : State) : (installStaged s).upstream = s.upstream := rfl
@[simp] theorem installStaged_live (s : State) : (installStaged s).live = s.staged := rfl
@[simp] theorem installStaged_staged (s : State) : (installStaged s).staged = s.staged := rfl
@[simp] theorem installStaged_windows (s : State) :
    (installStaged s).windows = Vector.ofFn fun W => { s.windows[W] with closing := false } := rfl
@[simp] theorem installStaged_records (s : State) : (installStaged s).records = s.records := rfl
@[simp] theorem installStaged_sealOrdinal (s : State) : (installStaged s).sealOrdinal = s.sealOrdinal := rfl
@[simp] theorem installStaged_timing (s : State) : (installStaged s).timing = s.timing := rfl
@[simp] theorem installStaged_tracker (s : State) : (installStaged s).tracker = s.tracker := rfl
@[simp] theorem installStaged_engine (s : State) : (installStaged s).engine = s.engine := rfl
@[simp] theorem installStaged_port (s : State) : (installStaged s).port = s.port := rfl
@[simp] theorem installStaged_mode (s : State) : (installStaged s).mode = s.mode := rfl
@[simp] theorem installStaged_applyPending (s : State) : (installStaged s).applyPending = false := rfl
@[simp] theorem installStaged_incidents (s : State) :
    (installStaged s).incidents = { s.incidents with flags := s.incidents.flags ||| flagMask .applied } := rfl
@[simp] theorem installStaged_link (s : State) : (installStaged s).link = s.link := rfl
@[simp] theorem installStaged_resetAsserted (s : State) : (installStaged s).resetAsserted = s.resetAsserted := rfl
@[simp] theorem installStaged_memory (s : State) : (installStaged s).memory = s.memory := rfl
@[simp] theorem installStaged_freeIndex (s : State) : (installStaged s).freeIndex = s.freeIndex := rfl
@[simp] theorem installStaged_pending (s : State) : (installStaged s).pending = s.pending := rfl

/-! ## retireRecord -/

@[simp] theorem retireRecord_upstream (r : RecordIdx) (b : BatchRecord) (s : State) :
    (retireRecord r b s).upstream = s.upstream := rfl
@[simp] theorem retireRecord_live (r : RecordIdx) (b : BatchRecord) (s : State) :
    (retireRecord r b s).live = s.live := rfl
@[simp] theorem retireRecord_staged (r : RecordIdx) (b : BatchRecord) (s : State) :
    (retireRecord r b s).staged = s.staged := rfl
@[simp] theorem retireRecord_windows (r : RecordIdx) (b : BatchRecord) (s : State) :
    (retireRecord r b s).windows =
      s.windows.set b.window.val { s.windows[b.window] with lastRetired := b.seq.getD s.windows[b.window].lastRetired, retired := s.windows[b.window].retired + 1 } b.window.isLt := rfl
@[simp] theorem retireRecord_records (r : RecordIdx) (b : BatchRecord) (s : State) :
    (retireRecord r b s).records = s.records.set r.val none r.isLt := rfl
@[simp] theorem retireRecord_sealOrdinal (r : RecordIdx) (b : BatchRecord) (s : State) :
    (retireRecord r b s).sealOrdinal = s.sealOrdinal := rfl
@[simp] theorem retireRecord_timing (r : RecordIdx) (b : BatchRecord) (s : State) :
    (retireRecord r b s).timing = s.timing := rfl
@[simp] theorem retireRecord_tracker (r : RecordIdx) (b : BatchRecord) (s : State) :
    (retireRecord r b s).tracker = s.tracker := rfl
@[simp] theorem retireRecord_engine (r : RecordIdx) (b : BatchRecord) (s : State) :
    (retireRecord r b s).engine = Engine.reset := rfl
@[simp] theorem retireRecord_port (r : RecordIdx) (b : BatchRecord) (s : State) :
    (retireRecord r b s).port = s.port := rfl
@[simp] theorem retireRecord_mode (r : RecordIdx) (b : BatchRecord) (s : State) :
    (retireRecord r b s).mode = s.mode := rfl
@[simp] theorem retireRecord_applyPending (r : RecordIdx) (b : BatchRecord) (s : State) :
    (retireRecord r b s).applyPending = s.applyPending := rfl
@[simp] theorem retireRecord_incidents (r : RecordIdx) (b : BatchRecord) (s : State) :
    (retireRecord r b s).incidents =
      { s.incidents with flags := s.incidents.flags ||| flagMask (.retire b.window) } := rfl
@[simp] theorem retireRecord_link (r : RecordIdx) (b : BatchRecord) (s : State) :
    (retireRecord r b s).link = s.link := rfl
@[simp] theorem retireRecord_resetAsserted (r : RecordIdx) (b : BatchRecord) (s : State) :
    (retireRecord r b s).resetAsserted = s.resetAsserted := rfl
@[simp] theorem retireRecord_memory (r : RecordIdx) (b : BatchRecord) (s : State) :
    (retireRecord r b s).memory = s.memory := rfl
@[simp] theorem retireRecord_freeIndex (r : RecordIdx) (b : BatchRecord) (s : State) :
    (retireRecord r b s).freeIndex = s.freeIndex := rfl
@[simp] theorem retireRecord_pending (r : RecordIdx) (b : BatchRecord) (s : State) :
    (retireRecord r b s).pending = s.pending := rfl

/-! ## removeEntry -/

@[simp] theorem removeEntry_upstream (r : RecordIdx) (b : BatchRecord) (s : State) :
    (removeEntry r b s).upstream = s.upstream := rfl
@[simp] theorem removeEntry_live (r : RecordIdx) (b : BatchRecord) (s : State) :
    (removeEntry r b s).live = s.live := rfl
@[simp] theorem removeEntry_staged (r : RecordIdx) (b : BatchRecord) (s : State) :
    (removeEntry r b s).staged = s.staged := rfl
@[simp] theorem removeEntry_windows (r : RecordIdx) (b : BatchRecord) (s : State) :
    (removeEntry r b s).windows = s.windows := rfl
@[simp] theorem removeEntry_records (r : RecordIdx) (b : BatchRecord) (s : State) :
    (removeEntry r b s).records =
      s.records.set r.val (some { b with entries := b.entries.tail, written := b.written + 1 }) r.isLt := rfl
@[simp] theorem removeEntry_sealOrdinal (r : RecordIdx) (b : BatchRecord) (s : State) :
    (removeEntry r b s).sealOrdinal = s.sealOrdinal := rfl
@[simp] theorem removeEntry_timing (r : RecordIdx) (b : BatchRecord) (s : State) :
    (removeEntry r b s).timing = s.timing := rfl
@[simp] theorem removeEntry_tracker (r : RecordIdx) (b : BatchRecord) (s : State) :
    (removeEntry r b s).tracker = s.tracker := rfl
@[simp] theorem removeEntry_engine (r : RecordIdx) (b : BatchRecord) (s : State) :
    (removeEntry r b s).engine = { s.engine with write := .none } := rfl
@[simp] theorem removeEntry_port (r : RecordIdx) (b : BatchRecord) (s : State) :
    (removeEntry r b s).port = s.port := rfl
@[simp] theorem removeEntry_mode (r : RecordIdx) (b : BatchRecord) (s : State) :
    (removeEntry r b s).mode = s.mode := rfl
@[simp] theorem removeEntry_applyPending (r : RecordIdx) (b : BatchRecord) (s : State) :
    (removeEntry r b s).applyPending = s.applyPending := rfl
@[simp] theorem removeEntry_incidents (r : RecordIdx) (b : BatchRecord) (s : State) :
    (removeEntry r b s).incidents = s.incidents := rfl
@[simp] theorem removeEntry_link (r : RecordIdx) (b : BatchRecord) (s : State) :
    (removeEntry r b s).link = s.link := rfl
@[simp] theorem removeEntry_resetAsserted (r : RecordIdx) (b : BatchRecord) (s : State) :
    (removeEntry r b s).resetAsserted = s.resetAsserted := rfl
@[simp] theorem removeEntry_memory (r : RecordIdx) (b : BatchRecord) (s : State) :
    (removeEntry r b s).memory = s.memory := rfl
@[simp] theorem removeEntry_freeIndex (r : RecordIdx) (b : BatchRecord) (s : State) :
    (removeEntry r b s).freeIndex = s.freeIndex := rfl
@[simp] theorem removeEntry_pending (r : RecordIdx) (b : BatchRecord) (s : State) :
    (removeEntry r b s).pending = s.pending := rfl

/-! ## captureFrameByte -/

@[simp] theorem captureFrameByte_upstream (s : State) : (captureFrameByte s).upstream = s.upstream := rfl
@[simp] theorem captureFrameByte_live (s : State) : (captureFrameByte s).live = s.live := rfl
@[simp] theorem captureFrameByte_staged (s : State) : (captureFrameByte s).staged = s.staged := rfl
@[simp] theorem captureFrameByte_windows (s : State) : (captureFrameByte s).windows = s.windows := rfl
@[simp] theorem captureFrameByte_records (s : State) : (captureFrameByte s).records = s.records := rfl
@[simp] theorem captureFrameByte_sealOrdinal (s : State) : (captureFrameByte s).sealOrdinal = s.sealOrdinal := rfl
@[simp] theorem captureFrameByte_timing (s : State) : (captureFrameByte s).timing = s.timing := rfl
@[simp] theorem captureFrameByte_tracker (s : State) : (captureFrameByte s).tracker = s.tracker := rfl
@[simp] theorem captureFrameByte_engine (s : State) :
    (captureFrameByte s).engine = { s.engine with frameByte := some (s.tracker.frameCounter.setWidth 8) } := rfl
@[simp] theorem captureFrameByte_port (s : State) : (captureFrameByte s).port = s.port := rfl
@[simp] theorem captureFrameByte_mode (s : State) : (captureFrameByte s).mode = s.mode := rfl
@[simp] theorem captureFrameByte_applyPending (s : State) : (captureFrameByte s).applyPending = s.applyPending := rfl
@[simp] theorem captureFrameByte_incidents (s : State) : (captureFrameByte s).incidents = s.incidents := rfl
@[simp] theorem captureFrameByte_link (s : State) : (captureFrameByte s).link = s.link := rfl
@[simp] theorem captureFrameByte_resetAsserted (s : State) :
    (captureFrameByte s).resetAsserted = s.resetAsserted := rfl
@[simp] theorem captureFrameByte_memory (s : State) : (captureFrameByte s).memory = s.memory := rfl
@[simp] theorem captureFrameByte_freeIndex (s : State) : (captureFrameByte s).freeIndex = s.freeIndex := rfl
@[simp] theorem captureFrameByte_pending (s : State) : (captureFrameByte s).pending = s.pending := rfl

/-! ## countIdle -/

@[simp] theorem countIdle_upstream (s : State) : (countIdle s).upstream = s.upstream := rfl
@[simp] theorem countIdle_live (s : State) : (countIdle s).live = s.live := rfl
@[simp] theorem countIdle_staged (s : State) : (countIdle s).staged = s.staged := rfl
@[simp] theorem countIdle_windows (s : State) :
    (countIdle s).windows = Vector.ofFn fun W => { s.windows[W] with idle := idleAfter s.windows[W].idle } := rfl
@[simp] theorem countIdle_records (s : State) : (countIdle s).records = s.records := rfl
@[simp] theorem countIdle_sealOrdinal (s : State) : (countIdle s).sealOrdinal = s.sealOrdinal := rfl
@[simp] theorem countIdle_timing (s : State) : (countIdle s).timing = s.timing := rfl
@[simp] theorem countIdle_tracker (s : State) : (countIdle s).tracker = s.tracker := rfl
@[simp] theorem countIdle_engine (s : State) : (countIdle s).engine = s.engine := rfl
@[simp] theorem countIdle_port (s : State) : (countIdle s).port = s.port := rfl
@[simp] theorem countIdle_mode (s : State) : (countIdle s).mode = s.mode := rfl
@[simp] theorem countIdle_applyPending (s : State) : (countIdle s).applyPending = s.applyPending := rfl
@[simp] theorem countIdle_incidents (s : State) : (countIdle s).incidents = s.incidents := rfl
@[simp] theorem countIdle_link (s : State) : (countIdle s).link = s.link := rfl
@[simp] theorem countIdle_resetAsserted (s : State) : (countIdle s).resetAsserted = s.resetAsserted := rfl
@[simp] theorem countIdle_memory (s : State) : (countIdle s).memory = s.memory := rfl
@[simp] theorem countIdle_freeIndex (s : State) : (countIdle s).freeIndex = s.freeIndex := rfl
@[simp] theorem countIdle_pending (s : State) : (countIdle s).pending = s.pending := rfl

/-! ## restartTimer -/

@[simp] theorem restartTimer_upstream (s : State) :
    (restartTimer s).upstream = { s.upstream with stallTimer := startedTimer s.timing.stallLimit } := rfl
@[simp] theorem restartTimer_live (s : State) : (restartTimer s).live = s.live := rfl
@[simp] theorem restartTimer_staged (s : State) : (restartTimer s).staged = s.staged := rfl
@[simp] theorem restartTimer_windows (s : State) : (restartTimer s).windows = s.windows := rfl
@[simp] theorem restartTimer_records (s : State) : (restartTimer s).records = s.records := rfl
@[simp] theorem restartTimer_sealOrdinal (s : State) : (restartTimer s).sealOrdinal = s.sealOrdinal := rfl
@[simp] theorem restartTimer_timing (s : State) : (restartTimer s).timing = s.timing := rfl
@[simp] theorem restartTimer_tracker (s : State) : (restartTimer s).tracker = s.tracker := rfl
@[simp] theorem restartTimer_engine (s : State) : (restartTimer s).engine = s.engine := rfl
@[simp] theorem restartTimer_port (s : State) : (restartTimer s).port = s.port := rfl
@[simp] theorem restartTimer_mode (s : State) : (restartTimer s).mode = s.mode := rfl
@[simp] theorem restartTimer_applyPending (s : State) : (restartTimer s).applyPending = s.applyPending := rfl
@[simp] theorem restartTimer_incidents (s : State) : (restartTimer s).incidents = s.incidents := rfl
@[simp] theorem restartTimer_link (s : State) : (restartTimer s).link = s.link := rfl
@[simp] theorem restartTimer_resetAsserted (s : State) : (restartTimer s).resetAsserted = s.resetAsserted := rfl
@[simp] theorem restartTimer_memory (s : State) : (restartTimer s).memory = s.memory := rfl
@[simp] theorem restartTimer_freeIndex (s : State) : (restartTimer s).freeIndex = s.freeIndex := rfl
@[simp] theorem restartTimer_pending (s : State) : (restartTimer s).pending = s.pending := rfl

/-! ## markClosing -/

@[simp] theorem markClosing_upstream (s : State) : (markClosing s).upstream = s.upstream := rfl
@[simp] theorem markClosing_live (s : State) : (markClosing s).live = s.live := rfl
@[simp] theorem markClosing_staged (s : State) : (markClosing s).staged = s.staged := rfl
@[simp] theorem markClosing_windows (s : State) :
    (markClosing s).windows =
      Vector.ofFn fun W => { s.windows[W] with closing := s.windows[W].closing || s.differs W } := rfl
@[simp] theorem markClosing_records (s : State) : (markClosing s).records = s.records := rfl
@[simp] theorem markClosing_sealOrdinal (s : State) : (markClosing s).sealOrdinal = s.sealOrdinal := rfl
@[simp] theorem markClosing_timing (s : State) : (markClosing s).timing = s.timing := rfl
@[simp] theorem markClosing_tracker (s : State) : (markClosing s).tracker = s.tracker := rfl
@[simp] theorem markClosing_engine (s : State) : (markClosing s).engine = s.engine := rfl
@[simp] theorem markClosing_port (s : State) : (markClosing s).port = s.port := rfl
@[simp] theorem markClosing_mode (s : State) : (markClosing s).mode = s.mode := rfl
@[simp] theorem markClosing_applyPending (s : State) : (markClosing s).applyPending = true := rfl
@[simp] theorem markClosing_incidents (s : State) : (markClosing s).incidents = s.incidents := rfl
@[simp] theorem markClosing_link (s : State) : (markClosing s).link = s.link := rfl
@[simp] theorem markClosing_resetAsserted (s : State) : (markClosing s).resetAsserted = s.resetAsserted := rfl
@[simp] theorem markClosing_memory (s : State) : (markClosing s).memory = s.memory := rfl
@[simp] theorem markClosing_freeIndex (s : State) : (markClosing s).freeIndex = s.freeIndex := rfl
@[simp] theorem markClosing_pending (s : State) : (markClosing s).pending = s.pending := rfl

/-! ## answer -/

@[simp] theorem answer_upstream (r : Response) (s : State) : (answer r s).upstream = s.upstream := rfl
@[simp] theorem answer_live (r : Response) (s : State) : (answer r s).live = s.live := rfl
@[simp] theorem answer_staged (r : Response) (s : State) : (answer r s).staged = s.staged := rfl
@[simp] theorem answer_windows (r : Response) (s : State) : (answer r s).windows = s.windows := rfl
@[simp] theorem answer_records (r : Response) (s : State) : (answer r s).records = s.records := rfl
@[simp] theorem answer_sealOrdinal (r : Response) (s : State) : (answer r s).sealOrdinal = s.sealOrdinal := rfl
@[simp] theorem answer_timing (r : Response) (s : State) : (answer r s).timing = s.timing := rfl
@[simp] theorem answer_tracker (r : Response) (s : State) : (answer r s).tracker = s.tracker := rfl
@[simp] theorem answer_engine (r : Response) (s : State) : (answer r s).engine = s.engine := rfl
@[simp] theorem answer_port (r : Response) (s : State) : (answer r s).port = s.port := rfl
@[simp] theorem answer_mode (r : Response) (s : State) : (answer r s).mode = s.mode := rfl
@[simp] theorem answer_applyPending (r : Response) (s : State) : (answer r s).applyPending = s.applyPending := rfl
@[simp] theorem answer_incidents (r : Response) (s : State) : (answer r s).incidents = s.incidents := rfl
@[simp] theorem answer_link (r : Response) (s : State) : (answer r s).link = idleLink r := rfl
@[simp] theorem answer_resetAsserted (r : Response) (s : State) : (answer r s).resetAsserted = s.resetAsserted := rfl
@[simp] theorem answer_memory (r : Response) (s : State) : (answer r s).memory = s.memory := rfl
@[simp] theorem answer_freeIndex (r : Response) (s : State) : (answer r s).freeIndex = s.freeIndex := rfl
@[simp] theorem answer_pending (r : Response) (s : State) : (answer r s).pending = s.pending := rfl

/-! ## restartState -/

@[simp] theorem restartState_upstream (s : State) : (restartState s).upstream = s.upstream := rfl
@[simp] theorem restartState_live (s : State) : (restartState s).live = s.live := rfl
@[simp] theorem restartState_staged (s : State) : (restartState s).staged = s.staged := rfl
@[simp] theorem restartState_windows (s : State) :
    (restartState s).windows = Vector.ofFn fun W => s.windows[W].restart := rfl
@[simp] theorem restartState_records (s : State) : (restartState s).records = Vector.replicate 16 none := rfl
@[simp] theorem restartState_sealOrdinal (s : State) : (restartState s).sealOrdinal = 0 := rfl
@[simp] theorem restartState_timing (s : State) : (restartState s).timing = s.timing := rfl
@[simp] theorem restartState_tracker (s : State) : (restartState s).tracker = Tracker.reset := rfl
@[simp] theorem restartState_engine (s : State) : (restartState s).engine = Engine.reset := rfl
@[simp] theorem restartState_port (s : State) : (restartState s).port = s.port.restart := rfl
@[simp] theorem restartState_mode (s : State) : (restartState s).mode = .bypass := rfl
@[simp] theorem restartState_applyPending (s : State) : (restartState s).applyPending = false := rfl
@[simp] theorem restartState_incidents (s : State) : (restartState s).incidents = s.incidents.restart := rfl
@[simp] theorem restartState_link (s : State) : (restartState s).link = s.link := rfl
@[simp] theorem restartState_resetAsserted (s : State) : (restartState s).resetAsserted = s.resetAsserted := rfl
@[simp] theorem restartState_memory (s : State) : (restartState s).memory = s.memory := rfl
@[simp] theorem restartState_freeIndex (s : State) : (restartState s).freeIndex = s.freeIndex := rfl
@[simp] theorem restartState_pending (s : State) : (restartState s).pending = s.pending := rfl

/-! ## countTimers -/

@[simp] theorem countTimers_upstream (s : State) :
    (countTimers s).upstream = { s.upstream with stallTimer := countDown s.upstream.stallTimer } := rfl
@[simp] theorem countTimers_live (s : State) : (countTimers s).live = s.live := rfl
@[simp] theorem countTimers_staged (s : State) : (countTimers s).staged = s.staged := rfl
@[simp] theorem countTimers_windows (s : State) : (countTimers s).windows = s.windows := rfl
@[simp] theorem countTimers_records (s : State) : (countTimers s).records = s.records := rfl
@[simp] theorem countTimers_sealOrdinal (s : State) : (countTimers s).sealOrdinal = s.sealOrdinal := rfl
@[simp] theorem countTimers_timing (s : State) : (countTimers s).timing = s.timing := rfl
@[simp] theorem countTimers_tracker (s : State) :
    (countTimers s).tracker = { s.tracker with supervision := countDown s.tracker.supervision } := rfl
@[simp] theorem countTimers_engine (s : State) : (countTimers s).engine = s.engine := rfl
@[simp] theorem countTimers_port (s : State) : (countTimers s).port = s.port := rfl
@[simp] theorem countTimers_mode (s : State) : (countTimers s).mode = s.mode := rfl
@[simp] theorem countTimers_applyPending (s : State) : (countTimers s).applyPending = s.applyPending := rfl
@[simp] theorem countTimers_incidents (s : State) : (countTimers s).incidents = s.incidents := rfl
@[simp] theorem countTimers_link (s : State) : (countTimers s).link = s.link := rfl
@[simp] theorem countTimers_resetAsserted (s : State) : (countTimers s).resetAsserted = s.resetAsserted := rfl
@[simp] theorem countTimers_memory (s : State) : (countTimers s).memory = s.memory := rfl
@[simp] theorem countTimers_freeIndex (s : State) : (countTimers s).freeIndex = s.freeIndex := rfl
@[simp] theorem countTimers_pending (s : State) : (countTimers s).pending = s.pending := rfl

/-! ## Work -/

@[simp] theorem start_st (s : State) : (Work.start s).st = s := rfl
@[simp] theorem start_told (s : State) : (Work.start s).told = false := rfl
@[simp] theorem start_reported (s : State) : (Work.start s).reported = false := rfl
@[simp] theorem map_st (w : Work) (f : State → State) : (w.map f).st = f w.st := rfl
@[simp] theorem map_told (w : Work) (f : State → State) : (w.map f).told = w.told := rfl
@[simp] theorem map_reported (w : Work) (f : State → State) : (w.map f).reported = w.reported := rfl
@[simp] theorem tell_st (w : Work) : w.tell.st = w.st := rfl
@[simp] theorem tell_told (w : Work) : w.tell.told = true := rfl
@[simp] theorem tell_reported (w : Work) : w.tell.reported = w.reported := rfl
@[simp] theorem report_st (w : Work) : w.report.st = w.st := rfl
@[simp] theorem report_told (w : Work) : w.report.told = w.told := rfl
@[simp] theorem report_reported (w : Work) : w.report.reported = true := rfl

end Sys2Proof.Machine
end

