-- ==== Sys2Proof/Laws/Frames.lean ====
section
/-! SUPPORT. The frame of each shared operation: the blocks it leaves unchanged, one lemma a block. -/

namespace Sys2Proof.Machine

/-! ## arbitrate -/

@[simp] theorem arbitrate_upstream (s : State) : (arbitrate s).upstream = s.upstream := by
  unfold arbitrate; split <;> first | rfl | (split <;> rfl)
@[simp] theorem arbitrate_live (s : State) : (arbitrate s).live = s.live := by
  unfold arbitrate; split <;> first | rfl | (split <;> rfl)
@[simp] theorem arbitrate_staged (s : State) : (arbitrate s).staged = s.staged := by
  unfold arbitrate; split <;> first | rfl | (split <;> rfl)
@[simp] theorem arbitrate_windows (s : State) : (arbitrate s).windows = s.windows := by
  unfold arbitrate; split <;> first | rfl | (split <;> rfl)
@[simp] theorem arbitrate_records (s : State) : (arbitrate s).records = s.records := by
  unfold arbitrate; split <;> first | rfl | (split <;> rfl)
@[simp] theorem arbitrate_sealOrdinal (s : State) : (arbitrate s).sealOrdinal = s.sealOrdinal := by
  unfold arbitrate; split <;> first | rfl | (split <;> rfl)
@[simp] theorem arbitrate_timing (s : State) : (arbitrate s).timing = s.timing := by
  unfold arbitrate; split <;> first | rfl | (split <;> rfl)
@[simp] theorem arbitrate_tracker (s : State) : (arbitrate s).tracker = s.tracker := by
  unfold arbitrate; split <;> first | rfl | (split <;> rfl)
@[simp] theorem arbitrate_mode (s : State) : (arbitrate s).mode = s.mode := by
  unfold arbitrate; split <;> first | rfl | (split <;> rfl)
@[simp] theorem arbitrate_applyPending (s : State) : (arbitrate s).applyPending = s.applyPending := by
  unfold arbitrate; split <;> first | rfl | (split <;> rfl)
@[simp] theorem arbitrate_incidents (s : State) : (arbitrate s).incidents = s.incidents := by
  unfold arbitrate; split <;> first | rfl | (split <;> rfl)
@[simp] theorem arbitrate_link (s : State) : (arbitrate s).link = s.link := by
  unfold arbitrate; split <;> first | rfl | (split <;> rfl)
@[simp] theorem arbitrate_resetAsserted (s : State) : (arbitrate s).resetAsserted = s.resetAsserted := by
  unfold arbitrate; split <;> first | rfl | (split <;> rfl)
@[simp] theorem arbitrate_memory (s : State) : (arbitrate s).memory = s.memory := by
  unfold arbitrate; split <;> first | rfl | (split <;> rfl)
@[simp] theorem arbitrate_freeIndex (s : State) : (arbitrate s).freeIndex = s.freeIndex := by
  unfold arbitrate; split <;> first | rfl | (split <;> rfl)
@[simp] theorem arbitrate_pending (s : State) : (arbitrate s).pending = s.pending := by
  unfold arbitrate; split <;> first | rfl | (split <;> rfl)

/-! ## grant -/

@[simp] theorem grant_upstream (s : State) : (grant s).upstream = s.upstream := by
  unfold grant; split <;> simp
@[simp] theorem grant_live (s : State) : (grant s).live = s.live := by
  unfold grant; split <;> simp
@[simp] theorem grant_staged (s : State) : (grant s).staged = s.staged := by
  unfold grant; split <;> simp
@[simp] theorem grant_windows (s : State) : (grant s).windows = s.windows := by
  unfold grant; split <;> simp
@[simp] theorem grant_records (s : State) : (grant s).records = s.records := by
  unfold grant; split <;> simp
@[simp] theorem grant_sealOrdinal (s : State) : (grant s).sealOrdinal = s.sealOrdinal := by
  unfold grant; split <;> simp
@[simp] theorem grant_timing (s : State) : (grant s).timing = s.timing := by
  unfold grant; split <;> simp
@[simp] theorem grant_tracker (s : State) : (grant s).tracker = s.tracker := by
  unfold grant; split <;> simp
@[simp] theorem grant_mode (s : State) : (grant s).mode = s.mode := by
  unfold grant; split <;> simp
@[simp] theorem grant_applyPending (s : State) : (grant s).applyPending = s.applyPending := by
  unfold grant; split <;> simp
@[simp] theorem grant_incidents (s : State) : (grant s).incidents = s.incidents := by
  unfold grant; split <;> simp
@[simp] theorem grant_link (s : State) : (grant s).link = s.link := by
  unfold grant; split <;> simp
@[simp] theorem grant_resetAsserted (s : State) : (grant s).resetAsserted = s.resetAsserted := by
  unfold grant; split <;> simp
@[simp] theorem grant_memory (s : State) : (grant s).memory = s.memory := by
  unfold grant; split <;> simp
@[simp] theorem grant_freeIndex (s : State) : (grant s).freeIndex = s.freeIndex := by
  unfold grant; split <;> simp
@[simp] theorem grant_pending (s : State) : (grant s).pending = s.pending := by
  unfold grant; split <;> simp

/-! ## placeUpstream -/

@[simp] theorem placeUpstream_upstream (c : Claim) (s : State) : (placeUpstream c s).upstream = s.upstream := by
  simp [placeUpstream]
@[simp] theorem placeUpstream_live (c : Claim) (s : State) : (placeUpstream c s).live = s.live := by
  simp [placeUpstream]
@[simp] theorem placeUpstream_staged (c : Claim) (s : State) : (placeUpstream c s).staged = s.staged := by
  simp [placeUpstream]
@[simp] theorem placeUpstream_windows (c : Claim) (s : State) : (placeUpstream c s).windows = s.windows := by
  simp [placeUpstream]
@[simp] theorem placeUpstream_records (c : Claim) (s : State) : (placeUpstream c s).records = s.records := by
  simp [placeUpstream]
@[simp] theorem placeUpstream_sealOrdinal (c : Claim) (s : State) :
    (placeUpstream c s).sealOrdinal = s.sealOrdinal := by
  simp [placeUpstream]
@[simp] theorem placeUpstream_timing (c : Claim) (s : State) : (placeUpstream c s).timing = s.timing := by
  simp [placeUpstream]
@[simp] theorem placeUpstream_tracker (c : Claim) (s : State) : (placeUpstream c s).tracker = s.tracker := by
  simp [placeUpstream]
@[simp] theorem placeUpstream_mode (c : Claim) (s : State) : (placeUpstream c s).mode = s.mode := by
  simp [placeUpstream]
@[simp] theorem placeUpstream_applyPending (c : Claim) (s : State) :
    (placeUpstream c s).applyPending = s.applyPending := by
  simp [placeUpstream]
@[simp] theorem placeUpstream_incidents (c : Claim) (s : State) : (placeUpstream c s).incidents = s.incidents := by
  simp [placeUpstream]
@[simp] theorem placeUpstream_link (c : Claim) (s : State) : (placeUpstream c s).link = s.link := by
  simp [placeUpstream]
@[simp] theorem placeUpstream_resetAsserted (c : Claim) (s : State) :
    (placeUpstream c s).resetAsserted = s.resetAsserted := by
  simp [placeUpstream]
@[simp] theorem placeUpstream_memory (c : Claim) (s : State) : (placeUpstream c s).memory = s.memory := by
  simp [placeUpstream]
@[simp] theorem placeUpstream_freeIndex (c : Claim) (s : State) : (placeUpstream c s).freeIndex = s.freeIndex := by
  simp [placeUpstream]
@[simp] theorem placeUpstream_pending (c : Claim) (s : State) : (placeUpstream c s).pending = s.pending := by
  simp [placeUpstream]

/-! ## placeRelease -/

@[simp] theorem placeRelease_upstream (c : Claim) (s : State) : (placeRelease c s).upstream = s.upstream := by
  simp [placeRelease]
@[simp] theorem placeRelease_live (c : Claim) (s : State) : (placeRelease c s).live = s.live := by
  simp [placeRelease]
@[simp] theorem placeRelease_staged (c : Claim) (s : State) : (placeRelease c s).staged = s.staged := by
  simp [placeRelease]
@[simp] theorem placeRelease_windows (c : Claim) (s : State) : (placeRelease c s).windows = s.windows := by
  simp [placeRelease]
@[simp] theorem placeRelease_records (c : Claim) (s : State) : (placeRelease c s).records = s.records := by
  simp [placeRelease]
@[simp] theorem placeRelease_sealOrdinal (c : Claim) (s : State) :
    (placeRelease c s).sealOrdinal = s.sealOrdinal := by
  simp [placeRelease]
@[simp] theorem placeRelease_timing (c : Claim) (s : State) : (placeRelease c s).timing = s.timing := by
  simp [placeRelease]
@[simp] theorem placeRelease_tracker (c : Claim) (s : State) : (placeRelease c s).tracker = s.tracker := by
  simp [placeRelease]
@[simp] theorem placeRelease_mode (c : Claim) (s : State) : (placeRelease c s).mode = s.mode := by
  simp [placeRelease]
@[simp] theorem placeRelease_applyPending (c : Claim) (s : State) :
    (placeRelease c s).applyPending = s.applyPending := by
  simp [placeRelease]
@[simp] theorem placeRelease_incidents (c : Claim) (s : State) : (placeRelease c s).incidents = s.incidents := by
  simp [placeRelease]
@[simp] theorem placeRelease_link (c : Claim) (s : State) : (placeRelease c s).link = s.link := by
  simp [placeRelease]
@[simp] theorem placeRelease_resetAsserted (c : Claim) (s : State) :
    (placeRelease c s).resetAsserted = s.resetAsserted := by
  simp [placeRelease]
@[simp] theorem placeRelease_memory (c : Claim) (s : State) : (placeRelease c s).memory = s.memory := by
  simp [placeRelease]
@[simp] theorem placeRelease_freeIndex (c : Claim) (s : State) : (placeRelease c s).freeIndex = s.freeIndex := by
  simp [placeRelease]
@[simp] theorem placeRelease_pending (c : Claim) (s : State) : (placeRelease c s).pending = s.pending := by
  simp [placeRelease]

/-! ## withdrawRelease -/

@[simp] theorem withdrawRelease_upstream (s : State) : (withdrawRelease s).upstream = s.upstream := by
  unfold withdrawRelease; split <;> rfl
@[simp] theorem withdrawRelease_live (s : State) : (withdrawRelease s).live = s.live := by
  unfold withdrawRelease; split <;> rfl
@[simp] theorem withdrawRelease_staged (s : State) : (withdrawRelease s).staged = s.staged := by
  unfold withdrawRelease; split <;> rfl
@[simp] theorem withdrawRelease_windows (s : State) : (withdrawRelease s).windows = s.windows := by
  unfold withdrawRelease; split <;> rfl
@[simp] theorem withdrawRelease_records (s : State) : (withdrawRelease s).records = s.records := by
  unfold withdrawRelease; split <;> rfl
@[simp] theorem withdrawRelease_sealOrdinal (s : State) : (withdrawRelease s).sealOrdinal = s.sealOrdinal := by
  unfold withdrawRelease; split <;> rfl
@[simp] theorem withdrawRelease_timing (s : State) : (withdrawRelease s).timing = s.timing := by
  unfold withdrawRelease; split <;> rfl
@[simp] theorem withdrawRelease_tracker (s : State) : (withdrawRelease s).tracker = s.tracker := by
  unfold withdrawRelease; split <;> rfl
@[simp] theorem withdrawRelease_engine (s : State) : (withdrawRelease s).engine = s.engine := by
  unfold withdrawRelease; split <;> rfl
@[simp] theorem withdrawRelease_mode (s : State) : (withdrawRelease s).mode = s.mode := by
  unfold withdrawRelease; split <;> rfl
@[simp] theorem withdrawRelease_applyPending (s : State) : (withdrawRelease s).applyPending = s.applyPending := by
  unfold withdrawRelease; split <;> rfl
@[simp] theorem withdrawRelease_incidents (s : State) : (withdrawRelease s).incidents = s.incidents := by
  unfold withdrawRelease; split <;> rfl
@[simp] theorem withdrawRelease_link (s : State) : (withdrawRelease s).link = s.link := by
  unfold withdrawRelease; split <;> rfl
@[simp] theorem withdrawRelease_resetAsserted (s : State) : (withdrawRelease s).resetAsserted = s.resetAsserted := by
  unfold withdrawRelease; split <;> rfl
@[simp] theorem withdrawRelease_memory (s : State) : (withdrawRelease s).memory = s.memory := by
  unfold withdrawRelease; split <;> rfl
@[simp] theorem withdrawRelease_freeIndex (s : State) : (withdrawRelease s).freeIndex = s.freeIndex := by
  unfold withdrawRelease; split <;> rfl
@[simp] theorem withdrawRelease_pending (s : State) : (withdrawRelease s).pending = s.pending := by
  unfold withdrawRelease; split <;> rfl

/-! ## storeHeld -/

@[simp] theorem storeHeld_upstream (W : WindowIdx) (a : Addr) (m : Lanes) (d : Word) (s : State) :
    (storeHeld W a m d s).upstream = s.upstream := by
  unfold storeHeld; split <;> simp
@[simp] theorem storeHeld_live (W : WindowIdx) (a : Addr) (m : Lanes) (d : Word) (s : State) :
    (storeHeld W a m d s).live = s.live := by
  unfold storeHeld; split <;> simp
@[simp] theorem storeHeld_staged (W : WindowIdx) (a : Addr) (m : Lanes) (d : Word) (s : State) :
    (storeHeld W a m d s).staged = s.staged := by
  unfold storeHeld; split <;> simp
@[simp] theorem storeHeld_sealOrdinal (W : WindowIdx) (a : Addr) (m : Lanes) (d : Word) (s : State) :
    (storeHeld W a m d s).sealOrdinal = s.sealOrdinal := by
  unfold storeHeld; split <;> simp
@[simp] theorem storeHeld_timing (W : WindowIdx) (a : Addr) (m : Lanes) (d : Word) (s : State) :
    (storeHeld W a m d s).timing = s.timing := by
  unfold storeHeld; split <;> simp
@[simp] theorem storeHeld_tracker (W : WindowIdx) (a : Addr) (m : Lanes) (d : Word) (s : State) :
    (storeHeld W a m d s).tracker = s.tracker := by
  unfold storeHeld; split <;> simp
@[simp] theorem storeHeld_engine (W : WindowIdx) (a : Addr) (m : Lanes) (d : Word) (s : State) :
    (storeHeld W a m d s).engine = s.engine := by
  unfold storeHeld; split <;> simp
@[simp] theorem storeHeld_port (W : WindowIdx) (a : Addr) (m : Lanes) (d : Word) (s : State) :
    (storeHeld W a m d s).port = s.port := by
  unfold storeHeld; split <;> simp
@[simp] theorem storeHeld_mode (W : WindowIdx) (a : Addr) (m : Lanes) (d : Word) (s : State) :
    (storeHeld W a m d s).mode = s.mode := by
  unfold storeHeld; split <;> simp
@[simp] theorem storeHeld_applyPending (W : WindowIdx) (a : Addr) (m : Lanes) (d : Word) (s : State) :
    (storeHeld W a m d s).applyPending = s.applyPending := by
  unfold storeHeld; split <;> simp
@[simp] theorem storeHeld_incidents (W : WindowIdx) (a : Addr) (m : Lanes) (d : Word) (s : State) :
    (storeHeld W a m d s).incidents = s.incidents := by
  unfold storeHeld; split <;> simp
@[simp] theorem storeHeld_link (W : WindowIdx) (a : Addr) (m : Lanes) (d : Word) (s : State) :
    (storeHeld W a m d s).link = s.link := by
  unfold storeHeld; split <;> simp
@[simp] theorem storeHeld_resetAsserted (W : WindowIdx) (a : Addr) (m : Lanes) (d : Word) (s : State) :
    (storeHeld W a m d s).resetAsserted = s.resetAsserted := by
  unfold storeHeld; split <;> simp
@[simp] theorem storeHeld_memory (W : WindowIdx) (a : Addr) (m : Lanes) (d : Word) (s : State) :
    (storeHeld W a m d s).memory = s.memory := by
  unfold storeHeld; split <;> simp
@[simp] theorem storeHeld_freeIndex (W : WindowIdx) (a : Addr) (m : Lanes) (d : Word) (s : State) :
    (storeHeld W a m d s).freeIndex = s.freeIndex := by
  unfold storeHeld; split <;> simp
@[simp] theorem storeHeld_pending (W : WindowIdx) (a : Addr) (m : Lanes) (d : Word) (s : State) :
    (storeHeld W a m d s).pending = s.pending := by
  unfold storeHeld; split <;> simp

/-! ## markAll -/

theorem markRecord_foldl_cons (reason : ForceReason) (r : RecordIdx) (rs : List RecordIdx) (s : State) :
    (r :: rs).foldl (fun s r => markRecord reason r s) s =
      rs.foldl (fun s r => markRecord reason r s) (markRecord reason r s) := rfl

theorem foldl_markRecord_upstream (reason : ForceReason) (rs : List RecordIdx) (s : State) :
    (rs.foldl (fun s r => markRecord reason r s) s).upstream = s.upstream := by
  induction rs generalizing s with
  | nil => rfl
  | cons r rs ih => rw [List.foldl_cons, ih, markRecord_upstream]

theorem foldl_markRecord_live (reason : ForceReason) (rs : List RecordIdx) (s : State) :
    (rs.foldl (fun s r => markRecord reason r s) s).live = s.live := by
  induction rs generalizing s with
  | nil => rfl
  | cons r rs ih => rw [List.foldl_cons, ih, markRecord_live]

theorem foldl_markRecord_staged (reason : ForceReason) (rs : List RecordIdx) (s : State) :
    (rs.foldl (fun s r => markRecord reason r s) s).staged = s.staged := by
  induction rs generalizing s with
  | nil => rfl
  | cons r rs ih => rw [List.foldl_cons, ih, markRecord_staged]

theorem foldl_markRecord_windows (reason : ForceReason) (rs : List RecordIdx) (s : State) :
    (rs.foldl (fun s r => markRecord reason r s) s).windows = s.windows := by
  induction rs generalizing s with
  | nil => rfl
  | cons r rs ih => rw [List.foldl_cons, ih, markRecord_windows]

theorem foldl_markRecord_sealOrdinal (reason : ForceReason) (rs : List RecordIdx) (s : State) :
    (rs.foldl (fun s r => markRecord reason r s) s).sealOrdinal = s.sealOrdinal := by
  induction rs generalizing s with
  | nil => rfl
  | cons r rs ih => rw [List.foldl_cons, ih, markRecord_sealOrdinal]

theorem foldl_markRecord_timing (reason : ForceReason) (rs : List RecordIdx) (s : State) :
    (rs.foldl (fun s r => markRecord reason r s) s).timing = s.timing := by
  induction rs generalizing s with
  | nil => rfl
  | cons r rs ih => rw [List.foldl_cons, ih, markRecord_timing]

theorem foldl_markRecord_tracker (reason : ForceReason) (rs : List RecordIdx) (s : State) :
    (rs.foldl (fun s r => markRecord reason r s) s).tracker = s.tracker := by
  induction rs generalizing s with
  | nil => rfl
  | cons r rs ih => rw [List.foldl_cons, ih, markRecord_tracker]

theorem foldl_markRecord_engine (reason : ForceReason) (rs : List RecordIdx) (s : State) :
    (rs.foldl (fun s r => markRecord reason r s) s).engine = s.engine := by
  induction rs generalizing s with
  | nil => rfl
  | cons r rs ih => rw [List.foldl_cons, ih, markRecord_engine]

theorem foldl_markRecord_port (reason : ForceReason) (rs : List RecordIdx) (s : State) :
    (rs.foldl (fun s r => markRecord reason r s) s).port = s.port := by
  induction rs generalizing s with
  | nil => rfl
  | cons r rs ih => rw [List.foldl_cons, ih, markRecord_port]

theorem foldl_markRecord_mode (reason : ForceReason) (rs : List RecordIdx) (s : State) :
    (rs.foldl (fun s r => markRecord reason r s) s).mode = s.mode := by
  induction rs generalizing s with
  | nil => rfl
  | cons r rs ih => rw [List.foldl_cons, ih, markRecord_mode]

theorem foldl_markRecord_applyPending (reason : ForceReason) (rs : List RecordIdx) (s : State) :
    (rs.foldl (fun s r => markRecord reason r s) s).applyPending = s.applyPending := by
  induction rs generalizing s with
  | nil => rfl
  | cons r rs ih => rw [List.foldl_cons, ih, markRecord_applyPending]

theorem foldl_markRecord_incidents (reason : ForceReason) (rs : List RecordIdx) (s : State) :
    (rs.foldl (fun s r => markRecord reason r s) s).incidents = s.incidents := by
  induction rs generalizing s with
  | nil => rfl
  | cons r rs ih => rw [List.foldl_cons, ih, markRecord_incidents]

theorem foldl_markRecord_link (reason : ForceReason) (rs : List RecordIdx) (s : State) :
    (rs.foldl (fun s r => markRecord reason r s) s).link = s.link := by
  induction rs generalizing s with
  | nil => rfl
  | cons r rs ih => rw [List.foldl_cons, ih, markRecord_link]

theorem foldl_markRecord_resetAsserted (reason : ForceReason) (rs : List RecordIdx) (s : State) :
    (rs.foldl (fun s r => markRecord reason r s) s).resetAsserted = s.resetAsserted := by
  induction rs generalizing s with
  | nil => rfl
  | cons r rs ih => rw [List.foldl_cons, ih, markRecord_resetAsserted]

theorem foldl_markRecord_memory (reason : ForceReason) (rs : List RecordIdx) (s : State) :
    (rs.foldl (fun s r => markRecord reason r s) s).memory = s.memory := by
  induction rs generalizing s with
  | nil => rfl
  | cons r rs ih => rw [List.foldl_cons, ih, markRecord_memory]

theorem foldl_markRecord_freeIndex (reason : ForceReason) (rs : List RecordIdx) (s : State) :
    (rs.foldl (fun s r => markRecord reason r s) s).freeIndex = s.freeIndex := by
  induction rs generalizing s with
  | nil => rfl
  | cons r rs ih => rw [List.foldl_cons, ih, markRecord_freeIndex]

theorem foldl_markRecord_pending (reason : ForceReason) (rs : List RecordIdx) (s : State) :
    (rs.foldl (fun s r => markRecord reason r s) s).pending = s.pending := by
  induction rs generalizing s with
  | nil => rfl
  | cons r rs ih => rw [List.foldl_cons, ih, markRecord_pending]

@[simp] theorem markAll_upstream (reason : ForceReason) (rs : List RecordIdx) (w : Work) :
    ((markAll reason rs w).st).upstream = w.st.upstream := by
  exact foldl_markRecord_upstream reason rs w.st
@[simp] theorem markAll_live (reason : ForceReason) (rs : List RecordIdx) (w : Work) :
    ((markAll reason rs w).st).live = w.st.live := by
  exact foldl_markRecord_live reason rs w.st
@[simp] theorem markAll_staged (reason : ForceReason) (rs : List RecordIdx) (w : Work) :
    ((markAll reason rs w).st).staged = w.st.staged := by
  exact foldl_markRecord_staged reason rs w.st
@[simp] theorem markAll_windows (reason : ForceReason) (rs : List RecordIdx) (w : Work) :
    ((markAll reason rs w).st).windows = w.st.windows := by
  exact foldl_markRecord_windows reason rs w.st
@[simp] theorem markAll_sealOrdinal (reason : ForceReason) (rs : List RecordIdx) (w : Work) :
    ((markAll reason rs w).st).sealOrdinal = w.st.sealOrdinal := by
  exact foldl_markRecord_sealOrdinal reason rs w.st
@[simp] theorem markAll_timing (reason : ForceReason) (rs : List RecordIdx) (w : Work) :
    ((markAll reason rs w).st).timing = w.st.timing := by
  exact foldl_markRecord_timing reason rs w.st
@[simp] theorem markAll_tracker (reason : ForceReason) (rs : List RecordIdx) (w : Work) :
    ((markAll reason rs w).st).tracker = w.st.tracker := by
  exact foldl_markRecord_tracker reason rs w.st
@[simp] theorem markAll_engine (reason : ForceReason) (rs : List RecordIdx) (w : Work) :
    ((markAll reason rs w).st).engine = w.st.engine := by
  exact foldl_markRecord_engine reason rs w.st
@[simp] theorem markAll_port (reason : ForceReason) (rs : List RecordIdx) (w : Work) :
    ((markAll reason rs w).st).port = w.st.port := by
  exact foldl_markRecord_port reason rs w.st
@[simp] theorem markAll_mode (reason : ForceReason) (rs : List RecordIdx) (w : Work) :
    ((markAll reason rs w).st).mode = w.st.mode := by
  exact foldl_markRecord_mode reason rs w.st
@[simp] theorem markAll_applyPending (reason : ForceReason) (rs : List RecordIdx) (w : Work) :
    ((markAll reason rs w).st).applyPending = w.st.applyPending := by
  exact foldl_markRecord_applyPending reason rs w.st
@[simp] theorem markAll_incidents (reason : ForceReason) (rs : List RecordIdx) (w : Work) :
    ((markAll reason rs w).st).incidents = w.st.incidents := by
  exact foldl_markRecord_incidents reason rs w.st
@[simp] theorem markAll_link (reason : ForceReason) (rs : List RecordIdx) (w : Work) :
    ((markAll reason rs w).st).link = w.st.link := by
  exact foldl_markRecord_link reason rs w.st
@[simp] theorem markAll_resetAsserted (reason : ForceReason) (rs : List RecordIdx) (w : Work) :
    ((markAll reason rs w).st).resetAsserted = w.st.resetAsserted := by
  exact foldl_markRecord_resetAsserted reason rs w.st
@[simp] theorem markAll_memory (reason : ForceReason) (rs : List RecordIdx) (w : Work) :
    ((markAll reason rs w).st).memory = w.st.memory := by
  exact foldl_markRecord_memory reason rs w.st
@[simp] theorem markAll_freeIndex (reason : ForceReason) (rs : List RecordIdx) (w : Work) :
    ((markAll reason rs w).st).freeIndex = w.st.freeIndex := by
  exact foldl_markRecord_freeIndex reason rs w.st
@[simp] theorem markAll_pending (reason : ForceReason) (rs : List RecordIdx) (w : Work) :
    ((markAll reason rs w).st).pending = w.st.pending := by
  exact foldl_markRecord_pending reason rs w.st

/-! ## forceMark -/

@[simp] theorem forceMark_upstream (reason : ForceReason) (W : WindowIdx) (r : RecordIdx) (w : Work) :
    ((forceMark reason W r w).st).upstream = w.st.upstream := by
  simp [forceMark]
@[simp] theorem forceMark_live (reason : ForceReason) (W : WindowIdx) (r : RecordIdx) (w : Work) :
    ((forceMark reason W r w).st).live = w.st.live := by
  simp [forceMark]
@[simp] theorem forceMark_staged (reason : ForceReason) (W : WindowIdx) (r : RecordIdx) (w : Work) :
    ((forceMark reason W r w).st).staged = w.st.staged := by
  simp [forceMark]
@[simp] theorem forceMark_windows (reason : ForceReason) (W : WindowIdx) (r : RecordIdx) (w : Work) :
    ((forceMark reason W r w).st).windows = w.st.windows := by
  simp [forceMark]
@[simp] theorem forceMark_sealOrdinal (reason : ForceReason) (W : WindowIdx) (r : RecordIdx) (w : Work) :
    ((forceMark reason W r w).st).sealOrdinal = w.st.sealOrdinal := by
  simp [forceMark]
@[simp] theorem forceMark_timing (reason : ForceReason) (W : WindowIdx) (r : RecordIdx) (w : Work) :
    ((forceMark reason W r w).st).timing = w.st.timing := by
  simp [forceMark]
@[simp] theorem forceMark_tracker (reason : ForceReason) (W : WindowIdx) (r : RecordIdx) (w : Work) :
    ((forceMark reason W r w).st).tracker = w.st.tracker := by
  simp [forceMark]
@[simp] theorem forceMark_engine (reason : ForceReason) (W : WindowIdx) (r : RecordIdx) (w : Work) :
    ((forceMark reason W r w).st).engine = w.st.engine := by
  simp [forceMark]
@[simp] theorem forceMark_port (reason : ForceReason) (W : WindowIdx) (r : RecordIdx) (w : Work) :
    ((forceMark reason W r w).st).port = w.st.port := by
  simp [forceMark]
@[simp] theorem forceMark_mode (reason : ForceReason) (W : WindowIdx) (r : RecordIdx) (w : Work) :
    ((forceMark reason W r w).st).mode = w.st.mode := by
  simp [forceMark]
@[simp] theorem forceMark_applyPending (reason : ForceReason) (W : WindowIdx) (r : RecordIdx) (w : Work) :
    ((forceMark reason W r w).st).applyPending = w.st.applyPending := by
  simp [forceMark]
@[simp] theorem forceMark_incidents (reason : ForceReason) (W : WindowIdx) (r : RecordIdx) (w : Work) :
    ((forceMark reason W r w).st).incidents = w.st.incidents := by
  simp [forceMark]
@[simp] theorem forceMark_link (reason : ForceReason) (W : WindowIdx) (r : RecordIdx) (w : Work) :
    ((forceMark reason W r w).st).link = w.st.link := by
  simp [forceMark]
@[simp] theorem forceMark_resetAsserted (reason : ForceReason) (W : WindowIdx) (r : RecordIdx) (w : Work) :
    ((forceMark reason W r w).st).resetAsserted = w.st.resetAsserted := by
  simp [forceMark]
@[simp] theorem forceMark_memory (reason : ForceReason) (W : WindowIdx) (r : RecordIdx) (w : Work) :
    ((forceMark reason W r w).st).memory = w.st.memory := by
  simp [forceMark]
@[simp] theorem forceMark_freeIndex (reason : ForceReason) (W : WindowIdx) (r : RecordIdx) (w : Work) :
    ((forceMark reason W r w).st).freeIndex = w.st.freeIndex := by
  simp [forceMark]
@[simp] theorem forceMark_pending (reason : ForceReason) (W : WindowIdx) (r : RecordIdx) (w : Work) :
    ((forceMark reason W r w).st).pending = w.st.pending := by
  simp [forceMark]

/-! ## oversizeCheck -/

@[simp] theorem oversizeCheck_upstream (W : WindowIdx) (r : RecordIdx) (b : BatchRecord) (w : Work) :
    ((oversizeCheck W r b w).st).upstream = w.st.upstream := by
  unfold oversizeCheck; split <;> simp
@[simp] theorem oversizeCheck_live (W : WindowIdx) (r : RecordIdx) (b : BatchRecord) (w : Work) :
    ((oversizeCheck W r b w).st).live = w.st.live := by
  unfold oversizeCheck; split <;> simp
@[simp] theorem oversizeCheck_staged (W : WindowIdx) (r : RecordIdx) (b : BatchRecord) (w : Work) :
    ((oversizeCheck W r b w).st).staged = w.st.staged := by
  unfold oversizeCheck; split <;> simp
@[simp] theorem oversizeCheck_windows (W : WindowIdx) (r : RecordIdx) (b : BatchRecord) (w : Work) :
    ((oversizeCheck W r b w).st).windows = w.st.windows := by
  unfold oversizeCheck; split <;> simp
@[simp] theorem oversizeCheck_sealOrdinal (W : WindowIdx) (r : RecordIdx) (b : BatchRecord) (w : Work) :
    ((oversizeCheck W r b w).st).sealOrdinal = w.st.sealOrdinal := by
  unfold oversizeCheck; split <;> simp
@[simp] theorem oversizeCheck_timing (W : WindowIdx) (r : RecordIdx) (b : BatchRecord) (w : Work) :
    ((oversizeCheck W r b w).st).timing = w.st.timing := by
  unfold oversizeCheck; split <;> simp
@[simp] theorem oversizeCheck_tracker (W : WindowIdx) (r : RecordIdx) (b : BatchRecord) (w : Work) :
    ((oversizeCheck W r b w).st).tracker = w.st.tracker := by
  unfold oversizeCheck; split <;> simp
@[simp] theorem oversizeCheck_engine (W : WindowIdx) (r : RecordIdx) (b : BatchRecord) (w : Work) :
    ((oversizeCheck W r b w).st).engine = w.st.engine := by
  unfold oversizeCheck; split <;> simp
@[simp] theorem oversizeCheck_port (W : WindowIdx) (r : RecordIdx) (b : BatchRecord) (w : Work) :
    ((oversizeCheck W r b w).st).port = w.st.port := by
  unfold oversizeCheck; split <;> simp
@[simp] theorem oversizeCheck_mode (W : WindowIdx) (r : RecordIdx) (b : BatchRecord) (w : Work) :
    ((oversizeCheck W r b w).st).mode = w.st.mode := by
  unfold oversizeCheck; split <;> simp
@[simp] theorem oversizeCheck_applyPending (W : WindowIdx) (r : RecordIdx) (b : BatchRecord) (w : Work) :
    ((oversizeCheck W r b w).st).applyPending = w.st.applyPending := by
  unfold oversizeCheck; split <;> simp
@[simp] theorem oversizeCheck_incidents (W : WindowIdx) (r : RecordIdx) (b : BatchRecord) (w : Work) :
    ((oversizeCheck W r b w).st).incidents = w.st.incidents := by
  unfold oversizeCheck; split <;> simp
@[simp] theorem oversizeCheck_link (W : WindowIdx) (r : RecordIdx) (b : BatchRecord) (w : Work) :
    ((oversizeCheck W r b w).st).link = w.st.link := by
  unfold oversizeCheck; split <;> simp
@[simp] theorem oversizeCheck_resetAsserted (W : WindowIdx) (r : RecordIdx) (b : BatchRecord) (w : Work) :
    ((oversizeCheck W r b w).st).resetAsserted = w.st.resetAsserted := by
  unfold oversizeCheck; split <;> simp
@[simp] theorem oversizeCheck_memory (W : WindowIdx) (r : RecordIdx) (b : BatchRecord) (w : Work) :
    ((oversizeCheck W r b w).st).memory = w.st.memory := by
  unfold oversizeCheck; split <;> simp
@[simp] theorem oversizeCheck_freeIndex (W : WindowIdx) (r : RecordIdx) (b : BatchRecord) (w : Work) :
    ((oversizeCheck W r b w).st).freeIndex = w.st.freeIndex := by
  unfold oversizeCheck; split <;> simp
@[simp] theorem oversizeCheck_pending (W : WindowIdx) (r : RecordIdx) (b : BatchRecord) (w : Work) :
    ((oversizeCheck W r b w).st).pending = w.st.pending := by
  unfold oversizeCheck; split <;> simp

/-! ## sealOpen -/

@[simp] theorem sealOpen_upstream (W : WindowIdx) (w : Work) : ((sealOpen W w).st).upstream = w.st.upstream := by
  unfold sealOpen; split <;> [skip; split] <;> simp
@[simp] theorem sealOpen_live (W : WindowIdx) (w : Work) : ((sealOpen W w).st).live = w.st.live := by
  unfold sealOpen; split <;> [skip; split] <;> simp
@[simp] theorem sealOpen_staged (W : WindowIdx) (w : Work) : ((sealOpen W w).st).staged = w.st.staged := by
  unfold sealOpen; split <;> [skip; split] <;> simp
@[simp] theorem sealOpen_timing (W : WindowIdx) (w : Work) : ((sealOpen W w).st).timing = w.st.timing := by
  unfold sealOpen; split <;> [skip; split] <;> simp
@[simp] theorem sealOpen_tracker (W : WindowIdx) (w : Work) : ((sealOpen W w).st).tracker = w.st.tracker := by
  unfold sealOpen; split <;> [skip; split] <;> simp
@[simp] theorem sealOpen_engine (W : WindowIdx) (w : Work) : ((sealOpen W w).st).engine = w.st.engine := by
  unfold sealOpen; split <;> [skip; split] <;> simp
@[simp] theorem sealOpen_port (W : WindowIdx) (w : Work) : ((sealOpen W w).st).port = w.st.port := by
  unfold sealOpen; split <;> [skip; split] <;> simp
@[simp] theorem sealOpen_mode (W : WindowIdx) (w : Work) : ((sealOpen W w).st).mode = w.st.mode := by
  unfold sealOpen; split <;> [skip; split] <;> simp
@[simp] theorem sealOpen_applyPending (W : WindowIdx) (w : Work) :
    ((sealOpen W w).st).applyPending = w.st.applyPending := by
  unfold sealOpen; split <;> [skip; split] <;> simp
@[simp] theorem sealOpen_incidents (W : WindowIdx) (w : Work) : ((sealOpen W w).st).incidents = w.st.incidents := by
  unfold sealOpen; split <;> [skip; split] <;> simp
@[simp] theorem sealOpen_link (W : WindowIdx) (w : Work) : ((sealOpen W w).st).link = w.st.link := by
  unfold sealOpen; split <;> [skip; split] <;> simp
@[simp] theorem sealOpen_resetAsserted (W : WindowIdx) (w : Work) :
    ((sealOpen W w).st).resetAsserted = w.st.resetAsserted := by
  unfold sealOpen; split <;> [skip; split] <;> simp
@[simp] theorem sealOpen_memory (W : WindowIdx) (w : Work) : ((sealOpen W w).st).memory = w.st.memory := by
  unfold sealOpen; split <;> [skip; split] <;> simp
@[simp] theorem sealOpen_freeIndex (W : WindowIdx) (w : Work) : ((sealOpen W w).st).freeIndex = w.st.freeIndex := by
  unfold sealOpen; split <;> [skip; split] <;> simp
@[simp] theorem sealOpen_pending (W : WindowIdx) (w : Work) : ((sealOpen W w).st).pending = w.st.pending := by
  unfold sealOpen; split <;> [skip; split] <;> simp

/-! ## sealAll -/

theorem sealAll_cons (W : WindowIdx) (Ws : List WindowIdx) (w : Work) :
    sealAll (W :: Ws) w = sealAll Ws (sealOpen W w) := rfl


@[simp] theorem sealAll_upstream (Ws : List WindowIdx) (w : Work) : ((sealAll Ws w).st).upstream = w.st.upstream := by
  induction Ws generalizing w with
  | nil => rfl
  | cons W Ws ih => rw [sealAll_cons, ih]; simp
@[simp] theorem sealAll_live (Ws : List WindowIdx) (w : Work) : ((sealAll Ws w).st).live = w.st.live := by
  induction Ws generalizing w with
  | nil => rfl
  | cons W Ws ih => rw [sealAll_cons, ih]; simp
@[simp] theorem sealAll_staged (Ws : List WindowIdx) (w : Work) : ((sealAll Ws w).st).staged = w.st.staged := by
  induction Ws generalizing w with
  | nil => rfl
  | cons W Ws ih => rw [sealAll_cons, ih]; simp
@[simp] theorem sealAll_timing (Ws : List WindowIdx) (w : Work) : ((sealAll Ws w).st).timing = w.st.timing := by
  induction Ws generalizing w with
  | nil => rfl
  | cons W Ws ih => rw [sealAll_cons, ih]; simp
@[simp] theorem sealAll_tracker (Ws : List WindowIdx) (w : Work) : ((sealAll Ws w).st).tracker = w.st.tracker := by
  induction Ws generalizing w with
  | nil => rfl
  | cons W Ws ih => rw [sealAll_cons, ih]; simp
@[simp] theorem sealAll_engine (Ws : List WindowIdx) (w : Work) : ((sealAll Ws w).st).engine = w.st.engine := by
  induction Ws generalizing w with
  | nil => rfl
  | cons W Ws ih => rw [sealAll_cons, ih]; simp
@[simp] theorem sealAll_port (Ws : List WindowIdx) (w : Work) : ((sealAll Ws w).st).port = w.st.port := by
  induction Ws generalizing w with
  | nil => rfl
  | cons W Ws ih => rw [sealAll_cons, ih]; simp
@[simp] theorem sealAll_mode (Ws : List WindowIdx) (w : Work) : ((sealAll Ws w).st).mode = w.st.mode := by
  induction Ws generalizing w with
  | nil => rfl
  | cons W Ws ih => rw [sealAll_cons, ih]; simp
@[simp] theorem sealAll_applyPending (Ws : List WindowIdx) (w : Work) :
    ((sealAll Ws w).st).applyPending = w.st.applyPending := by
  induction Ws generalizing w with
  | nil => rfl
  | cons W Ws ih => rw [sealAll_cons, ih]; simp
@[simp] theorem sealAll_incidents (Ws : List WindowIdx) (w : Work) :
    ((sealAll Ws w).st).incidents = w.st.incidents := by
  induction Ws generalizing w with
  | nil => rfl
  | cons W Ws ih => rw [sealAll_cons, ih]; simp
@[simp] theorem sealAll_link (Ws : List WindowIdx) (w : Work) : ((sealAll Ws w).st).link = w.st.link := by
  induction Ws generalizing w with
  | nil => rfl
  | cons W Ws ih => rw [sealAll_cons, ih]; simp
@[simp] theorem sealAll_resetAsserted (Ws : List WindowIdx) (w : Work) :
    ((sealAll Ws w).st).resetAsserted = w.st.resetAsserted := by
  induction Ws generalizing w with
  | nil => rfl
  | cons W Ws ih => rw [sealAll_cons, ih]; simp
@[simp] theorem sealAll_memory (Ws : List WindowIdx) (w : Work) : ((sealAll Ws w).st).memory = w.st.memory := by
  induction Ws generalizing w with
  | nil => rfl
  | cons W Ws ih => rw [sealAll_cons, ih]; simp
@[simp] theorem sealAll_freeIndex (Ws : List WindowIdx) (w : Work) :
    ((sealAll Ws w).st).freeIndex = w.st.freeIndex := by
  induction Ws generalizing w with
  | nil => rfl
  | cons W Ws ih => rw [sealAll_cons, ih]; simp
@[simp] theorem sealAll_pending (Ws : List WindowIdx) (w : Work) : ((sealAll Ws w).st).pending = w.st.pending := by
  induction Ws generalizing w with
  | nil => rfl
  | cons W Ws ih => rw [sealAll_cons, ih]; simp

/-! ## requestEntry -/

@[simp] theorem requestEntry_upstream (es : List Entry) (s : State) : (requestEntry es s).upstream = s.upstream := by
  unfold requestEntry; split <;> simp
@[simp] theorem requestEntry_live (es : List Entry) (s : State) : (requestEntry es s).live = s.live := by
  unfold requestEntry; split <;> simp
@[simp] theorem requestEntry_staged (es : List Entry) (s : State) : (requestEntry es s).staged = s.staged := by
  unfold requestEntry; split <;> simp
@[simp] theorem requestEntry_windows (es : List Entry) (s : State) : (requestEntry es s).windows = s.windows := by
  unfold requestEntry; split <;> simp
@[simp] theorem requestEntry_records (es : List Entry) (s : State) : (requestEntry es s).records = s.records := by
  unfold requestEntry; split <;> simp
@[simp] theorem requestEntry_sealOrdinal (es : List Entry) (s : State) :
    (requestEntry es s).sealOrdinal = s.sealOrdinal := by
  unfold requestEntry; split <;> simp
@[simp] theorem requestEntry_timing (es : List Entry) (s : State) : (requestEntry es s).timing = s.timing := by
  unfold requestEntry; split <;> simp
@[simp] theorem requestEntry_tracker (es : List Entry) (s : State) : (requestEntry es s).tracker = s.tracker := by
  unfold requestEntry; split <;> simp
@[simp] theorem requestEntry_mode (es : List Entry) (s : State) : (requestEntry es s).mode = s.mode := by
  unfold requestEntry; split <;> simp
@[simp] theorem requestEntry_applyPending (es : List Entry) (s : State) :
    (requestEntry es s).applyPending = s.applyPending := by
  unfold requestEntry; split <;> simp
@[simp] theorem requestEntry_incidents (es : List Entry) (s : State) :
    (requestEntry es s).incidents = s.incidents := by
  unfold requestEntry; split <;> simp
@[simp] theorem requestEntry_link (es : List Entry) (s : State) : (requestEntry es s).link = s.link := by
  unfold requestEntry; split <;> simp
@[simp] theorem requestEntry_resetAsserted (es : List Entry) (s : State) :
    (requestEntry es s).resetAsserted = s.resetAsserted := by
  unfold requestEntry; split <;> simp
@[simp] theorem requestEntry_memory (es : List Entry) (s : State) : (requestEntry es s).memory = s.memory := by
  unfold requestEntry; split <;> simp
@[simp] theorem requestEntry_freeIndex (es : List Entry) (s : State) :
    (requestEntry es s).freeIndex = s.freeIndex := by
  unfold requestEntry; split <;> simp
@[simp] theorem requestEntry_pending (es : List Entry) (s : State) : (requestEntry es s).pending = s.pending := by
  unfold requestEntry; split <;> simp

/-! ## reportForced -/

@[simp] theorem reportForced_upstream (b : BatchRecord) (s : State) : (reportForced b s).upstream = s.upstream := by
  unfold reportForced; split <;> simp
@[simp] theorem reportForced_live (b : BatchRecord) (s : State) : (reportForced b s).live = s.live := by
  unfold reportForced; split <;> simp
@[simp] theorem reportForced_staged (b : BatchRecord) (s : State) : (reportForced b s).staged = s.staged := by
  unfold reportForced; split <;> simp
@[simp] theorem reportForced_windows (b : BatchRecord) (s : State) : (reportForced b s).windows = s.windows := by
  unfold reportForced; split <;> simp
@[simp] theorem reportForced_records (b : BatchRecord) (s : State) : (reportForced b s).records = s.records := by
  unfold reportForced; split <;> simp
@[simp] theorem reportForced_sealOrdinal (b : BatchRecord) (s : State) :
    (reportForced b s).sealOrdinal = s.sealOrdinal := by
  unfold reportForced; split <;> simp
@[simp] theorem reportForced_timing (b : BatchRecord) (s : State) : (reportForced b s).timing = s.timing := by
  unfold reportForced; split <;> simp
@[simp] theorem reportForced_tracker (b : BatchRecord) (s : State) : (reportForced b s).tracker = s.tracker := by
  unfold reportForced; split <;> simp
@[simp] theorem reportForced_engine (b : BatchRecord) (s : State) : (reportForced b s).engine = s.engine := by
  unfold reportForced; split <;> simp
@[simp] theorem reportForced_port (b : BatchRecord) (s : State) : (reportForced b s).port = s.port := by
  unfold reportForced; split <;> simp
@[simp] theorem reportForced_mode (b : BatchRecord) (s : State) : (reportForced b s).mode = s.mode := by
  unfold reportForced; split <;> simp
@[simp] theorem reportForced_applyPending (b : BatchRecord) (s : State) :
    (reportForced b s).applyPending = s.applyPending := by
  unfold reportForced; split <;> simp
@[simp] theorem reportForced_link (b : BatchRecord) (s : State) : (reportForced b s).link = s.link := by
  unfold reportForced; split <;> simp
@[simp] theorem reportForced_resetAsserted (b : BatchRecord) (s : State) :
    (reportForced b s).resetAsserted = s.resetAsserted := by
  unfold reportForced; split <;> simp
@[simp] theorem reportForced_memory (b : BatchRecord) (s : State) : (reportForced b s).memory = s.memory := by
  unfold reportForced; split <;> simp
@[simp] theorem reportForced_freeIndex (b : BatchRecord) (s : State) :
    (reportForced b s).freeIndex = s.freeIndex := by
  unfold reportForced; split <;> simp
@[simp] theorem reportForced_pending (b : BatchRecord) (s : State) : (reportForced b s).pending = s.pending := by
  unfold reportForced; split <;> simp

/-! ## startBatch -/

@[simp] theorem startBatch_upstream (r : RecordIdx) (s : State) : (startBatch r s).upstream = s.upstream := by
  unfold startBatch; split <;> simp
@[simp] theorem startBatch_live (r : RecordIdx) (s : State) : (startBatch r s).live = s.live := by
  unfold startBatch; split <;> simp
@[simp] theorem startBatch_staged (r : RecordIdx) (s : State) : (startBatch r s).staged = s.staged := by
  unfold startBatch; split <;> simp
@[simp] theorem startBatch_sealOrdinal (r : RecordIdx) (s : State) :
    (startBatch r s).sealOrdinal = s.sealOrdinal := by
  unfold startBatch; split <;> simp
@[simp] theorem startBatch_timing (r : RecordIdx) (s : State) : (startBatch r s).timing = s.timing := by
  unfold startBatch; split <;> simp
@[simp] theorem startBatch_tracker (r : RecordIdx) (s : State) : (startBatch r s).tracker = s.tracker := by
  unfold startBatch; split <;> simp
@[simp] theorem startBatch_mode (r : RecordIdx) (s : State) : (startBatch r s).mode = s.mode := by
  unfold startBatch; split <;> simp
@[simp] theorem startBatch_applyPending (r : RecordIdx) (s : State) :
    (startBatch r s).applyPending = s.applyPending := by
  unfold startBatch; split <;> simp
@[simp] theorem startBatch_link (r : RecordIdx) (s : State) : (startBatch r s).link = s.link := by
  unfold startBatch; split <;> simp
@[simp] theorem startBatch_resetAsserted (r : RecordIdx) (s : State) :
    (startBatch r s).resetAsserted = s.resetAsserted := by
  unfold startBatch; split <;> simp
@[simp] theorem startBatch_memory (r : RecordIdx) (s : State) : (startBatch r s).memory = s.memory := by
  unfold startBatch; split <;> simp
@[simp] theorem startBatch_freeIndex (r : RecordIdx) (s : State) : (startBatch r s).freeIndex = s.freeIndex := by
  unfold startBatch; split <;> simp
@[simp] theorem startBatch_pending (r : RecordIdx) (s : State) : (startBatch r s).pending = s.pending := by
  unfold startBatch; split <;> simp

/-! ## evaluate -/

@[simp] theorem evaluate_upstream (s : State) : (evaluate s).upstream = s.upstream := by
  unfold evaluate; split <;> [split; skip] <;> simp
@[simp] theorem evaluate_live (s : State) : (evaluate s).live = s.live := by
  unfold evaluate; split <;> [split; skip] <;> simp
@[simp] theorem evaluate_staged (s : State) : (evaluate s).staged = s.staged := by
  unfold evaluate; split <;> [split; skip] <;> simp
@[simp] theorem evaluate_sealOrdinal (s : State) : (evaluate s).sealOrdinal = s.sealOrdinal := by
  unfold evaluate; split <;> [split; skip] <;> simp
@[simp] theorem evaluate_timing (s : State) : (evaluate s).timing = s.timing := by
  unfold evaluate; split <;> [split; skip] <;> simp
@[simp] theorem evaluate_tracker (s : State) : (evaluate s).tracker = s.tracker := by
  unfold evaluate; split <;> [split; skip] <;> simp
@[simp] theorem evaluate_mode (s : State) : (evaluate s).mode = s.mode := by
  unfold evaluate; split <;> [split; skip] <;> simp
@[simp] theorem evaluate_applyPending (s : State) : (evaluate s).applyPending = s.applyPending := by
  unfold evaluate; split <;> [split; skip] <;> simp
@[simp] theorem evaluate_link (s : State) : (evaluate s).link = s.link := by
  unfold evaluate; split <;> [split; skip] <;> simp
@[simp] theorem evaluate_resetAsserted (s : State) : (evaluate s).resetAsserted = s.resetAsserted := by
  unfold evaluate; split <;> [split; skip] <;> simp
@[simp] theorem evaluate_memory (s : State) : (evaluate s).memory = s.memory := by
  unfold evaluate; split <;> [split; skip] <;> simp
@[simp] theorem evaluate_freeIndex (s : State) : (evaluate s).freeIndex = s.freeIndex := by
  unfold evaluate; split <;> [split; skip] <;> simp
@[simp] theorem evaluate_pending (s : State) : (evaluate s).pending = s.pending := by
  unfold evaluate; split <;> [split; skip] <;> simp

/-! ## checkLate -/

@[simp] theorem checkLate_upstream (r : RecordIdx) (b : BatchRecord) (n : Nat) (s : State) :
    (checkLate r b n s).upstream = s.upstream := by
  unfold checkLate; split <;> simp
@[simp] theorem checkLate_live (r : RecordIdx) (b : BatchRecord) (n : Nat) (s : State) :
    (checkLate r b n s).live = s.live := by
  unfold checkLate; split <;> simp
@[simp] theorem checkLate_staged (r : RecordIdx) (b : BatchRecord) (n : Nat) (s : State) :
    (checkLate r b n s).staged = s.staged := by
  unfold checkLate; split <;> simp
@[simp] theorem checkLate_windows (r : RecordIdx) (b : BatchRecord) (n : Nat) (s : State) :
    (checkLate r b n s).windows = s.windows := by
  unfold checkLate; split <;> simp
@[simp] theorem checkLate_sealOrdinal (r : RecordIdx) (b : BatchRecord) (n : Nat) (s : State) :
    (checkLate r b n s).sealOrdinal = s.sealOrdinal := by
  unfold checkLate; split <;> simp
@[simp] theorem checkLate_timing (r : RecordIdx) (b : BatchRecord) (n : Nat) (s : State) :
    (checkLate r b n s).timing = s.timing := by
  unfold checkLate; split <;> simp
@[simp] theorem checkLate_tracker (r : RecordIdx) (b : BatchRecord) (n : Nat) (s : State) :
    (checkLate r b n s).tracker = s.tracker := by
  unfold checkLate; split <;> simp
@[simp] theorem checkLate_engine (r : RecordIdx) (b : BatchRecord) (n : Nat) (s : State) :
    (checkLate r b n s).engine = s.engine := by
  unfold checkLate; split <;> simp
@[simp] theorem checkLate_port (r : RecordIdx) (b : BatchRecord) (n : Nat) (s : State) :
    (checkLate r b n s).port = s.port := by
  unfold checkLate; split <;> simp
@[simp] theorem checkLate_mode (r : RecordIdx) (b : BatchRecord) (n : Nat) (s : State) :
    (checkLate r b n s).mode = s.mode := by
  unfold checkLate; split <;> simp
@[simp] theorem checkLate_applyPending (r : RecordIdx) (b : BatchRecord) (n : Nat) (s : State) :
    (checkLate r b n s).applyPending = s.applyPending := by
  unfold checkLate; split <;> simp
@[simp] theorem checkLate_link (r : RecordIdx) (b : BatchRecord) (n : Nat) (s : State) :
    (checkLate r b n s).link = s.link := by
  unfold checkLate; split <;> simp
@[simp] theorem checkLate_resetAsserted (r : RecordIdx) (b : BatchRecord) (n : Nat) (s : State) :
    (checkLate r b n s).resetAsserted = s.resetAsserted := by
  unfold checkLate; split <;> simp
@[simp] theorem checkLate_memory (r : RecordIdx) (b : BatchRecord) (n : Nat) (s : State) :
    (checkLate r b n s).memory = s.memory := by
  unfold checkLate; split <;> simp
@[simp] theorem checkLate_freeIndex (r : RecordIdx) (b : BatchRecord) (n : Nat) (s : State) :
    (checkLate r b n s).freeIndex = s.freeIndex := by
  unfold checkLate; split <;> simp
@[simp] theorem checkLate_pending (r : RecordIdx) (b : BatchRecord) (n : Nat) (s : State) :
    (checkLate r b n s).pending = s.pending := by
  unfold checkLate; split <;> simp

/-! ## lateCheck -/

@[simp] theorem lateCheck_upstream (s : State) : (lateCheck s).upstream = s.upstream := by
  unfold lateCheck; (repeat' split) <;> simp
@[simp] theorem lateCheck_live (s : State) : (lateCheck s).live = s.live := by
  unfold lateCheck; (repeat' split) <;> simp
@[simp] theorem lateCheck_staged (s : State) : (lateCheck s).staged = s.staged := by
  unfold lateCheck; (repeat' split) <;> simp
@[simp] theorem lateCheck_windows (s : State) : (lateCheck s).windows = s.windows := by
  unfold lateCheck; (repeat' split) <;> simp
@[simp] theorem lateCheck_sealOrdinal (s : State) : (lateCheck s).sealOrdinal = s.sealOrdinal := by
  unfold lateCheck; (repeat' split) <;> simp
@[simp] theorem lateCheck_timing (s : State) : (lateCheck s).timing = s.timing := by
  unfold lateCheck; (repeat' split) <;> simp
@[simp] theorem lateCheck_tracker (s : State) : (lateCheck s).tracker = s.tracker := by
  unfold lateCheck; (repeat' split) <;> simp
@[simp] theorem lateCheck_engine (s : State) : (lateCheck s).engine = s.engine := by
  unfold lateCheck; (repeat' split) <;> simp
@[simp] theorem lateCheck_port (s : State) : (lateCheck s).port = s.port := by
  unfold lateCheck; (repeat' split) <;> simp
@[simp] theorem lateCheck_mode (s : State) : (lateCheck s).mode = s.mode := by
  unfold lateCheck; (repeat' split) <;> simp
@[simp] theorem lateCheck_applyPending (s : State) : (lateCheck s).applyPending = s.applyPending := by
  unfold lateCheck; (repeat' split) <;> simp
@[simp] theorem lateCheck_link (s : State) : (lateCheck s).link = s.link := by
  unfold lateCheck; (repeat' split) <;> simp
@[simp] theorem lateCheck_resetAsserted (s : State) : (lateCheck s).resetAsserted = s.resetAsserted := by
  unfold lateCheck; (repeat' split) <;> simp
@[simp] theorem lateCheck_memory (s : State) : (lateCheck s).memory = s.memory := by
  unfold lateCheck; (repeat' split) <;> simp
@[simp] theorem lateCheck_freeIndex (s : State) : (lateCheck s).freeIndex = s.freeIndex := by
  unfold lateCheck; (repeat' split) <;> simp
@[simp] theorem lateCheck_pending (s : State) : (lateCheck s).pending = s.pending := by
  unfold lateCheck; (repeat' split) <;> simp

/-! ## sendUpstream -/

@[simp] theorem sendUpstream_live (t : UpTransaction) (p : UpPhase) (c : Claim) (s : State) :
    (sendUpstream t p c s).live = s.live := by
  simp [sendUpstream]
@[simp] theorem sendUpstream_staged (t : UpTransaction) (p : UpPhase) (c : Claim) (s : State) :
    (sendUpstream t p c s).staged = s.staged := by
  simp [sendUpstream]
@[simp] theorem sendUpstream_windows (t : UpTransaction) (p : UpPhase) (c : Claim) (s : State) :
    (sendUpstream t p c s).windows = s.windows := by
  simp [sendUpstream]
@[simp] theorem sendUpstream_records (t : UpTransaction) (p : UpPhase) (c : Claim) (s : State) :
    (sendUpstream t p c s).records = s.records := by
  simp [sendUpstream]
@[simp] theorem sendUpstream_sealOrdinal (t : UpTransaction) (p : UpPhase) (c : Claim) (s : State) :
    (sendUpstream t p c s).sealOrdinal = s.sealOrdinal := by
  simp [sendUpstream]
@[simp] theorem sendUpstream_timing (t : UpTransaction) (p : UpPhase) (c : Claim) (s : State) :
    (sendUpstream t p c s).timing = s.timing := by
  simp [sendUpstream]
@[simp] theorem sendUpstream_tracker (t : UpTransaction) (p : UpPhase) (c : Claim) (s : State) :
    (sendUpstream t p c s).tracker = s.tracker := by
  simp [sendUpstream]
@[simp] theorem sendUpstream_mode (t : UpTransaction) (p : UpPhase) (c : Claim) (s : State) :
    (sendUpstream t p c s).mode = s.mode := by
  simp [sendUpstream]
@[simp] theorem sendUpstream_applyPending (t : UpTransaction) (p : UpPhase) (c : Claim) (s : State) :
    (sendUpstream t p c s).applyPending = s.applyPending := by
  simp [sendUpstream]
@[simp] theorem sendUpstream_incidents (t : UpTransaction) (p : UpPhase) (c : Claim) (s : State) :
    (sendUpstream t p c s).incidents = s.incidents := by
  simp [sendUpstream]
@[simp] theorem sendUpstream_link (t : UpTransaction) (p : UpPhase) (c : Claim) (s : State) :
    (sendUpstream t p c s).link = s.link := by
  simp [sendUpstream]
@[simp] theorem sendUpstream_resetAsserted (t : UpTransaction) (p : UpPhase) (c : Claim) (s : State) :
    (sendUpstream t p c s).resetAsserted = s.resetAsserted := by
  simp [sendUpstream]
@[simp] theorem sendUpstream_memory (t : UpTransaction) (p : UpPhase) (c : Claim) (s : State) :
    (sendUpstream t p c s).memory = s.memory := by
  simp [sendUpstream]
@[simp] theorem sendUpstream_freeIndex (t : UpTransaction) (p : UpPhase) (c : Claim) (s : State) :
    (sendUpstream t p c s).freeIndex = s.freeIndex := by
  simp [sendUpstream]
@[simp] theorem sendUpstream_pending (t : UpTransaction) (p : UpPhase) (c : Claim) (s : State) :
    (sendUpstream t p c s).pending = s.pending := by
  simp [sendUpstream]

/-! ## sendDirect -/

@[simp] theorem sendDirect_live (a : Addr) (m : Lanes) (d : Word) (s : State) :
    (sendDirect a m d s).live = s.live := by
  simp [sendDirect]
@[simp] theorem sendDirect_staged (a : Addr) (m : Lanes) (d : Word) (s : State) :
    (sendDirect a m d s).staged = s.staged := by
  simp [sendDirect]
@[simp] theorem sendDirect_windows (a : Addr) (m : Lanes) (d : Word) (s : State) :
    (sendDirect a m d s).windows = s.windows := by
  simp [sendDirect]
@[simp] theorem sendDirect_records (a : Addr) (m : Lanes) (d : Word) (s : State) :
    (sendDirect a m d s).records = s.records := by
  simp [sendDirect]
@[simp] theorem sendDirect_sealOrdinal (a : Addr) (m : Lanes) (d : Word) (s : State) :
    (sendDirect a m d s).sealOrdinal = s.sealOrdinal := by
  simp [sendDirect]
@[simp] theorem sendDirect_timing (a : Addr) (m : Lanes) (d : Word) (s : State) :
    (sendDirect a m d s).timing = s.timing := by
  simp [sendDirect]
@[simp] theorem sendDirect_tracker (a : Addr) (m : Lanes) (d : Word) (s : State) :
    (sendDirect a m d s).tracker = s.tracker := by
  simp [sendDirect]
@[simp] theorem sendDirect_mode (a : Addr) (m : Lanes) (d : Word) (s : State) :
    (sendDirect a m d s).mode = s.mode := by
  simp [sendDirect]
@[simp] theorem sendDirect_applyPending (a : Addr) (m : Lanes) (d : Word) (s : State) :
    (sendDirect a m d s).applyPending = s.applyPending := by
  simp [sendDirect]
@[simp] theorem sendDirect_incidents (a : Addr) (m : Lanes) (d : Word) (s : State) :
    (sendDirect a m d s).incidents = s.incidents := by
  simp [sendDirect]
@[simp] theorem sendDirect_link (a : Addr) (m : Lanes) (d : Word) (s : State) :
    (sendDirect a m d s).link = s.link := by
  simp [sendDirect]
@[simp] theorem sendDirect_resetAsserted (a : Addr) (m : Lanes) (d : Word) (s : State) :
    (sendDirect a m d s).resetAsserted = s.resetAsserted := by
  simp [sendDirect]
@[simp] theorem sendDirect_memory (a : Addr) (m : Lanes) (d : Word) (s : State) :
    (sendDirect a m d s).memory = s.memory := by
  simp [sendDirect]
@[simp] theorem sendDirect_freeIndex (a : Addr) (m : Lanes) (d : Word) (s : State) :
    (sendDirect a m d s).freeIndex = s.freeIndex := by
  simp [sendDirect]
@[simp] theorem sendDirect_pending (a : Addr) (m : Lanes) (d : Word) (s : State) :
    (sendDirect a m d s).pending = s.pending := by
  simp [sendDirect]

/-! ## commitSeal -/

@[simp] theorem commitSeal_upstream (W : WindowIdx) (a : Addr) (w : Work) :
    ((commitSeal W a w).st).upstream = w.st.upstream := by
  unfold commitSeal; split <;> simp
@[simp] theorem commitSeal_live (W : WindowIdx) (a : Addr) (w : Work) : ((commitSeal W a w).st).live = w.st.live := by
  unfold commitSeal; split <;> simp
@[simp] theorem commitSeal_staged (W : WindowIdx) (a : Addr) (w : Work) :
    ((commitSeal W a w).st).staged = w.st.staged := by
  unfold commitSeal; split <;> simp
@[simp] theorem commitSeal_timing (W : WindowIdx) (a : Addr) (w : Work) :
    ((commitSeal W a w).st).timing = w.st.timing := by
  unfold commitSeal; split <;> simp
@[simp] theorem commitSeal_tracker (W : WindowIdx) (a : Addr) (w : Work) :
    ((commitSeal W a w).st).tracker = w.st.tracker := by
  unfold commitSeal; split <;> simp
@[simp] theorem commitSeal_engine (W : WindowIdx) (a : Addr) (w : Work) :
    ((commitSeal W a w).st).engine = w.st.engine := by
  unfold commitSeal; split <;> simp
@[simp] theorem commitSeal_port (W : WindowIdx) (a : Addr) (w : Work) : ((commitSeal W a w).st).port = w.st.port := by
  unfold commitSeal; split <;> simp
@[simp] theorem commitSeal_mode (W : WindowIdx) (a : Addr) (w : Work) : ((commitSeal W a w).st).mode = w.st.mode := by
  unfold commitSeal; split <;> simp
@[simp] theorem commitSeal_applyPending (W : WindowIdx) (a : Addr) (w : Work) :
    ((commitSeal W a w).st).applyPending = w.st.applyPending := by
  unfold commitSeal; split <;> simp
@[simp] theorem commitSeal_incidents (W : WindowIdx) (a : Addr) (w : Work) :
    ((commitSeal W a w).st).incidents = w.st.incidents := by
  unfold commitSeal; split <;> simp
@[simp] theorem commitSeal_link (W : WindowIdx) (a : Addr) (w : Work) : ((commitSeal W a w).st).link = w.st.link := by
  unfold commitSeal; split <;> simp
@[simp] theorem commitSeal_resetAsserted (W : WindowIdx) (a : Addr) (w : Work) :
    ((commitSeal W a w).st).resetAsserted = w.st.resetAsserted := by
  unfold commitSeal; split <;> simp
@[simp] theorem commitSeal_memory (W : WindowIdx) (a : Addr) (w : Work) :
    ((commitSeal W a w).st).memory = w.st.memory := by
  unfold commitSeal; split <;> simp
@[simp] theorem commitSeal_freeIndex (W : WindowIdx) (a : Addr) (w : Work) :
    ((commitSeal W a w).st).freeIndex = w.st.freeIndex := by
  unfold commitSeal; split <;> simp
@[simp] theorem commitSeal_pending (W : WindowIdx) (a : Addr) (w : Work) :
    ((commitSeal W a w).st).pending = w.st.pending := by
  unfold commitSeal; split <;> simp

/-! ## storeWrite -/

@[simp] theorem storeWrite_live (W : WindowIdx) (a : Addr) (m : Lanes) (d : Word) (w : Work) :
    ((storeWrite W a m d w).st).live = w.st.live := by
  simp [storeWrite]
@[simp] theorem storeWrite_staged (W : WindowIdx) (a : Addr) (m : Lanes) (d : Word) (w : Work) :
    ((storeWrite W a m d w).st).staged = w.st.staged := by
  simp [storeWrite]
@[simp] theorem storeWrite_timing (W : WindowIdx) (a : Addr) (m : Lanes) (d : Word) (w : Work) :
    ((storeWrite W a m d w).st).timing = w.st.timing := by
  simp [storeWrite]
@[simp] theorem storeWrite_tracker (W : WindowIdx) (a : Addr) (m : Lanes) (d : Word) (w : Work) :
    ((storeWrite W a m d w).st).tracker = w.st.tracker := by
  simp [storeWrite]
@[simp] theorem storeWrite_engine (W : WindowIdx) (a : Addr) (m : Lanes) (d : Word) (w : Work) :
    ((storeWrite W a m d w).st).engine = w.st.engine := by
  simp [storeWrite]
@[simp] theorem storeWrite_port (W : WindowIdx) (a : Addr) (m : Lanes) (d : Word) (w : Work) :
    ((storeWrite W a m d w).st).port = w.st.port := by
  simp [storeWrite]
@[simp] theorem storeWrite_mode (W : WindowIdx) (a : Addr) (m : Lanes) (d : Word) (w : Work) :
    ((storeWrite W a m d w).st).mode = w.st.mode := by
  simp [storeWrite]
@[simp] theorem storeWrite_applyPending (W : WindowIdx) (a : Addr) (m : Lanes) (d : Word) (w : Work) :
    ((storeWrite W a m d w).st).applyPending = w.st.applyPending := by
  simp [storeWrite]
@[simp] theorem storeWrite_incidents (W : WindowIdx) (a : Addr) (m : Lanes) (d : Word) (w : Work) :
    ((storeWrite W a m d w).st).incidents = w.st.incidents := by
  simp [storeWrite]
@[simp] theorem storeWrite_link (W : WindowIdx) (a : Addr) (m : Lanes) (d : Word) (w : Work) :
    ((storeWrite W a m d w).st).link = w.st.link := by
  simp [storeWrite]
@[simp] theorem storeWrite_resetAsserted (W : WindowIdx) (a : Addr) (m : Lanes) (d : Word) (w : Work) :
    ((storeWrite W a m d w).st).resetAsserted = w.st.resetAsserted := by
  simp [storeWrite]
@[simp] theorem storeWrite_memory (W : WindowIdx) (a : Addr) (m : Lanes) (d : Word) (w : Work) :
    ((storeWrite W a m d w).st).memory = w.st.memory := by
  simp [storeWrite]
@[simp] theorem storeWrite_freeIndex (W : WindowIdx) (a : Addr) (m : Lanes) (d : Word) (w : Work) :
    ((storeWrite W a m d w).st).freeIndex = w.st.freeIndex := by
  simp [storeWrite]
@[simp] theorem storeWrite_pending (W : WindowIdx) (a : Addr) (m : Lanes) (d : Word) (w : Work) :
    ((storeWrite W a m d w).st).pending = w.st.pending := by
  simp [storeWrite]

/-! ## reclassify -/

@[simp] theorem reclassify_live (a : Addr) (m : Lanes) (d : Word) (w : Work) :
    ((reclassify a m d w).st).live = w.st.live := by
  unfold reclassify; split <;> simp
@[simp] theorem reclassify_staged (a : Addr) (m : Lanes) (d : Word) (w : Work) :
    ((reclassify a m d w).st).staged = w.st.staged := by
  unfold reclassify; split <;> simp
@[simp] theorem reclassify_timing (a : Addr) (m : Lanes) (d : Word) (w : Work) :
    ((reclassify a m d w).st).timing = w.st.timing := by
  unfold reclassify; split <;> simp
@[simp] theorem reclassify_tracker (a : Addr) (m : Lanes) (d : Word) (w : Work) :
    ((reclassify a m d w).st).tracker = w.st.tracker := by
  unfold reclassify; split <;> simp
@[simp] theorem reclassify_mode (a : Addr) (m : Lanes) (d : Word) (w : Work) :
    ((reclassify a m d w).st).mode = w.st.mode := by
  unfold reclassify; split <;> simp
@[simp] theorem reclassify_applyPending (a : Addr) (m : Lanes) (d : Word) (w : Work) :
    ((reclassify a m d w).st).applyPending = w.st.applyPending := by
  unfold reclassify; split <;> simp
@[simp] theorem reclassify_incidents (a : Addr) (m : Lanes) (d : Word) (w : Work) :
    ((reclassify a m d w).st).incidents = w.st.incidents := by
  unfold reclassify; split <;> simp
@[simp] theorem reclassify_link (a : Addr) (m : Lanes) (d : Word) (w : Work) :
    ((reclassify a m d w).st).link = w.st.link := by
  unfold reclassify; split <;> simp
@[simp] theorem reclassify_resetAsserted (a : Addr) (m : Lanes) (d : Word) (w : Work) :
    ((reclassify a m d w).st).resetAsserted = w.st.resetAsserted := by
  unfold reclassify; split <;> simp
@[simp] theorem reclassify_memory (a : Addr) (m : Lanes) (d : Word) (w : Work) :
    ((reclassify a m d w).st).memory = w.st.memory := by
  unfold reclassify; split <;> simp
@[simp] theorem reclassify_freeIndex (a : Addr) (m : Lanes) (d : Word) (w : Work) :
    ((reclassify a m d w).st).freeIndex = w.st.freeIndex := by
  unfold reclassify; split <;> simp
@[simp] theorem reclassify_pending (a : Addr) (m : Lanes) (d : Word) (w : Work) :
    ((reclassify a m d w).st).pending = w.st.pending := by
  unfold reclassify; split <;> simp

/-! ## reexamine -/

@[simp] theorem reexamine_live (w : Work) : ((reexamine w).st).live = w.st.live := by
  unfold reexamine; (repeat' split) <;> simp
@[simp] theorem reexamine_staged (w : Work) : ((reexamine w).st).staged = w.st.staged := by
  unfold reexamine; (repeat' split) <;> simp
@[simp] theorem reexamine_timing (w : Work) : ((reexamine w).st).timing = w.st.timing := by
  unfold reexamine; (repeat' split) <;> simp
@[simp] theorem reexamine_tracker (w : Work) : ((reexamine w).st).tracker = w.st.tracker := by
  unfold reexamine; (repeat' split) <;> simp
@[simp] theorem reexamine_mode (w : Work) : ((reexamine w).st).mode = w.st.mode := by
  unfold reexamine; (repeat' split) <;> simp
@[simp] theorem reexamine_applyPending (w : Work) : ((reexamine w).st).applyPending = w.st.applyPending := by
  unfold reexamine; (repeat' split) <;> simp
@[simp] theorem reexamine_incidents (w : Work) : ((reexamine w).st).incidents = w.st.incidents := by
  unfold reexamine; (repeat' split) <;> simp
@[simp] theorem reexamine_link (w : Work) : ((reexamine w).st).link = w.st.link := by
  unfold reexamine; (repeat' split) <;> simp
@[simp] theorem reexamine_resetAsserted (w : Work) : ((reexamine w).st).resetAsserted = w.st.resetAsserted := by
  unfold reexamine; (repeat' split) <;> simp
@[simp] theorem reexamine_memory (w : Work) : ((reexamine w).st).memory = w.st.memory := by
  unfold reexamine; (repeat' split) <;> simp
@[simp] theorem reexamine_freeIndex (w : Work) : ((reexamine w).st).freeIndex = w.st.freeIndex := by
  unfold reexamine; (repeat' split) <;> simp
@[simp] theorem reexamine_pending (w : Work) : ((reexamine w).st).pending = w.st.pending := by
  unfold reexamine; (repeat' split) <;> simp

/-! ## settle -/

@[simp] theorem settle_live (w : Work) : (settle w).live = w.st.live := by
  simp only [settle]; (repeat' split) <;> simp
@[simp] theorem settle_staged (w : Work) : (settle w).staged = w.st.staged := by
  simp only [settle]; (repeat' split) <;> simp
@[simp] theorem settle_timing (w : Work) : (settle w).timing = w.st.timing := by
  simp only [settle]; (repeat' split) <;> simp
@[simp] theorem settle_tracker (w : Work) : (settle w).tracker = w.st.tracker := by
  simp only [settle]; (repeat' split) <;> simp
@[simp] theorem settle_mode (w : Work) : (settle w).mode = w.st.mode := by
  simp only [settle]; (repeat' split) <;> simp
@[simp] theorem settle_applyPending (w : Work) : (settle w).applyPending = w.st.applyPending := by
  simp only [settle]; (repeat' split) <;> simp
@[simp] theorem settle_link (w : Work) : (settle w).link = w.st.link := by
  simp only [settle]; (repeat' split) <;> simp
@[simp] theorem settle_resetAsserted (w : Work) : (settle w).resetAsserted = w.st.resetAsserted := by
  simp only [settle]; (repeat' split) <;> simp
@[simp] theorem settle_memory (w : Work) : (settle w).memory = w.st.memory := by
  simp only [settle]; (repeat' split) <;> simp
@[simp] theorem settle_freeIndex (w : Work) : (settle w).freeIndex = w.st.freeIndex := by
  simp only [settle]; (repeat' split) <;> simp
@[simp] theorem settle_pending (w : Work) : (settle w).pending = w.st.pending := by
  simp only [settle]; (repeat' split) <;> simp

/-! ## completeApply -/

@[simp] theorem completeApply_upstream (w : Work) : ((completeApply w).st).upstream = w.st.upstream := by
  simp [completeApply]
@[simp] theorem completeApply_staged (w : Work) : ((completeApply w).st).staged = w.st.staged := by
  simp [completeApply]
@[simp] theorem completeApply_records (w : Work) : ((completeApply w).st).records = w.st.records := by
  simp [completeApply]
@[simp] theorem completeApply_sealOrdinal (w : Work) : ((completeApply w).st).sealOrdinal = w.st.sealOrdinal := by
  simp [completeApply]
@[simp] theorem completeApply_timing (w : Work) : ((completeApply w).st).timing = w.st.timing := by
  simp [completeApply]
@[simp] theorem completeApply_tracker (w : Work) : ((completeApply w).st).tracker = w.st.tracker := by
  simp [completeApply]
@[simp] theorem completeApply_engine (w : Work) : ((completeApply w).st).engine = w.st.engine := by
  simp [completeApply]
@[simp] theorem completeApply_port (w : Work) : ((completeApply w).st).port = w.st.port := by
  simp [completeApply]
@[simp] theorem completeApply_mode (w : Work) : ((completeApply w).st).mode = w.st.mode := by
  simp [completeApply]
@[simp] theorem completeApply_link (w : Work) : ((completeApply w).st).link = w.st.link := by
  simp [completeApply]
@[simp] theorem completeApply_resetAsserted (w : Work) :
    ((completeApply w).st).resetAsserted = w.st.resetAsserted := by
  simp [completeApply]
@[simp] theorem completeApply_memory (w : Work) : ((completeApply w).st).memory = w.st.memory := by
  simp [completeApply]
@[simp] theorem completeApply_freeIndex (w : Work) : ((completeApply w).st).freeIndex = w.st.freeIndex := by
  simp [completeApply]
@[simp] theorem completeApply_pending (w : Work) : ((completeApply w).st).pending = w.st.pending := by
  simp [completeApply]

/-! ## applyIfEmpty -/

@[simp] theorem applyIfEmpty_upstream (w : Work) : ((applyIfEmpty w).st).upstream = w.st.upstream := by
  unfold applyIfEmpty; split <;> simp
@[simp] theorem applyIfEmpty_staged (w : Work) : ((applyIfEmpty w).st).staged = w.st.staged := by
  unfold applyIfEmpty; split <;> simp
@[simp] theorem applyIfEmpty_records (w : Work) : ((applyIfEmpty w).st).records = w.st.records := by
  unfold applyIfEmpty; split <;> simp
@[simp] theorem applyIfEmpty_sealOrdinal (w : Work) : ((applyIfEmpty w).st).sealOrdinal = w.st.sealOrdinal := by
  unfold applyIfEmpty; split <;> simp
@[simp] theorem applyIfEmpty_timing (w : Work) : ((applyIfEmpty w).st).timing = w.st.timing := by
  unfold applyIfEmpty; split <;> simp
@[simp] theorem applyIfEmpty_tracker (w : Work) : ((applyIfEmpty w).st).tracker = w.st.tracker := by
  unfold applyIfEmpty; split <;> simp
@[simp] theorem applyIfEmpty_engine (w : Work) : ((applyIfEmpty w).st).engine = w.st.engine := by
  unfold applyIfEmpty; split <;> simp
@[simp] theorem applyIfEmpty_port (w : Work) : ((applyIfEmpty w).st).port = w.st.port := by
  unfold applyIfEmpty; split <;> simp
@[simp] theorem applyIfEmpty_mode (w : Work) : ((applyIfEmpty w).st).mode = w.st.mode := by
  unfold applyIfEmpty; split <;> simp
@[simp] theorem applyIfEmpty_link (w : Work) : ((applyIfEmpty w).st).link = w.st.link := by
  unfold applyIfEmpty; split <;> simp
@[simp] theorem applyIfEmpty_resetAsserted (w : Work) : ((applyIfEmpty w).st).resetAsserted = w.st.resetAsserted := by
  unfold applyIfEmpty; split <;> simp
@[simp] theorem applyIfEmpty_memory (w : Work) : ((applyIfEmpty w).st).memory = w.st.memory := by
  unfold applyIfEmpty; split <;> simp
@[simp] theorem applyIfEmpty_freeIndex (w : Work) : ((applyIfEmpty w).st).freeIndex = w.st.freeIndex := by
  unfold applyIfEmpty; split <;> simp
@[simp] theorem applyIfEmpty_pending (w : Work) : ((applyIfEmpty w).st).pending = w.st.pending := by
  unfold applyIfEmpty; split <;> simp

/-! ## applyIfLost -/

@[simp] theorem applyIfLost_upstream (w : Work) : ((applyIfLost w).st).upstream = w.st.upstream := by
  unfold applyIfLost; split <;> simp
@[simp] theorem applyIfLost_staged (w : Work) : ((applyIfLost w).st).staged = w.st.staged := by
  unfold applyIfLost; split <;> simp
@[simp] theorem applyIfLost_records (w : Work) : ((applyIfLost w).st).records = w.st.records := by
  unfold applyIfLost; split <;> simp
@[simp] theorem applyIfLost_sealOrdinal (w : Work) : ((applyIfLost w).st).sealOrdinal = w.st.sealOrdinal := by
  unfold applyIfLost; split <;> simp
@[simp] theorem applyIfLost_timing (w : Work) : ((applyIfLost w).st).timing = w.st.timing := by
  unfold applyIfLost; split <;> simp
@[simp] theorem applyIfLost_tracker (w : Work) : ((applyIfLost w).st).tracker = w.st.tracker := by
  unfold applyIfLost; split <;> simp
@[simp] theorem applyIfLost_engine (w : Work) : ((applyIfLost w).st).engine = w.st.engine := by
  unfold applyIfLost; split <;> simp
@[simp] theorem applyIfLost_port (w : Work) : ((applyIfLost w).st).port = w.st.port := by
  unfold applyIfLost; split <;> simp
@[simp] theorem applyIfLost_mode (w : Work) : ((applyIfLost w).st).mode = w.st.mode := by
  unfold applyIfLost; split <;> simp
@[simp] theorem applyIfLost_link (w : Work) : ((applyIfLost w).st).link = w.st.link := by
  unfold applyIfLost; split <;> simp
@[simp] theorem applyIfLost_resetAsserted (w : Work) : ((applyIfLost w).st).resetAsserted = w.st.resetAsserted := by
  unfold applyIfLost; split <;> simp
@[simp] theorem applyIfLost_memory (w : Work) : ((applyIfLost w).st).memory = w.st.memory := by
  unfold applyIfLost; split <;> simp
@[simp] theorem applyIfLost_freeIndex (w : Work) : ((applyIfLost w).st).freeIndex = w.st.freeIndex := by
  unfold applyIfLost; split <;> simp
@[simp] theorem applyIfLost_pending (w : Work) : ((applyIfLost w).st).pending = w.st.pending := by
  unfold applyIfLost; split <;> simp

/-! ## applyAtBypass -/

@[simp] theorem applyAtBypass_upstream (w : Work) : ((applyAtBypass w).st).upstream = w.st.upstream := by
  unfold applyAtBypass; split <;> simp
@[simp] theorem applyAtBypass_staged (w : Work) : ((applyAtBypass w).st).staged = w.st.staged := by
  unfold applyAtBypass; split <;> simp
@[simp] theorem applyAtBypass_records (w : Work) : ((applyAtBypass w).st).records = w.st.records := by
  unfold applyAtBypass; split <;> simp
@[simp] theorem applyAtBypass_sealOrdinal (w : Work) : ((applyAtBypass w).st).sealOrdinal = w.st.sealOrdinal := by
  unfold applyAtBypass; split <;> simp
@[simp] theorem applyAtBypass_timing (w : Work) : ((applyAtBypass w).st).timing = w.st.timing := by
  unfold applyAtBypass; split <;> simp
@[simp] theorem applyAtBypass_tracker (w : Work) : ((applyAtBypass w).st).tracker = w.st.tracker := by
  unfold applyAtBypass; split <;> simp
@[simp] theorem applyAtBypass_engine (w : Work) : ((applyAtBypass w).st).engine = w.st.engine := by
  unfold applyAtBypass; split <;> simp
@[simp] theorem applyAtBypass_port (w : Work) : ((applyAtBypass w).st).port = w.st.port := by
  unfold applyAtBypass; split <;> simp
@[simp] theorem applyAtBypass_mode (w : Work) : ((applyAtBypass w).st).mode = w.st.mode := by
  unfold applyAtBypass; split <;> simp
@[simp] theorem applyAtBypass_link (w : Work) : ((applyAtBypass w).st).link = w.st.link := by
  unfold applyAtBypass; split <;> simp
@[simp] theorem applyAtBypass_resetAsserted (w : Work) :
    ((applyAtBypass w).st).resetAsserted = w.st.resetAsserted := by
  unfold applyAtBypass; split <;> simp
@[simp] theorem applyAtBypass_memory (w : Work) : ((applyAtBypass w).st).memory = w.st.memory := by
  unfold applyAtBypass; split <;> simp
@[simp] theorem applyAtBypass_freeIndex (w : Work) : ((applyAtBypass w).st).freeIndex = w.st.freeIndex := by
  unfold applyAtBypass; split <;> simp
@[simp] theorem applyAtBypass_pending (w : Work) : ((applyAtBypass w).st).pending = w.st.pending := by
  unfold applyAtBypass; split <;> simp

/-! ## changeMode -/

@[simp] theorem changeMode_upstream (m : Mode) (w : Work) : ((changeMode m w).st).upstream = w.st.upstream := by
  simp [changeMode]
@[simp] theorem changeMode_live (m : Mode) (w : Work) : ((changeMode m w).st).live = w.st.live := by
  simp [changeMode]
@[simp] theorem changeMode_staged (m : Mode) (w : Work) : ((changeMode m w).st).staged = w.st.staged := by
  simp [changeMode]
@[simp] theorem changeMode_windows (m : Mode) (w : Work) : ((changeMode m w).st).windows = w.st.windows := by
  simp [changeMode]
@[simp] theorem changeMode_records (m : Mode) (w : Work) : ((changeMode m w).st).records = w.st.records := by
  simp [changeMode]
@[simp] theorem changeMode_sealOrdinal (m : Mode) (w : Work) :
    ((changeMode m w).st).sealOrdinal = w.st.sealOrdinal := by
  simp [changeMode]
@[simp] theorem changeMode_timing (m : Mode) (w : Work) : ((changeMode m w).st).timing = w.st.timing := by
  simp [changeMode]
@[simp] theorem changeMode_tracker (m : Mode) (w : Work) : ((changeMode m w).st).tracker = w.st.tracker := by
  simp [changeMode]
@[simp] theorem changeMode_engine (m : Mode) (w : Work) : ((changeMode m w).st).engine = w.st.engine := by
  simp [changeMode]
@[simp] theorem changeMode_port (m : Mode) (w : Work) : ((changeMode m w).st).port = w.st.port := by
  simp [changeMode]
@[simp] theorem changeMode_applyPending (m : Mode) (w : Work) :
    ((changeMode m w).st).applyPending = w.st.applyPending := by
  simp [changeMode]
@[simp] theorem changeMode_incidents (m : Mode) (w : Work) : ((changeMode m w).st).incidents = w.st.incidents := by
  simp [changeMode]
@[simp] theorem changeMode_link (m : Mode) (w : Work) : ((changeMode m w).st).link = w.st.link := by
  simp [changeMode]
@[simp] theorem changeMode_resetAsserted (m : Mode) (w : Work) :
    ((changeMode m w).st).resetAsserted = w.st.resetAsserted := by
  simp [changeMode]
@[simp] theorem changeMode_memory (m : Mode) (w : Work) : ((changeMode m w).st).memory = w.st.memory := by
  simp [changeMode]
@[simp] theorem changeMode_freeIndex (m : Mode) (w : Work) : ((changeMode m w).st).freeIndex = w.st.freeIndex := by
  simp [changeMode]
@[simp] theorem changeMode_pending (m : Mode) (w : Work) : ((changeMode m w).st).pending = w.st.pending := by
  simp [changeMode]

/-! ## completeDrain -/

@[simp] theorem completeDrain_upstream (w : Work) : ((completeDrain w).st).upstream = w.st.upstream := by
  simp [completeDrain]
@[simp] theorem completeDrain_staged (w : Work) : ((completeDrain w).st).staged = w.st.staged := by
  simp [completeDrain]
@[simp] theorem completeDrain_records (w : Work) : ((completeDrain w).st).records = w.st.records := by
  simp [completeDrain]
@[simp] theorem completeDrain_sealOrdinal (w : Work) : ((completeDrain w).st).sealOrdinal = w.st.sealOrdinal := by
  simp [completeDrain]
@[simp] theorem completeDrain_timing (w : Work) : ((completeDrain w).st).timing = w.st.timing := by
  simp [completeDrain]
@[simp] theorem completeDrain_tracker (w : Work) : ((completeDrain w).st).tracker = w.st.tracker := by
  simp [completeDrain]
@[simp] theorem completeDrain_engine (w : Work) : ((completeDrain w).st).engine = w.st.engine := by
  simp [completeDrain]
@[simp] theorem completeDrain_port (w : Work) : ((completeDrain w).st).port = w.st.port := by
  simp [completeDrain]
@[simp] theorem completeDrain_link (w : Work) : ((completeDrain w).st).link = w.st.link := by
  simp [completeDrain]
@[simp] theorem completeDrain_resetAsserted (w : Work) :
    ((completeDrain w).st).resetAsserted = w.st.resetAsserted := by
  simp [completeDrain]
@[simp] theorem completeDrain_memory (w : Work) : ((completeDrain w).st).memory = w.st.memory := by
  simp [completeDrain]
@[simp] theorem completeDrain_freeIndex (w : Work) : ((completeDrain w).st).freeIndex = w.st.freeIndex := by
  simp [completeDrain]
@[simp] theorem completeDrain_pending (w : Work) : ((completeDrain w).st).pending = w.st.pending := by
  simp [completeDrain]

/-! ## drainIfEmpty -/

@[simp] theorem drainIfEmpty_upstream (w : Work) : ((drainIfEmpty w).st).upstream = w.st.upstream := by
  unfold drainIfEmpty; split <;> simp
@[simp] theorem drainIfEmpty_staged (w : Work) : ((drainIfEmpty w).st).staged = w.st.staged := by
  unfold drainIfEmpty; split <;> simp
@[simp] theorem drainIfEmpty_records (w : Work) : ((drainIfEmpty w).st).records = w.st.records := by
  unfold drainIfEmpty; split <;> simp
@[simp] theorem drainIfEmpty_sealOrdinal (w : Work) : ((drainIfEmpty w).st).sealOrdinal = w.st.sealOrdinal := by
  unfold drainIfEmpty; split <;> simp
@[simp] theorem drainIfEmpty_timing (w : Work) : ((drainIfEmpty w).st).timing = w.st.timing := by
  unfold drainIfEmpty; split <;> simp
@[simp] theorem drainIfEmpty_tracker (w : Work) : ((drainIfEmpty w).st).tracker = w.st.tracker := by
  unfold drainIfEmpty; split <;> simp
@[simp] theorem drainIfEmpty_engine (w : Work) : ((drainIfEmpty w).st).engine = w.st.engine := by
  unfold drainIfEmpty; split <;> simp
@[simp] theorem drainIfEmpty_port (w : Work) : ((drainIfEmpty w).st).port = w.st.port := by
  unfold drainIfEmpty; split <;> simp
@[simp] theorem drainIfEmpty_link (w : Work) : ((drainIfEmpty w).st).link = w.st.link := by
  unfold drainIfEmpty; split <;> simp
@[simp] theorem drainIfEmpty_resetAsserted (w : Work) : ((drainIfEmpty w).st).resetAsserted = w.st.resetAsserted := by
  unfold drainIfEmpty; split <;> simp
@[simp] theorem drainIfEmpty_memory (w : Work) : ((drainIfEmpty w).st).memory = w.st.memory := by
  unfold drainIfEmpty; split <;> simp
@[simp] theorem drainIfEmpty_freeIndex (w : Work) : ((drainIfEmpty w).st).freeIndex = w.st.freeIndex := by
  unfold drainIfEmpty; split <;> simp
@[simp] theorem drainIfEmpty_pending (w : Work) : ((drainIfEmpty w).st).pending = w.st.pending := by
  unfold drainIfEmpty; split <;> simp

/-! ## retire -/

@[simp] theorem retire_upstream (r : RecordIdx) (b : BatchRecord) (w : Work) :
    ((retire r b w).st).upstream = w.st.upstream := by
  simp [retire]
@[simp] theorem retire_staged (r : RecordIdx) (b : BatchRecord) (w : Work) :
    ((retire r b w).st).staged = w.st.staged := by
  simp [retire]
@[simp] theorem retire_sealOrdinal (r : RecordIdx) (b : BatchRecord) (w : Work) :
    ((retire r b w).st).sealOrdinal = w.st.sealOrdinal := by
  simp [retire]
@[simp] theorem retire_timing (r : RecordIdx) (b : BatchRecord) (w : Work) :
    ((retire r b w).st).timing = w.st.timing := by
  simp [retire]
@[simp] theorem retire_tracker (r : RecordIdx) (b : BatchRecord) (w : Work) :
    ((retire r b w).st).tracker = w.st.tracker := by
  simp [retire]
@[simp] theorem retire_port (r : RecordIdx) (b : BatchRecord) (w : Work) : ((retire r b w).st).port = w.st.port := by
  simp [retire]
@[simp] theorem retire_link (r : RecordIdx) (b : BatchRecord) (w : Work) : ((retire r b w).st).link = w.st.link := by
  simp [retire]
@[simp] theorem retire_resetAsserted (r : RecordIdx) (b : BatchRecord) (w : Work) :
    ((retire r b w).st).resetAsserted = w.st.resetAsserted := by
  simp [retire]
@[simp] theorem retire_memory (r : RecordIdx) (b : BatchRecord) (w : Work) :
    ((retire r b w).st).memory = w.st.memory := by
  simp [retire]
@[simp] theorem retire_freeIndex (r : RecordIdx) (b : BatchRecord) (w : Work) :
    ((retire r b w).st).freeIndex = w.st.freeIndex := by
  simp [retire]
@[simp] theorem retire_pending (r : RecordIdx) (b : BatchRecord) (w : Work) :
    ((retire r b w).st).pending = w.st.pending := by
  simp [retire]

/-! ## trackLine -/

@[simp] theorem trackLine_upstream (s : State) : (trackLine s).upstream = s.upstream := by
  unfold trackLine reportGeometry; (repeat' split) <;> simp
@[simp] theorem trackLine_live (s : State) : (trackLine s).live = s.live := by
  unfold trackLine reportGeometry; (repeat' split) <;> simp
@[simp] theorem trackLine_staged (s : State) : (trackLine s).staged = s.staged := by
  unfold trackLine reportGeometry; (repeat' split) <;> simp
@[simp] theorem trackLine_windows (s : State) : (trackLine s).windows = s.windows := by
  unfold trackLine reportGeometry; (repeat' split) <;> simp
@[simp] theorem trackLine_records (s : State) : (trackLine s).records = s.records := by
  unfold trackLine reportGeometry; (repeat' split) <;> simp
@[simp] theorem trackLine_sealOrdinal (s : State) : (trackLine s).sealOrdinal = s.sealOrdinal := by
  unfold trackLine reportGeometry; (repeat' split) <;> simp
@[simp] theorem trackLine_timing (s : State) : (trackLine s).timing = s.timing := by
  unfold trackLine reportGeometry; (repeat' split) <;> simp
@[simp] theorem trackLine_engine (s : State) : (trackLine s).engine = s.engine := by
  unfold trackLine reportGeometry; (repeat' split) <;> simp
@[simp] theorem trackLine_port (s : State) : (trackLine s).port = s.port := by
  unfold trackLine reportGeometry; (repeat' split) <;> simp
@[simp] theorem trackLine_mode (s : State) : (trackLine s).mode = s.mode := by
  unfold trackLine reportGeometry; (repeat' split) <;> simp
@[simp] theorem trackLine_applyPending (s : State) : (trackLine s).applyPending = s.applyPending := by
  unfold trackLine reportGeometry; (repeat' split) <;> simp
@[simp] theorem trackLine_link (s : State) : (trackLine s).link = s.link := by
  unfold trackLine reportGeometry; (repeat' split) <;> simp
@[simp] theorem trackLine_resetAsserted (s : State) : (trackLine s).resetAsserted = s.resetAsserted := by
  unfold trackLine reportGeometry; (repeat' split) <;> simp
@[simp] theorem trackLine_memory (s : State) : (trackLine s).memory = s.memory := by
  unfold trackLine reportGeometry; (repeat' split) <;> simp
@[simp] theorem trackLine_freeIndex (s : State) : (trackLine s).freeIndex = s.freeIndex := by
  unfold trackLine reportGeometry; (repeat' split) <;> simp
@[simp] theorem trackLine_pending (s : State) : (trackLine s).pending = s.pending := by
  unfold trackLine reportGeometry; (repeat' split) <;> simp

/-! ## trackFrame -/

@[simp] theorem trackFrame_upstream (s : State) : (trackFrame s).upstream = s.upstream := by
  unfold trackFrame reportLock reportGeometry; (repeat' split) <;> simp
@[simp] theorem trackFrame_live (s : State) : (trackFrame s).live = s.live := by
  unfold trackFrame reportLock reportGeometry; (repeat' split) <;> simp
@[simp] theorem trackFrame_staged (s : State) : (trackFrame s).staged = s.staged := by
  unfold trackFrame reportLock reportGeometry; (repeat' split) <;> simp
@[simp] theorem trackFrame_windows (s : State) : (trackFrame s).windows = s.windows := by
  unfold trackFrame reportLock reportGeometry; (repeat' split) <;> simp
@[simp] theorem trackFrame_records (s : State) : (trackFrame s).records = s.records := by
  unfold trackFrame reportLock reportGeometry; (repeat' split) <;> simp
@[simp] theorem trackFrame_sealOrdinal (s : State) : (trackFrame s).sealOrdinal = s.sealOrdinal := by
  unfold trackFrame reportLock reportGeometry; (repeat' split) <;> simp
@[simp] theorem trackFrame_timing (s : State) : (trackFrame s).timing = s.timing := by
  unfold trackFrame reportLock reportGeometry; (repeat' split) <;> simp
@[simp] theorem trackFrame_engine (s : State) : (trackFrame s).engine = s.engine := by
  unfold trackFrame reportLock reportGeometry; (repeat' split) <;> simp
@[simp] theorem trackFrame_port (s : State) : (trackFrame s).port = s.port := by
  unfold trackFrame reportLock reportGeometry; (repeat' split) <;> simp
@[simp] theorem trackFrame_mode (s : State) : (trackFrame s).mode = s.mode := by
  unfold trackFrame reportLock reportGeometry; (repeat' split) <;> simp
@[simp] theorem trackFrame_applyPending (s : State) : (trackFrame s).applyPending = s.applyPending := by
  unfold trackFrame reportLock reportGeometry; (repeat' split) <;> simp
@[simp] theorem trackFrame_link (s : State) : (trackFrame s).link = s.link := by
  unfold trackFrame reportLock reportGeometry; (repeat' split) <;> simp
@[simp] theorem trackFrame_resetAsserted (s : State) : (trackFrame s).resetAsserted = s.resetAsserted := by
  unfold trackFrame reportLock reportGeometry; (repeat' split) <;> simp
@[simp] theorem trackFrame_memory (s : State) : (trackFrame s).memory = s.memory := by
  unfold trackFrame reportLock reportGeometry; (repeat' split) <;> simp
@[simp] theorem trackFrame_freeIndex (s : State) : (trackFrame s).freeIndex = s.freeIndex := by
  unfold trackFrame reportLock reportGeometry; (repeat' split) <;> simp
@[simp] theorem trackFrame_pending (s : State) : (trackFrame s).pending = s.pending := by
  unfold trackFrame reportLock reportGeometry; (repeat' split) <;> simp

/-! ## idleEvent -/

@[simp] theorem idleEvent_upstream (w : Work) : ((idleEvent w).st).upstream = w.st.upstream := by
  simp [idleEvent]
@[simp] theorem idleEvent_live (w : Work) : ((idleEvent w).st).live = w.st.live := by
  simp [idleEvent]
@[simp] theorem idleEvent_staged (w : Work) : ((idleEvent w).st).staged = w.st.staged := by
  simp [idleEvent]
@[simp] theorem idleEvent_timing (w : Work) : ((idleEvent w).st).timing = w.st.timing := by
  simp [idleEvent]
@[simp] theorem idleEvent_tracker (w : Work) : ((idleEvent w).st).tracker = w.st.tracker := by
  simp [idleEvent]
@[simp] theorem idleEvent_engine (w : Work) : ((idleEvent w).st).engine = w.st.engine := by
  simp [idleEvent]
@[simp] theorem idleEvent_port (w : Work) : ((idleEvent w).st).port = w.st.port := by
  simp [idleEvent]
@[simp] theorem idleEvent_mode (w : Work) : ((idleEvent w).st).mode = w.st.mode := by
  simp [idleEvent]
@[simp] theorem idleEvent_applyPending (w : Work) : ((idleEvent w).st).applyPending = w.st.applyPending := by
  simp [idleEvent]
@[simp] theorem idleEvent_incidents (w : Work) : ((idleEvent w).st).incidents = w.st.incidents := by
  simp [idleEvent]
@[simp] theorem idleEvent_link (w : Work) : ((idleEvent w).st).link = w.st.link := by
  simp [idleEvent]
@[simp] theorem idleEvent_resetAsserted (w : Work) : ((idleEvent w).st).resetAsserted = w.st.resetAsserted := by
  simp [idleEvent]
@[simp] theorem idleEvent_memory (w : Work) : ((idleEvent w).st).memory = w.st.memory := by
  simp [idleEvent]
@[simp] theorem idleEvent_freeIndex (w : Work) : ((idleEvent w).st).freeIndex = w.st.freeIndex := by
  simp [idleEvent]
@[simp] theorem idleEvent_pending (w : Work) : ((idleEvent w).st).pending = w.st.pending := by
  simp [idleEvent]

/-! ## lineEvent -/

@[simp] theorem lineEvent_upstream (s : State) : ((lineEvent s).st).upstream = s.upstream := by
  simp [lineEvent]
@[simp] theorem lineEvent_live (s : State) : ((lineEvent s).st).live = s.live := by
  simp [lineEvent]
@[simp] theorem lineEvent_staged (s : State) : ((lineEvent s).st).staged = s.staged := by
  simp [lineEvent]
@[simp] theorem lineEvent_timing (s : State) : ((lineEvent s).st).timing = s.timing := by
  simp [lineEvent]
@[simp] theorem lineEvent_tracker (s : State) : ((lineEvent s).st).tracker = s.tracker := by
  simp [lineEvent]
@[simp] theorem lineEvent_engine (s : State) : ((lineEvent s).st).engine = s.engine := by
  simp [lineEvent]
@[simp] theorem lineEvent_port (s : State) : ((lineEvent s).st).port = s.port := by
  simp [lineEvent]
@[simp] theorem lineEvent_mode (s : State) : ((lineEvent s).st).mode = s.mode := by
  simp [lineEvent]
@[simp] theorem lineEvent_applyPending (s : State) : ((lineEvent s).st).applyPending = s.applyPending := by
  simp [lineEvent]
@[simp] theorem lineEvent_link (s : State) : ((lineEvent s).st).link = s.link := by
  simp [lineEvent]
@[simp] theorem lineEvent_resetAsserted (s : State) : ((lineEvent s).st).resetAsserted = s.resetAsserted := by
  simp [lineEvent]
@[simp] theorem lineEvent_memory (s : State) : ((lineEvent s).st).memory = s.memory := by
  simp [lineEvent]
@[simp] theorem lineEvent_freeIndex (s : State) : ((lineEvent s).st).freeIndex = s.freeIndex := by
  simp [lineEvent]
@[simp] theorem lineEvent_pending (s : State) : ((lineEvent s).st).pending = s.pending := by
  simp [lineEvent]

/-! ## expiryAction -/

@[simp] theorem expiryAction_upstream (w : Work) : ((expiryAction w).st).upstream = w.st.upstream := by
  unfold expiryAction expireA expireB expireC sealLargest; (repeat' split) <;> simp
@[simp] theorem expiryAction_live (w : Work) : ((expiryAction w).st).live = w.st.live := by
  unfold expiryAction expireA expireB expireC sealLargest; (repeat' split) <;> simp
@[simp] theorem expiryAction_staged (w : Work) : ((expiryAction w).st).staged = w.st.staged := by
  unfold expiryAction expireA expireB expireC sealLargest; (repeat' split) <;> simp
@[simp] theorem expiryAction_timing (w : Work) : ((expiryAction w).st).timing = w.st.timing := by
  unfold expiryAction expireA expireB expireC sealLargest; (repeat' split) <;> simp
@[simp] theorem expiryAction_tracker (w : Work) : ((expiryAction w).st).tracker = w.st.tracker := by
  unfold expiryAction expireA expireB expireC sealLargest; (repeat' split) <;> simp
@[simp] theorem expiryAction_engine (w : Work) : ((expiryAction w).st).engine = w.st.engine := by
  unfold expiryAction expireA expireB expireC sealLargest; (repeat' split) <;> simp
@[simp] theorem expiryAction_port (w : Work) : ((expiryAction w).st).port = w.st.port := by
  unfold expiryAction expireA expireB expireC sealLargest; (repeat' split) <;> simp
@[simp] theorem expiryAction_mode (w : Work) : ((expiryAction w).st).mode = w.st.mode := by
  unfold expiryAction expireA expireB expireC sealLargest; (repeat' split) <;> simp
@[simp] theorem expiryAction_applyPending (w : Work) : ((expiryAction w).st).applyPending = w.st.applyPending := by
  unfold expiryAction expireA expireB expireC sealLargest; (repeat' split) <;> simp
@[simp] theorem expiryAction_incidents (w : Work) : ((expiryAction w).st).incidents = w.st.incidents := by
  unfold expiryAction expireA expireB expireC sealLargest; (repeat' split) <;> simp
@[simp] theorem expiryAction_link (w : Work) : ((expiryAction w).st).link = w.st.link := by
  unfold expiryAction expireA expireB expireC sealLargest; (repeat' split) <;> simp
@[simp] theorem expiryAction_resetAsserted (w : Work) : ((expiryAction w).st).resetAsserted = w.st.resetAsserted := by
  unfold expiryAction expireA expireB expireC sealLargest; (repeat' split) <;> simp
@[simp] theorem expiryAction_memory (w : Work) : ((expiryAction w).st).memory = w.st.memory := by
  unfold expiryAction expireA expireB expireC sealLargest; (repeat' split) <;> simp
@[simp] theorem expiryAction_freeIndex (w : Work) : ((expiryAction w).st).freeIndex = w.st.freeIndex := by
  unfold expiryAction expireA expireB expireC sealLargest; (repeat' split) <;> simp
@[simp] theorem expiryAction_pending (w : Work) : ((expiryAction w).st).pending = w.st.pending := by
  unfold expiryAction expireA expireB expireC sealLargest; (repeat' split) <;> simp

/-! ## expireStall -/

@[simp] theorem expireStall_live (s : State) : (expireStall s).live = s.live := by
  simp [expireStall]
@[simp] theorem expireStall_staged (s : State) : (expireStall s).staged = s.staged := by
  simp [expireStall]
@[simp] theorem expireStall_timing (s : State) : (expireStall s).timing = s.timing := by
  simp [expireStall]
@[simp] theorem expireStall_tracker (s : State) : (expireStall s).tracker = s.tracker := by
  simp [expireStall]
@[simp] theorem expireStall_mode (s : State) : (expireStall s).mode = s.mode := by
  simp [expireStall]
@[simp] theorem expireStall_applyPending (s : State) : (expireStall s).applyPending = s.applyPending := by
  simp [expireStall]
@[simp] theorem expireStall_link (s : State) : (expireStall s).link = s.link := by
  simp [expireStall]
@[simp] theorem expireStall_resetAsserted (s : State) : (expireStall s).resetAsserted = s.resetAsserted := by
  simp [expireStall]
@[simp] theorem expireStall_memory (s : State) : (expireStall s).memory = s.memory := by
  simp [expireStall]
@[simp] theorem expireStall_freeIndex (s : State) : (expireStall s).freeIndex = s.freeIndex := by
  simp [expireStall]
@[simp] theorem expireStall_pending (s : State) : (expireStall s).pending = s.pending := by
  simp [expireStall]

/-! ## expireSupervision -/

@[simp] theorem expireSupervision_staged (s : State) : (expireSupervision s).staged = s.staged := by
  simp [expireSupervision]
@[simp] theorem expireSupervision_timing (s : State) : (expireSupervision s).timing = s.timing := by
  simp [expireSupervision]
@[simp] theorem expireSupervision_mode (s : State) : (expireSupervision s).mode = s.mode := by
  simp [expireSupervision]
@[simp] theorem expireSupervision_link (s : State) : (expireSupervision s).link = s.link := by
  simp [expireSupervision]
@[simp] theorem expireSupervision_resetAsserted (s : State) :
    (expireSupervision s).resetAsserted = s.resetAsserted := by
  simp [expireSupervision]
@[simp] theorem expireSupervision_memory (s : State) : (expireSupervision s).memory = s.memory := by
  simp [expireSupervision]
@[simp] theorem expireSupervision_freeIndex (s : State) : (expireSupervision s).freeIndex = s.freeIndex := by
  simp [expireSupervision]
@[simp] theorem expireSupervision_pending (s : State) : (expireSupervision s).pending = s.pending := by
  simp [expireSupervision]

/-! ## requestReceipt -/

@[simp] theorem requestReceipt_upstream (b : BatchRecord) (a : Addr) (s : State) :
    (requestReceipt b a s).upstream = s.upstream := by
  simp [requestReceipt]
@[simp] theorem requestReceipt_live (b : BatchRecord) (a : Addr) (s : State) :
    (requestReceipt b a s).live = s.live := by
  simp [requestReceipt]
@[simp] theorem requestReceipt_staged (b : BatchRecord) (a : Addr) (s : State) :
    (requestReceipt b a s).staged = s.staged := by
  simp [requestReceipt]
@[simp] theorem requestReceipt_windows (b : BatchRecord) (a : Addr) (s : State) :
    (requestReceipt b a s).windows = s.windows := by
  simp [requestReceipt]
@[simp] theorem requestReceipt_records (b : BatchRecord) (a : Addr) (s : State) :
    (requestReceipt b a s).records = s.records := by
  simp [requestReceipt]
@[simp] theorem requestReceipt_sealOrdinal (b : BatchRecord) (a : Addr) (s : State) :
    (requestReceipt b a s).sealOrdinal = s.sealOrdinal := by
  simp [requestReceipt]
@[simp] theorem requestReceipt_timing (b : BatchRecord) (a : Addr) (s : State) :
    (requestReceipt b a s).timing = s.timing := by
  simp [requestReceipt]
@[simp] theorem requestReceipt_tracker (b : BatchRecord) (a : Addr) (s : State) :
    (requestReceipt b a s).tracker = s.tracker := by
  simp [requestReceipt]
@[simp] theorem requestReceipt_mode (b : BatchRecord) (a : Addr) (s : State) :
    (requestReceipt b a s).mode = s.mode := by
  simp [requestReceipt]
@[simp] theorem requestReceipt_applyPending (b : BatchRecord) (a : Addr) (s : State) :
    (requestReceipt b a s).applyPending = s.applyPending := by
  simp [requestReceipt]
@[simp] theorem requestReceipt_incidents (b : BatchRecord) (a : Addr) (s : State) :
    (requestReceipt b a s).incidents = s.incidents := by
  simp [requestReceipt]
@[simp] theorem requestReceipt_link (b : BatchRecord) (a : Addr) (s : State) :
    (requestReceipt b a s).link = s.link := by
  simp [requestReceipt]
@[simp] theorem requestReceipt_resetAsserted (b : BatchRecord) (a : Addr) (s : State) :
    (requestReceipt b a s).resetAsserted = s.resetAsserted := by
  simp [requestReceipt]
@[simp] theorem requestReceipt_memory (b : BatchRecord) (a : Addr) (s : State) :
    (requestReceipt b a s).memory = s.memory := by
  simp [requestReceipt]
@[simp] theorem requestReceipt_freeIndex (b : BatchRecord) (a : Addr) (s : State) :
    (requestReceipt b a s).freeIndex = s.freeIndex := by
  simp [requestReceipt]
@[simp] theorem requestReceipt_pending (b : BatchRecord) (a : Addr) (s : State) :
    (requestReceipt b a s).pending = s.pending := by
  simp [requestReceipt]

/-! ## endEntries -/

@[simp] theorem endEntries_upstream (r : RecordIdx) (b : BatchRecord) (w : Work) :
    ((endEntries r b w).st).upstream = w.st.upstream := by
  unfold endEntries; split <;> simp
@[simp] theorem endEntries_staged (r : RecordIdx) (b : BatchRecord) (w : Work) :
    ((endEntries r b w).st).staged = w.st.staged := by
  unfold endEntries; split <;> simp
@[simp] theorem endEntries_sealOrdinal (r : RecordIdx) (b : BatchRecord) (w : Work) :
    ((endEntries r b w).st).sealOrdinal = w.st.sealOrdinal := by
  unfold endEntries; split <;> simp
@[simp] theorem endEntries_timing (r : RecordIdx) (b : BatchRecord) (w : Work) :
    ((endEntries r b w).st).timing = w.st.timing := by
  unfold endEntries; split <;> simp
@[simp] theorem endEntries_tracker (r : RecordIdx) (b : BatchRecord) (w : Work) :
    ((endEntries r b w).st).tracker = w.st.tracker := by
  unfold endEntries; split <;> simp
@[simp] theorem endEntries_link (r : RecordIdx) (b : BatchRecord) (w : Work) :
    ((endEntries r b w).st).link = w.st.link := by
  unfold endEntries; split <;> simp
@[simp] theorem endEntries_resetAsserted (r : RecordIdx) (b : BatchRecord) (w : Work) :
    ((endEntries r b w).st).resetAsserted = w.st.resetAsserted := by
  unfold endEntries; split <;> simp
@[simp] theorem endEntries_memory (r : RecordIdx) (b : BatchRecord) (w : Work) :
    ((endEntries r b w).st).memory = w.st.memory := by
  unfold endEntries; split <;> simp
@[simp] theorem endEntries_freeIndex (r : RecordIdx) (b : BatchRecord) (w : Work) :
    ((endEntries r b w).st).freeIndex = w.st.freeIndex := by
  unfold endEntries; split <;> simp
@[simp] theorem endEntries_pending (r : RecordIdx) (b : BatchRecord) (w : Work) :
    ((endEntries r b w).st).pending = w.st.pending := by
  unfold endEntries; split <;> simp

/-! ## continueRelease -/

@[simp] theorem continueRelease_upstream (r : RecordIdx) (b : BatchRecord) (w : Work) :
    ((continueRelease r b w).st).upstream = w.st.upstream := by
  unfold continueRelease; split <;> simp
@[simp] theorem continueRelease_staged (r : RecordIdx) (b : BatchRecord) (w : Work) :
    ((continueRelease r b w).st).staged = w.st.staged := by
  unfold continueRelease; split <;> simp
@[simp] theorem continueRelease_sealOrdinal (r : RecordIdx) (b : BatchRecord) (w : Work) :
    ((continueRelease r b w).st).sealOrdinal = w.st.sealOrdinal := by
  unfold continueRelease; split <;> simp
@[simp] theorem continueRelease_timing (r : RecordIdx) (b : BatchRecord) (w : Work) :
    ((continueRelease r b w).st).timing = w.st.timing := by
  unfold continueRelease; split <;> simp
@[simp] theorem continueRelease_tracker (r : RecordIdx) (b : BatchRecord) (w : Work) :
    ((continueRelease r b w).st).tracker = w.st.tracker := by
  unfold continueRelease; split <;> simp
@[simp] theorem continueRelease_link (r : RecordIdx) (b : BatchRecord) (w : Work) :
    ((continueRelease r b w).st).link = w.st.link := by
  unfold continueRelease; split <;> simp
@[simp] theorem continueRelease_resetAsserted (r : RecordIdx) (b : BatchRecord) (w : Work) :
    ((continueRelease r b w).st).resetAsserted = w.st.resetAsserted := by
  unfold continueRelease; split <;> simp
@[simp] theorem continueRelease_memory (r : RecordIdx) (b : BatchRecord) (w : Work) :
    ((continueRelease r b w).st).memory = w.st.memory := by
  unfold continueRelease; split <;> simp
@[simp] theorem continueRelease_freeIndex (r : RecordIdx) (b : BatchRecord) (w : Work) :
    ((continueRelease r b w).st).freeIndex = w.st.freeIndex := by
  unfold continueRelease; split <;> simp
@[simp] theorem continueRelease_pending (r : RecordIdx) (b : BatchRecord) (w : Work) :
    ((continueRelease r b w).st).pending = w.st.pending := by
  unfold continueRelease; split <;> simp

/-! ## finishEntry -/

@[simp] theorem finishEntry_upstream (r : RecordIdx) (b : BatchRecord) (w : Work) :
    ((finishEntry r b w).st).upstream = w.st.upstream := by
  simp [finishEntry]
@[simp] theorem finishEntry_staged (r : RecordIdx) (b : BatchRecord) (w : Work) :
    ((finishEntry r b w).st).staged = w.st.staged := by
  simp [finishEntry]
@[simp] theorem finishEntry_sealOrdinal (r : RecordIdx) (b : BatchRecord) (w : Work) :
    ((finishEntry r b w).st).sealOrdinal = w.st.sealOrdinal := by
  simp [finishEntry]
@[simp] theorem finishEntry_timing (r : RecordIdx) (b : BatchRecord) (w : Work) :
    ((finishEntry r b w).st).timing = w.st.timing := by
  simp [finishEntry]
@[simp] theorem finishEntry_tracker (r : RecordIdx) (b : BatchRecord) (w : Work) :
    ((finishEntry r b w).st).tracker = w.st.tracker := by
  simp [finishEntry]
@[simp] theorem finishEntry_link (r : RecordIdx) (b : BatchRecord) (w : Work) :
    ((finishEntry r b w).st).link = w.st.link := by
  simp [finishEntry]
@[simp] theorem finishEntry_resetAsserted (r : RecordIdx) (b : BatchRecord) (w : Work) :
    ((finishEntry r b w).st).resetAsserted = w.st.resetAsserted := by
  simp [finishEntry]
@[simp] theorem finishEntry_memory (r : RecordIdx) (b : BatchRecord) (w : Work) :
    ((finishEntry r b w).st).memory = w.st.memory := by
  simp [finishEntry]
@[simp] theorem finishEntry_freeIndex (r : RecordIdx) (b : BatchRecord) (w : Work) :
    ((finishEntry r b w).st).freeIndex = w.st.freeIndex := by
  simp [finishEntry]
@[simp] theorem finishEntry_pending (r : RecordIdx) (b : BatchRecord) (w : Work) :
    ((finishEntry r b w).st).pending = w.st.pending := by
  simp [finishEntry]

/-! ## ownEntryCompletion -/

@[simp] theorem ownEntryCompletion_upstream (w : Work) : ((ownEntryCompletion w).st).upstream = w.st.upstream := by
  unfold ownEntryCompletion; split <;> simp
@[simp] theorem ownEntryCompletion_staged (w : Work) : ((ownEntryCompletion w).st).staged = w.st.staged := by
  unfold ownEntryCompletion; split <;> simp
@[simp] theorem ownEntryCompletion_sealOrdinal (w : Work) :
    ((ownEntryCompletion w).st).sealOrdinal = w.st.sealOrdinal := by
  unfold ownEntryCompletion; split <;> simp
@[simp] theorem ownEntryCompletion_timing (w : Work) : ((ownEntryCompletion w).st).timing = w.st.timing := by
  unfold ownEntryCompletion; split <;> simp
@[simp] theorem ownEntryCompletion_tracker (w : Work) : ((ownEntryCompletion w).st).tracker = w.st.tracker := by
  unfold ownEntryCompletion; split <;> simp
@[simp] theorem ownEntryCompletion_link (w : Work) : ((ownEntryCompletion w).st).link = w.st.link := by
  unfold ownEntryCompletion; split <;> simp
@[simp] theorem ownEntryCompletion_resetAsserted (w : Work) :
    ((ownEntryCompletion w).st).resetAsserted = w.st.resetAsserted := by
  unfold ownEntryCompletion; split <;> simp
@[simp] theorem ownEntryCompletion_memory (w : Work) : ((ownEntryCompletion w).st).memory = w.st.memory := by
  unfold ownEntryCompletion; split <;> simp
@[simp] theorem ownEntryCompletion_freeIndex (w : Work) : ((ownEntryCompletion w).st).freeIndex = w.st.freeIndex := by
  unfold ownEntryCompletion; split <;> simp
@[simp] theorem ownEntryCompletion_pending (w : Work) : ((ownEntryCompletion w).st).pending = w.st.pending := by
  unfold ownEntryCompletion; split <;> simp

/-! ## ownReceiptCompletion -/

@[simp] theorem ownReceiptCompletion_upstream (w : Work) :
    ((ownReceiptCompletion w).st).upstream = w.st.upstream := by
  unfold ownReceiptCompletion; split <;> simp
@[simp] theorem ownReceiptCompletion_staged (w : Work) : ((ownReceiptCompletion w).st).staged = w.st.staged := by
  unfold ownReceiptCompletion; split <;> simp
@[simp] theorem ownReceiptCompletion_sealOrdinal (w : Work) :
    ((ownReceiptCompletion w).st).sealOrdinal = w.st.sealOrdinal := by
  unfold ownReceiptCompletion; split <;> simp
@[simp] theorem ownReceiptCompletion_timing (w : Work) : ((ownReceiptCompletion w).st).timing = w.st.timing := by
  unfold ownReceiptCompletion; split <;> simp
@[simp] theorem ownReceiptCompletion_tracker (w : Work) : ((ownReceiptCompletion w).st).tracker = w.st.tracker := by
  unfold ownReceiptCompletion; split <;> simp
@[simp] theorem ownReceiptCompletion_port (w : Work) : ((ownReceiptCompletion w).st).port = w.st.port := by
  unfold ownReceiptCompletion; split <;> simp
@[simp] theorem ownReceiptCompletion_link (w : Work) : ((ownReceiptCompletion w).st).link = w.st.link := by
  unfold ownReceiptCompletion; split <;> simp
@[simp] theorem ownReceiptCompletion_resetAsserted (w : Work) :
    ((ownReceiptCompletion w).st).resetAsserted = w.st.resetAsserted := by
  unfold ownReceiptCompletion; split <;> simp
@[simp] theorem ownReceiptCompletion_memory (w : Work) : ((ownReceiptCompletion w).st).memory = w.st.memory := by
  unfold ownReceiptCompletion; split <;> simp
@[simp] theorem ownReceiptCompletion_freeIndex (w : Work) :
    ((ownReceiptCompletion w).st).freeIndex = w.st.freeIndex := by
  unfold ownReceiptCompletion; split <;> simp
@[simp] theorem ownReceiptCompletion_pending (w : Work) : ((ownReceiptCompletion w).st).pending = w.st.pending := by
  unfold ownReceiptCompletion; split <;> simp

/-! ## releaseDrdy -/

@[simp] theorem releaseDrdy_upstream (s : State) : (releaseDrdy s).upstream = s.upstream := by
  unfold releaseDrdy; split <;> simp
@[simp] theorem releaseDrdy_live (s : State) : (releaseDrdy s).live = s.live := by
  unfold releaseDrdy; split <;> simp
@[simp] theorem releaseDrdy_staged (s : State) : (releaseDrdy s).staged = s.staged := by
  unfold releaseDrdy; split <;> simp
@[simp] theorem releaseDrdy_windows (s : State) : (releaseDrdy s).windows = s.windows := by
  unfold releaseDrdy; split <;> simp
@[simp] theorem releaseDrdy_records (s : State) : (releaseDrdy s).records = s.records := by
  unfold releaseDrdy; split <;> simp
@[simp] theorem releaseDrdy_sealOrdinal (s : State) : (releaseDrdy s).sealOrdinal = s.sealOrdinal := by
  unfold releaseDrdy; split <;> simp
@[simp] theorem releaseDrdy_timing (s : State) : (releaseDrdy s).timing = s.timing := by
  unfold releaseDrdy; split <;> simp
@[simp] theorem releaseDrdy_tracker (s : State) : (releaseDrdy s).tracker = s.tracker := by
  unfold releaseDrdy; split <;> simp
@[simp] theorem releaseDrdy_mode (s : State) : (releaseDrdy s).mode = s.mode := by
  unfold releaseDrdy; split <;> simp
@[simp] theorem releaseDrdy_applyPending (s : State) : (releaseDrdy s).applyPending = s.applyPending := by
  unfold releaseDrdy; split <;> simp
@[simp] theorem releaseDrdy_incidents (s : State) : (releaseDrdy s).incidents = s.incidents := by
  unfold releaseDrdy; split <;> simp
@[simp] theorem releaseDrdy_link (s : State) : (releaseDrdy s).link = s.link := by
  unfold releaseDrdy; split <;> simp
@[simp] theorem releaseDrdy_resetAsserted (s : State) : (releaseDrdy s).resetAsserted = s.resetAsserted := by
  unfold releaseDrdy; split <;> simp
@[simp] theorem releaseDrdy_memory (s : State) : (releaseDrdy s).memory = s.memory := by
  unfold releaseDrdy; split <;> simp
@[simp] theorem releaseDrdy_freeIndex (s : State) : (releaseDrdy s).freeIndex = s.freeIndex := by
  unfold releaseDrdy; split <;> simp
@[simp] theorem releaseDrdy_pending (s : State) : (releaseDrdy s).pending = s.pending := by
  unfold releaseDrdy; split <;> simp

/-! ## endRelease -/

@[simp] theorem endRelease_upstream (s : State) : (endRelease s).upstream = s.upstream := by
  simp [endRelease]
@[simp] theorem endRelease_live (s : State) : (endRelease s).live = s.live := by
  simp [endRelease]
@[simp] theorem endRelease_staged (s : State) : (endRelease s).staged = s.staged := by
  simp [endRelease]
@[simp] theorem endRelease_windows (s : State) : (endRelease s).windows = s.windows := by
  simp [endRelease]
@[simp] theorem endRelease_records (s : State) : (endRelease s).records = s.records := by
  simp [endRelease]
@[simp] theorem endRelease_sealOrdinal (s : State) : (endRelease s).sealOrdinal = s.sealOrdinal := by
  simp [endRelease]
@[simp] theorem endRelease_timing (s : State) : (endRelease s).timing = s.timing := by
  simp [endRelease]
@[simp] theorem endRelease_tracker (s : State) : (endRelease s).tracker = s.tracker := by
  simp [endRelease]
@[simp] theorem endRelease_mode (s : State) : (endRelease s).mode = s.mode := by
  simp [endRelease]
@[simp] theorem endRelease_applyPending (s : State) : (endRelease s).applyPending = s.applyPending := by
  simp [endRelease]
@[simp] theorem endRelease_incidents (s : State) : (endRelease s).incidents = s.incidents := by
  simp [endRelease]
@[simp] theorem endRelease_link (s : State) : (endRelease s).link = s.link := by
  simp [endRelease]
@[simp] theorem endRelease_resetAsserted (s : State) : (endRelease s).resetAsserted = s.resetAsserted := by
  simp [endRelease]
@[simp] theorem endRelease_memory (s : State) : (endRelease s).memory = s.memory := by
  simp [endRelease]
@[simp] theorem endRelease_freeIndex (s : State) : (endRelease s).freeIndex = s.freeIndex := by
  simp [endRelease]
@[simp] theorem endRelease_pending (s : State) : (endRelease s).pending = s.pending := by
  simp [endRelease]

/-! ## reportDiscard -/

@[simp] theorem reportDiscard_upstream (b s : State) : (reportDiscard b s).upstream = s.upstream := by
  unfold reportDiscard; split <;> simp
@[simp] theorem reportDiscard_live (b s : State) : (reportDiscard b s).live = s.live := by
  unfold reportDiscard; split <;> simp
@[simp] theorem reportDiscard_staged (b s : State) : (reportDiscard b s).staged = s.staged := by
  unfold reportDiscard; split <;> simp
@[simp] theorem reportDiscard_windows (b s : State) : (reportDiscard b s).windows = s.windows := by
  unfold reportDiscard; split <;> simp
@[simp] theorem reportDiscard_records (b s : State) : (reportDiscard b s).records = s.records := by
  unfold reportDiscard; split <;> simp
@[simp] theorem reportDiscard_sealOrdinal (b s : State) : (reportDiscard b s).sealOrdinal = s.sealOrdinal := by
  unfold reportDiscard; split <;> simp
@[simp] theorem reportDiscard_timing (b s : State) : (reportDiscard b s).timing = s.timing := by
  unfold reportDiscard; split <;> simp
@[simp] theorem reportDiscard_tracker (b s : State) : (reportDiscard b s).tracker = s.tracker := by
  unfold reportDiscard; split <;> simp
@[simp] theorem reportDiscard_engine (b s : State) : (reportDiscard b s).engine = s.engine := by
  unfold reportDiscard; split <;> simp
@[simp] theorem reportDiscard_port (b s : State) : (reportDiscard b s).port = s.port := by
  unfold reportDiscard; split <;> simp
@[simp] theorem reportDiscard_mode (b s : State) : (reportDiscard b s).mode = s.mode := by
  unfold reportDiscard; split <;> simp
@[simp] theorem reportDiscard_applyPending (b s : State) : (reportDiscard b s).applyPending = s.applyPending := by
  unfold reportDiscard; split <;> simp
@[simp] theorem reportDiscard_link (b s : State) : (reportDiscard b s).link = s.link := by
  unfold reportDiscard; split <;> simp
@[simp] theorem reportDiscard_resetAsserted (b s : State) : (reportDiscard b s).resetAsserted = s.resetAsserted := by
  unfold reportDiscard; split <;> simp
@[simp] theorem reportDiscard_memory (b s : State) : (reportDiscard b s).memory = s.memory := by
  unfold reportDiscard; split <;> simp
@[simp] theorem reportDiscard_freeIndex (b s : State) : (reportDiscard b s).freeIndex = s.freeIndex := by
  unfold reportDiscard; split <;> simp
@[simp] theorem reportDiscard_pending (b s : State) : (reportDiscard b s).pending = s.pending := by
  unfold reportDiscard; split <;> simp

/-! ## discard -/

@[simp] theorem discard_staged (s : State) : (discard s).staged = s.staged := by
  simp [discard]
@[simp] theorem discard_timing (s : State) : (discard s).timing = s.timing := by
  simp [discard]
@[simp] theorem discard_tracker (s : State) : (discard s).tracker = s.tracker := by
  simp [discard]
@[simp] theorem discard_link (s : State) : (discard s).link = s.link := by
  simp [discard]
@[simp] theorem discard_resetAsserted (s : State) : (discard s).resetAsserted = s.resetAsserted := by
  simp [discard]
@[simp] theorem discard_memory (s : State) : (discard s).memory = s.memory := by
  simp [discard]
@[simp] theorem discard_freeIndex (s : State) : (discard s).freeIndex = s.freeIndex := by
  simp [discard]
@[simp] theorem discard_pending (s : State) : (discard s).pending = s.pending := by
  simp [discard]

/-! ## markSealed -/

@[simp] theorem markSealed_upstream (reason : ForceReason) (Ws : List WindowIdx) (w : Work) :
    ((markSealed reason Ws w).st).upstream = w.st.upstream := by
  simp [markSealed]
@[simp] theorem markSealed_live (reason : ForceReason) (Ws : List WindowIdx) (w : Work) :
    ((markSealed reason Ws w).st).live = w.st.live := by
  simp [markSealed]
@[simp] theorem markSealed_staged (reason : ForceReason) (Ws : List WindowIdx) (w : Work) :
    ((markSealed reason Ws w).st).staged = w.st.staged := by
  simp [markSealed]
@[simp] theorem markSealed_windows (reason : ForceReason) (Ws : List WindowIdx) (w : Work) :
    ((markSealed reason Ws w).st).windows = w.st.windows := by
  simp [markSealed]
@[simp] theorem markSealed_sealOrdinal (reason : ForceReason) (Ws : List WindowIdx) (w : Work) :
    ((markSealed reason Ws w).st).sealOrdinal = w.st.sealOrdinal := by
  simp [markSealed]
@[simp] theorem markSealed_timing (reason : ForceReason) (Ws : List WindowIdx) (w : Work) :
    ((markSealed reason Ws w).st).timing = w.st.timing := by
  simp [markSealed]
@[simp] theorem markSealed_tracker (reason : ForceReason) (Ws : List WindowIdx) (w : Work) :
    ((markSealed reason Ws w).st).tracker = w.st.tracker := by
  simp [markSealed]
@[simp] theorem markSealed_engine (reason : ForceReason) (Ws : List WindowIdx) (w : Work) :
    ((markSealed reason Ws w).st).engine = w.st.engine := by
  simp [markSealed]
@[simp] theorem markSealed_port (reason : ForceReason) (Ws : List WindowIdx) (w : Work) :
    ((markSealed reason Ws w).st).port = w.st.port := by
  simp [markSealed]
@[simp] theorem markSealed_mode (reason : ForceReason) (Ws : List WindowIdx) (w : Work) :
    ((markSealed reason Ws w).st).mode = w.st.mode := by
  simp [markSealed]
@[simp] theorem markSealed_applyPending (reason : ForceReason) (Ws : List WindowIdx) (w : Work) :
    ((markSealed reason Ws w).st).applyPending = w.st.applyPending := by
  simp [markSealed]
@[simp] theorem markSealed_incidents (reason : ForceReason) (Ws : List WindowIdx) (w : Work) :
    ((markSealed reason Ws w).st).incidents = w.st.incidents := by
  simp [markSealed]
@[simp] theorem markSealed_link (reason : ForceReason) (Ws : List WindowIdx) (w : Work) :
    ((markSealed reason Ws w).st).link = w.st.link := by
  simp [markSealed]
@[simp] theorem markSealed_resetAsserted (reason : ForceReason) (Ws : List WindowIdx) (w : Work) :
    ((markSealed reason Ws w).st).resetAsserted = w.st.resetAsserted := by
  simp [markSealed]
@[simp] theorem markSealed_memory (reason : ForceReason) (Ws : List WindowIdx) (w : Work) :
    ((markSealed reason Ws w).st).memory = w.st.memory := by
  simp [markSealed]
@[simp] theorem markSealed_freeIndex (reason : ForceReason) (Ws : List WindowIdx) (w : Work) :
    ((markSealed reason Ws w).st).freeIndex = w.st.freeIndex := by
  simp [markSealed]
@[simp] theorem markSealed_pending (reason : ForceReason) (Ws : List WindowIdx) (w : Work) :
    ((markSealed reason Ws w).st).pending = w.st.pending := by
  simp [markSealed]

/-! ## loseTracker -/

@[simp] theorem loseTracker_upstream (w : Work) : ((loseTracker w).st).upstream = w.st.upstream := by
  unfold loseTracker; split <;> simp
@[simp] theorem loseTracker_staged (w : Work) : ((loseTracker w).st).staged = w.st.staged := by
  unfold loseTracker; split <;> simp
@[simp] theorem loseTracker_records (w : Work) : ((loseTracker w).st).records = w.st.records := by
  unfold loseTracker; split <;> simp
@[simp] theorem loseTracker_sealOrdinal (w : Work) : ((loseTracker w).st).sealOrdinal = w.st.sealOrdinal := by
  unfold loseTracker; split <;> simp
@[simp] theorem loseTracker_timing (w : Work) : ((loseTracker w).st).timing = w.st.timing := by
  unfold loseTracker; split <;> simp
@[simp] theorem loseTracker_engine (w : Work) : ((loseTracker w).st).engine = w.st.engine := by
  unfold loseTracker; split <;> simp
@[simp] theorem loseTracker_port (w : Work) : ((loseTracker w).st).port = w.st.port := by
  unfold loseTracker; split <;> simp
@[simp] theorem loseTracker_mode (w : Work) : ((loseTracker w).st).mode = w.st.mode := by
  unfold loseTracker; split <;> simp
@[simp] theorem loseTracker_link (w : Work) : ((loseTracker w).st).link = w.st.link := by
  unfold loseTracker; split <;> simp
@[simp] theorem loseTracker_resetAsserted (w : Work) : ((loseTracker w).st).resetAsserted = w.st.resetAsserted := by
  unfold loseTracker; split <;> simp
@[simp] theorem loseTracker_memory (w : Work) : ((loseTracker w).st).memory = w.st.memory := by
  unfold loseTracker; split <;> simp
@[simp] theorem loseTracker_freeIndex (w : Work) : ((loseTracker w).st).freeIndex = w.st.freeIndex := by
  unfold loseTracker; split <;> simp
@[simp] theorem loseTracker_pending (w : Work) : ((loseTracker w).st).pending = w.st.pending := by
  unfold loseTracker; split <;> simp

/-! ## applyNow -/

@[simp] theorem applyNow_upstream (w : Work) : ((applyNow w).st).upstream = w.st.upstream := by
  simp [applyNow]
@[simp] theorem applyNow_staged (w : Work) : ((applyNow w).st).staged = w.st.staged := by
  simp [applyNow]
@[simp] theorem applyNow_windows (w : Work) : ((applyNow w).st).windows = w.st.windows := by
  simp [applyNow]
@[simp] theorem applyNow_records (w : Work) : ((applyNow w).st).records = w.st.records := by
  simp [applyNow]
@[simp] theorem applyNow_sealOrdinal (w : Work) : ((applyNow w).st).sealOrdinal = w.st.sealOrdinal := by
  simp [applyNow]
@[simp] theorem applyNow_timing (w : Work) : ((applyNow w).st).timing = w.st.timing := by
  simp [applyNow]
@[simp] theorem applyNow_tracker (w : Work) : ((applyNow w).st).tracker = w.st.tracker := by
  simp [applyNow]
@[simp] theorem applyNow_engine (w : Work) : ((applyNow w).st).engine = w.st.engine := by
  simp [applyNow]
@[simp] theorem applyNow_port (w : Work) : ((applyNow w).st).port = w.st.port := by
  simp [applyNow]
@[simp] theorem applyNow_mode (w : Work) : ((applyNow w).st).mode = w.st.mode := by
  simp [applyNow]
@[simp] theorem applyNow_applyPending (w : Work) : ((applyNow w).st).applyPending = w.st.applyPending := by
  simp [applyNow]
@[simp] theorem applyNow_link (w : Work) : ((applyNow w).st).link = w.st.link := by
  simp [applyNow]
@[simp] theorem applyNow_resetAsserted (w : Work) : ((applyNow w).st).resetAsserted = w.st.resetAsserted := by
  simp [applyNow]
@[simp] theorem applyNow_memory (w : Work) : ((applyNow w).st).memory = w.st.memory := by
  simp [applyNow]
@[simp] theorem applyNow_freeIndex (w : Work) : ((applyNow w).st).freeIndex = w.st.freeIndex := by
  simp [applyNow]
@[simp] theorem applyNow_pending (w : Work) : ((applyNow w).st).pending = w.st.pending := by
  simp [applyNow]

/-! ## applyLater -/

@[simp] theorem applyLater_upstream (w : Work) : ((applyLater w).st).upstream = w.st.upstream := by
  simp [applyLater]
@[simp] theorem applyLater_staged (w : Work) : ((applyLater w).st).staged = w.st.staged := by
  simp [applyLater]
@[simp] theorem applyLater_timing (w : Work) : ((applyLater w).st).timing = w.st.timing := by
  simp [applyLater]
@[simp] theorem applyLater_tracker (w : Work) : ((applyLater w).st).tracker = w.st.tracker := by
  simp [applyLater]
@[simp] theorem applyLater_engine (w : Work) : ((applyLater w).st).engine = w.st.engine := by
  simp [applyLater]
@[simp] theorem applyLater_port (w : Work) : ((applyLater w).st).port = w.st.port := by
  simp [applyLater]
@[simp] theorem applyLater_mode (w : Work) : ((applyLater w).st).mode = w.st.mode := by
  simp [applyLater]
@[simp] theorem applyLater_link (w : Work) : ((applyLater w).st).link = w.st.link := by
  simp [applyLater]
@[simp] theorem applyLater_resetAsserted (w : Work) : ((applyLater w).st).resetAsserted = w.st.resetAsserted := by
  simp [applyLater]
@[simp] theorem applyLater_memory (w : Work) : ((applyLater w).st).memory = w.st.memory := by
  simp [applyLater]
@[simp] theorem applyLater_freeIndex (w : Work) : ((applyLater w).st).freeIndex = w.st.freeIndex := by
  simp [applyLater]
@[simp] theorem applyLater_pending (w : Work) : ((applyLater w).st).pending = w.st.pending := by
  simp [applyLater]

/-! ## acceptApply -/

@[simp] theorem acceptApply_staged (s : State) : (acceptApply s).staged = s.staged := by
  unfold acceptApply; split <;> simp
@[simp] theorem acceptApply_timing (s : State) : (acceptApply s).timing = s.timing := by
  unfold acceptApply; split <;> simp
@[simp] theorem acceptApply_tracker (s : State) : (acceptApply s).tracker = s.tracker := by
  unfold acceptApply; split <;> simp
@[simp] theorem acceptApply_mode (s : State) : (acceptApply s).mode = s.mode := by
  unfold acceptApply; split <;> simp
@[simp] theorem acceptApply_link (s : State) : (acceptApply s).link = s.link := by
  unfold acceptApply; split <;> simp
@[simp] theorem acceptApply_resetAsserted (s : State) : (acceptApply s).resetAsserted = s.resetAsserted := by
  unfold acceptApply; split <;> simp
@[simp] theorem acceptApply_memory (s : State) : (acceptApply s).memory = s.memory := by
  unfold acceptApply; split <;> simp
@[simp] theorem acceptApply_freeIndex (s : State) : (acceptApply s).freeIndex = s.freeIndex := by
  unfold acceptApply; split <;> simp
@[simp] theorem acceptApply_pending (s : State) : (acceptApply s).pending = s.pending := by
  unfold acceptApply; split <;> simp

/-! ## beginDrain -/

@[simp] theorem beginDrain_staged (s : State) : (beginDrain s).staged = s.staged := by
  simp [beginDrain]
@[simp] theorem beginDrain_timing (s : State) : (beginDrain s).timing = s.timing := by
  simp [beginDrain]
@[simp] theorem beginDrain_tracker (s : State) : (beginDrain s).tracker = s.tracker := by
  simp [beginDrain]
@[simp] theorem beginDrain_link (s : State) : (beginDrain s).link = s.link := by
  simp [beginDrain]
@[simp] theorem beginDrain_resetAsserted (s : State) : (beginDrain s).resetAsserted = s.resetAsserted := by
  simp [beginDrain]
@[simp] theorem beginDrain_memory (s : State) : (beginDrain s).memory = s.memory := by
  simp [beginDrain]
@[simp] theorem beginDrain_freeIndex (s : State) : (beginDrain s).freeIndex = s.freeIndex := by
  simp [beginDrain]
@[simp] theorem beginDrain_pending (s : State) : (beginDrain s).pending = s.pending := by
  simp [beginDrain]

/-! ## sealNamed -/

@[simp] theorem sealNamed_live (Ws : List WindowIdx) (s : State) : (sealNamed Ws s).live = s.live := by
  simp [sealNamed]
@[simp] theorem sealNamed_staged (Ws : List WindowIdx) (s : State) : (sealNamed Ws s).staged = s.staged := by
  simp [sealNamed]
@[simp] theorem sealNamed_timing (Ws : List WindowIdx) (s : State) : (sealNamed Ws s).timing = s.timing := by
  simp [sealNamed]
@[simp] theorem sealNamed_tracker (Ws : List WindowIdx) (s : State) : (sealNamed Ws s).tracker = s.tracker := by
  simp [sealNamed]
@[simp] theorem sealNamed_mode (Ws : List WindowIdx) (s : State) : (sealNamed Ws s).mode = s.mode := by
  simp [sealNamed]
@[simp] theorem sealNamed_applyPending (Ws : List WindowIdx) (s : State) :
    (sealNamed Ws s).applyPending = s.applyPending := by
  simp [sealNamed]
@[simp] theorem sealNamed_link (Ws : List WindowIdx) (s : State) : (sealNamed Ws s).link = s.link := by
  simp [sealNamed]
@[simp] theorem sealNamed_resetAsserted (Ws : List WindowIdx) (s : State) :
    (sealNamed Ws s).resetAsserted = s.resetAsserted := by
  simp [sealNamed]
@[simp] theorem sealNamed_memory (Ws : List WindowIdx) (s : State) : (sealNamed Ws s).memory = s.memory := by
  simp [sealNamed]
@[simp] theorem sealNamed_freeIndex (Ws : List WindowIdx) (s : State) : (sealNamed Ws s).freeIndex = s.freeIndex := by
  simp [sealNamed]
@[simp] theorem sealNamed_pending (Ws : List WindowIdx) (s : State) : (sealNamed Ws s).pending = s.pending := by
  simp [sealNamed]

/-! ## flushNamed -/

@[simp] theorem flushNamed_live (Ws : List WindowIdx) (s : State) : (flushNamed Ws s).live = s.live := by
  simp [flushNamed]
@[simp] theorem flushNamed_staged (Ws : List WindowIdx) (s : State) : (flushNamed Ws s).staged = s.staged := by
  simp [flushNamed]
@[simp] theorem flushNamed_timing (Ws : List WindowIdx) (s : State) : (flushNamed Ws s).timing = s.timing := by
  simp [flushNamed]
@[simp] theorem flushNamed_tracker (Ws : List WindowIdx) (s : State) : (flushNamed Ws s).tracker = s.tracker := by
  simp [flushNamed]
@[simp] theorem flushNamed_mode (Ws : List WindowIdx) (s : State) : (flushNamed Ws s).mode = s.mode := by
  simp [flushNamed]
@[simp] theorem flushNamed_applyPending (Ws : List WindowIdx) (s : State) :
    (flushNamed Ws s).applyPending = s.applyPending := by
  simp [flushNamed]
@[simp] theorem flushNamed_link (Ws : List WindowIdx) (s : State) : (flushNamed Ws s).link = s.link := by
  simp [flushNamed]
@[simp] theorem flushNamed_resetAsserted (Ws : List WindowIdx) (s : State) :
    (flushNamed Ws s).resetAsserted = s.resetAsserted := by
  simp [flushNamed]
@[simp] theorem flushNamed_memory (Ws : List WindowIdx) (s : State) : (flushNamed Ws s).memory = s.memory := by
  simp [flushNamed]
@[simp] theorem flushNamed_freeIndex (Ws : List WindowIdx) (s : State) :
    (flushNamed Ws s).freeIndex = s.freeIndex := by
  simp [flushNamed]
@[simp] theorem flushNamed_pending (Ws : List WindowIdx) (s : State) : (flushNamed Ws s).pending = s.pending := by
  simp [flushNamed]

/-! ## restartPart -/

@[simp] theorem restartPart_live (s : State) : (restartPart s).live = s.live := by
  simp [restartPart]
@[simp] theorem restartPart_staged (s : State) : (restartPart s).staged = s.staged := by
  simp [restartPart]
@[simp] theorem restartPart_timing (s : State) : (restartPart s).timing = s.timing := by
  simp [restartPart]
@[simp] theorem restartPart_link (s : State) : (restartPart s).link = s.link := by
  simp [restartPart]
@[simp] theorem restartPart_resetAsserted (s : State) : (restartPart s).resetAsserted = s.resetAsserted := by
  simp [restartPart]
@[simp] theorem restartPart_memory (s : State) : (restartPart s).memory = s.memory := by
  simp [restartPart]
@[simp] theorem restartPart_freeIndex (s : State) : (restartPart s).freeIndex = s.freeIndex := by
  simp [restartPart]
@[simp] theorem restartPart_pending (s : State) : (restartPart s).pending = s.pending := by
  simp [restartPart]

/-! ## expireBoth -/

@[simp] theorem expireBoth_staged (f : Bool) (s : State) : (expireBoth f s).staged = s.staged := by
  unfold expireBoth supervisionDue stallDue; (repeat' split) <;> simp
@[simp] theorem expireBoth_timing (f : Bool) (s : State) : (expireBoth f s).timing = s.timing := by
  unfold expireBoth supervisionDue stallDue; (repeat' split) <;> simp
@[simp] theorem expireBoth_mode (f : Bool) (s : State) : (expireBoth f s).mode = s.mode := by
  unfold expireBoth supervisionDue stallDue; (repeat' split) <;> simp
@[simp] theorem expireBoth_link (f : Bool) (s : State) : (expireBoth f s).link = s.link := by
  unfold expireBoth supervisionDue stallDue; (repeat' split) <;> simp
@[simp] theorem expireBoth_resetAsserted (f : Bool) (s : State) :
    (expireBoth f s).resetAsserted = s.resetAsserted := by
  unfold expireBoth supervisionDue stallDue; (repeat' split) <;> simp
@[simp] theorem expireBoth_memory (f : Bool) (s : State) : (expireBoth f s).memory = s.memory := by
  unfold expireBoth supervisionDue stallDue; (repeat' split) <;> simp
@[simp] theorem expireBoth_freeIndex (f : Bool) (s : State) : (expireBoth f s).freeIndex = s.freeIndex := by
  unfold expireBoth supervisionDue stallDue; (repeat' split) <;> simp
@[simp] theorem expireBoth_pending (f : Bool) (s : State) : (expireBoth f s).pending = s.pending := by
  unfold expireBoth supervisionDue stallDue; (repeat' split) <;> simp

/-! ## cutTransaction -/

@[simp] theorem cutTransaction_upstream (s : State) : (cutTransaction s).upstream = s.upstream := by
  unfold cutTransaction; split <;> rfl
@[simp] theorem cutTransaction_live (s : State) : (cutTransaction s).live = s.live := by
  unfold cutTransaction; split <;> rfl
@[simp] theorem cutTransaction_staged (s : State) : (cutTransaction s).staged = s.staged := by
  unfold cutTransaction; split <;> rfl
@[simp] theorem cutTransaction_windows (s : State) : (cutTransaction s).windows = s.windows := by
  unfold cutTransaction; split <;> rfl
@[simp] theorem cutTransaction_records (s : State) : (cutTransaction s).records = s.records := by
  unfold cutTransaction; split <;> rfl
@[simp] theorem cutTransaction_sealOrdinal (s : State) : (cutTransaction s).sealOrdinal = s.sealOrdinal := by
  unfold cutTransaction; split <;> rfl
@[simp] theorem cutTransaction_timing (s : State) : (cutTransaction s).timing = s.timing := by
  unfold cutTransaction; split <;> rfl
@[simp] theorem cutTransaction_tracker (s : State) : (cutTransaction s).tracker = s.tracker := by
  unfold cutTransaction; split <;> rfl
@[simp] theorem cutTransaction_engine (s : State) : (cutTransaction s).engine = s.engine := by
  unfold cutTransaction; split <;> rfl
@[simp] theorem cutTransaction_port (s : State) : (cutTransaction s).port = s.port := by
  unfold cutTransaction; split <;> rfl
@[simp] theorem cutTransaction_mode (s : State) : (cutTransaction s).mode = s.mode := by
  unfold cutTransaction; split <;> rfl
@[simp] theorem cutTransaction_applyPending (s : State) : (cutTransaction s).applyPending = s.applyPending := by
  unfold cutTransaction; split <;> rfl
@[simp] theorem cutTransaction_incidents (s : State) : (cutTransaction s).incidents = s.incidents := by
  unfold cutTransaction; split <;> rfl
@[simp] theorem cutTransaction_link (s : State) : (cutTransaction s).link = s.link := by
  unfold cutTransaction; split <;> rfl
@[simp] theorem cutTransaction_resetAsserted (s : State) : (cutTransaction s).resetAsserted = s.resetAsserted := by
  unfold cutTransaction; split <;> rfl
@[simp] theorem cutTransaction_pending (s : State) : (cutTransaction s).pending = s.pending := by
  unfold cutTransaction; split <;> rfl

end Sys2Proof.Machine
end

