-- ==== Sys2Proof/Laws/Commands.lean ====
section
/-! SUPPORT. The frame of every command: the blocks it leaves unchanged, one lemma a block (RESET_LINE, which sets every
block, apart), and the shared wrappers of the link commands. -/

set_option linter.unnecessarySeqFocus false
set_option linter.unusedTactic false
set_option linter.unreachableTactic false

namespace Sys2Proof.Machine

/-! ## takeWrite -/

@[simp] theorem takeWrite_live (a : Addr) (m : Lanes) (d : Word) (s : State) : (takeWrite a m d s).live = s.live := by
  unfold takeWrite zeroStrobeSeal takeStrobedWrite; (repeat' split) <;> simp
@[simp] theorem takeWrite_staged (a : Addr) (m : Lanes) (d : Word) (s : State) : (takeWrite a m d s).staged = s.staged := by
  unfold takeWrite zeroStrobeSeal takeStrobedWrite; (repeat' split) <;> simp
@[simp] theorem takeWrite_timing (a : Addr) (m : Lanes) (d : Word) (s : State) : (takeWrite a m d s).timing = s.timing := by
  unfold takeWrite zeroStrobeSeal takeStrobedWrite; (repeat' split) <;> simp
@[simp] theorem takeWrite_tracker (a : Addr) (m : Lanes) (d : Word) (s : State) : (takeWrite a m d s).tracker = s.tracker := by
  unfold takeWrite zeroStrobeSeal takeStrobedWrite; (repeat' split) <;> simp
@[simp] theorem takeWrite_mode (a : Addr) (m : Lanes) (d : Word) (s : State) : (takeWrite a m d s).mode = s.mode := by
  unfold takeWrite zeroStrobeSeal takeStrobedWrite; (repeat' split) <;> simp
@[simp] theorem takeWrite_applyPending (a : Addr) (m : Lanes) (d : Word) (s : State) : (takeWrite a m d s).applyPending = s.applyPending := by
  unfold takeWrite zeroStrobeSeal takeStrobedWrite; (repeat' split) <;> simp
@[simp] theorem takeWrite_link (a : Addr) (m : Lanes) (d : Word) (s : State) : (takeWrite a m d s).link = s.link := by
  unfold takeWrite zeroStrobeSeal takeStrobedWrite; (repeat' split) <;> simp
@[simp] theorem takeWrite_resetAsserted (a : Addr) (m : Lanes) (d : Word) (s : State) : (takeWrite a m d s).resetAsserted = s.resetAsserted := by
  unfold takeWrite zeroStrobeSeal takeStrobedWrite; (repeat' split) <;> simp
@[simp] theorem takeWrite_memory (a : Addr) (m : Lanes) (d : Word) (s : State) : (takeWrite a m d s).memory = s.memory := by
  unfold takeWrite zeroStrobeSeal takeStrobedWrite; (repeat' split) <;> simp
@[simp] theorem takeWrite_freeIndex (a : Addr) (m : Lanes) (d : Word) (s : State) : (takeWrite a m d s).freeIndex = s.freeIndex := by
  unfold takeWrite zeroStrobeSeal takeStrobedWrite; (repeat' split) <;> simp
@[simp] theorem takeWrite_pending (a : Addr) (m : Lanes) (d : Word) (s : State) : (takeWrite a m d s).pending = s.pending := by
  unfold takeWrite zeroStrobeSeal takeStrobedWrite; (repeat' split) <;> simp

/-! ## takeRead -/

@[simp] theorem takeRead_live (a : Addr) (m : Lanes) (s : State) : (takeRead a m s).live = s.live := by
  unfold takeRead; (repeat' split) <;> simp
@[simp] theorem takeRead_staged (a : Addr) (m : Lanes) (s : State) : (takeRead a m s).staged = s.staged := by
  unfold takeRead; (repeat' split) <;> simp
@[simp] theorem takeRead_windows (a : Addr) (m : Lanes) (s : State) : (takeRead a m s).windows = s.windows := by
  unfold takeRead; (repeat' split) <;> simp
@[simp] theorem takeRead_records (a : Addr) (m : Lanes) (s : State) : (takeRead a m s).records = s.records := by
  unfold takeRead; (repeat' split) <;> simp
@[simp] theorem takeRead_sealOrdinal (a : Addr) (m : Lanes) (s : State) : (takeRead a m s).sealOrdinal = s.sealOrdinal := by
  unfold takeRead; (repeat' split) <;> simp
@[simp] theorem takeRead_timing (a : Addr) (m : Lanes) (s : State) : (takeRead a m s).timing = s.timing := by
  unfold takeRead; (repeat' split) <;> simp
@[simp] theorem takeRead_tracker (a : Addr) (m : Lanes) (s : State) : (takeRead a m s).tracker = s.tracker := by
  unfold takeRead; (repeat' split) <;> simp
@[simp] theorem takeRead_mode (a : Addr) (m : Lanes) (s : State) : (takeRead a m s).mode = s.mode := by
  unfold takeRead; (repeat' split) <;> simp
@[simp] theorem takeRead_applyPending (a : Addr) (m : Lanes) (s : State) : (takeRead a m s).applyPending = s.applyPending := by
  unfold takeRead; (repeat' split) <;> simp
@[simp] theorem takeRead_incidents (a : Addr) (m : Lanes) (s : State) : (takeRead a m s).incidents = s.incidents := by
  unfold takeRead; (repeat' split) <;> simp
@[simp] theorem takeRead_link (a : Addr) (m : Lanes) (s : State) : (takeRead a m s).link = s.link := by
  unfold takeRead; (repeat' split) <;> simp
@[simp] theorem takeRead_resetAsserted (a : Addr) (m : Lanes) (s : State) : (takeRead a m s).resetAsserted = s.resetAsserted := by
  unfold takeRead; (repeat' split) <;> simp
@[simp] theorem takeRead_memory (a : Addr) (m : Lanes) (s : State) : (takeRead a m s).memory = s.memory := by
  unfold takeRead; (repeat' split) <;> simp
@[simp] theorem takeRead_freeIndex (a : Addr) (m : Lanes) (s : State) : (takeRead a m s).freeIndex = s.freeIndex := by
  unfold takeRead; (repeat' split) <;> simp
@[simp] theorem takeRead_pending (a : Addr) (m : Lanes) (s : State) : (takeRead a m s).pending = s.pending := by
  unfold takeRead; (repeat' split) <;> simp

/-! ## answerStatus -/

@[simp] theorem answerStatus_upstream (c : StatusCode) (s : State) : (answerStatus c s).upstream = s.upstream := by
  unfold answerStatus; (repeat' split) <;> simp
@[simp] theorem answerStatus_live (c : StatusCode) (s : State) : (answerStatus c s).live = s.live := by
  unfold answerStatus; (repeat' split) <;> simp
@[simp] theorem answerStatus_staged (c : StatusCode) (s : State) : (answerStatus c s).staged = s.staged := by
  unfold answerStatus; (repeat' split) <;> simp
@[simp] theorem answerStatus_windows (c : StatusCode) (s : State) : (answerStatus c s).windows = s.windows := by
  unfold answerStatus; (repeat' split) <;> simp
@[simp] theorem answerStatus_records (c : StatusCode) (s : State) : (answerStatus c s).records = s.records := by
  unfold answerStatus; (repeat' split) <;> simp
@[simp] theorem answerStatus_sealOrdinal (c : StatusCode) (s : State) : (answerStatus c s).sealOrdinal = s.sealOrdinal := by
  unfold answerStatus; (repeat' split) <;> simp
@[simp] theorem answerStatus_timing (c : StatusCode) (s : State) : (answerStatus c s).timing = s.timing := by
  unfold answerStatus; (repeat' split) <;> simp
@[simp] theorem answerStatus_tracker (c : StatusCode) (s : State) : (answerStatus c s).tracker = s.tracker := by
  unfold answerStatus; (repeat' split) <;> simp
@[simp] theorem answerStatus_engine (c : StatusCode) (s : State) : (answerStatus c s).engine = s.engine := by
  unfold answerStatus; (repeat' split) <;> simp
@[simp] theorem answerStatus_port (c : StatusCode) (s : State) : (answerStatus c s).port = s.port := by
  unfold answerStatus; (repeat' split) <;> simp
@[simp] theorem answerStatus_mode (c : StatusCode) (s : State) : (answerStatus c s).mode = s.mode := by
  unfold answerStatus; (repeat' split) <;> simp
@[simp] theorem answerStatus_applyPending (c : StatusCode) (s : State) : (answerStatus c s).applyPending = s.applyPending := by
  unfold answerStatus; (repeat' split) <;> simp
@[simp] theorem answerStatus_incidents (c : StatusCode) (s : State) : (answerStatus c s).incidents = s.incidents := by
  unfold answerStatus; (repeat' split) <;> simp
@[simp] theorem answerStatus_resetAsserted (c : StatusCode) (s : State) : (answerStatus c s).resetAsserted = s.resetAsserted := by
  unfold answerStatus; (repeat' split) <;> simp
@[simp] theorem answerStatus_memory (c : StatusCode) (s : State) : (answerStatus c s).memory = s.memory := by
  unfold answerStatus; (repeat' split) <;> simp
@[simp] theorem answerStatus_freeIndex (c : StatusCode) (s : State) : (answerStatus c s).freeIndex = s.freeIndex := by
  unfold answerStatus; (repeat' split) <;> simp
@[simp] theorem answerStatus_pending (c : StatusCode) (s : State) : (answerStatus c s).pending = s.pending := by
  unfold answerStatus; (repeat' split) <;> simp

/-! ## keepResponse -/

@[simp] theorem keepResponse_upstream (s : State) : (keepResponse s).upstream = s.upstream := by
  unfold keepResponse; (repeat' split) <;> simp
@[simp] theorem keepResponse_live (s : State) : (keepResponse s).live = s.live := by
  unfold keepResponse; (repeat' split) <;> simp
@[simp] theorem keepResponse_staged (s : State) : (keepResponse s).staged = s.staged := by
  unfold keepResponse; (repeat' split) <;> simp
@[simp] theorem keepResponse_windows (s : State) : (keepResponse s).windows = s.windows := by
  unfold keepResponse; (repeat' split) <;> simp
@[simp] theorem keepResponse_records (s : State) : (keepResponse s).records = s.records := by
  unfold keepResponse; (repeat' split) <;> simp
@[simp] theorem keepResponse_sealOrdinal (s : State) : (keepResponse s).sealOrdinal = s.sealOrdinal := by
  unfold keepResponse; (repeat' split) <;> simp
@[simp] theorem keepResponse_timing (s : State) : (keepResponse s).timing = s.timing := by
  unfold keepResponse; (repeat' split) <;> simp
@[simp] theorem keepResponse_tracker (s : State) : (keepResponse s).tracker = s.tracker := by
  unfold keepResponse; (repeat' split) <;> simp
@[simp] theorem keepResponse_engine (s : State) : (keepResponse s).engine = s.engine := by
  unfold keepResponse; (repeat' split) <;> simp
@[simp] theorem keepResponse_port (s : State) : (keepResponse s).port = s.port := by
  unfold keepResponse; (repeat' split) <;> simp
@[simp] theorem keepResponse_mode (s : State) : (keepResponse s).mode = s.mode := by
  unfold keepResponse; (repeat' split) <;> simp
@[simp] theorem keepResponse_applyPending (s : State) : (keepResponse s).applyPending = s.applyPending := by
  unfold keepResponse; (repeat' split) <;> simp
@[simp] theorem keepResponse_incidents (s : State) : (keepResponse s).incidents = s.incidents := by
  unfold keepResponse; (repeat' split) <;> simp
@[simp] theorem keepResponse_resetAsserted (s : State) : (keepResponse s).resetAsserted = s.resetAsserted := by
  unfold keepResponse; (repeat' split) <;> simp
@[simp] theorem keepResponse_memory (s : State) : (keepResponse s).memory = s.memory := by
  unfold keepResponse; (repeat' split) <;> simp
@[simp] theorem keepResponse_freeIndex (s : State) : (keepResponse s).freeIndex = s.freeIndex := by
  unfold keepResponse; (repeat' split) <;> simp
@[simp] theorem keepResponse_pending (s : State) : (keepResponse s).pending = s.pending := by
  unfold keepResponse; (repeat' split) <;> simp

/-! ## clearFlags -/

@[simp] theorem clearFlags_upstream (x : BitVec 16) (s : State) : (clearFlags x s).upstream = s.upstream := by
  unfold clearFlags; (repeat' split) <;> simp
@[simp] theorem clearFlags_live (x : BitVec 16) (s : State) : (clearFlags x s).live = s.live := by
  unfold clearFlags; (repeat' split) <;> simp
@[simp] theorem clearFlags_staged (x : BitVec 16) (s : State) : (clearFlags x s).staged = s.staged := by
  unfold clearFlags; (repeat' split) <;> simp
@[simp] theorem clearFlags_windows (x : BitVec 16) (s : State) : (clearFlags x s).windows = s.windows := by
  unfold clearFlags; (repeat' split) <;> simp
@[simp] theorem clearFlags_records (x : BitVec 16) (s : State) : (clearFlags x s).records = s.records := by
  unfold clearFlags; (repeat' split) <;> simp
@[simp] theorem clearFlags_sealOrdinal (x : BitVec 16) (s : State) : (clearFlags x s).sealOrdinal = s.sealOrdinal := by
  unfold clearFlags; (repeat' split) <;> simp
@[simp] theorem clearFlags_timing (x : BitVec 16) (s : State) : (clearFlags x s).timing = s.timing := by
  unfold clearFlags; (repeat' split) <;> simp
@[simp] theorem clearFlags_tracker (x : BitVec 16) (s : State) : (clearFlags x s).tracker = s.tracker := by
  unfold clearFlags; (repeat' split) <;> simp
@[simp] theorem clearFlags_engine (x : BitVec 16) (s : State) : (clearFlags x s).engine = s.engine := by
  unfold clearFlags; (repeat' split) <;> simp
@[simp] theorem clearFlags_port (x : BitVec 16) (s : State) : (clearFlags x s).port = s.port := by
  unfold clearFlags; (repeat' split) <;> simp
@[simp] theorem clearFlags_mode (x : BitVec 16) (s : State) : (clearFlags x s).mode = s.mode := by
  unfold clearFlags; (repeat' split) <;> simp
@[simp] theorem clearFlags_applyPending (x : BitVec 16) (s : State) : (clearFlags x s).applyPending = s.applyPending := by
  unfold clearFlags; (repeat' split) <;> simp
@[simp] theorem clearFlags_resetAsserted (x : BitVec 16) (s : State) : (clearFlags x s).resetAsserted = s.resetAsserted := by
  unfold clearFlags; (repeat' split) <;> simp
@[simp] theorem clearFlags_memory (x : BitVec 16) (s : State) : (clearFlags x s).memory = s.memory := by
  unfold clearFlags; (repeat' split) <;> simp
@[simp] theorem clearFlags_freeIndex (x : BitVec 16) (s : State) : (clearFlags x s).freeIndex = s.freeIndex := by
  unfold clearFlags; (repeat' split) <;> simp
@[simp] theorem clearFlags_pending (x : BitVec 16) (s : State) : (clearFlags x s).pending = s.pending := by
  unfold clearFlags; (repeat' split) <;> simp

/-! ## setMask -/

@[simp] theorem setMask_upstream (x : BitVec 16) (s : State) : (setMask x s).upstream = s.upstream := by
  unfold setMask; (repeat' split) <;> simp
@[simp] theorem setMask_live (x : BitVec 16) (s : State) : (setMask x s).live = s.live := by
  unfold setMask; (repeat' split) <;> simp
@[simp] theorem setMask_staged (x : BitVec 16) (s : State) : (setMask x s).staged = s.staged := by
  unfold setMask; (repeat' split) <;> simp
@[simp] theorem setMask_windows (x : BitVec 16) (s : State) : (setMask x s).windows = s.windows := by
  unfold setMask; (repeat' split) <;> simp
@[simp] theorem setMask_records (x : BitVec 16) (s : State) : (setMask x s).records = s.records := by
  unfold setMask; (repeat' split) <;> simp
@[simp] theorem setMask_sealOrdinal (x : BitVec 16) (s : State) : (setMask x s).sealOrdinal = s.sealOrdinal := by
  unfold setMask; (repeat' split) <;> simp
@[simp] theorem setMask_timing (x : BitVec 16) (s : State) : (setMask x s).timing = s.timing := by
  unfold setMask; (repeat' split) <;> simp
@[simp] theorem setMask_tracker (x : BitVec 16) (s : State) : (setMask x s).tracker = s.tracker := by
  unfold setMask; (repeat' split) <;> simp
@[simp] theorem setMask_engine (x : BitVec 16) (s : State) : (setMask x s).engine = s.engine := by
  unfold setMask; (repeat' split) <;> simp
@[simp] theorem setMask_port (x : BitVec 16) (s : State) : (setMask x s).port = s.port := by
  unfold setMask; (repeat' split) <;> simp
@[simp] theorem setMask_mode (x : BitVec 16) (s : State) : (setMask x s).mode = s.mode := by
  unfold setMask; (repeat' split) <;> simp
@[simp] theorem setMask_applyPending (x : BitVec 16) (s : State) : (setMask x s).applyPending = s.applyPending := by
  unfold setMask; (repeat' split) <;> simp
@[simp] theorem setMask_resetAsserted (x : BitVec 16) (s : State) : (setMask x s).resetAsserted = s.resetAsserted := by
  unfold setMask; (repeat' split) <;> simp
@[simp] theorem setMask_memory (x : BitVec 16) (s : State) : (setMask x s).memory = s.memory := by
  unfold setMask; (repeat' split) <;> simp
@[simp] theorem setMask_freeIndex (x : BitVec 16) (s : State) : (setMask x s).freeIndex = s.freeIndex := by
  unfold setMask; (repeat' split) <;> simp
@[simp] theorem setMask_pending (x : BitVec 16) (s : State) : (setMask x s).pending = s.pending := by
  unfold setMask; (repeat' split) <;> simp

/-! ## takeIncident -/

@[simp] theorem takeIncident_upstream (s : State) : (takeIncident s).upstream = s.upstream := by
  unfold takeIncident; (repeat' split) <;> simp
@[simp] theorem takeIncident_live (s : State) : (takeIncident s).live = s.live := by
  unfold takeIncident; (repeat' split) <;> simp
@[simp] theorem takeIncident_staged (s : State) : (takeIncident s).staged = s.staged := by
  unfold takeIncident; (repeat' split) <;> simp
@[simp] theorem takeIncident_windows (s : State) : (takeIncident s).windows = s.windows := by
  unfold takeIncident; (repeat' split) <;> simp
@[simp] theorem takeIncident_records (s : State) : (takeIncident s).records = s.records := by
  unfold takeIncident; (repeat' split) <;> simp
@[simp] theorem takeIncident_sealOrdinal (s : State) : (takeIncident s).sealOrdinal = s.sealOrdinal := by
  unfold takeIncident; (repeat' split) <;> simp
@[simp] theorem takeIncident_timing (s : State) : (takeIncident s).timing = s.timing := by
  unfold takeIncident; (repeat' split) <;> simp
@[simp] theorem takeIncident_tracker (s : State) : (takeIncident s).tracker = s.tracker := by
  unfold takeIncident; (repeat' split) <;> simp
@[simp] theorem takeIncident_engine (s : State) : (takeIncident s).engine = s.engine := by
  unfold takeIncident; (repeat' split) <;> simp
@[simp] theorem takeIncident_port (s : State) : (takeIncident s).port = s.port := by
  unfold takeIncident; (repeat' split) <;> simp
@[simp] theorem takeIncident_mode (s : State) : (takeIncident s).mode = s.mode := by
  unfold takeIncident; (repeat' split) <;> simp
@[simp] theorem takeIncident_applyPending (s : State) : (takeIncident s).applyPending = s.applyPending := by
  unfold takeIncident; (repeat' split) <;> simp
@[simp] theorem takeIncident_resetAsserted (s : State) : (takeIncident s).resetAsserted = s.resetAsserted := by
  unfold takeIncident; (repeat' split) <;> simp
@[simp] theorem takeIncident_memory (s : State) : (takeIncident s).memory = s.memory := by
  unfold takeIncident; (repeat' split) <;> simp
@[simp] theorem takeIncident_freeIndex (s : State) : (takeIncident s).freeIndex = s.freeIndex := by
  unfold takeIncident; (repeat' split) <;> simp
@[simp] theorem takeIncident_pending (s : State) : (takeIncident s).pending = s.pending := by
  unfold takeIncident; (repeat' split) <;> simp

/-! ## getWindow -/

@[simp] theorem getWindow_upstream (i j : BitVec 8) (s : State) : (getWindow i j s).upstream = s.upstream := by
  unfold getWindow; (repeat' split) <;> simp
@[simp] theorem getWindow_live (i j : BitVec 8) (s : State) : (getWindow i j s).live = s.live := by
  unfold getWindow; (repeat' split) <;> simp
@[simp] theorem getWindow_staged (i j : BitVec 8) (s : State) : (getWindow i j s).staged = s.staged := by
  unfold getWindow; (repeat' split) <;> simp
@[simp] theorem getWindow_windows (i j : BitVec 8) (s : State) : (getWindow i j s).windows = s.windows := by
  unfold getWindow; (repeat' split) <;> simp
@[simp] theorem getWindow_records (i j : BitVec 8) (s : State) : (getWindow i j s).records = s.records := by
  unfold getWindow; (repeat' split) <;> simp
@[simp] theorem getWindow_sealOrdinal (i j : BitVec 8) (s : State) : (getWindow i j s).sealOrdinal = s.sealOrdinal := by
  unfold getWindow; (repeat' split) <;> simp
@[simp] theorem getWindow_timing (i j : BitVec 8) (s : State) : (getWindow i j s).timing = s.timing := by
  unfold getWindow; (repeat' split) <;> simp
@[simp] theorem getWindow_tracker (i j : BitVec 8) (s : State) : (getWindow i j s).tracker = s.tracker := by
  unfold getWindow; (repeat' split) <;> simp
@[simp] theorem getWindow_engine (i j : BitVec 8) (s : State) : (getWindow i j s).engine = s.engine := by
  unfold getWindow; (repeat' split) <;> simp
@[simp] theorem getWindow_port (i j : BitVec 8) (s : State) : (getWindow i j s).port = s.port := by
  unfold getWindow; (repeat' split) <;> simp
@[simp] theorem getWindow_mode (i j : BitVec 8) (s : State) : (getWindow i j s).mode = s.mode := by
  unfold getWindow; (repeat' split) <;> simp
@[simp] theorem getWindow_applyPending (i j : BitVec 8) (s : State) : (getWindow i j s).applyPending = s.applyPending := by
  unfold getWindow; (repeat' split) <;> simp
@[simp] theorem getWindow_incidents (i j : BitVec 8) (s : State) : (getWindow i j s).incidents = s.incidents := by
  unfold getWindow; (repeat' split) <;> simp
@[simp] theorem getWindow_resetAsserted (i j : BitVec 8) (s : State) : (getWindow i j s).resetAsserted = s.resetAsserted := by
  unfold getWindow; (repeat' split) <;> simp
@[simp] theorem getWindow_memory (i j : BitVec 8) (s : State) : (getWindow i j s).memory = s.memory := by
  unfold getWindow; (repeat' split) <;> simp
@[simp] theorem getWindow_freeIndex (i j : BitVec 8) (s : State) : (getWindow i j s).freeIndex = s.freeIndex := by
  unfold getWindow; (repeat' split) <;> simp
@[simp] theorem getWindow_pending (i j : BitVec 8) (s : State) : (getWindow i j s).pending = s.pending := by
  unfold getWindow; (repeat' split) <;> simp

/-! ## windowStatus -/

@[simp] theorem windowStatus_upstream (i : BitVec 8) (s : State) : (windowStatus i s).upstream = s.upstream := by
  unfold windowStatus; (repeat' split) <;> simp
@[simp] theorem windowStatus_live (i : BitVec 8) (s : State) : (windowStatus i s).live = s.live := by
  unfold windowStatus; (repeat' split) <;> simp
@[simp] theorem windowStatus_staged (i : BitVec 8) (s : State) : (windowStatus i s).staged = s.staged := by
  unfold windowStatus; (repeat' split) <;> simp
@[simp] theorem windowStatus_windows (i : BitVec 8) (s : State) : (windowStatus i s).windows = s.windows := by
  unfold windowStatus; (repeat' split) <;> simp
@[simp] theorem windowStatus_records (i : BitVec 8) (s : State) : (windowStatus i s).records = s.records := by
  unfold windowStatus; (repeat' split) <;> simp
@[simp] theorem windowStatus_sealOrdinal (i : BitVec 8) (s : State) : (windowStatus i s).sealOrdinal = s.sealOrdinal := by
  unfold windowStatus; (repeat' split) <;> simp
@[simp] theorem windowStatus_timing (i : BitVec 8) (s : State) : (windowStatus i s).timing = s.timing := by
  unfold windowStatus; (repeat' split) <;> simp
@[simp] theorem windowStatus_tracker (i : BitVec 8) (s : State) : (windowStatus i s).tracker = s.tracker := by
  unfold windowStatus; (repeat' split) <;> simp
@[simp] theorem windowStatus_engine (i : BitVec 8) (s : State) : (windowStatus i s).engine = s.engine := by
  unfold windowStatus; (repeat' split) <;> simp
@[simp] theorem windowStatus_port (i : BitVec 8) (s : State) : (windowStatus i s).port = s.port := by
  unfold windowStatus; (repeat' split) <;> simp
@[simp] theorem windowStatus_mode (i : BitVec 8) (s : State) : (windowStatus i s).mode = s.mode := by
  unfold windowStatus; (repeat' split) <;> simp
@[simp] theorem windowStatus_applyPending (i : BitVec 8) (s : State) : (windowStatus i s).applyPending = s.applyPending := by
  unfold windowStatus; (repeat' split) <;> simp
@[simp] theorem windowStatus_incidents (i : BitVec 8) (s : State) : (windowStatus i s).incidents = s.incidents := by
  unfold windowStatus; (repeat' split) <;> simp
@[simp] theorem windowStatus_resetAsserted (i : BitVec 8) (s : State) : (windowStatus i s).resetAsserted = s.resetAsserted := by
  unfold windowStatus; (repeat' split) <;> simp
@[simp] theorem windowStatus_memory (i : BitVec 8) (s : State) : (windowStatus i s).memory = s.memory := by
  unfold windowStatus; (repeat' split) <;> simp
@[simp] theorem windowStatus_freeIndex (i : BitVec 8) (s : State) : (windowStatus i s).freeIndex = s.freeIndex := by
  unfold windowStatus; (repeat' split) <;> simp
@[simp] theorem windowStatus_pending (i : BitVec 8) (s : State) : (windowStatus i s).pending = s.pending := by
  unfold windowStatus; (repeat' split) <;> simp

/-! ## setTiming -/

@[simp] theorem setTiming_staged (v : TimingFields) (s : State) : (setTiming v s).staged = s.staged := by
  unfold setTiming acceptTiming; (repeat' split) <;> simp
@[simp] theorem setTiming_mode (v : TimingFields) (s : State) : (setTiming v s).mode = s.mode := by
  unfold setTiming acceptTiming; (repeat' split) <;> simp
@[simp] theorem setTiming_resetAsserted (v : TimingFields) (s : State) : (setTiming v s).resetAsserted = s.resetAsserted := by
  unfold setTiming acceptTiming; (repeat' split) <;> simp
@[simp] theorem setTiming_memory (v : TimingFields) (s : State) : (setTiming v s).memory = s.memory := by
  unfold setTiming acceptTiming; (repeat' split) <;> simp
@[simp] theorem setTiming_freeIndex (v : TimingFields) (s : State) : (setTiming v s).freeIndex = s.freeIndex := by
  unfold setTiming acceptTiming; (repeat' split) <;> simp
@[simp] theorem setTiming_pending (v : TimingFields) (s : State) : (setTiming v s).pending = s.pending := by
  unfold setTiming acceptTiming; (repeat' split) <;> simp

/-! ## stageWindow -/

@[simp] theorem stageWindow_upstream (i : BitVec 8) (f : RecordFields) (s : State) : (stageWindow i f s).upstream = s.upstream := by
  unfold stageWindow stageRecord; (repeat' split) <;> simp
@[simp] theorem stageWindow_live (i : BitVec 8) (f : RecordFields) (s : State) : (stageWindow i f s).live = s.live := by
  unfold stageWindow stageRecord; (repeat' split) <;> simp
@[simp] theorem stageWindow_windows (i : BitVec 8) (f : RecordFields) (s : State) : (stageWindow i f s).windows = s.windows := by
  unfold stageWindow stageRecord; (repeat' split) <;> simp
@[simp] theorem stageWindow_records (i : BitVec 8) (f : RecordFields) (s : State) : (stageWindow i f s).records = s.records := by
  unfold stageWindow stageRecord; (repeat' split) <;> simp
@[simp] theorem stageWindow_sealOrdinal (i : BitVec 8) (f : RecordFields) (s : State) : (stageWindow i f s).sealOrdinal = s.sealOrdinal := by
  unfold stageWindow stageRecord; (repeat' split) <;> simp
@[simp] theorem stageWindow_timing (i : BitVec 8) (f : RecordFields) (s : State) : (stageWindow i f s).timing = s.timing := by
  unfold stageWindow stageRecord; (repeat' split) <;> simp
@[simp] theorem stageWindow_tracker (i : BitVec 8) (f : RecordFields) (s : State) : (stageWindow i f s).tracker = s.tracker := by
  unfold stageWindow stageRecord; (repeat' split) <;> simp
@[simp] theorem stageWindow_engine (i : BitVec 8) (f : RecordFields) (s : State) : (stageWindow i f s).engine = s.engine := by
  unfold stageWindow stageRecord; (repeat' split) <;> simp
@[simp] theorem stageWindow_port (i : BitVec 8) (f : RecordFields) (s : State) : (stageWindow i f s).port = s.port := by
  unfold stageWindow stageRecord; (repeat' split) <;> simp
@[simp] theorem stageWindow_mode (i : BitVec 8) (f : RecordFields) (s : State) : (stageWindow i f s).mode = s.mode := by
  unfold stageWindow stageRecord; (repeat' split) <;> simp
@[simp] theorem stageWindow_applyPending (i : BitVec 8) (f : RecordFields) (s : State) : (stageWindow i f s).applyPending = s.applyPending := by
  unfold stageWindow stageRecord; (repeat' split) <;> simp
@[simp] theorem stageWindow_incidents (i : BitVec 8) (f : RecordFields) (s : State) : (stageWindow i f s).incidents = s.incidents := by
  unfold stageWindow stageRecord; (repeat' split) <;> simp
@[simp] theorem stageWindow_resetAsserted (i : BitVec 8) (f : RecordFields) (s : State) : (stageWindow i f s).resetAsserted = s.resetAsserted := by
  unfold stageWindow stageRecord; (repeat' split) <;> simp
@[simp] theorem stageWindow_memory (i : BitVec 8) (f : RecordFields) (s : State) : (stageWindow i f s).memory = s.memory := by
  unfold stageWindow stageRecord; (repeat' split) <;> simp
@[simp] theorem stageWindow_freeIndex (i : BitVec 8) (f : RecordFields) (s : State) : (stageWindow i f s).freeIndex = s.freeIndex := by
  unfold stageWindow stageRecord; (repeat' split) <;> simp
@[simp] theorem stageWindow_pending (i : BitVec 8) (f : RecordFields) (s : State) : (stageWindow i f s).pending = s.pending := by
  unfold stageWindow stageRecord; (repeat' split) <;> simp

/-! ## applyStaged -/

@[simp] theorem applyStaged_staged (s : State) : (applyStaged s).staged = s.staged := by
  unfold applyStaged; (repeat' split) <;> simp
@[simp] theorem applyStaged_timing (s : State) : (applyStaged s).timing = s.timing := by
  unfold applyStaged; (repeat' split) <;> simp
@[simp] theorem applyStaged_tracker (s : State) : (applyStaged s).tracker = s.tracker := by
  unfold applyStaged; (repeat' split) <;> simp
@[simp] theorem applyStaged_mode (s : State) : (applyStaged s).mode = s.mode := by
  unfold applyStaged; (repeat' split) <;> simp
@[simp] theorem applyStaged_resetAsserted (s : State) : (applyStaged s).resetAsserted = s.resetAsserted := by
  unfold applyStaged; (repeat' split) <;> simp
@[simp] theorem applyStaged_memory (s : State) : (applyStaged s).memory = s.memory := by
  unfold applyStaged; (repeat' split) <;> simp
@[simp] theorem applyStaged_freeIndex (s : State) : (applyStaged s).freeIndex = s.freeIndex := by
  unfold applyStaged; (repeat' split) <;> simp
@[simp] theorem applyStaged_pending (s : State) : (applyStaged s).pending = s.pending := by
  unfold applyStaged; (repeat' split) <;> simp

/-! ## enable -/

@[simp] theorem enable_live (s : State) : (enable s).live = s.live := by
  unfold enable; (repeat' split) <;> simp
@[simp] theorem enable_staged (s : State) : (enable s).staged = s.staged := by
  unfold enable; (repeat' split) <;> simp
@[simp] theorem enable_timing (s : State) : (enable s).timing = s.timing := by
  unfold enable; (repeat' split) <;> simp
@[simp] theorem enable_tracker (s : State) : (enable s).tracker = s.tracker := by
  unfold enable; (repeat' split) <;> simp
@[simp] theorem enable_applyPending (s : State) : (enable s).applyPending = s.applyPending := by
  unfold enable; (repeat' split) <;> simp
@[simp] theorem enable_resetAsserted (s : State) : (enable s).resetAsserted = s.resetAsserted := by
  unfold enable; (repeat' split) <;> simp
@[simp] theorem enable_memory (s : State) : (enable s).memory = s.memory := by
  unfold enable; (repeat' split) <;> simp
@[simp] theorem enable_freeIndex (s : State) : (enable s).freeIndex = s.freeIndex := by
  unfold enable; (repeat' split) <;> simp
@[simp] theorem enable_pending (s : State) : (enable s).pending = s.pending := by
  unfold enable; (repeat' split) <;> simp

/-! ## disableDrain -/

@[simp] theorem disableDrain_staged (s : State) : (disableDrain s).staged = s.staged := by
  unfold disableDrain; (repeat' split) <;> simp
@[simp] theorem disableDrain_timing (s : State) : (disableDrain s).timing = s.timing := by
  unfold disableDrain; (repeat' split) <;> simp
@[simp] theorem disableDrain_tracker (s : State) : (disableDrain s).tracker = s.tracker := by
  unfold disableDrain; (repeat' split) <;> simp
@[simp] theorem disableDrain_resetAsserted (s : State) : (disableDrain s).resetAsserted = s.resetAsserted := by
  unfold disableDrain; (repeat' split) <;> simp
@[simp] theorem disableDrain_memory (s : State) : (disableDrain s).memory = s.memory := by
  unfold disableDrain; (repeat' split) <;> simp
@[simp] theorem disableDrain_freeIndex (s : State) : (disableDrain s).freeIndex = s.freeIndex := by
  unfold disableDrain; (repeat' split) <;> simp
@[simp] theorem disableDrain_pending (s : State) : (disableDrain s).pending = s.pending := by
  unfold disableDrain; (repeat' split) <;> simp

/-! ## disableDiscard -/

@[simp] theorem disableDiscard_staged (s : State) : (disableDiscard s).staged = s.staged := by
  unfold disableDiscard; (repeat' split) <;> simp
@[simp] theorem disableDiscard_timing (s : State) : (disableDiscard s).timing = s.timing := by
  unfold disableDiscard; (repeat' split) <;> simp
@[simp] theorem disableDiscard_tracker (s : State) : (disableDiscard s).tracker = s.tracker := by
  unfold disableDiscard; (repeat' split) <;> simp
@[simp] theorem disableDiscard_resetAsserted (s : State) : (disableDiscard s).resetAsserted = s.resetAsserted := by
  unfold disableDiscard; (repeat' split) <;> simp
@[simp] theorem disableDiscard_memory (s : State) : (disableDiscard s).memory = s.memory := by
  unfold disableDiscard; (repeat' split) <;> simp
@[simp] theorem disableDiscard_freeIndex (s : State) : (disableDiscard s).freeIndex = s.freeIndex := by
  unfold disableDiscard; (repeat' split) <;> simp
@[simp] theorem disableDiscard_pending (s : State) : (disableDiscard s).pending = s.pending := by
  unfold disableDiscard; (repeat' split) <;> simp

/-! ## execUpstreamWrite -/

theorem execUpstreamWrite_live {s t : State} (a : Addr) (m : Lanes) (d : Word) (h : execUpstreamWrite a m d s = .next t) : t.live = s.live := by
  injection h with h; subst h; (try unfold onRequest); (repeat' split) <;> first | rfl | simp
theorem execUpstreamWrite_staged {s t : State} (a : Addr) (m : Lanes) (d : Word) (h : execUpstreamWrite a m d s = .next t) : t.staged = s.staged := by
  injection h with h; subst h; (try unfold onRequest); (repeat' split) <;> first | rfl | simp
theorem execUpstreamWrite_timing {s t : State} (a : Addr) (m : Lanes) (d : Word) (h : execUpstreamWrite a m d s = .next t) : t.timing = s.timing := by
  injection h with h; subst h; (try unfold onRequest); (repeat' split) <;> first | rfl | simp
theorem execUpstreamWrite_tracker {s t : State} (a : Addr) (m : Lanes) (d : Word) (h : execUpstreamWrite a m d s = .next t) : t.tracker = s.tracker := by
  injection h with h; subst h; (try unfold onRequest); (repeat' split) <;> first | rfl | simp
theorem execUpstreamWrite_mode {s t : State} (a : Addr) (m : Lanes) (d : Word) (h : execUpstreamWrite a m d s = .next t) : t.mode = s.mode := by
  injection h with h; subst h; (try unfold onRequest); (repeat' split) <;> first | rfl | simp
theorem execUpstreamWrite_applyPending {s t : State} (a : Addr) (m : Lanes) (d : Word) (h : execUpstreamWrite a m d s = .next t) : t.applyPending = s.applyPending := by
  injection h with h; subst h; (try unfold onRequest); (repeat' split) <;> first | rfl | simp
theorem execUpstreamWrite_link {s t : State} (a : Addr) (m : Lanes) (d : Word) (h : execUpstreamWrite a m d s = .next t) : t.link = s.link := by
  injection h with h; subst h; (try unfold onRequest); (repeat' split) <;> first | rfl | simp
theorem execUpstreamWrite_resetAsserted {s t : State} (a : Addr) (m : Lanes) (d : Word) (h : execUpstreamWrite a m d s = .next t) : t.resetAsserted = s.resetAsserted := by
  injection h with h; subst h; (try unfold onRequest); (repeat' split) <;> first | rfl | simp
theorem execUpstreamWrite_memory {s t : State} (a : Addr) (m : Lanes) (d : Word) (h : execUpstreamWrite a m d s = .next t) : t.memory = s.memory := by
  injection h with h; subst h; (try unfold onRequest); (repeat' split) <;> first | rfl | simp
theorem execUpstreamWrite_freeIndex {s t : State} (a : Addr) (m : Lanes) (d : Word) (h : execUpstreamWrite a m d s = .next t) : t.freeIndex = s.freeIndex := by
  injection h with h; subst h; (try unfold onRequest); (repeat' split) <;> first | rfl | simp
theorem execUpstreamWrite_pending {s t : State} (a : Addr) (m : Lanes) (d : Word) (h : execUpstreamWrite a m d s = .next t) : t.pending = s.pending := by
  injection h with h; subst h; (try unfold onRequest); (repeat' split) <;> first | rfl | simp

/-! ## execUpstreamRead -/

theorem execUpstreamRead_live {s t : State} (a : Addr) (m : Lanes) (h : execUpstreamRead a m s = .next t) : t.live = s.live := by
  injection h with h; subst h; (try unfold onRequest); (repeat' split) <;> first | rfl | simp
theorem execUpstreamRead_staged {s t : State} (a : Addr) (m : Lanes) (h : execUpstreamRead a m s = .next t) : t.staged = s.staged := by
  injection h with h; subst h; (try unfold onRequest); (repeat' split) <;> first | rfl | simp
theorem execUpstreamRead_windows {s t : State} (a : Addr) (m : Lanes) (h : execUpstreamRead a m s = .next t) : t.windows = s.windows := by
  injection h with h; subst h; (try unfold onRequest); (repeat' split) <;> first | rfl | simp
theorem execUpstreamRead_records {s t : State} (a : Addr) (m : Lanes) (h : execUpstreamRead a m s = .next t) : t.records = s.records := by
  injection h with h; subst h; (try unfold onRequest); (repeat' split) <;> first | rfl | simp
theorem execUpstreamRead_sealOrdinal {s t : State} (a : Addr) (m : Lanes) (h : execUpstreamRead a m s = .next t) : t.sealOrdinal = s.sealOrdinal := by
  injection h with h; subst h; (try unfold onRequest); (repeat' split) <;> first | rfl | simp
theorem execUpstreamRead_timing {s t : State} (a : Addr) (m : Lanes) (h : execUpstreamRead a m s = .next t) : t.timing = s.timing := by
  injection h with h; subst h; (try unfold onRequest); (repeat' split) <;> first | rfl | simp
theorem execUpstreamRead_tracker {s t : State} (a : Addr) (m : Lanes) (h : execUpstreamRead a m s = .next t) : t.tracker = s.tracker := by
  injection h with h; subst h; (try unfold onRequest); (repeat' split) <;> first | rfl | simp
theorem execUpstreamRead_mode {s t : State} (a : Addr) (m : Lanes) (h : execUpstreamRead a m s = .next t) : t.mode = s.mode := by
  injection h with h; subst h; (try unfold onRequest); (repeat' split) <;> first | rfl | simp
theorem execUpstreamRead_applyPending {s t : State} (a : Addr) (m : Lanes) (h : execUpstreamRead a m s = .next t) : t.applyPending = s.applyPending := by
  injection h with h; subst h; (try unfold onRequest); (repeat' split) <;> first | rfl | simp
theorem execUpstreamRead_incidents {s t : State} (a : Addr) (m : Lanes) (h : execUpstreamRead a m s = .next t) : t.incidents = s.incidents := by
  injection h with h; subst h; (try unfold onRequest); (repeat' split) <;> first | rfl | simp
theorem execUpstreamRead_link {s t : State} (a : Addr) (m : Lanes) (h : execUpstreamRead a m s = .next t) : t.link = s.link := by
  injection h with h; subst h; (try unfold onRequest); (repeat' split) <;> first | rfl | simp
theorem execUpstreamRead_resetAsserted {s t : State} (a : Addr) (m : Lanes) (h : execUpstreamRead a m s = .next t) : t.resetAsserted = s.resetAsserted := by
  injection h with h; subst h; (try unfold onRequest); (repeat' split) <;> first | rfl | simp
theorem execUpstreamRead_memory {s t : State} (a : Addr) (m : Lanes) (h : execUpstreamRead a m s = .next t) : t.memory = s.memory := by
  injection h with h; subst h; (try unfold onRequest); (repeat' split) <;> first | rfl | simp
theorem execUpstreamRead_freeIndex {s t : State} (a : Addr) (m : Lanes) (h : execUpstreamRead a m s = .next t) : t.freeIndex = s.freeIndex := by
  injection h with h; subst h; (try unfold onRequest); (repeat' split) <;> first | rfl | simp
theorem execUpstreamRead_pending {s t : State} (a : Addr) (m : Lanes) (h : execUpstreamRead a m s = .next t) : t.pending = s.pending := by
  injection h with h; subst h; (try unfold onRequest); (repeat' split) <;> first | rfl | simp

/-! ## execUreqWithdrawn -/

theorem execUreqWithdrawn_live {s t : State} (h : execUreqWithdrawn s = .next t) : t.live = s.live := by
  injection h with h; subst h; (try unfold onRequest); (repeat' split) <;> first | rfl | simp
theorem execUreqWithdrawn_staged {s t : State} (h : execUreqWithdrawn s = .next t) : t.staged = s.staged := by
  injection h with h; subst h; (try unfold onRequest); (repeat' split) <;> first | rfl | simp
theorem execUreqWithdrawn_windows {s t : State} (h : execUreqWithdrawn s = .next t) : t.windows = s.windows := by
  injection h with h; subst h; (try unfold onRequest); (repeat' split) <;> first | rfl | simp
theorem execUreqWithdrawn_records {s t : State} (h : execUreqWithdrawn s = .next t) : t.records = s.records := by
  injection h with h; subst h; (try unfold onRequest); (repeat' split) <;> first | rfl | simp
theorem execUreqWithdrawn_sealOrdinal {s t : State} (h : execUreqWithdrawn s = .next t) : t.sealOrdinal = s.sealOrdinal := by
  injection h with h; subst h; (try unfold onRequest); (repeat' split) <;> first | rfl | simp
theorem execUreqWithdrawn_timing {s t : State} (h : execUreqWithdrawn s = .next t) : t.timing = s.timing := by
  injection h with h; subst h; (try unfold onRequest); (repeat' split) <;> first | rfl | simp
theorem execUreqWithdrawn_tracker {s t : State} (h : execUreqWithdrawn s = .next t) : t.tracker = s.tracker := by
  injection h with h; subst h; (try unfold onRequest); (repeat' split) <;> first | rfl | simp
theorem execUreqWithdrawn_engine {s t : State} (h : execUreqWithdrawn s = .next t) : t.engine = s.engine := by
  injection h with h; subst h; (try unfold onRequest); (repeat' split) <;> first | rfl | simp
theorem execUreqWithdrawn_port {s t : State} (h : execUreqWithdrawn s = .next t) : t.port = s.port := by
  injection h with h; subst h; (try unfold onRequest); (repeat' split) <;> first | rfl | simp
theorem execUreqWithdrawn_mode {s t : State} (h : execUreqWithdrawn s = .next t) : t.mode = s.mode := by
  injection h with h; subst h; (try unfold onRequest); (repeat' split) <;> first | rfl | simp
theorem execUreqWithdrawn_applyPending {s t : State} (h : execUreqWithdrawn s = .next t) : t.applyPending = s.applyPending := by
  injection h with h; subst h; (try unfold onRequest); (repeat' split) <;> first | rfl | simp
theorem execUreqWithdrawn_incidents {s t : State} (h : execUreqWithdrawn s = .next t) : t.incidents = s.incidents := by
  injection h with h; subst h; (try unfold onRequest); (repeat' split) <;> first | rfl | simp
theorem execUreqWithdrawn_link {s t : State} (h : execUreqWithdrawn s = .next t) : t.link = s.link := by
  injection h with h; subst h; (try unfold onRequest); (repeat' split) <;> first | rfl | simp
theorem execUreqWithdrawn_resetAsserted {s t : State} (h : execUreqWithdrawn s = .next t) : t.resetAsserted = s.resetAsserted := by
  injection h with h; subst h; (try unfold onRequest); (repeat' split) <;> first | rfl | simp
theorem execUreqWithdrawn_memory {s t : State} (h : execUreqWithdrawn s = .next t) : t.memory = s.memory := by
  injection h with h; subst h; (try unfold onRequest); (repeat' split) <;> first | rfl | simp
theorem execUreqWithdrawn_freeIndex {s t : State} (h : execUreqWithdrawn s = .next t) : t.freeIndex = s.freeIndex := by
  injection h with h; subst h; (try unfold onRequest); (repeat' split) <;> first | rfl | simp
theorem execUreqWithdrawn_pending {s t : State} (h : execUreqWithdrawn s = .next t) : t.pending = s.pending := by
  injection h with h; subst h; (try unfold onRequest); (repeat' split) <;> first | rfl | simp

/-! ## execDirectWriteComplete -/

theorem execDirectWriteComplete_live {s t : State} (h : execDirectWriteComplete s = .next t) : t.live = s.live := by
  unfold execDirectWriteComplete at h; split at h <;> (injection h with h; subst h; first | rfl | simp)
theorem execDirectWriteComplete_staged {s t : State} (h : execDirectWriteComplete s = .next t) : t.staged = s.staged := by
  unfold execDirectWriteComplete at h; split at h <;> (injection h with h; subst h; first | rfl | simp)
theorem execDirectWriteComplete_windows {s t : State} (h : execDirectWriteComplete s = .next t) : t.windows = s.windows := by
  unfold execDirectWriteComplete at h; split at h <;> (injection h with h; subst h; first | rfl | simp)
theorem execDirectWriteComplete_records {s t : State} (h : execDirectWriteComplete s = .next t) : t.records = s.records := by
  unfold execDirectWriteComplete at h; split at h <;> (injection h with h; subst h; first | rfl | simp)
theorem execDirectWriteComplete_sealOrdinal {s t : State} (h : execDirectWriteComplete s = .next t) : t.sealOrdinal = s.sealOrdinal := by
  unfold execDirectWriteComplete at h; split at h <;> (injection h with h; subst h; first | rfl | simp)
theorem execDirectWriteComplete_timing {s t : State} (h : execDirectWriteComplete s = .next t) : t.timing = s.timing := by
  unfold execDirectWriteComplete at h; split at h <;> (injection h with h; subst h; first | rfl | simp)
theorem execDirectWriteComplete_tracker {s t : State} (h : execDirectWriteComplete s = .next t) : t.tracker = s.tracker := by
  unfold execDirectWriteComplete at h; split at h <;> (injection h with h; subst h; first | rfl | simp)
theorem execDirectWriteComplete_engine {s t : State} (h : execDirectWriteComplete s = .next t) : t.engine = s.engine := by
  unfold execDirectWriteComplete at h; split at h <;> (injection h with h; subst h; first | rfl | simp)
theorem execDirectWriteComplete_mode {s t : State} (h : execDirectWriteComplete s = .next t) : t.mode = s.mode := by
  unfold execDirectWriteComplete at h; split at h <;> (injection h with h; subst h; first | rfl | simp)
theorem execDirectWriteComplete_applyPending {s t : State} (h : execDirectWriteComplete s = .next t) : t.applyPending = s.applyPending := by
  unfold execDirectWriteComplete at h; split at h <;> (injection h with h; subst h; first | rfl | simp)
theorem execDirectWriteComplete_incidents {s t : State} (h : execDirectWriteComplete s = .next t) : t.incidents = s.incidents := by
  unfold execDirectWriteComplete at h; split at h <;> (injection h with h; subst h; first | rfl | simp)
theorem execDirectWriteComplete_link {s t : State} (h : execDirectWriteComplete s = .next t) : t.link = s.link := by
  unfold execDirectWriteComplete at h; split at h <;> (injection h with h; subst h; first | rfl | simp)
theorem execDirectWriteComplete_resetAsserted {s t : State} (h : execDirectWriteComplete s = .next t) : t.resetAsserted = s.resetAsserted := by
  unfold execDirectWriteComplete at h; split at h <;> (injection h with h; subst h; first | rfl | simp)
theorem execDirectWriteComplete_freeIndex {s t : State} (h : execDirectWriteComplete s = .next t) : t.freeIndex = s.freeIndex := by
  unfold execDirectWriteComplete at h; split at h <;> (injection h with h; subst h; first | rfl | simp)
theorem execDirectWriteComplete_pending {s t : State} (h : execDirectWriteComplete s = .next t) : t.pending = s.pending := by
  unfold execDirectWriteComplete at h; split at h <;> (injection h with h; subst h; first | rfl | simp)

/-! ## execMemoryReadComplete -/

theorem execMemoryReadComplete_live {s t : State} (dd : Word) (h : execMemoryReadComplete dd s = .next t) : t.live = s.live := by
  unfold execMemoryReadComplete at h; split at h <;> (injection h with h; subst h; first | rfl | simp)
theorem execMemoryReadComplete_staged {s t : State} (dd : Word) (h : execMemoryReadComplete dd s = .next t) : t.staged = s.staged := by
  unfold execMemoryReadComplete at h; split at h <;> (injection h with h; subst h; first | rfl | simp)
theorem execMemoryReadComplete_windows {s t : State} (dd : Word) (h : execMemoryReadComplete dd s = .next t) : t.windows = s.windows := by
  unfold execMemoryReadComplete at h; split at h <;> (injection h with h; subst h; first | rfl | simp)
theorem execMemoryReadComplete_records {s t : State} (dd : Word) (h : execMemoryReadComplete dd s = .next t) : t.records = s.records := by
  unfold execMemoryReadComplete at h; split at h <;> (injection h with h; subst h; first | rfl | simp)
theorem execMemoryReadComplete_sealOrdinal {s t : State} (dd : Word) (h : execMemoryReadComplete dd s = .next t) : t.sealOrdinal = s.sealOrdinal := by
  unfold execMemoryReadComplete at h; split at h <;> (injection h with h; subst h; first | rfl | simp)
theorem execMemoryReadComplete_timing {s t : State} (dd : Word) (h : execMemoryReadComplete dd s = .next t) : t.timing = s.timing := by
  unfold execMemoryReadComplete at h; split at h <;> (injection h with h; subst h; first | rfl | simp)
theorem execMemoryReadComplete_tracker {s t : State} (dd : Word) (h : execMemoryReadComplete dd s = .next t) : t.tracker = s.tracker := by
  unfold execMemoryReadComplete at h; split at h <;> (injection h with h; subst h; first | rfl | simp)
theorem execMemoryReadComplete_engine {s t : State} (dd : Word) (h : execMemoryReadComplete dd s = .next t) : t.engine = s.engine := by
  unfold execMemoryReadComplete at h; split at h <;> (injection h with h; subst h; first | rfl | simp)
theorem execMemoryReadComplete_mode {s t : State} (dd : Word) (h : execMemoryReadComplete dd s = .next t) : t.mode = s.mode := by
  unfold execMemoryReadComplete at h; split at h <;> (injection h with h; subst h; first | rfl | simp)
theorem execMemoryReadComplete_applyPending {s t : State} (dd : Word) (h : execMemoryReadComplete dd s = .next t) : t.applyPending = s.applyPending := by
  unfold execMemoryReadComplete at h; split at h <;> (injection h with h; subst h; first | rfl | simp)
theorem execMemoryReadComplete_incidents {s t : State} (dd : Word) (h : execMemoryReadComplete dd s = .next t) : t.incidents = s.incidents := by
  unfold execMemoryReadComplete at h; split at h <;> (injection h with h; subst h; first | rfl | simp)
theorem execMemoryReadComplete_link {s t : State} (dd : Word) (h : execMemoryReadComplete dd s = .next t) : t.link = s.link := by
  unfold execMemoryReadComplete at h; split at h <;> (injection h with h; subst h; first | rfl | simp)
theorem execMemoryReadComplete_resetAsserted {s t : State} (dd : Word) (h : execMemoryReadComplete dd s = .next t) : t.resetAsserted = s.resetAsserted := by
  unfold execMemoryReadComplete at h; split at h <;> (injection h with h; subst h; first | rfl | simp)
theorem execMemoryReadComplete_freeIndex {s t : State} (dd : Word) (h : execMemoryReadComplete dd s = .next t) : t.freeIndex = s.freeIndex := by
  unfold execMemoryReadComplete at h; split at h <;> (injection h with h; subst h; first | rfl | simp)
theorem execMemoryReadComplete_pending {s t : State} (dd : Word) (h : execMemoryReadComplete dd s = .next t) : t.pending = s.pending := by
  unfold execMemoryReadComplete at h; split at h <;> (injection h with h; subst h; first | rfl | simp)

/-! ## execEntryWriteComplete -/

theorem execEntryWriteComplete_staged {s t : State} (h : execEntryWriteComplete s = .next t) : t.staged = s.staged := by
  unfold execEntryWriteComplete at h; split at h <;> (injection h with h; subst h; first | rfl | simp)
theorem execEntryWriteComplete_timing {s t : State} (h : execEntryWriteComplete s = .next t) : t.timing = s.timing := by
  unfold execEntryWriteComplete at h; split at h <;> (injection h with h; subst h; first | rfl | simp)
theorem execEntryWriteComplete_tracker {s t : State} (h : execEntryWriteComplete s = .next t) : t.tracker = s.tracker := by
  unfold execEntryWriteComplete at h; split at h <;> (injection h with h; subst h; first | rfl | simp)
theorem execEntryWriteComplete_link {s t : State} (h : execEntryWriteComplete s = .next t) : t.link = s.link := by
  unfold execEntryWriteComplete at h; split at h <;> (injection h with h; subst h; first | rfl | simp)
theorem execEntryWriteComplete_resetAsserted {s t : State} (h : execEntryWriteComplete s = .next t) : t.resetAsserted = s.resetAsserted := by
  unfold execEntryWriteComplete at h; split at h <;> (injection h with h; subst h; first | rfl | simp)
theorem execEntryWriteComplete_freeIndex {s t : State} (h : execEntryWriteComplete s = .next t) : t.freeIndex = s.freeIndex := by
  unfold execEntryWriteComplete at h; split at h <;> (injection h with h; subst h; first | rfl | simp)
theorem execEntryWriteComplete_pending {s t : State} (h : execEntryWriteComplete s = .next t) : t.pending = s.pending := by
  unfold execEntryWriteComplete at h; split at h <;> (injection h with h; subst h; first | rfl | simp)

/-! ## execReceiptWriteComplete -/

theorem execReceiptWriteComplete_staged {s t : State} (h : execReceiptWriteComplete s = .next t) : t.staged = s.staged := by
  unfold execReceiptWriteComplete at h; split at h <;> (injection h with h; subst h; first | rfl | simp)
theorem execReceiptWriteComplete_timing {s t : State} (h : execReceiptWriteComplete s = .next t) : t.timing = s.timing := by
  unfold execReceiptWriteComplete at h; split at h <;> (injection h with h; subst h; first | rfl | simp)
theorem execReceiptWriteComplete_tracker {s t : State} (h : execReceiptWriteComplete s = .next t) : t.tracker = s.tracker := by
  unfold execReceiptWriteComplete at h; split at h <;> (injection h with h; subst h; first | rfl | simp)
theorem execReceiptWriteComplete_link {s t : State} (h : execReceiptWriteComplete s = .next t) : t.link = s.link := by
  unfold execReceiptWriteComplete at h; split at h <;> (injection h with h; subst h; first | rfl | simp)
theorem execReceiptWriteComplete_resetAsserted {s t : State} (h : execReceiptWriteComplete s = .next t) : t.resetAsserted = s.resetAsserted := by
  unfold execReceiptWriteComplete at h; split at h <;> (injection h with h; subst h; first | rfl | simp)
theorem execReceiptWriteComplete_freeIndex {s t : State} (h : execReceiptWriteComplete s = .next t) : t.freeIndex = s.freeIndex := by
  unfold execReceiptWriteComplete at h; split at h <;> (injection h with h; subst h; first | rfl | simp)
theorem execReceiptWriteComplete_pending {s t : State} (h : execReceiptWriteComplete s = .next t) : t.pending = s.pending := by
  unfold execReceiptWriteComplete at h; split at h <;> (injection h with h; subst h; first | rfl | simp)

/-! ## execDrdyRelease -/

theorem execDrdyRelease_upstream {s t : State} (h : execDrdyRelease s = .next t) : t.upstream = s.upstream := by
  injection h with h; subst h; (try unfold onRequest); (repeat' split) <;> first | rfl | simp
theorem execDrdyRelease_live {s t : State} (h : execDrdyRelease s = .next t) : t.live = s.live := by
  injection h with h; subst h; (try unfold onRequest); (repeat' split) <;> first | rfl | simp
theorem execDrdyRelease_staged {s t : State} (h : execDrdyRelease s = .next t) : t.staged = s.staged := by
  injection h with h; subst h; (try unfold onRequest); (repeat' split) <;> first | rfl | simp
theorem execDrdyRelease_windows {s t : State} (h : execDrdyRelease s = .next t) : t.windows = s.windows := by
  injection h with h; subst h; (try unfold onRequest); (repeat' split) <;> first | rfl | simp
theorem execDrdyRelease_records {s t : State} (h : execDrdyRelease s = .next t) : t.records = s.records := by
  injection h with h; subst h; (try unfold onRequest); (repeat' split) <;> first | rfl | simp
theorem execDrdyRelease_sealOrdinal {s t : State} (h : execDrdyRelease s = .next t) : t.sealOrdinal = s.sealOrdinal := by
  injection h with h; subst h; (try unfold onRequest); (repeat' split) <;> first | rfl | simp
theorem execDrdyRelease_timing {s t : State} (h : execDrdyRelease s = .next t) : t.timing = s.timing := by
  injection h with h; subst h; (try unfold onRequest); (repeat' split) <;> first | rfl | simp
theorem execDrdyRelease_tracker {s t : State} (h : execDrdyRelease s = .next t) : t.tracker = s.tracker := by
  injection h with h; subst h; (try unfold onRequest); (repeat' split) <;> first | rfl | simp
theorem execDrdyRelease_mode {s t : State} (h : execDrdyRelease s = .next t) : t.mode = s.mode := by
  injection h with h; subst h; (try unfold onRequest); (repeat' split) <;> first | rfl | simp
theorem execDrdyRelease_applyPending {s t : State} (h : execDrdyRelease s = .next t) : t.applyPending = s.applyPending := by
  injection h with h; subst h; (try unfold onRequest); (repeat' split) <;> first | rfl | simp
theorem execDrdyRelease_incidents {s t : State} (h : execDrdyRelease s = .next t) : t.incidents = s.incidents := by
  injection h with h; subst h; (try unfold onRequest); (repeat' split) <;> first | rfl | simp
theorem execDrdyRelease_link {s t : State} (h : execDrdyRelease s = .next t) : t.link = s.link := by
  injection h with h; subst h; (try unfold onRequest); (repeat' split) <;> first | rfl | simp
theorem execDrdyRelease_resetAsserted {s t : State} (h : execDrdyRelease s = .next t) : t.resetAsserted = s.resetAsserted := by
  injection h with h; subst h; (try unfold onRequest); (repeat' split) <;> first | rfl | simp
theorem execDrdyRelease_memory {s t : State} (h : execDrdyRelease s = .next t) : t.memory = s.memory := by
  injection h with h; subst h; (try unfold onRequest); (repeat' split) <;> first | rfl | simp
theorem execDrdyRelease_freeIndex {s t : State} (h : execDrdyRelease s = .next t) : t.freeIndex = s.freeIndex := by
  injection h with h; subst h; (try unfold onRequest); (repeat' split) <;> first | rfl | simp
theorem execDrdyRelease_pending {s t : State} (h : execDrdyRelease s = .next t) : t.pending = s.pending := by
  injection h with h; subst h; (try unfold onRequest); (repeat' split) <;> first | rfl | simp

/-! ## execStrayDrdy -/

theorem execStrayDrdy_upstream {s t : State} (h : execStrayDrdy s = .next t) : t.upstream = s.upstream := by
  injection h with h; subst h; (try unfold onRequest); (repeat' split) <;> first | rfl | simp
theorem execStrayDrdy_live {s t : State} (h : execStrayDrdy s = .next t) : t.live = s.live := by
  injection h with h; subst h; (try unfold onRequest); (repeat' split) <;> first | rfl | simp
theorem execStrayDrdy_staged {s t : State} (h : execStrayDrdy s = .next t) : t.staged = s.staged := by
  injection h with h; subst h; (try unfold onRequest); (repeat' split) <;> first | rfl | simp
theorem execStrayDrdy_windows {s t : State} (h : execStrayDrdy s = .next t) : t.windows = s.windows := by
  injection h with h; subst h; (try unfold onRequest); (repeat' split) <;> first | rfl | simp
theorem execStrayDrdy_records {s t : State} (h : execStrayDrdy s = .next t) : t.records = s.records := by
  injection h with h; subst h; (try unfold onRequest); (repeat' split) <;> first | rfl | simp
theorem execStrayDrdy_sealOrdinal {s t : State} (h : execStrayDrdy s = .next t) : t.sealOrdinal = s.sealOrdinal := by
  injection h with h; subst h; (try unfold onRequest); (repeat' split) <;> first | rfl | simp
theorem execStrayDrdy_timing {s t : State} (h : execStrayDrdy s = .next t) : t.timing = s.timing := by
  injection h with h; subst h; (try unfold onRequest); (repeat' split) <;> first | rfl | simp
theorem execStrayDrdy_tracker {s t : State} (h : execStrayDrdy s = .next t) : t.tracker = s.tracker := by
  injection h with h; subst h; (try unfold onRequest); (repeat' split) <;> first | rfl | simp
theorem execStrayDrdy_engine {s t : State} (h : execStrayDrdy s = .next t) : t.engine = s.engine := by
  injection h with h; subst h; (try unfold onRequest); (repeat' split) <;> first | rfl | simp
theorem execStrayDrdy_mode {s t : State} (h : execStrayDrdy s = .next t) : t.mode = s.mode := by
  injection h with h; subst h; (try unfold onRequest); (repeat' split) <;> first | rfl | simp
theorem execStrayDrdy_applyPending {s t : State} (h : execStrayDrdy s = .next t) : t.applyPending = s.applyPending := by
  injection h with h; subst h; (try unfold onRequest); (repeat' split) <;> first | rfl | simp
theorem execStrayDrdy_incidents {s t : State} (h : execStrayDrdy s = .next t) : t.incidents = s.incidents := by
  injection h with h; subst h; (try unfold onRequest); (repeat' split) <;> first | rfl | simp
theorem execStrayDrdy_link {s t : State} (h : execStrayDrdy s = .next t) : t.link = s.link := by
  injection h with h; subst h; (try unfold onRequest); (repeat' split) <;> first | rfl | simp
theorem execStrayDrdy_resetAsserted {s t : State} (h : execStrayDrdy s = .next t) : t.resetAsserted = s.resetAsserted := by
  injection h with h; subst h; (try unfold onRequest); (repeat' split) <;> first | rfl | simp
theorem execStrayDrdy_memory {s t : State} (h : execStrayDrdy s = .next t) : t.memory = s.memory := by
  injection h with h; subst h; (try unfold onRequest); (repeat' split) <;> first | rfl | simp
theorem execStrayDrdy_freeIndex {s t : State} (h : execStrayDrdy s = .next t) : t.freeIndex = s.freeIndex := by
  injection h with h; subst h; (try unfold onRequest); (repeat' split) <;> first | rfl | simp
theorem execStrayDrdy_pending {s t : State} (h : execStrayDrdy s = .next t) : t.pending = s.pending := by
  injection h with h; subst h; (try unfold onRequest); (repeat' split) <;> first | rfl | simp

/-! ## execFrameStart -/

theorem execFrameStart_staged {s t : State} (h : execFrameStart s = .next t) : t.staged = s.staged := by
  injection h with h; subst h; (try unfold onRequest); (repeat' split) <;> first | rfl | simp
theorem execFrameStart_timing {s t : State} (h : execFrameStart s = .next t) : t.timing = s.timing := by
  injection h with h; subst h; (try unfold onRequest); (repeat' split) <;> first | rfl | simp
theorem execFrameStart_mode {s t : State} (h : execFrameStart s = .next t) : t.mode = s.mode := by
  injection h with h; subst h; (try unfold onRequest); (repeat' split) <;> first | rfl | simp
theorem execFrameStart_link {s t : State} (h : execFrameStart s = .next t) : t.link = s.link := by
  injection h with h; subst h; (try unfold onRequest); (repeat' split) <;> first | rfl | simp
theorem execFrameStart_resetAsserted {s t : State} (h : execFrameStart s = .next t) : t.resetAsserted = s.resetAsserted := by
  injection h with h; subst h; (try unfold onRequest); (repeat' split) <;> first | rfl | simp
theorem execFrameStart_memory {s t : State} (h : execFrameStart s = .next t) : t.memory = s.memory := by
  injection h with h; subst h; (try unfold onRequest); (repeat' split) <;> first | rfl | simp
theorem execFrameStart_freeIndex {s t : State} (h : execFrameStart s = .next t) : t.freeIndex = s.freeIndex := by
  injection h with h; subst h; (try unfold onRequest); (repeat' split) <;> first | rfl | simp
theorem execFrameStart_pending {s t : State} (h : execFrameStart s = .next t) : t.pending = s.pending := by
  injection h with h; subst h; (try unfold onRequest); (repeat' split) <;> first | rfl | simp

/-! ## execLineStart -/

theorem execLineStart_live {s t : State} (h : execLineStart s = .next t) : t.live = s.live := by
  injection h with h; subst h; (try unfold onRequest); (repeat' split) <;> first | rfl | simp
theorem execLineStart_staged {s t : State} (h : execLineStart s = .next t) : t.staged = s.staged := by
  injection h with h; subst h; (try unfold onRequest); (repeat' split) <;> first | rfl | simp
theorem execLineStart_timing {s t : State} (h : execLineStart s = .next t) : t.timing = s.timing := by
  injection h with h; subst h; (try unfold onRequest); (repeat' split) <;> first | rfl | simp
theorem execLineStart_mode {s t : State} (h : execLineStart s = .next t) : t.mode = s.mode := by
  injection h with h; subst h; (try unfold onRequest); (repeat' split) <;> first | rfl | simp
theorem execLineStart_applyPending {s t : State} (h : execLineStart s = .next t) : t.applyPending = s.applyPending := by
  injection h with h; subst h; (try unfold onRequest); (repeat' split) <;> first | rfl | simp
theorem execLineStart_link {s t : State} (h : execLineStart s = .next t) : t.link = s.link := by
  injection h with h; subst h; (try unfold onRequest); (repeat' split) <;> first | rfl | simp
theorem execLineStart_resetAsserted {s t : State} (h : execLineStart s = .next t) : t.resetAsserted = s.resetAsserted := by
  injection h with h; subst h; (try unfold onRequest); (repeat' split) <;> first | rfl | simp
theorem execLineStart_memory {s t : State} (h : execLineStart s = .next t) : t.memory = s.memory := by
  injection h with h; subst h; (try unfold onRequest); (repeat' split) <;> first | rfl | simp
theorem execLineStart_freeIndex {s t : State} (h : execLineStart s = .next t) : t.freeIndex = s.freeIndex := by
  injection h with h; subst h; (try unfold onRequest); (repeat' split) <;> first | rfl | simp
theorem execLineStart_pending {s t : State} (h : execLineStart s = .next t) : t.pending = s.pending := by
  injection h with h; subst h; (try unfold onRequest); (repeat' split) <;> first | rfl | simp

/-! ## execSupervisionExpiry -/

theorem execSupervisionExpiry_staged {s t : State} (h : execSupervisionExpiry s = .next t) : t.staged = s.staged := by
  injection h with h; subst h; (try unfold onRequest); (repeat' split) <;> first | rfl | simp
theorem execSupervisionExpiry_timing {s t : State} (h : execSupervisionExpiry s = .next t) : t.timing = s.timing := by
  injection h with h; subst h; (try unfold onRequest); (repeat' split) <;> first | rfl | simp
theorem execSupervisionExpiry_mode {s t : State} (h : execSupervisionExpiry s = .next t) : t.mode = s.mode := by
  injection h with h; subst h; (try unfold onRequest); (repeat' split) <;> first | rfl | simp
theorem execSupervisionExpiry_link {s t : State} (h : execSupervisionExpiry s = .next t) : t.link = s.link := by
  injection h with h; subst h; (try unfold onRequest); (repeat' split) <;> first | rfl | simp
theorem execSupervisionExpiry_resetAsserted {s t : State} (h : execSupervisionExpiry s = .next t) : t.resetAsserted = s.resetAsserted := by
  injection h with h; subst h; (try unfold onRequest); (repeat' split) <;> first | rfl | simp
theorem execSupervisionExpiry_memory {s t : State} (h : execSupervisionExpiry s = .next t) : t.memory = s.memory := by
  injection h with h; subst h; (try unfold onRequest); (repeat' split) <;> first | rfl | simp
theorem execSupervisionExpiry_freeIndex {s t : State} (h : execSupervisionExpiry s = .next t) : t.freeIndex = s.freeIndex := by
  injection h with h; subst h; (try unfold onRequest); (repeat' split) <;> first | rfl | simp
theorem execSupervisionExpiry_pending {s t : State} (h : execSupervisionExpiry s = .next t) : t.pending = s.pending := by
  injection h with h; subst h; (try unfold onRequest); (repeat' split) <;> first | rfl | simp

/-! ## execStallExpiry -/

theorem execStallExpiry_live {s t : State} (h : execStallExpiry s = .next t) : t.live = s.live := by
  injection h with h; subst h; (try unfold onRequest); (repeat' split) <;> first | rfl | simp
theorem execStallExpiry_staged {s t : State} (h : execStallExpiry s = .next t) : t.staged = s.staged := by
  injection h with h; subst h; (try unfold onRequest); (repeat' split) <;> first | rfl | simp
theorem execStallExpiry_timing {s t : State} (h : execStallExpiry s = .next t) : t.timing = s.timing := by
  injection h with h; subst h; (try unfold onRequest); (repeat' split) <;> first | rfl | simp
theorem execStallExpiry_tracker {s t : State} (h : execStallExpiry s = .next t) : t.tracker = s.tracker := by
  injection h with h; subst h; (try unfold onRequest); (repeat' split) <;> first | rfl | simp
theorem execStallExpiry_mode {s t : State} (h : execStallExpiry s = .next t) : t.mode = s.mode := by
  injection h with h; subst h; (try unfold onRequest); (repeat' split) <;> first | rfl | simp
theorem execStallExpiry_applyPending {s t : State} (h : execStallExpiry s = .next t) : t.applyPending = s.applyPending := by
  injection h with h; subst h; (try unfold onRequest); (repeat' split) <;> first | rfl | simp
theorem execStallExpiry_link {s t : State} (h : execStallExpiry s = .next t) : t.link = s.link := by
  injection h with h; subst h; (try unfold onRequest); (repeat' split) <;> first | rfl | simp
theorem execStallExpiry_resetAsserted {s t : State} (h : execStallExpiry s = .next t) : t.resetAsserted = s.resetAsserted := by
  injection h with h; subst h; (try unfold onRequest); (repeat' split) <;> first | rfl | simp
theorem execStallExpiry_memory {s t : State} (h : execStallExpiry s = .next t) : t.memory = s.memory := by
  injection h with h; subst h; (try unfold onRequest); (repeat' split) <;> first | rfl | simp
theorem execStallExpiry_freeIndex {s t : State} (h : execStallExpiry s = .next t) : t.freeIndex = s.freeIndex := by
  injection h with h; subst h; (try unfold onRequest); (repeat' split) <;> first | rfl | simp
theorem execStallExpiry_pending {s t : State} (h : execStallExpiry s = .next t) : t.pending = s.pending := by
  injection h with h; subst h; (try unfold onRequest); (repeat' split) <;> first | rfl | simp

/-! ## execFrameBegin -/

theorem execFrameBegin_upstream {s t : State} (h : execFrameBegin s = .next t) : t.upstream = s.upstream := by
  injection h with h; subst h; (try unfold onRequest); (repeat' split) <;> first | rfl | simp
theorem execFrameBegin_live {s t : State} (h : execFrameBegin s = .next t) : t.live = s.live := by
  injection h with h; subst h; (try unfold onRequest); (repeat' split) <;> first | rfl | simp
theorem execFrameBegin_staged {s t : State} (h : execFrameBegin s = .next t) : t.staged = s.staged := by
  injection h with h; subst h; (try unfold onRequest); (repeat' split) <;> first | rfl | simp
theorem execFrameBegin_windows {s t : State} (h : execFrameBegin s = .next t) : t.windows = s.windows := by
  injection h with h; subst h; (try unfold onRequest); (repeat' split) <;> first | rfl | simp
theorem execFrameBegin_records {s t : State} (h : execFrameBegin s = .next t) : t.records = s.records := by
  injection h with h; subst h; (try unfold onRequest); (repeat' split) <;> first | rfl | simp
theorem execFrameBegin_sealOrdinal {s t : State} (h : execFrameBegin s = .next t) : t.sealOrdinal = s.sealOrdinal := by
  injection h with h; subst h; (try unfold onRequest); (repeat' split) <;> first | rfl | simp
theorem execFrameBegin_timing {s t : State} (h : execFrameBegin s = .next t) : t.timing = s.timing := by
  injection h with h; subst h; (try unfold onRequest); (repeat' split) <;> first | rfl | simp
theorem execFrameBegin_tracker {s t : State} (h : execFrameBegin s = .next t) : t.tracker = s.tracker := by
  injection h with h; subst h; (try unfold onRequest); (repeat' split) <;> first | rfl | simp
theorem execFrameBegin_engine {s t : State} (h : execFrameBegin s = .next t) : t.engine = s.engine := by
  injection h with h; subst h; (try unfold onRequest); (repeat' split) <;> first | rfl | simp
theorem execFrameBegin_port {s t : State} (h : execFrameBegin s = .next t) : t.port = s.port := by
  injection h with h; subst h; (try unfold onRequest); (repeat' split) <;> first | rfl | simp
theorem execFrameBegin_mode {s t : State} (h : execFrameBegin s = .next t) : t.mode = s.mode := by
  injection h with h; subst h; (try unfold onRequest); (repeat' split) <;> first | rfl | simp
theorem execFrameBegin_applyPending {s t : State} (h : execFrameBegin s = .next t) : t.applyPending = s.applyPending := by
  injection h with h; subst h; (try unfold onRequest); (repeat' split) <;> first | rfl | simp
theorem execFrameBegin_incidents {s t : State} (h : execFrameBegin s = .next t) : t.incidents = s.incidents := by
  injection h with h; subst h; (try unfold onRequest); (repeat' split) <;> first | rfl | simp
theorem execFrameBegin_resetAsserted {s t : State} (h : execFrameBegin s = .next t) : t.resetAsserted = s.resetAsserted := by
  injection h with h; subst h; (try unfold onRequest); (repeat' split) <;> first | rfl | simp
theorem execFrameBegin_memory {s t : State} (h : execFrameBegin s = .next t) : t.memory = s.memory := by
  injection h with h; subst h; (try unfold onRequest); (repeat' split) <;> first | rfl | simp
theorem execFrameBegin_freeIndex {s t : State} (h : execFrameBegin s = .next t) : t.freeIndex = s.freeIndex := by
  injection h with h; subst h; (try unfold onRequest); (repeat' split) <;> first | rfl | simp
theorem execFrameBegin_pending {s t : State} (h : execFrameBegin s = .next t) : t.pending = s.pending := by
  injection h with h; subst h; (try unfold onRequest); (repeat' split) <;> first | rfl | simp

/-! ## execReadBack -/

theorem execReadBack_upstream {s t : State} (bs : List Byte) (n : Nat) (h : execReadBack bs n s = .next t) : t.upstream = s.upstream := by
  injection h with h; subst h; (try unfold onRequest); (repeat' split) <;> first | rfl | simp
theorem execReadBack_live {s t : State} (bs : List Byte) (n : Nat) (h : execReadBack bs n s = .next t) : t.live = s.live := by
  injection h with h; subst h; (try unfold onRequest); (repeat' split) <;> first | rfl | simp
theorem execReadBack_staged {s t : State} (bs : List Byte) (n : Nat) (h : execReadBack bs n s = .next t) : t.staged = s.staged := by
  injection h with h; subst h; (try unfold onRequest); (repeat' split) <;> first | rfl | simp
theorem execReadBack_windows {s t : State} (bs : List Byte) (n : Nat) (h : execReadBack bs n s = .next t) : t.windows = s.windows := by
  injection h with h; subst h; (try unfold onRequest); (repeat' split) <;> first | rfl | simp
theorem execReadBack_records {s t : State} (bs : List Byte) (n : Nat) (h : execReadBack bs n s = .next t) : t.records = s.records := by
  injection h with h; subst h; (try unfold onRequest); (repeat' split) <;> first | rfl | simp
theorem execReadBack_sealOrdinal {s t : State} (bs : List Byte) (n : Nat) (h : execReadBack bs n s = .next t) : t.sealOrdinal = s.sealOrdinal := by
  injection h with h; subst h; (try unfold onRequest); (repeat' split) <;> first | rfl | simp
theorem execReadBack_timing {s t : State} (bs : List Byte) (n : Nat) (h : execReadBack bs n s = .next t) : t.timing = s.timing := by
  injection h with h; subst h; (try unfold onRequest); (repeat' split) <;> first | rfl | simp
theorem execReadBack_tracker {s t : State} (bs : List Byte) (n : Nat) (h : execReadBack bs n s = .next t) : t.tracker = s.tracker := by
  injection h with h; subst h; (try unfold onRequest); (repeat' split) <;> first | rfl | simp
theorem execReadBack_engine {s t : State} (bs : List Byte) (n : Nat) (h : execReadBack bs n s = .next t) : t.engine = s.engine := by
  injection h with h; subst h; (try unfold onRequest); (repeat' split) <;> first | rfl | simp
theorem execReadBack_port {s t : State} (bs : List Byte) (n : Nat) (h : execReadBack bs n s = .next t) : t.port = s.port := by
  injection h with h; subst h; (try unfold onRequest); (repeat' split) <;> first | rfl | simp
theorem execReadBack_mode {s t : State} (bs : List Byte) (n : Nat) (h : execReadBack bs n s = .next t) : t.mode = s.mode := by
  injection h with h; subst h; (try unfold onRequest); (repeat' split) <;> first | rfl | simp
theorem execReadBack_applyPending {s t : State} (bs : List Byte) (n : Nat) (h : execReadBack bs n s = .next t) : t.applyPending = s.applyPending := by
  injection h with h; subst h; (try unfold onRequest); (repeat' split) <;> first | rfl | simp
theorem execReadBack_incidents {s t : State} (bs : List Byte) (n : Nat) (h : execReadBack bs n s = .next t) : t.incidents = s.incidents := by
  injection h with h; subst h; (try unfold onRequest); (repeat' split) <;> first | rfl | simp
theorem execReadBack_resetAsserted {s t : State} (bs : List Byte) (n : Nat) (h : execReadBack bs n s = .next t) : t.resetAsserted = s.resetAsserted := by
  injection h with h; subst h; (try unfold onRequest); (repeat' split) <;> first | rfl | simp
theorem execReadBack_memory {s t : State} (bs : List Byte) (n : Nat) (h : execReadBack bs n s = .next t) : t.memory = s.memory := by
  injection h with h; subst h; (try unfold onRequest); (repeat' split) <;> first | rfl | simp
theorem execReadBack_freeIndex {s t : State} (bs : List Byte) (n : Nat) (h : execReadBack bs n s = .next t) : t.freeIndex = s.freeIndex := by
  injection h with h; subst h; (try unfold onRequest); (repeat' split) <;> first | rfl | simp
theorem execReadBack_pending {s t : State} (bs : List Byte) (n : Nat) (h : execReadBack bs n s = .next t) : t.pending = s.pending := by
  injection h with h; subst h; (try unfold onRequest); (repeat' split) <;> first | rfl | simp

/-! ## execMalformedFrame -/

theorem execMalformedFrame_upstream {s t : State} (bs : List Byte) (n : Nat) (h : execMalformedFrame bs n s = .next t) : t.upstream = s.upstream := by
  injection h with h; subst h; (try unfold onRequest); (repeat' split) <;> first | rfl | simp
theorem execMalformedFrame_live {s t : State} (bs : List Byte) (n : Nat) (h : execMalformedFrame bs n s = .next t) : t.live = s.live := by
  injection h with h; subst h; (try unfold onRequest); (repeat' split) <;> first | rfl | simp
theorem execMalformedFrame_staged {s t : State} (bs : List Byte) (n : Nat) (h : execMalformedFrame bs n s = .next t) : t.staged = s.staged := by
  injection h with h; subst h; (try unfold onRequest); (repeat' split) <;> first | rfl | simp
theorem execMalformedFrame_windows {s t : State} (bs : List Byte) (n : Nat) (h : execMalformedFrame bs n s = .next t) : t.windows = s.windows := by
  injection h with h; subst h; (try unfold onRequest); (repeat' split) <;> first | rfl | simp
theorem execMalformedFrame_records {s t : State} (bs : List Byte) (n : Nat) (h : execMalformedFrame bs n s = .next t) : t.records = s.records := by
  injection h with h; subst h; (try unfold onRequest); (repeat' split) <;> first | rfl | simp
theorem execMalformedFrame_sealOrdinal {s t : State} (bs : List Byte) (n : Nat) (h : execMalformedFrame bs n s = .next t) : t.sealOrdinal = s.sealOrdinal := by
  injection h with h; subst h; (try unfold onRequest); (repeat' split) <;> first | rfl | simp
theorem execMalformedFrame_timing {s t : State} (bs : List Byte) (n : Nat) (h : execMalformedFrame bs n s = .next t) : t.timing = s.timing := by
  injection h with h; subst h; (try unfold onRequest); (repeat' split) <;> first | rfl | simp
theorem execMalformedFrame_tracker {s t : State} (bs : List Byte) (n : Nat) (h : execMalformedFrame bs n s = .next t) : t.tracker = s.tracker := by
  injection h with h; subst h; (try unfold onRequest); (repeat' split) <;> first | rfl | simp
theorem execMalformedFrame_engine {s t : State} (bs : List Byte) (n : Nat) (h : execMalformedFrame bs n s = .next t) : t.engine = s.engine := by
  injection h with h; subst h; (try unfold onRequest); (repeat' split) <;> first | rfl | simp
theorem execMalformedFrame_port {s t : State} (bs : List Byte) (n : Nat) (h : execMalformedFrame bs n s = .next t) : t.port = s.port := by
  injection h with h; subst h; (try unfold onRequest); (repeat' split) <;> first | rfl | simp
theorem execMalformedFrame_mode {s t : State} (bs : List Byte) (n : Nat) (h : execMalformedFrame bs n s = .next t) : t.mode = s.mode := by
  injection h with h; subst h; (try unfold onRequest); (repeat' split) <;> first | rfl | simp
theorem execMalformedFrame_applyPending {s t : State} (bs : List Byte) (n : Nat) (h : execMalformedFrame bs n s = .next t) : t.applyPending = s.applyPending := by
  injection h with h; subst h; (try unfold onRequest); (repeat' split) <;> first | rfl | simp
theorem execMalformedFrame_incidents {s t : State} (bs : List Byte) (n : Nat) (h : execMalformedFrame bs n s = .next t) : t.incidents = s.incidents := by
  injection h with h; subst h; (try unfold onRequest); (repeat' split) <;> first | rfl | simp
theorem execMalformedFrame_resetAsserted {s t : State} (bs : List Byte) (n : Nat) (h : execMalformedFrame bs n s = .next t) : t.resetAsserted = s.resetAsserted := by
  injection h with h; subst h; (try unfold onRequest); (repeat' split) <;> first | rfl | simp
theorem execMalformedFrame_memory {s t : State} (bs : List Byte) (n : Nat) (h : execMalformedFrame bs n s = .next t) : t.memory = s.memory := by
  injection h with h; subst h; (try unfold onRequest); (repeat' split) <;> first | rfl | simp
theorem execMalformedFrame_freeIndex {s t : State} (bs : List Byte) (n : Nat) (h : execMalformedFrame bs n s = .next t) : t.freeIndex = s.freeIndex := by
  injection h with h; subst h; (try unfold onRequest); (repeat' split) <;> first | rfl | simp
theorem execMalformedFrame_pending {s t : State} (bs : List Byte) (n : Nat) (h : execMalformedFrame bs n s = .next t) : t.pending = s.pending := by
  injection h with h; subst h; (try unfold onRequest); (repeat' split) <;> first | rfl | simp

/-! ## execIdent -/

theorem execIdent_upstream {s t : State} (h : execIdent s = .next t) : t.upstream = s.upstream := by
  injection h with h; subst h; (try unfold onRequest); (repeat' split) <;> first | rfl | simp
theorem execIdent_live {s t : State} (h : execIdent s = .next t) : t.live = s.live := by
  injection h with h; subst h; (try unfold onRequest); (repeat' split) <;> first | rfl | simp
theorem execIdent_staged {s t : State} (h : execIdent s = .next t) : t.staged = s.staged := by
  injection h with h; subst h; (try unfold onRequest); (repeat' split) <;> first | rfl | simp
theorem execIdent_windows {s t : State} (h : execIdent s = .next t) : t.windows = s.windows := by
  injection h with h; subst h; (try unfold onRequest); (repeat' split) <;> first | rfl | simp
theorem execIdent_records {s t : State} (h : execIdent s = .next t) : t.records = s.records := by
  injection h with h; subst h; (try unfold onRequest); (repeat' split) <;> first | rfl | simp
theorem execIdent_sealOrdinal {s t : State} (h : execIdent s = .next t) : t.sealOrdinal = s.sealOrdinal := by
  injection h with h; subst h; (try unfold onRequest); (repeat' split) <;> first | rfl | simp
theorem execIdent_timing {s t : State} (h : execIdent s = .next t) : t.timing = s.timing := by
  injection h with h; subst h; (try unfold onRequest); (repeat' split) <;> first | rfl | simp
theorem execIdent_tracker {s t : State} (h : execIdent s = .next t) : t.tracker = s.tracker := by
  injection h with h; subst h; (try unfold onRequest); (repeat' split) <;> first | rfl | simp
theorem execIdent_engine {s t : State} (h : execIdent s = .next t) : t.engine = s.engine := by
  injection h with h; subst h; (try unfold onRequest); (repeat' split) <;> first | rfl | simp
theorem execIdent_port {s t : State} (h : execIdent s = .next t) : t.port = s.port := by
  injection h with h; subst h; (try unfold onRequest); (repeat' split) <;> first | rfl | simp
theorem execIdent_mode {s t : State} (h : execIdent s = .next t) : t.mode = s.mode := by
  injection h with h; subst h; (try unfold onRequest); (repeat' split) <;> first | rfl | simp
theorem execIdent_applyPending {s t : State} (h : execIdent s = .next t) : t.applyPending = s.applyPending := by
  injection h with h; subst h; (try unfold onRequest); (repeat' split) <;> first | rfl | simp
theorem execIdent_incidents {s t : State} (h : execIdent s = .next t) : t.incidents = s.incidents := by
  injection h with h; subst h; (try unfold onRequest); (repeat' split) <;> first | rfl | simp
theorem execIdent_resetAsserted {s t : State} (h : execIdent s = .next t) : t.resetAsserted = s.resetAsserted := by
  injection h with h; subst h; (try unfold onRequest); (repeat' split) <;> first | rfl | simp
theorem execIdent_memory {s t : State} (h : execIdent s = .next t) : t.memory = s.memory := by
  injection h with h; subst h; (try unfold onRequest); (repeat' split) <;> first | rfl | simp
theorem execIdent_freeIndex {s t : State} (h : execIdent s = .next t) : t.freeIndex = s.freeIndex := by
  injection h with h; subst h; (try unfold onRequest); (repeat' split) <;> first | rfl | simp
theorem execIdent_pending {s t : State} (h : execIdent s = .next t) : t.pending = s.pending := by
  injection h with h; subst h; (try unfold onRequest); (repeat' split) <;> first | rfl | simp

/-! ## execStatus -/

theorem execStatus_upstream {s t : State} (h : execStatus s = .next t) : t.upstream = s.upstream := by
  injection h with h; subst h; (try unfold onRequest); (repeat' split) <;> first | rfl | simp
theorem execStatus_live {s t : State} (h : execStatus s = .next t) : t.live = s.live := by
  injection h with h; subst h; (try unfold onRequest); (repeat' split) <;> first | rfl | simp
theorem execStatus_staged {s t : State} (h : execStatus s = .next t) : t.staged = s.staged := by
  injection h with h; subst h; (try unfold onRequest); (repeat' split) <;> first | rfl | simp
theorem execStatus_windows {s t : State} (h : execStatus s = .next t) : t.windows = s.windows := by
  injection h with h; subst h; (try unfold onRequest); (repeat' split) <;> first | rfl | simp
theorem execStatus_records {s t : State} (h : execStatus s = .next t) : t.records = s.records := by
  injection h with h; subst h; (try unfold onRequest); (repeat' split) <;> first | rfl | simp
theorem execStatus_sealOrdinal {s t : State} (h : execStatus s = .next t) : t.sealOrdinal = s.sealOrdinal := by
  injection h with h; subst h; (try unfold onRequest); (repeat' split) <;> first | rfl | simp
theorem execStatus_timing {s t : State} (h : execStatus s = .next t) : t.timing = s.timing := by
  injection h with h; subst h; (try unfold onRequest); (repeat' split) <;> first | rfl | simp
theorem execStatus_tracker {s t : State} (h : execStatus s = .next t) : t.tracker = s.tracker := by
  injection h with h; subst h; (try unfold onRequest); (repeat' split) <;> first | rfl | simp
theorem execStatus_engine {s t : State} (h : execStatus s = .next t) : t.engine = s.engine := by
  injection h with h; subst h; (try unfold onRequest); (repeat' split) <;> first | rfl | simp
theorem execStatus_port {s t : State} (h : execStatus s = .next t) : t.port = s.port := by
  injection h with h; subst h; (try unfold onRequest); (repeat' split) <;> first | rfl | simp
theorem execStatus_mode {s t : State} (h : execStatus s = .next t) : t.mode = s.mode := by
  injection h with h; subst h; (try unfold onRequest); (repeat' split) <;> first | rfl | simp
theorem execStatus_applyPending {s t : State} (h : execStatus s = .next t) : t.applyPending = s.applyPending := by
  injection h with h; subst h; (try unfold onRequest); (repeat' split) <;> first | rfl | simp
theorem execStatus_incidents {s t : State} (h : execStatus s = .next t) : t.incidents = s.incidents := by
  injection h with h; subst h; (try unfold onRequest); (repeat' split) <;> first | rfl | simp
theorem execStatus_resetAsserted {s t : State} (h : execStatus s = .next t) : t.resetAsserted = s.resetAsserted := by
  injection h with h; subst h; (try unfold onRequest); (repeat' split) <;> first | rfl | simp
theorem execStatus_memory {s t : State} (h : execStatus s = .next t) : t.memory = s.memory := by
  injection h with h; subst h; (try unfold onRequest); (repeat' split) <;> first | rfl | simp
theorem execStatus_freeIndex {s t : State} (h : execStatus s = .next t) : t.freeIndex = s.freeIndex := by
  injection h with h; subst h; (try unfold onRequest); (repeat' split) <;> first | rfl | simp
theorem execStatus_pending {s t : State} (h : execStatus s = .next t) : t.pending = s.pending := by
  injection h with h; subst h; (try unfold onRequest); (repeat' split) <;> first | rfl | simp

/-! ## execClearFlags -/

theorem execClearFlags_upstream {s t : State} (x : BitVec 16) (h : execClearFlags x s = .next t) : t.upstream = s.upstream := by
  injection h with h; subst h; (try unfold onRequest); (repeat' split) <;> first | rfl | simp
theorem execClearFlags_live {s t : State} (x : BitVec 16) (h : execClearFlags x s = .next t) : t.live = s.live := by
  injection h with h; subst h; (try unfold onRequest); (repeat' split) <;> first | rfl | simp
theorem execClearFlags_staged {s t : State} (x : BitVec 16) (h : execClearFlags x s = .next t) : t.staged = s.staged := by
  injection h with h; subst h; (try unfold onRequest); (repeat' split) <;> first | rfl | simp
theorem execClearFlags_windows {s t : State} (x : BitVec 16) (h : execClearFlags x s = .next t) : t.windows = s.windows := by
  injection h with h; subst h; (try unfold onRequest); (repeat' split) <;> first | rfl | simp
theorem execClearFlags_records {s t : State} (x : BitVec 16) (h : execClearFlags x s = .next t) : t.records = s.records := by
  injection h with h; subst h; (try unfold onRequest); (repeat' split) <;> first | rfl | simp
theorem execClearFlags_sealOrdinal {s t : State} (x : BitVec 16) (h : execClearFlags x s = .next t) : t.sealOrdinal = s.sealOrdinal := by
  injection h with h; subst h; (try unfold onRequest); (repeat' split) <;> first | rfl | simp
theorem execClearFlags_timing {s t : State} (x : BitVec 16) (h : execClearFlags x s = .next t) : t.timing = s.timing := by
  injection h with h; subst h; (try unfold onRequest); (repeat' split) <;> first | rfl | simp
theorem execClearFlags_tracker {s t : State} (x : BitVec 16) (h : execClearFlags x s = .next t) : t.tracker = s.tracker := by
  injection h with h; subst h; (try unfold onRequest); (repeat' split) <;> first | rfl | simp
theorem execClearFlags_engine {s t : State} (x : BitVec 16) (h : execClearFlags x s = .next t) : t.engine = s.engine := by
  injection h with h; subst h; (try unfold onRequest); (repeat' split) <;> first | rfl | simp
theorem execClearFlags_port {s t : State} (x : BitVec 16) (h : execClearFlags x s = .next t) : t.port = s.port := by
  injection h with h; subst h; (try unfold onRequest); (repeat' split) <;> first | rfl | simp
theorem execClearFlags_mode {s t : State} (x : BitVec 16) (h : execClearFlags x s = .next t) : t.mode = s.mode := by
  injection h with h; subst h; (try unfold onRequest); (repeat' split) <;> first | rfl | simp
theorem execClearFlags_applyPending {s t : State} (x : BitVec 16) (h : execClearFlags x s = .next t) : t.applyPending = s.applyPending := by
  injection h with h; subst h; (try unfold onRequest); (repeat' split) <;> first | rfl | simp
theorem execClearFlags_resetAsserted {s t : State} (x : BitVec 16) (h : execClearFlags x s = .next t) : t.resetAsserted = s.resetAsserted := by
  injection h with h; subst h; (try unfold onRequest); (repeat' split) <;> first | rfl | simp
theorem execClearFlags_memory {s t : State} (x : BitVec 16) (h : execClearFlags x s = .next t) : t.memory = s.memory := by
  injection h with h; subst h; (try unfold onRequest); (repeat' split) <;> first | rfl | simp
theorem execClearFlags_freeIndex {s t : State} (x : BitVec 16) (h : execClearFlags x s = .next t) : t.freeIndex = s.freeIndex := by
  injection h with h; subst h; (try unfold onRequest); (repeat' split) <;> first | rfl | simp
theorem execClearFlags_pending {s t : State} (x : BitVec 16) (h : execClearFlags x s = .next t) : t.pending = s.pending := by
  injection h with h; subst h; (try unfold onRequest); (repeat' split) <;> first | rfl | simp

/-! ## execSetMask -/

theorem execSetMask_upstream {s t : State} (x : BitVec 16) (h : execSetMask x s = .next t) : t.upstream = s.upstream := by
  injection h with h; subst h; (try unfold onRequest); (repeat' split) <;> first | rfl | simp
theorem execSetMask_live {s t : State} (x : BitVec 16) (h : execSetMask x s = .next t) : t.live = s.live := by
  injection h with h; subst h; (try unfold onRequest); (repeat' split) <;> first | rfl | simp
theorem execSetMask_staged {s t : State} (x : BitVec 16) (h : execSetMask x s = .next t) : t.staged = s.staged := by
  injection h with h; subst h; (try unfold onRequest); (repeat' split) <;> first | rfl | simp
theorem execSetMask_windows {s t : State} (x : BitVec 16) (h : execSetMask x s = .next t) : t.windows = s.windows := by
  injection h with h; subst h; (try unfold onRequest); (repeat' split) <;> first | rfl | simp
theorem execSetMask_records {s t : State} (x : BitVec 16) (h : execSetMask x s = .next t) : t.records = s.records := by
  injection h with h; subst h; (try unfold onRequest); (repeat' split) <;> first | rfl | simp
theorem execSetMask_sealOrdinal {s t : State} (x : BitVec 16) (h : execSetMask x s = .next t) : t.sealOrdinal = s.sealOrdinal := by
  injection h with h; subst h; (try unfold onRequest); (repeat' split) <;> first | rfl | simp
theorem execSetMask_timing {s t : State} (x : BitVec 16) (h : execSetMask x s = .next t) : t.timing = s.timing := by
  injection h with h; subst h; (try unfold onRequest); (repeat' split) <;> first | rfl | simp
theorem execSetMask_tracker {s t : State} (x : BitVec 16) (h : execSetMask x s = .next t) : t.tracker = s.tracker := by
  injection h with h; subst h; (try unfold onRequest); (repeat' split) <;> first | rfl | simp
theorem execSetMask_engine {s t : State} (x : BitVec 16) (h : execSetMask x s = .next t) : t.engine = s.engine := by
  injection h with h; subst h; (try unfold onRequest); (repeat' split) <;> first | rfl | simp
theorem execSetMask_port {s t : State} (x : BitVec 16) (h : execSetMask x s = .next t) : t.port = s.port := by
  injection h with h; subst h; (try unfold onRequest); (repeat' split) <;> first | rfl | simp
theorem execSetMask_mode {s t : State} (x : BitVec 16) (h : execSetMask x s = .next t) : t.mode = s.mode := by
  injection h with h; subst h; (try unfold onRequest); (repeat' split) <;> first | rfl | simp
theorem execSetMask_applyPending {s t : State} (x : BitVec 16) (h : execSetMask x s = .next t) : t.applyPending = s.applyPending := by
  injection h with h; subst h; (try unfold onRequest); (repeat' split) <;> first | rfl | simp
theorem execSetMask_resetAsserted {s t : State} (x : BitVec 16) (h : execSetMask x s = .next t) : t.resetAsserted = s.resetAsserted := by
  injection h with h; subst h; (try unfold onRequest); (repeat' split) <;> first | rfl | simp
theorem execSetMask_memory {s t : State} (x : BitVec 16) (h : execSetMask x s = .next t) : t.memory = s.memory := by
  injection h with h; subst h; (try unfold onRequest); (repeat' split) <;> first | rfl | simp
theorem execSetMask_freeIndex {s t : State} (x : BitVec 16) (h : execSetMask x s = .next t) : t.freeIndex = s.freeIndex := by
  injection h with h; subst h; (try unfold onRequest); (repeat' split) <;> first | rfl | simp
theorem execSetMask_pending {s t : State} (x : BitVec 16) (h : execSetMask x s = .next t) : t.pending = s.pending := by
  injection h with h; subst h; (try unfold onRequest); (repeat' split) <;> first | rfl | simp

/-! ## execSetTiming -/

theorem execSetTiming_staged {s t : State} (v : TimingFields) (h : execSetTiming v s = .next t) : t.staged = s.staged := by
  injection h with h; subst h; (try unfold onRequest); (repeat' split) <;> first | rfl | simp
theorem execSetTiming_mode {s t : State} (v : TimingFields) (h : execSetTiming v s = .next t) : t.mode = s.mode := by
  injection h with h; subst h; (try unfold onRequest); (repeat' split) <;> first | rfl | simp
theorem execSetTiming_resetAsserted {s t : State} (v : TimingFields) (h : execSetTiming v s = .next t) : t.resetAsserted = s.resetAsserted := by
  injection h with h; subst h; (try unfold onRequest); (repeat' split) <;> first | rfl | simp
theorem execSetTiming_memory {s t : State} (v : TimingFields) (h : execSetTiming v s = .next t) : t.memory = s.memory := by
  injection h with h; subst h; (try unfold onRequest); (repeat' split) <;> first | rfl | simp
theorem execSetTiming_freeIndex {s t : State} (v : TimingFields) (h : execSetTiming v s = .next t) : t.freeIndex = s.freeIndex := by
  injection h with h; subst h; (try unfold onRequest); (repeat' split) <;> first | rfl | simp
theorem execSetTiming_pending {s t : State} (v : TimingFields) (h : execSetTiming v s = .next t) : t.pending = s.pending := by
  injection h with h; subst h; (try unfold onRequest); (repeat' split) <;> first | rfl | simp

/-! ## execGetTiming -/

theorem execGetTiming_upstream {s t : State} (h : execGetTiming s = .next t) : t.upstream = s.upstream := by
  injection h with h; subst h; (try unfold onRequest); (repeat' split) <;> first | rfl | simp
theorem execGetTiming_live {s t : State} (h : execGetTiming s = .next t) : t.live = s.live := by
  injection h with h; subst h; (try unfold onRequest); (repeat' split) <;> first | rfl | simp
theorem execGetTiming_staged {s t : State} (h : execGetTiming s = .next t) : t.staged = s.staged := by
  injection h with h; subst h; (try unfold onRequest); (repeat' split) <;> first | rfl | simp
theorem execGetTiming_windows {s t : State} (h : execGetTiming s = .next t) : t.windows = s.windows := by
  injection h with h; subst h; (try unfold onRequest); (repeat' split) <;> first | rfl | simp
theorem execGetTiming_records {s t : State} (h : execGetTiming s = .next t) : t.records = s.records := by
  injection h with h; subst h; (try unfold onRequest); (repeat' split) <;> first | rfl | simp
theorem execGetTiming_sealOrdinal {s t : State} (h : execGetTiming s = .next t) : t.sealOrdinal = s.sealOrdinal := by
  injection h with h; subst h; (try unfold onRequest); (repeat' split) <;> first | rfl | simp
theorem execGetTiming_timing {s t : State} (h : execGetTiming s = .next t) : t.timing = s.timing := by
  injection h with h; subst h; (try unfold onRequest); (repeat' split) <;> first | rfl | simp
theorem execGetTiming_tracker {s t : State} (h : execGetTiming s = .next t) : t.tracker = s.tracker := by
  injection h with h; subst h; (try unfold onRequest); (repeat' split) <;> first | rfl | simp
theorem execGetTiming_engine {s t : State} (h : execGetTiming s = .next t) : t.engine = s.engine := by
  injection h with h; subst h; (try unfold onRequest); (repeat' split) <;> first | rfl | simp
theorem execGetTiming_port {s t : State} (h : execGetTiming s = .next t) : t.port = s.port := by
  injection h with h; subst h; (try unfold onRequest); (repeat' split) <;> first | rfl | simp
theorem execGetTiming_mode {s t : State} (h : execGetTiming s = .next t) : t.mode = s.mode := by
  injection h with h; subst h; (try unfold onRequest); (repeat' split) <;> first | rfl | simp
theorem execGetTiming_applyPending {s t : State} (h : execGetTiming s = .next t) : t.applyPending = s.applyPending := by
  injection h with h; subst h; (try unfold onRequest); (repeat' split) <;> first | rfl | simp
theorem execGetTiming_incidents {s t : State} (h : execGetTiming s = .next t) : t.incidents = s.incidents := by
  injection h with h; subst h; (try unfold onRequest); (repeat' split) <;> first | rfl | simp
theorem execGetTiming_resetAsserted {s t : State} (h : execGetTiming s = .next t) : t.resetAsserted = s.resetAsserted := by
  injection h with h; subst h; (try unfold onRequest); (repeat' split) <;> first | rfl | simp
theorem execGetTiming_memory {s t : State} (h : execGetTiming s = .next t) : t.memory = s.memory := by
  injection h with h; subst h; (try unfold onRequest); (repeat' split) <;> first | rfl | simp
theorem execGetTiming_freeIndex {s t : State} (h : execGetTiming s = .next t) : t.freeIndex = s.freeIndex := by
  injection h with h; subst h; (try unfold onRequest); (repeat' split) <;> first | rfl | simp
theorem execGetTiming_pending {s t : State} (h : execGetTiming s = .next t) : t.pending = s.pending := by
  injection h with h; subst h; (try unfold onRequest); (repeat' split) <;> first | rfl | simp

/-! ## execStageWindow -/

theorem execStageWindow_upstream {s t : State} (i : BitVec 8) (f : RecordFields) (h : execStageWindow i f s = .next t) : t.upstream = s.upstream := by
  injection h with h; subst h; (try unfold onRequest); (repeat' split) <;> first | rfl | simp
theorem execStageWindow_live {s t : State} (i : BitVec 8) (f : RecordFields) (h : execStageWindow i f s = .next t) : t.live = s.live := by
  injection h with h; subst h; (try unfold onRequest); (repeat' split) <;> first | rfl | simp
theorem execStageWindow_windows {s t : State} (i : BitVec 8) (f : RecordFields) (h : execStageWindow i f s = .next t) : t.windows = s.windows := by
  injection h with h; subst h; (try unfold onRequest); (repeat' split) <;> first | rfl | simp
theorem execStageWindow_records {s t : State} (i : BitVec 8) (f : RecordFields) (h : execStageWindow i f s = .next t) : t.records = s.records := by
  injection h with h; subst h; (try unfold onRequest); (repeat' split) <;> first | rfl | simp
theorem execStageWindow_sealOrdinal {s t : State} (i : BitVec 8) (f : RecordFields) (h : execStageWindow i f s = .next t) : t.sealOrdinal = s.sealOrdinal := by
  injection h with h; subst h; (try unfold onRequest); (repeat' split) <;> first | rfl | simp
theorem execStageWindow_timing {s t : State} (i : BitVec 8) (f : RecordFields) (h : execStageWindow i f s = .next t) : t.timing = s.timing := by
  injection h with h; subst h; (try unfold onRequest); (repeat' split) <;> first | rfl | simp
theorem execStageWindow_tracker {s t : State} (i : BitVec 8) (f : RecordFields) (h : execStageWindow i f s = .next t) : t.tracker = s.tracker := by
  injection h with h; subst h; (try unfold onRequest); (repeat' split) <;> first | rfl | simp
theorem execStageWindow_engine {s t : State} (i : BitVec 8) (f : RecordFields) (h : execStageWindow i f s = .next t) : t.engine = s.engine := by
  injection h with h; subst h; (try unfold onRequest); (repeat' split) <;> first | rfl | simp
theorem execStageWindow_port {s t : State} (i : BitVec 8) (f : RecordFields) (h : execStageWindow i f s = .next t) : t.port = s.port := by
  injection h with h; subst h; (try unfold onRequest); (repeat' split) <;> first | rfl | simp
theorem execStageWindow_mode {s t : State} (i : BitVec 8) (f : RecordFields) (h : execStageWindow i f s = .next t) : t.mode = s.mode := by
  injection h with h; subst h; (try unfold onRequest); (repeat' split) <;> first | rfl | simp
theorem execStageWindow_applyPending {s t : State} (i : BitVec 8) (f : RecordFields) (h : execStageWindow i f s = .next t) : t.applyPending = s.applyPending := by
  injection h with h; subst h; (try unfold onRequest); (repeat' split) <;> first | rfl | simp
theorem execStageWindow_incidents {s t : State} (i : BitVec 8) (f : RecordFields) (h : execStageWindow i f s = .next t) : t.incidents = s.incidents := by
  injection h with h; subst h; (try unfold onRequest); (repeat' split) <;> first | rfl | simp
theorem execStageWindow_resetAsserted {s t : State} (i : BitVec 8) (f : RecordFields) (h : execStageWindow i f s = .next t) : t.resetAsserted = s.resetAsserted := by
  injection h with h; subst h; (try unfold onRequest); (repeat' split) <;> first | rfl | simp
theorem execStageWindow_memory {s t : State} (i : BitVec 8) (f : RecordFields) (h : execStageWindow i f s = .next t) : t.memory = s.memory := by
  injection h with h; subst h; (try unfold onRequest); (repeat' split) <;> first | rfl | simp
theorem execStageWindow_freeIndex {s t : State} (i : BitVec 8) (f : RecordFields) (h : execStageWindow i f s = .next t) : t.freeIndex = s.freeIndex := by
  injection h with h; subst h; (try unfold onRequest); (repeat' split) <;> first | rfl | simp
theorem execStageWindow_pending {s t : State} (i : BitVec 8) (f : RecordFields) (h : execStageWindow i f s = .next t) : t.pending = s.pending := by
  injection h with h; subst h; (try unfold onRequest); (repeat' split) <;> first | rfl | simp

/-! ## execGetWindow -/

theorem execGetWindow_upstream {s t : State} (i j : BitVec 8) (h : execGetWindow i j s = .next t) : t.upstream = s.upstream := by
  injection h with h; subst h; (try unfold onRequest); (repeat' split) <;> first | rfl | simp
theorem execGetWindow_live {s t : State} (i j : BitVec 8) (h : execGetWindow i j s = .next t) : t.live = s.live := by
  injection h with h; subst h; (try unfold onRequest); (repeat' split) <;> first | rfl | simp
theorem execGetWindow_staged {s t : State} (i j : BitVec 8) (h : execGetWindow i j s = .next t) : t.staged = s.staged := by
  injection h with h; subst h; (try unfold onRequest); (repeat' split) <;> first | rfl | simp
theorem execGetWindow_windows {s t : State} (i j : BitVec 8) (h : execGetWindow i j s = .next t) : t.windows = s.windows := by
  injection h with h; subst h; (try unfold onRequest); (repeat' split) <;> first | rfl | simp
theorem execGetWindow_records {s t : State} (i j : BitVec 8) (h : execGetWindow i j s = .next t) : t.records = s.records := by
  injection h with h; subst h; (try unfold onRequest); (repeat' split) <;> first | rfl | simp
theorem execGetWindow_sealOrdinal {s t : State} (i j : BitVec 8) (h : execGetWindow i j s = .next t) : t.sealOrdinal = s.sealOrdinal := by
  injection h with h; subst h; (try unfold onRequest); (repeat' split) <;> first | rfl | simp
theorem execGetWindow_timing {s t : State} (i j : BitVec 8) (h : execGetWindow i j s = .next t) : t.timing = s.timing := by
  injection h with h; subst h; (try unfold onRequest); (repeat' split) <;> first | rfl | simp
theorem execGetWindow_tracker {s t : State} (i j : BitVec 8) (h : execGetWindow i j s = .next t) : t.tracker = s.tracker := by
  injection h with h; subst h; (try unfold onRequest); (repeat' split) <;> first | rfl | simp
theorem execGetWindow_engine {s t : State} (i j : BitVec 8) (h : execGetWindow i j s = .next t) : t.engine = s.engine := by
  injection h with h; subst h; (try unfold onRequest); (repeat' split) <;> first | rfl | simp
theorem execGetWindow_port {s t : State} (i j : BitVec 8) (h : execGetWindow i j s = .next t) : t.port = s.port := by
  injection h with h; subst h; (try unfold onRequest); (repeat' split) <;> first | rfl | simp
theorem execGetWindow_mode {s t : State} (i j : BitVec 8) (h : execGetWindow i j s = .next t) : t.mode = s.mode := by
  injection h with h; subst h; (try unfold onRequest); (repeat' split) <;> first | rfl | simp
theorem execGetWindow_applyPending {s t : State} (i j : BitVec 8) (h : execGetWindow i j s = .next t) : t.applyPending = s.applyPending := by
  injection h with h; subst h; (try unfold onRequest); (repeat' split) <;> first | rfl | simp
theorem execGetWindow_incidents {s t : State} (i j : BitVec 8) (h : execGetWindow i j s = .next t) : t.incidents = s.incidents := by
  injection h with h; subst h; (try unfold onRequest); (repeat' split) <;> first | rfl | simp
theorem execGetWindow_resetAsserted {s t : State} (i j : BitVec 8) (h : execGetWindow i j s = .next t) : t.resetAsserted = s.resetAsserted := by
  injection h with h; subst h; (try unfold onRequest); (repeat' split) <;> first | rfl | simp
theorem execGetWindow_memory {s t : State} (i j : BitVec 8) (h : execGetWindow i j s = .next t) : t.memory = s.memory := by
  injection h with h; subst h; (try unfold onRequest); (repeat' split) <;> first | rfl | simp
theorem execGetWindow_freeIndex {s t : State} (i j : BitVec 8) (h : execGetWindow i j s = .next t) : t.freeIndex = s.freeIndex := by
  injection h with h; subst h; (try unfold onRequest); (repeat' split) <;> first | rfl | simp
theorem execGetWindow_pending {s t : State} (i j : BitVec 8) (h : execGetWindow i j s = .next t) : t.pending = s.pending := by
  injection h with h; subst h; (try unfold onRequest); (repeat' split) <;> first | rfl | simp

/-! ## execApply -/

theorem execApply_staged {s t : State} (h : execApply s = .next t) : t.staged = s.staged := by
  injection h with h; subst h; (try unfold onRequest); (repeat' split) <;> first | rfl | simp
theorem execApply_timing {s t : State} (h : execApply s = .next t) : t.timing = s.timing := by
  injection h with h; subst h; (try unfold onRequest); (repeat' split) <;> first | rfl | simp
theorem execApply_tracker {s t : State} (h : execApply s = .next t) : t.tracker = s.tracker := by
  injection h with h; subst h; (try unfold onRequest); (repeat' split) <;> first | rfl | simp
theorem execApply_mode {s t : State} (h : execApply s = .next t) : t.mode = s.mode := by
  injection h with h; subst h; (try unfold onRequest); (repeat' split) <;> first | rfl | simp
theorem execApply_resetAsserted {s t : State} (h : execApply s = .next t) : t.resetAsserted = s.resetAsserted := by
  injection h with h; subst h; (try unfold onRequest); (repeat' split) <;> first | rfl | simp
theorem execApply_memory {s t : State} (h : execApply s = .next t) : t.memory = s.memory := by
  injection h with h; subst h; (try unfold onRequest); (repeat' split) <;> first | rfl | simp
theorem execApply_freeIndex {s t : State} (h : execApply s = .next t) : t.freeIndex = s.freeIndex := by
  injection h with h; subst h; (try unfold onRequest); (repeat' split) <;> first | rfl | simp
theorem execApply_pending {s t : State} (h : execApply s = .next t) : t.pending = s.pending := by
  injection h with h; subst h; (try unfold onRequest); (repeat' split) <;> first | rfl | simp

/-! ## execEnable -/

theorem execEnable_live {s t : State} (h : execEnable s = .next t) : t.live = s.live := by
  injection h with h; subst h; (try unfold onRequest); (repeat' split) <;> first | rfl | simp
theorem execEnable_staged {s t : State} (h : execEnable s = .next t) : t.staged = s.staged := by
  injection h with h; subst h; (try unfold onRequest); (repeat' split) <;> first | rfl | simp
theorem execEnable_timing {s t : State} (h : execEnable s = .next t) : t.timing = s.timing := by
  injection h with h; subst h; (try unfold onRequest); (repeat' split) <;> first | rfl | simp
theorem execEnable_tracker {s t : State} (h : execEnable s = .next t) : t.tracker = s.tracker := by
  injection h with h; subst h; (try unfold onRequest); (repeat' split) <;> first | rfl | simp
theorem execEnable_applyPending {s t : State} (h : execEnable s = .next t) : t.applyPending = s.applyPending := by
  injection h with h; subst h; (try unfold onRequest); (repeat' split) <;> first | rfl | simp
theorem execEnable_resetAsserted {s t : State} (h : execEnable s = .next t) : t.resetAsserted = s.resetAsserted := by
  injection h with h; subst h; (try unfold onRequest); (repeat' split) <;> first | rfl | simp
theorem execEnable_memory {s t : State} (h : execEnable s = .next t) : t.memory = s.memory := by
  injection h with h; subst h; (try unfold onRequest); (repeat' split) <;> first | rfl | simp
theorem execEnable_freeIndex {s t : State} (h : execEnable s = .next t) : t.freeIndex = s.freeIndex := by
  injection h with h; subst h; (try unfold onRequest); (repeat' split) <;> first | rfl | simp
theorem execEnable_pending {s t : State} (h : execEnable s = .next t) : t.pending = s.pending := by
  injection h with h; subst h; (try unfold onRequest); (repeat' split) <;> first | rfl | simp

/-! ## execDisableDrain -/

theorem execDisableDrain_staged {s t : State} (x : BitVec 8) (h : execDisableDrain x s = .next t) : t.staged = s.staged := by
  injection h with h; subst h; (try unfold onRequest); (repeat' split) <;> first | rfl | simp
theorem execDisableDrain_timing {s t : State} (x : BitVec 8) (h : execDisableDrain x s = .next t) : t.timing = s.timing := by
  injection h with h; subst h; (try unfold onRequest); (repeat' split) <;> first | rfl | simp
theorem execDisableDrain_tracker {s t : State} (x : BitVec 8) (h : execDisableDrain x s = .next t) : t.tracker = s.tracker := by
  injection h with h; subst h; (try unfold onRequest); (repeat' split) <;> first | rfl | simp
theorem execDisableDrain_resetAsserted {s t : State} (x : BitVec 8) (h : execDisableDrain x s = .next t) : t.resetAsserted = s.resetAsserted := by
  injection h with h; subst h; (try unfold onRequest); (repeat' split) <;> first | rfl | simp
theorem execDisableDrain_memory {s t : State} (x : BitVec 8) (h : execDisableDrain x s = .next t) : t.memory = s.memory := by
  injection h with h; subst h; (try unfold onRequest); (repeat' split) <;> first | rfl | simp
theorem execDisableDrain_freeIndex {s t : State} (x : BitVec 8) (h : execDisableDrain x s = .next t) : t.freeIndex = s.freeIndex := by
  injection h with h; subst h; (try unfold onRequest); (repeat' split) <;> first | rfl | simp
theorem execDisableDrain_pending {s t : State} (x : BitVec 8) (h : execDisableDrain x s = .next t) : t.pending = s.pending := by
  injection h with h; subst h; (try unfold onRequest); (repeat' split) <;> first | rfl | simp

/-! ## execDisableDiscard -/

theorem execDisableDiscard_staged {s t : State} (x : BitVec 8) (h : execDisableDiscard x s = .next t) : t.staged = s.staged := by
  injection h with h; subst h; (try unfold onRequest); (repeat' split) <;> first | rfl | simp
theorem execDisableDiscard_timing {s t : State} (x : BitVec 8) (h : execDisableDiscard x s = .next t) : t.timing = s.timing := by
  injection h with h; subst h; (try unfold onRequest); (repeat' split) <;> first | rfl | simp
theorem execDisableDiscard_tracker {s t : State} (x : BitVec 8) (h : execDisableDiscard x s = .next t) : t.tracker = s.tracker := by
  injection h with h; subst h; (try unfold onRequest); (repeat' split) <;> first | rfl | simp
theorem execDisableDiscard_resetAsserted {s t : State} (x : BitVec 8) (h : execDisableDiscard x s = .next t) : t.resetAsserted = s.resetAsserted := by
  injection h with h; subst h; (try unfold onRequest); (repeat' split) <;> first | rfl | simp
theorem execDisableDiscard_memory {s t : State} (x : BitVec 8) (h : execDisableDiscard x s = .next t) : t.memory = s.memory := by
  injection h with h; subst h; (try unfold onRequest); (repeat' split) <;> first | rfl | simp
theorem execDisableDiscard_freeIndex {s t : State} (x : BitVec 8) (h : execDisableDiscard x s = .next t) : t.freeIndex = s.freeIndex := by
  injection h with h; subst h; (try unfold onRequest); (repeat' split) <;> first | rfl | simp
theorem execDisableDiscard_pending {s t : State} (x : BitVec 8) (h : execDisableDiscard x s = .next t) : t.pending = s.pending := by
  injection h with h; subst h; (try unfold onRequest); (repeat' split) <;> first | rfl | simp

/-! ## execSealWindows -/

theorem execSealWindows_live {s t : State} (x : BitVec 8) (h : execSealWindows x s = .next t) : t.live = s.live := by
  injection h with h; subst h; (try unfold onRequest); (repeat' split) <;> first | rfl | simp
theorem execSealWindows_staged {s t : State} (x : BitVec 8) (h : execSealWindows x s = .next t) : t.staged = s.staged := by
  injection h with h; subst h; (try unfold onRequest); (repeat' split) <;> first | rfl | simp
theorem execSealWindows_timing {s t : State} (x : BitVec 8) (h : execSealWindows x s = .next t) : t.timing = s.timing := by
  injection h with h; subst h; (try unfold onRequest); (repeat' split) <;> first | rfl | simp
theorem execSealWindows_tracker {s t : State} (x : BitVec 8) (h : execSealWindows x s = .next t) : t.tracker = s.tracker := by
  injection h with h; subst h; (try unfold onRequest); (repeat' split) <;> first | rfl | simp
theorem execSealWindows_mode {s t : State} (x : BitVec 8) (h : execSealWindows x s = .next t) : t.mode = s.mode := by
  injection h with h; subst h; (try unfold onRequest); (repeat' split) <;> first | rfl | simp
theorem execSealWindows_applyPending {s t : State} (x : BitVec 8) (h : execSealWindows x s = .next t) : t.applyPending = s.applyPending := by
  injection h with h; subst h; (try unfold onRequest); (repeat' split) <;> first | rfl | simp
theorem execSealWindows_resetAsserted {s t : State} (x : BitVec 8) (h : execSealWindows x s = .next t) : t.resetAsserted = s.resetAsserted := by
  injection h with h; subst h; (try unfold onRequest); (repeat' split) <;> first | rfl | simp
theorem execSealWindows_memory {s t : State} (x : BitVec 8) (h : execSealWindows x s = .next t) : t.memory = s.memory := by
  injection h with h; subst h; (try unfold onRequest); (repeat' split) <;> first | rfl | simp
theorem execSealWindows_freeIndex {s t : State} (x : BitVec 8) (h : execSealWindows x s = .next t) : t.freeIndex = s.freeIndex := by
  injection h with h; subst h; (try unfold onRequest); (repeat' split) <;> first | rfl | simp
theorem execSealWindows_pending {s t : State} (x : BitVec 8) (h : execSealWindows x s = .next t) : t.pending = s.pending := by
  injection h with h; subst h; (try unfold onRequest); (repeat' split) <;> first | rfl | simp

/-! ## execFlush -/

theorem execFlush_live {s t : State} (x : BitVec 8) (h : execFlush x s = .next t) : t.live = s.live := by
  injection h with h; subst h; (try unfold onRequest); (repeat' split) <;> first | rfl | simp
theorem execFlush_staged {s t : State} (x : BitVec 8) (h : execFlush x s = .next t) : t.staged = s.staged := by
  injection h with h; subst h; (try unfold onRequest); (repeat' split) <;> first | rfl | simp
theorem execFlush_timing {s t : State} (x : BitVec 8) (h : execFlush x s = .next t) : t.timing = s.timing := by
  injection h with h; subst h; (try unfold onRequest); (repeat' split) <;> first | rfl | simp
theorem execFlush_tracker {s t : State} (x : BitVec 8) (h : execFlush x s = .next t) : t.tracker = s.tracker := by
  injection h with h; subst h; (try unfold onRequest); (repeat' split) <;> first | rfl | simp
theorem execFlush_mode {s t : State} (x : BitVec 8) (h : execFlush x s = .next t) : t.mode = s.mode := by
  injection h with h; subst h; (try unfold onRequest); (repeat' split) <;> first | rfl | simp
theorem execFlush_applyPending {s t : State} (x : BitVec 8) (h : execFlush x s = .next t) : t.applyPending = s.applyPending := by
  injection h with h; subst h; (try unfold onRequest); (repeat' split) <;> first | rfl | simp
theorem execFlush_resetAsserted {s t : State} (x : BitVec 8) (h : execFlush x s = .next t) : t.resetAsserted = s.resetAsserted := by
  injection h with h; subst h; (try unfold onRequest); (repeat' split) <;> first | rfl | simp
theorem execFlush_memory {s t : State} (x : BitVec 8) (h : execFlush x s = .next t) : t.memory = s.memory := by
  injection h with h; subst h; (try unfold onRequest); (repeat' split) <;> first | rfl | simp
theorem execFlush_freeIndex {s t : State} (x : BitVec 8) (h : execFlush x s = .next t) : t.freeIndex = s.freeIndex := by
  injection h with h; subst h; (try unfold onRequest); (repeat' split) <;> first | rfl | simp
theorem execFlush_pending {s t : State} (x : BitVec 8) (h : execFlush x s = .next t) : t.pending = s.pending := by
  injection h with h; subst h; (try unfold onRequest); (repeat' split) <;> first | rfl | simp

/-! ## execWindowStatus -/

theorem execWindowStatus_upstream {s t : State} (x : BitVec 8) (h : execWindowStatus x s = .next t) : t.upstream = s.upstream := by
  injection h with h; subst h; (try unfold onRequest); (repeat' split) <;> first | rfl | simp
theorem execWindowStatus_live {s t : State} (x : BitVec 8) (h : execWindowStatus x s = .next t) : t.live = s.live := by
  injection h with h; subst h; (try unfold onRequest); (repeat' split) <;> first | rfl | simp
theorem execWindowStatus_staged {s t : State} (x : BitVec 8) (h : execWindowStatus x s = .next t) : t.staged = s.staged := by
  injection h with h; subst h; (try unfold onRequest); (repeat' split) <;> first | rfl | simp
theorem execWindowStatus_windows {s t : State} (x : BitVec 8) (h : execWindowStatus x s = .next t) : t.windows = s.windows := by
  injection h with h; subst h; (try unfold onRequest); (repeat' split) <;> first | rfl | simp
theorem execWindowStatus_records {s t : State} (x : BitVec 8) (h : execWindowStatus x s = .next t) : t.records = s.records := by
  injection h with h; subst h; (try unfold onRequest); (repeat' split) <;> first | rfl | simp
theorem execWindowStatus_sealOrdinal {s t : State} (x : BitVec 8) (h : execWindowStatus x s = .next t) : t.sealOrdinal = s.sealOrdinal := by
  injection h with h; subst h; (try unfold onRequest); (repeat' split) <;> first | rfl | simp
theorem execWindowStatus_timing {s t : State} (x : BitVec 8) (h : execWindowStatus x s = .next t) : t.timing = s.timing := by
  injection h with h; subst h; (try unfold onRequest); (repeat' split) <;> first | rfl | simp
theorem execWindowStatus_tracker {s t : State} (x : BitVec 8) (h : execWindowStatus x s = .next t) : t.tracker = s.tracker := by
  injection h with h; subst h; (try unfold onRequest); (repeat' split) <;> first | rfl | simp
theorem execWindowStatus_engine {s t : State} (x : BitVec 8) (h : execWindowStatus x s = .next t) : t.engine = s.engine := by
  injection h with h; subst h; (try unfold onRequest); (repeat' split) <;> first | rfl | simp
theorem execWindowStatus_port {s t : State} (x : BitVec 8) (h : execWindowStatus x s = .next t) : t.port = s.port := by
  injection h with h; subst h; (try unfold onRequest); (repeat' split) <;> first | rfl | simp
theorem execWindowStatus_mode {s t : State} (x : BitVec 8) (h : execWindowStatus x s = .next t) : t.mode = s.mode := by
  injection h with h; subst h; (try unfold onRequest); (repeat' split) <;> first | rfl | simp
theorem execWindowStatus_applyPending {s t : State} (x : BitVec 8) (h : execWindowStatus x s = .next t) : t.applyPending = s.applyPending := by
  injection h with h; subst h; (try unfold onRequest); (repeat' split) <;> first | rfl | simp
theorem execWindowStatus_incidents {s t : State} (x : BitVec 8) (h : execWindowStatus x s = .next t) : t.incidents = s.incidents := by
  injection h with h; subst h; (try unfold onRequest); (repeat' split) <;> first | rfl | simp
theorem execWindowStatus_resetAsserted {s t : State} (x : BitVec 8) (h : execWindowStatus x s = .next t) : t.resetAsserted = s.resetAsserted := by
  injection h with h; subst h; (try unfold onRequest); (repeat' split) <;> first | rfl | simp
theorem execWindowStatus_memory {s t : State} (x : BitVec 8) (h : execWindowStatus x s = .next t) : t.memory = s.memory := by
  injection h with h; subst h; (try unfold onRequest); (repeat' split) <;> first | rfl | simp
theorem execWindowStatus_freeIndex {s t : State} (x : BitVec 8) (h : execWindowStatus x s = .next t) : t.freeIndex = s.freeIndex := by
  injection h with h; subst h; (try unfold onRequest); (repeat' split) <;> first | rfl | simp
theorem execWindowStatus_pending {s t : State} (x : BitVec 8) (h : execWindowStatus x s = .next t) : t.pending = s.pending := by
  injection h with h; subst h; (try unfold onRequest); (repeat' split) <;> first | rfl | simp

/-! ## execTakeIncident -/

theorem execTakeIncident_upstream {s t : State} (h : execTakeIncident s = .next t) : t.upstream = s.upstream := by
  injection h with h; subst h; (try unfold onRequest); (repeat' split) <;> first | rfl | simp
theorem execTakeIncident_live {s t : State} (h : execTakeIncident s = .next t) : t.live = s.live := by
  injection h with h; subst h; (try unfold onRequest); (repeat' split) <;> first | rfl | simp
theorem execTakeIncident_staged {s t : State} (h : execTakeIncident s = .next t) : t.staged = s.staged := by
  injection h with h; subst h; (try unfold onRequest); (repeat' split) <;> first | rfl | simp
theorem execTakeIncident_windows {s t : State} (h : execTakeIncident s = .next t) : t.windows = s.windows := by
  injection h with h; subst h; (try unfold onRequest); (repeat' split) <;> first | rfl | simp
theorem execTakeIncident_records {s t : State} (h : execTakeIncident s = .next t) : t.records = s.records := by
  injection h with h; subst h; (try unfold onRequest); (repeat' split) <;> first | rfl | simp
theorem execTakeIncident_sealOrdinal {s t : State} (h : execTakeIncident s = .next t) : t.sealOrdinal = s.sealOrdinal := by
  injection h with h; subst h; (try unfold onRequest); (repeat' split) <;> first | rfl | simp
theorem execTakeIncident_timing {s t : State} (h : execTakeIncident s = .next t) : t.timing = s.timing := by
  injection h with h; subst h; (try unfold onRequest); (repeat' split) <;> first | rfl | simp
theorem execTakeIncident_tracker {s t : State} (h : execTakeIncident s = .next t) : t.tracker = s.tracker := by
  injection h with h; subst h; (try unfold onRequest); (repeat' split) <;> first | rfl | simp
theorem execTakeIncident_engine {s t : State} (h : execTakeIncident s = .next t) : t.engine = s.engine := by
  injection h with h; subst h; (try unfold onRequest); (repeat' split) <;> first | rfl | simp
theorem execTakeIncident_port {s t : State} (h : execTakeIncident s = .next t) : t.port = s.port := by
  injection h with h; subst h; (try unfold onRequest); (repeat' split) <;> first | rfl | simp
theorem execTakeIncident_mode {s t : State} (h : execTakeIncident s = .next t) : t.mode = s.mode := by
  injection h with h; subst h; (try unfold onRequest); (repeat' split) <;> first | rfl | simp
theorem execTakeIncident_applyPending {s t : State} (h : execTakeIncident s = .next t) : t.applyPending = s.applyPending := by
  injection h with h; subst h; (try unfold onRequest); (repeat' split) <;> first | rfl | simp
theorem execTakeIncident_resetAsserted {s t : State} (h : execTakeIncident s = .next t) : t.resetAsserted = s.resetAsserted := by
  injection h with h; subst h; (try unfold onRequest); (repeat' split) <;> first | rfl | simp
theorem execTakeIncident_memory {s t : State} (h : execTakeIncident s = .next t) : t.memory = s.memory := by
  injection h with h; subst h; (try unfold onRequest); (repeat' split) <;> first | rfl | simp
theorem execTakeIncident_freeIndex {s t : State} (h : execTakeIncident s = .next t) : t.freeIndex = s.freeIndex := by
  injection h with h; subst h; (try unfold onRequest); (repeat' split) <;> first | rfl | simp
theorem execTakeIncident_pending {s t : State} (h : execTakeIncident s = .next t) : t.pending = s.pending := by
  injection h with h; subst h; (try unfold onRequest); (repeat' split) <;> first | rfl | simp

/-! ## execRestart -/

theorem execRestart_live {s t : State} (h : execRestart s = .next t) : t.live = s.live := by
  injection h with h; subst h; (try unfold onRequest); (repeat' split) <;> first | rfl | simp
theorem execRestart_staged {s t : State} (h : execRestart s = .next t) : t.staged = s.staged := by
  injection h with h; subst h; (try unfold onRequest); (repeat' split) <;> first | rfl | simp
theorem execRestart_timing {s t : State} (h : execRestart s = .next t) : t.timing = s.timing := by
  injection h with h; subst h; (try unfold onRequest); (repeat' split) <;> first | rfl | simp
theorem execRestart_resetAsserted {s t : State} (h : execRestart s = .next t) : t.resetAsserted = s.resetAsserted := by
  injection h with h; subst h; (try unfold onRequest); (repeat' split) <;> first | rfl | simp
theorem execRestart_memory {s t : State} (h : execRestart s = .next t) : t.memory = s.memory := by
  injection h with h; subst h; (try unfold onRequest); (repeat' split) <;> first | rfl | simp
theorem execRestart_freeIndex {s t : State} (h : execRestart s = .next t) : t.freeIndex = s.freeIndex := by
  injection h with h; subst h; (try unfold onRequest); (repeat' split) <;> first | rfl | simp
theorem execRestart_pending {s t : State} (h : execRestart s = .next t) : t.pending = s.pending := by
  injection h with h; subst h; (try unfold onRequest); (repeat' split) <;> first | rfl | simp

/-! ## execResetLineEnd -/

theorem execResetLineEnd_upstream {s t : State} (h : execResetLineEnd s = .next t) : t.upstream = s.upstream := by
  injection h with h; subst h; (try unfold onRequest); (repeat' split) <;> first | rfl | simp
theorem execResetLineEnd_live {s t : State} (h : execResetLineEnd s = .next t) : t.live = s.live := by
  injection h with h; subst h; (try unfold onRequest); (repeat' split) <;> first | rfl | simp
theorem execResetLineEnd_staged {s t : State} (h : execResetLineEnd s = .next t) : t.staged = s.staged := by
  injection h with h; subst h; (try unfold onRequest); (repeat' split) <;> first | rfl | simp
theorem execResetLineEnd_windows {s t : State} (h : execResetLineEnd s = .next t) : t.windows = s.windows := by
  injection h with h; subst h; (try unfold onRequest); (repeat' split) <;> first | rfl | simp
theorem execResetLineEnd_records {s t : State} (h : execResetLineEnd s = .next t) : t.records = s.records := by
  injection h with h; subst h; (try unfold onRequest); (repeat' split) <;> first | rfl | simp
theorem execResetLineEnd_sealOrdinal {s t : State} (h : execResetLineEnd s = .next t) : t.sealOrdinal = s.sealOrdinal := by
  injection h with h; subst h; (try unfold onRequest); (repeat' split) <;> first | rfl | simp
theorem execResetLineEnd_timing {s t : State} (h : execResetLineEnd s = .next t) : t.timing = s.timing := by
  injection h with h; subst h; (try unfold onRequest); (repeat' split) <;> first | rfl | simp
theorem execResetLineEnd_tracker {s t : State} (h : execResetLineEnd s = .next t) : t.tracker = s.tracker := by
  injection h with h; subst h; (try unfold onRequest); (repeat' split) <;> first | rfl | simp
theorem execResetLineEnd_engine {s t : State} (h : execResetLineEnd s = .next t) : t.engine = s.engine := by
  injection h with h; subst h; (try unfold onRequest); (repeat' split) <;> first | rfl | simp
theorem execResetLineEnd_mode {s t : State} (h : execResetLineEnd s = .next t) : t.mode = s.mode := by
  injection h with h; subst h; (try unfold onRequest); (repeat' split) <;> first | rfl | simp
theorem execResetLineEnd_applyPending {s t : State} (h : execResetLineEnd s = .next t) : t.applyPending = s.applyPending := by
  injection h with h; subst h; (try unfold onRequest); (repeat' split) <;> first | rfl | simp
theorem execResetLineEnd_incidents {s t : State} (h : execResetLineEnd s = .next t) : t.incidents = s.incidents := by
  injection h with h; subst h; (try unfold onRequest); (repeat' split) <;> first | rfl | simp
theorem execResetLineEnd_link {s t : State} (h : execResetLineEnd s = .next t) : t.link = s.link := by
  injection h with h; subst h; (try unfold onRequest); (repeat' split) <;> first | rfl | simp
theorem execResetLineEnd_memory {s t : State} (h : execResetLineEnd s = .next t) : t.memory = s.memory := by
  injection h with h; subst h; (try unfold onRequest); (repeat' split) <;> first | rfl | simp
theorem execResetLineEnd_freeIndex {s t : State} (h : execResetLineEnd s = .next t) : t.freeIndex = s.freeIndex := by
  injection h with h; subst h; (try unfold onRequest); (repeat' split) <;> first | rfl | simp
theorem execResetLineEnd_pending {s t : State} (h : execResetLineEnd s = .next t) : t.pending = s.pending := by
  injection h with h; subst h; (try unfold onRequest); (repeat' split) <;> first | rfl | simp

/-! ## execSckRisingEdge -/

theorem execSckRisingEdge_upstream {s t : State} (b : Bool) (h : execSckRisingEdge b s = .next t) : t.upstream = s.upstream := by
  injection h with h; subst h; (try unfold onRequest); (repeat' split) <;> first | rfl | simp
theorem execSckRisingEdge_live {s t : State} (b : Bool) (h : execSckRisingEdge b s = .next t) : t.live = s.live := by
  injection h with h; subst h; (try unfold onRequest); (repeat' split) <;> first | rfl | simp
theorem execSckRisingEdge_staged {s t : State} (b : Bool) (h : execSckRisingEdge b s = .next t) : t.staged = s.staged := by
  injection h with h; subst h; (try unfold onRequest); (repeat' split) <;> first | rfl | simp
theorem execSckRisingEdge_windows {s t : State} (b : Bool) (h : execSckRisingEdge b s = .next t) : t.windows = s.windows := by
  injection h with h; subst h; (try unfold onRequest); (repeat' split) <;> first | rfl | simp
theorem execSckRisingEdge_records {s t : State} (b : Bool) (h : execSckRisingEdge b s = .next t) : t.records = s.records := by
  injection h with h; subst h; (try unfold onRequest); (repeat' split) <;> first | rfl | simp
theorem execSckRisingEdge_sealOrdinal {s t : State} (b : Bool) (h : execSckRisingEdge b s = .next t) : t.sealOrdinal = s.sealOrdinal := by
  injection h with h; subst h; (try unfold onRequest); (repeat' split) <;> first | rfl | simp
theorem execSckRisingEdge_timing {s t : State} (b : Bool) (h : execSckRisingEdge b s = .next t) : t.timing = s.timing := by
  injection h with h; subst h; (try unfold onRequest); (repeat' split) <;> first | rfl | simp
theorem execSckRisingEdge_tracker {s t : State} (b : Bool) (h : execSckRisingEdge b s = .next t) : t.tracker = s.tracker := by
  injection h with h; subst h; (try unfold onRequest); (repeat' split) <;> first | rfl | simp
theorem execSckRisingEdge_engine {s t : State} (b : Bool) (h : execSckRisingEdge b s = .next t) : t.engine = s.engine := by
  injection h with h; subst h; (try unfold onRequest); (repeat' split) <;> first | rfl | simp
theorem execSckRisingEdge_port {s t : State} (b : Bool) (h : execSckRisingEdge b s = .next t) : t.port = s.port := by
  injection h with h; subst h; (try unfold onRequest); (repeat' split) <;> first | rfl | simp
theorem execSckRisingEdge_mode {s t : State} (b : Bool) (h : execSckRisingEdge b s = .next t) : t.mode = s.mode := by
  injection h with h; subst h; (try unfold onRequest); (repeat' split) <;> first | rfl | simp
theorem execSckRisingEdge_applyPending {s t : State} (b : Bool) (h : execSckRisingEdge b s = .next t) : t.applyPending = s.applyPending := by
  injection h with h; subst h; (try unfold onRequest); (repeat' split) <;> first | rfl | simp
theorem execSckRisingEdge_incidents {s t : State} (b : Bool) (h : execSckRisingEdge b s = .next t) : t.incidents = s.incidents := by
  injection h with h; subst h; (try unfold onRequest); (repeat' split) <;> first | rfl | simp
theorem execSckRisingEdge_resetAsserted {s t : State} (b : Bool) (h : execSckRisingEdge b s = .next t) : t.resetAsserted = s.resetAsserted := by
  injection h with h; subst h; (try unfold onRequest); (repeat' split) <;> first | rfl | simp
theorem execSckRisingEdge_memory {s t : State} (b : Bool) (h : execSckRisingEdge b s = .next t) : t.memory = s.memory := by
  injection h with h; subst h; (try unfold onRequest); (repeat' split) <;> first | rfl | simp
theorem execSckRisingEdge_freeIndex {s t : State} (b : Bool) (h : execSckRisingEdge b s = .next t) : t.freeIndex = s.freeIndex := by
  injection h with h; subst h; (try unfold onRequest); (repeat' split) <;> first | rfl | simp
theorem execSckRisingEdge_pending {s t : State} (b : Bool) (h : execSckRisingEdge b s = .next t) : t.pending = s.pending := by
  injection h with h; subst h; (try unfold onRequest); (repeat' split) <;> first | rfl | simp

/-! ## execSckFallingEdge -/

theorem execSckFallingEdge_upstream {s t : State} (h : execSckFallingEdge s = .next t) : t.upstream = s.upstream := by
  injection h with h; subst h; (try unfold onRequest); (repeat' split) <;> first | rfl | simp
theorem execSckFallingEdge_live {s t : State} (h : execSckFallingEdge s = .next t) : t.live = s.live := by
  injection h with h; subst h; (try unfold onRequest); (repeat' split) <;> first | rfl | simp
theorem execSckFallingEdge_staged {s t : State} (h : execSckFallingEdge s = .next t) : t.staged = s.staged := by
  injection h with h; subst h; (try unfold onRequest); (repeat' split) <;> first | rfl | simp
theorem execSckFallingEdge_windows {s t : State} (h : execSckFallingEdge s = .next t) : t.windows = s.windows := by
  injection h with h; subst h; (try unfold onRequest); (repeat' split) <;> first | rfl | simp
theorem execSckFallingEdge_records {s t : State} (h : execSckFallingEdge s = .next t) : t.records = s.records := by
  injection h with h; subst h; (try unfold onRequest); (repeat' split) <;> first | rfl | simp
theorem execSckFallingEdge_sealOrdinal {s t : State} (h : execSckFallingEdge s = .next t) : t.sealOrdinal = s.sealOrdinal := by
  injection h with h; subst h; (try unfold onRequest); (repeat' split) <;> first | rfl | simp
theorem execSckFallingEdge_timing {s t : State} (h : execSckFallingEdge s = .next t) : t.timing = s.timing := by
  injection h with h; subst h; (try unfold onRequest); (repeat' split) <;> first | rfl | simp
theorem execSckFallingEdge_tracker {s t : State} (h : execSckFallingEdge s = .next t) : t.tracker = s.tracker := by
  injection h with h; subst h; (try unfold onRequest); (repeat' split) <;> first | rfl | simp
theorem execSckFallingEdge_engine {s t : State} (h : execSckFallingEdge s = .next t) : t.engine = s.engine := by
  injection h with h; subst h; (try unfold onRequest); (repeat' split) <;> first | rfl | simp
theorem execSckFallingEdge_port {s t : State} (h : execSckFallingEdge s = .next t) : t.port = s.port := by
  injection h with h; subst h; (try unfold onRequest); (repeat' split) <;> first | rfl | simp
theorem execSckFallingEdge_mode {s t : State} (h : execSckFallingEdge s = .next t) : t.mode = s.mode := by
  injection h with h; subst h; (try unfold onRequest); (repeat' split) <;> first | rfl | simp
theorem execSckFallingEdge_applyPending {s t : State} (h : execSckFallingEdge s = .next t) : t.applyPending = s.applyPending := by
  injection h with h; subst h; (try unfold onRequest); (repeat' split) <;> first | rfl | simp
theorem execSckFallingEdge_incidents {s t : State} (h : execSckFallingEdge s = .next t) : t.incidents = s.incidents := by
  injection h with h; subst h; (try unfold onRequest); (repeat' split) <;> first | rfl | simp
theorem execSckFallingEdge_resetAsserted {s t : State} (h : execSckFallingEdge s = .next t) : t.resetAsserted = s.resetAsserted := by
  injection h with h; subst h; (try unfold onRequest); (repeat' split) <;> first | rfl | simp
theorem execSckFallingEdge_memory {s t : State} (h : execSckFallingEdge s = .next t) : t.memory = s.memory := by
  injection h with h; subst h; (try unfold onRequest); (repeat' split) <;> first | rfl | simp
theorem execSckFallingEdge_freeIndex {s t : State} (h : execSckFallingEdge s = .next t) : t.freeIndex = s.freeIndex := by
  injection h with h; subst h; (try unfold onRequest); (repeat' split) <;> first | rfl | simp
theorem execSckFallingEdge_pending {s t : State} (h : execSckFallingEdge s = .next t) : t.pending = s.pending := by
  injection h with h; subst h; (try unfold onRequest); (repeat' split) <;> first | rfl | simp

/-! ## execNoBitReceived -/

theorem execNoBitReceived_upstream {s t : State} (h : execNoBitReceived s = .next t) : t.upstream = s.upstream := by
  injection h with h; subst h; (try unfold onRequest); (repeat' split) <;> first | rfl | simp
theorem execNoBitReceived_live {s t : State} (h : execNoBitReceived s = .next t) : t.live = s.live := by
  injection h with h; subst h; (try unfold onRequest); (repeat' split) <;> first | rfl | simp
theorem execNoBitReceived_staged {s t : State} (h : execNoBitReceived s = .next t) : t.staged = s.staged := by
  injection h with h; subst h; (try unfold onRequest); (repeat' split) <;> first | rfl | simp
theorem execNoBitReceived_windows {s t : State} (h : execNoBitReceived s = .next t) : t.windows = s.windows := by
  injection h with h; subst h; (try unfold onRequest); (repeat' split) <;> first | rfl | simp
theorem execNoBitReceived_records {s t : State} (h : execNoBitReceived s = .next t) : t.records = s.records := by
  injection h with h; subst h; (try unfold onRequest); (repeat' split) <;> first | rfl | simp
theorem execNoBitReceived_sealOrdinal {s t : State} (h : execNoBitReceived s = .next t) : t.sealOrdinal = s.sealOrdinal := by
  injection h with h; subst h; (try unfold onRequest); (repeat' split) <;> first | rfl | simp
theorem execNoBitReceived_timing {s t : State} (h : execNoBitReceived s = .next t) : t.timing = s.timing := by
  injection h with h; subst h; (try unfold onRequest); (repeat' split) <;> first | rfl | simp
theorem execNoBitReceived_tracker {s t : State} (h : execNoBitReceived s = .next t) : t.tracker = s.tracker := by
  injection h with h; subst h; (try unfold onRequest); (repeat' split) <;> first | rfl | simp
theorem execNoBitReceived_engine {s t : State} (h : execNoBitReceived s = .next t) : t.engine = s.engine := by
  injection h with h; subst h; (try unfold onRequest); (repeat' split) <;> first | rfl | simp
theorem execNoBitReceived_port {s t : State} (h : execNoBitReceived s = .next t) : t.port = s.port := by
  injection h with h; subst h; (try unfold onRequest); (repeat' split) <;> first | rfl | simp
theorem execNoBitReceived_mode {s t : State} (h : execNoBitReceived s = .next t) : t.mode = s.mode := by
  injection h with h; subst h; (try unfold onRequest); (repeat' split) <;> first | rfl | simp
theorem execNoBitReceived_applyPending {s t : State} (h : execNoBitReceived s = .next t) : t.applyPending = s.applyPending := by
  injection h with h; subst h; (try unfold onRequest); (repeat' split) <;> first | rfl | simp
theorem execNoBitReceived_incidents {s t : State} (h : execNoBitReceived s = .next t) : t.incidents = s.incidents := by
  injection h with h; subst h; (try unfold onRequest); (repeat' split) <;> first | rfl | simp
theorem execNoBitReceived_resetAsserted {s t : State} (h : execNoBitReceived s = .next t) : t.resetAsserted = s.resetAsserted := by
  injection h with h; subst h; (try unfold onRequest); (repeat' split) <;> first | rfl | simp
theorem execNoBitReceived_memory {s t : State} (h : execNoBitReceived s = .next t) : t.memory = s.memory := by
  injection h with h; subst h; (try unfold onRequest); (repeat' split) <;> first | rfl | simp
theorem execNoBitReceived_freeIndex {s t : State} (h : execNoBitReceived s = .next t) : t.freeIndex = s.freeIndex := by
  injection h with h; subst h; (try unfold onRequest); (repeat' split) <;> first | rfl | simp
theorem execNoBitReceived_pending {s t : State} (h : execNoBitReceived s = .next t) : t.pending = s.pending := by
  injection h with h; subst h; (try unfold onRequest); (repeat' split) <;> first | rfl | simp

end Sys2Proof.Machine
end

