-- ==== Sys2Proof/Laws/Link.lean ====
section
/-! SUPPORT. The service link: a well-formed request is judged as its command, and what a row's frame asks of the link. -/

namespace Sys2Proof.Machine

theorem commandOf_commandByte (c : Command) : commandOf (commandByte c) = some c := by
  cases c <;> rfl

theorem commandByte_not_readBack (c : Command) : commandByte c ≠ 0x00 ∧ commandByte c ≠ 0xFF := by
  cases c <;> decide

theorem payloadLength_le (c : Command) : payloadLength c ≤ 19 := by
  cases c <;> decide

theorem requestBytes_length (c : Command) (p : List Byte) : (requestBytes c p).length = p.length + 3 := by
  simp [requestBytes]

theorem byteOf_toNat {n : Nat} (h : n < 256) : (byteOf n).toNat = n := by
  simp [byteOf, Nat.mod_eq_of_lt h]

/-- A request with its command's payload length is judged as that command (R162 case 6, R164). -/
theorem judge_requestBytes (c : Command) (p : List Byte) (h : p.length = payloadLength c) :
    judgeFrame (requestBytes c p) 0 = .command c := by
  have hle := payloadLength_le c
  have hlen := requestBytes_length c p
  have hstored : storedOf (requestBytes c p) = requestBytes c p :=
    List.take_of_length_le (by rw [hlen, h]; unfold Config.storedBytes; omega)
  have hcount : countOf (requestBytes c p) = p.length + 3 := by
    unfold countOf
    rw [hlen]
    unfold Config.storedBytes
    omega
  have hl : (byteOf p.length).toNat = p.length := byteOf_toNat (by omega)
  have hnb := commandByte_not_readBack c
  unfold judgeFrame
  rw [hstored, hcount]
  unfold judge
  have hget : (requestBytes c p)[0]? = some (commandByte c) := by simp [requestBytes]
  have hgd0 : (requestBytes c p).getD 0 0 = commandByte c := by simp [requestBytes]
  have hgd1 : (requestBytes c p).getD 1 0 = byteOf p.length := by simp [requestBytes]
  have htake : (requestBytes c p).take (p.length + 2) = commandByte c :: byteOf p.length :: p := by
    simp [requestBytes]
  have hgd2 : (requestBytes c p).getD (p.length + 2) 0 = checkByte (commandByte c :: byteOf p.length :: p) := by
    simp [requestBytes, List.getD]
  rw [hget, hgd0, hgd1, hl]
  dsimp only
  rw [hgd2, htake]
  have h64 : ¬ 64 < p.length := by omega
  have hrb : (some (commandByte c) == some 0x00 || some (commandByte c) == some 0xFF) = false := by
    simp only [Option.some_beq_some, beq_eq_false_iff_ne.mpr hnb.1, beq_eq_false_iff_ne.mpr hnb.2, Bool.or_self]
  rw [hrb]
  simp [commandOf_commandByte, ← h, h64]

theorem requestEnds_eq (s : State) (c : Command) (p : List Byte) (h : p.length = payloadLength c) :
    s.requestEnds c p = s.frameCanBe (requestBytes c p) 0 := by
  unfold State.requestEnds
  rw [judge_requestBytes c p h]
  simp

/-- R164: a request whose frame can end is executed. -/
theorem onRequest_run (c : Command) (p : List Byte) (run : State → State) (s : State)
    (hl : p.length = payloadLength c) (h : s.frameCanBe (requestBytes c p) 0 = true) : onRequest c p run s = run s := by
  unfold onRequest
  rw [requestEnds_eq s c p hl, h]
  rfl

/-- A request whose frame cannot end here is not this event. -/
theorem onRequest_not (c : Command) (p : List Byte) (run : State → State) (s : State)
    (hl : p.length = payloadLength c) (h : s.frameCanBe (requestBytes c p) 0 = false) : onRequest c p run s = s := by
  unfold onRequest
  rw [requestEnds_eq s c p hl, h]
  rfl

/-- Either the command runs or nothing changes. -/
theorem onRequest_cases (c : Command) (p : List Byte) (run : State → State) (s : State) :
    onRequest c p run s = run s ∨ onRequest c p run s = s := by
  unfold onRequest
  split
  · exact .inl rfl
  · exact .inr rfl

/-- With no frame in progress and RSTn withdrawn, any frame can come whole. -/
theorem frameCanBe_of_idle (s : State) (bytes : List Byte) (extra : Nat) (hr : s.resetAsserted = false)
    (hl : s.link.inProgress = false) : s.frameCanBe bytes extra = true := by
  simp [State.frameCanBe, Link.fits, hr, hl]

/-- While RSTn is asserted no frame ends (R159). -/
theorem frameCanBe_of_reset (s : State) (bytes : List Byte) (extra : Nat) (hr : s.resetAsserted = true) :
    s.frameCanBe bytes extra = false := by
  simp [State.frameCanBe, hr]

@[simp] theorem be16_length (x : BitVec 16) : (be16 x).length = 2 := rfl
@[simp] theorem be24_length (x : BitVec 24) : (be24 x).length = 3 := rfl
@[simp] theorem timingPayload_length (v : TimingFields) : (timingPayload v).length = 12 := rfl
@[simp] theorem recordPayload_length (f : RecordFields) : (recordPayload f).length = 18 := rfl

end Sys2Proof.Machine
end

