-- ==== Sys2Proof/Laws/Changes.lean ====
section
/-! SUPPORT. What a step can do, said once: every command but the reset line's two, and every microsecond, is a chain of
the elementary changes listed here, each with the condition under which it is made. A law of the part is kept by every
step when each elementary change keeps it. -/

namespace Sys2Proof.Machine

/-- The two commands of the reset line. -/
def isReset : Instr → Bool
  | .resetLine | .resetLineEnd => true
  | _ => false

/-- The counters of the link stay within R158's bounds, and what is stored is the first 67 bytes. -/
def LinkBounds (l : Link) : Prop :=
  l.stored.length = min l.byteCount 67 ∧ l.byteCount ≤ 68 ∧ l.bits < 8 ∧ l.outBits < 8

theorem idleLink_bounds (r : Response) : LinkBounds (idleLink r) := by
  simp [LinkBounds, idleLink]

theorem start_bounds (l : Link) : LinkBounds l.start := by
  simp [LinkBounds, Link.start, idleLink]

theorem takeBit_bounds {l : Link} (b : Bool) (h : LinkBounds l) : LinkBounds (l.takeBit b) := by
  obtain ⟨h1, h2, h3, h4⟩ := h
  unfold Link.takeBit Link.takeByte
  dsimp only
  split
  · refine ⟨?_, ?_, by simp, h4⟩
    · unfold Config.storedBytes
      repeat' split
      all_goals simp
      all_goals omega
    · unfold Config.storedBytes
      dsimp only
      split <;> omega
  · rename_i hb
    have hb : l.bits ≠ 7 := by simpa using hb
    exact ⟨h1, h2, by dsimp only; omega, h4⟩

theorem shiftOut_bounds {l : Link} (h : LinkBounds l) : LinkBounds l.shiftOut := by
  obtain ⟨h1, h2, h3, h4⟩ := h
  unfold Link.shiftOut
  split
  · exact ⟨h1, h2, h3, by simp⟩
  · rename_i hb
    have hb : l.outBits ≠ 7 := by simpa using hb
    exact ⟨h1, h2, h3, by dsimp only; omega⟩

/-- The upstream port's transactions: direct writes and memory reads (R121). -/
def Claim.ofUpstream : Claim → Bool
  | .directWrite _ _ _ | .memoryRead _ => true
  | .entryWrite _ _ _ | .receiptWrite _ _ => false

/-- The upstream port has no transaction at the downstream port: it is idle, or its write waits. -/
def NothingSent (s : State) : Prop :=
  s.upstream.phase = .idle ∨ s.upstream.phase = .wait

theorem nothingSent_of_canTake {s : State} (h : s.canTake = true) : NothingSent s := by
  unfold State.canTake at h
  simp only [Bool.and_eq_true, beq_iff_eq] at h
  exact Or.inl h.1.2

/-- What the release engine claims: in ENTRIES the write of the releasing batch's first entry, in RECEIPT that of a receipt
word (R71, R78). -/
def Carries (s : State) (c : Claim) : Prop :=
  ∃ r b, s.engine.releasing = some r ∧ s.records[r] = some b ∧
    (s.engine.phase = .entries → ∃ e rest, b.entries = e :: rest ∧ c = .entryWrite e.addr e.lanes e.data) ∧
    (s.engine.phase = .receipt → ∃ a d, c = .receiptWrite a d)

/-- The elementary changes. -/
inductive Change : State → State → Prop where
  | link (s : State) (l : Link) (h : LinkBounds s.link → LinkBounds l) : Change s { s with link := l }
  | urdy (s : State) : Change s { s with upstream := { s.upstream with urdy := false, answer := none } }
  | complete (s : State) (a : Option Word) (hu : NothingSent s) : Change s (completeUpstream a s)
  | completeSent (s : State) (c : Claim) (a : Option Word) (h : s.port.transaction = some c) (hc : c.ofUpstream = true) :
      Change s (completeUpstream a (acknowledge c s))
  | sendWrite (s : State) (a : Addr) (m : Lanes) (d : Word) (hu : NothingSent s) (h : s.classify a = .direct) :
      Change s (sendDirect a m d s)
  | sendRead (s : State) (a : Addr) (m : Lanes) (hu : NothingSent s) :
      Change s (sendUpstream (.read a m) .read (.memoryRead a) s)
  | wait (s : State) (a : Addr) (m : Lanes) (d : Word) (why : Cause) (W : WindowIdx)
      (hu : NothingSent s) (h : s.classify a = .wait why W) : Change s (beginWait (.write a m d) why W s)
  | cause (s : State) (a : Addr) (m : Lanes) (d : Word) (why : Cause) (W : WindowIdx) (hp : s.upstream.phase = .wait)
      (ht : s.upstream.transaction = some (.write a m d)) (h : s.classify a = .wait why W) :
      Change s (recordCause why W s)
  | restartTimer (s : State) (hp : s.upstream.phase = .wait) : Change s (restartTimer s)
  | time (s : State) (n : Nat) : Change s { countTimers s with freeIndex := n }
  | store (s : State) (W : WindowIdx) (a : Addr) (m : Lanes) (d : Word) (hm : s.mode = .active)
      (hu : NothingSent s) (hW : coherentWindow s.live a = some W) (hc : s.windows[W].closing = false) (h : s.canStore W a = true) :
      Change s (storeHeld W a m d s)
  | sealBatch (s : State) (W : WindowIdx) (r : RecordIdx) (b : BatchRecord) (ho : s.windows[W].openBatch = some r)
      (hb : s.records[r] = some b) : Change s (sealRecord W r b s)
  | mark (s : State) (reason : ForceReason) (r : RecordIdx) : Change s (markRecord reason r s)
  | start (s : State) (r : RecordIdx) (b : BatchRecord) (hi : s.engine.phase = .idle) (hc : s.choice = some r)
      (hb : s.records[r] = some b) : Change s (takeBatch r b s)
  | placeRelease (s : State) (c : Claim) (h : s.engine.phase ≠ .idle) (hc : Carries s c) : Change s (placeRelease c s)
  | incident (s : State) (i : Incident) : Change s (handIncident i s)
  | flag (s : State) (f : Flag) : Change s (handFlag f s)
  | late (s : State) (r : RecordIdx) (b : BatchRecord) (hr : s.engine.releasing = some r) (hb : s.records[r] = some b) :
      Change s (s.setRecord r (some { b with late := true }))
  | acknowledge (s : State) (c : Claim) (h : s.port.transaction = some c) (hc : c.ofUpstream = false) :
      Change s (acknowledge c s)
  | removeEntry (s : State) (r : RecordIdx) (b : BatchRecord) (hp : s.engine.phase = .entries)
      (hw : s.engine.write = .inFlight) (hr : s.engine.releasing = some r) (hb : s.records[r] = some b) :
      Change s (removeEntry r b s)
  | capture (s : State) : Change s (captureFrameByte s)
  | receiptPhase (s : State) (h : s.engine.phase ≠ .idle) (hw : s.engine.write = .none) :
      Change s { s with engine := { s.engine with phase := .receipt } }
  | retire (s : State) (r : RecordIdx) (b : BatchRecord) (hp : s.engine.phase ≠ .idle) (hw : s.engine.write ≠ .waiting)
      (hr : s.engine.releasing = some r) (hb : s.records[r] = some b) : Change s (retireRecord r b s)
  | install (s : State) (h : s.applyPending = true) (he : s.closingEmpty = true) : Change s (installStaged s)
  | drained (s : State) (hm : s.mode = .draining) (he : s.storeEmpty = true) (w : Work) (hw : w.st = s) :
      Change s (completeDrain w).st
  | mode (s : State) (m : Mode) (h : m ≠ .bypass) (hT : s.mode ≠ .bypass ∨ s.timing.lines.isSome = true) :
      Change s { s with mode := m }
  | discard (s : State) (w : Work) (hw : w.st = endRelease (dropAll s)) :
      Change s (applyAtBypass (changeMode .bypass w)).st
  | restart (s : State) : Change s (restartState s)
  | afterLine (s : State) (T : Nat) (h : s.timing.lines = some T) :
      Change s { s with tracker := s.tracker.afterLine T s.timing.supervision }
  | afterFrame (s : State) (T : Nat) (h : s.timing.lines = some T) :
      Change s { s with tracker := s.tracker.afterFrame T s.timing.supervision }
  | lose (s : State) : Change s { s with tracker := s.tracker.lose }
  | idle (s : State) : Change s (countIdle s)
  | timing (s : State) (v : TimingFields) (hm : s.mode = .bypass) (hr : timingInRange v = true)
      (hf : tableFits s.live v.active.toNat = true) (k : Tracker) (hk : k.state = .lost)
      (hl : k.line = s.tracker.line ∨ k.line = none) : Change s { s with timing := timingOf v, tracker := k }
  | stage (s : State) (W : WindowIdx) (r : WindowRecord) (h : s.applyPending = false) :
      Change s { s with staged := s.staged.set W.val r W.isLt }
  | applyNow (s : State) (hm : s.mode = .bypass) (hp : s.applyPending = false)
      (hc : checkTable s.staged s.timing = none) : Change s { s with live := s.staged }
  | markClosing (s : State) (hm : s.mode ≠ .bypass) (hp : s.applyPending = false)
      (hc : checkTable s.staged s.timing = none) : Change s (markClosing s)
  | drdy (s : State) (d : Bool) (h : s.resetAsserted = true) : Change s { s with port := { s.port with drdy := d } }
  | release (s : State) (hr : s.resetAsserted = false) (h : s.port.drdy = true) : Change s (releaseDrdy s)
  | stray (s : State) (hr : s.resetAsserted = false) (h : s.port.phase = .free) :
      Change s { s with port := { s.port with drdy := true, phase := .recovering } }
  | clearFlags (s : State) (x : BitVec 14) :
      Change s { s with incidents := { s.incidents with flags := s.incidents.flags &&& x } }
  | setMask (s : State) (x : BitVec 14) : Change s { s with incidents := { s.incidents with mask := x } }
  | takeIncident (s : State) :
      Change s { s with incidents := { s.incidents with queue := s.incidents.queue.tail, dropped := 0 } }

/-- A chain of elementary changes. -/
abbrev Chain : State → State → Prop := Relation.ReflTransGen Change

namespace Chain

theorem of {s t : State} (h : Change s t) : Chain s t := Relation.ReflTransGen.single h

/-- A law that every elementary change keeps is kept by a chain. -/
theorem keeps {P : State → Prop} (hP : ∀ s t, Change s t → P s → P t) {s t : State} (h : Chain s t) (hs : P s) : P t := by
  induction h with
  | refl => exact hs
  | tail _ hc ih => exact hP _ _ hc ih

end Chain

open Relation.ReflTransGen (refl)

/-! ## The shared operations -/

theorem markAll_chain (reason : ForceReason) (rs : List RecordIdx) (w : Work) :
    Chain w.st (markAll reason rs w).st := by
  show Chain w.st (rs.foldl (fun s r => markRecord reason r s) w.st)
  generalize w.st = s
  induction rs generalizing s with
  | nil => exact refl
  | cons r rs ih => exact (Chain.of (.mark s reason r)).trans (ih _)

theorem forceMark_chain (reason : ForceReason) (W : WindowIdx) (r : RecordIdx) (w : Work) :
    Chain w.st (forceMark reason W r w).st := markAll_chain _ _ _

theorem sealOpen_chain (W : WindowIdx) (w : Work) : Chain w.st (sealOpen W w).st := by
  unfold sealOpen
  split
  · exact refl
  · rename_i r hr
    split
    · exact refl
    · rename_i b hb
      have h1 : Chain w.st (sealRecord W r b w.st) := Chain.of (.sealBatch _ _ _ _ hr hb)
      unfold oversizeCheck
      split
      · exact h1.trans (forceMark_chain .oversize W r (w.map (sealRecord W r b)))
      · exact h1

theorem sealAll_chain (Ws : List WindowIdx) (w : Work) : Chain w.st (sealAll Ws w).st := by
  induction Ws generalizing w with
  | nil => exact refl
  | cons W Ws ih => exact (sealOpen_chain W w).trans (ih _)

theorem requestEntry_chain (es : List Entry) (s : State) (r : RecordIdx) (b : BatchRecord) (h : s.engine.phase = .entries)
    (hr : s.engine.releasing = some r) (hb : s.records[r] = some b) (he : b.entries = es) : Chain s (requestEntry es s) := by
  unfold requestEntry
  split
  · exact refl
  · rename_i e rest
    refine Chain.of (.placeRelease _ _ (by simp [h]) ⟨r, b, hr, hb, fun _ => ⟨e, rest, he, rfl⟩, fun hp => ?_⟩)
    exact absurd (h.symm.trans hp) (by simp)

theorem reportForced_engine_phase (b : BatchRecord) (s : State) : (reportForced b s).engine = s.engine := by
  simp

theorem startBatch_chain (r : RecordIdx) (s : State) (hi : s.engine.phase = .idle) (hc : s.choice = some r) :
    Chain s (startBatch r s) := by
  unfold startBatch
  split
  · exact refl
  · rename_i b hb
    have h1 : Chain s (takeBatch r b s) := Chain.of (.start _ _ _ hi hc hb)
    have h2 : Chain (takeBatch r b s) (reportForced b (takeBatch r b s)) := by
      unfold reportForced
      split
      · exact Chain.of (.incident _ _)
      · exact refl
    exact (h1.trans h2).trans
      (requestEntry_chain _ _ r { b with state := .releasing, ground := some (s.groundOf b) } (by simp) (by simp) (by simp) rfl)

theorem evaluate_chain (s : State) : Chain s (evaluate s) := by
  unfold evaluate
  split
  · rename_i hi
    split
    · exact refl
    · rename_i r hr
      exact startBatch_chain r s (by simpa using hi) hr
  · exact refl

theorem lateCheck_chain (s : State) : Chain s (lateCheck s) := by
  unfold lateCheck
  split
  · split
    · rename_i hr _
      split
      · exact refl
      · rename_i b hb
        unfold checkLate
        split
        · exact (Chain.of (.late _ _ _ hr hb)).trans (Chain.of (.incident _ _))
        · exact refl
    · exact refl
  · exact refl

theorem classify_held {s : State} {a : Addr} {W : WindowIdx} (h : s.classify a = .held W) :
    s.mode = .active ∧ coherentWindow s.live a = some W ∧ s.windows[W].closing = false ∧ s.canStore W a = true := by
  unfold State.classify at h
  split at h
  · exact absurd h (by simp)
  · rename_i hm
    split at h
    · exact absurd h (by simp)
    · rename_i V hV
      split at h
      · exact absurd h (by simp)
      · rename_i hc
        split at h
        · rename_i hs
          injection h with h
          subst h
          exact ⟨hm, hV, by simpa using hc, hs⟩
        · exact absurd h (by simp)
  · split at h
    · exact absurd h (by simp)
    · split at h
      · exact absurd h (by simp)
      · split at h <;> exact absurd h (by simp)

theorem storeWrite_chain (W : WindowIdx) (a : Addr) (m : Lanes) (d : Word) (w : Work) (h : w.st.classify a = .held W)
    (hu : NothingSent w.st) : Chain w.st (storeWrite W a m d w).st := by
  obtain ⟨hm, hW, hc, hs⟩ := classify_held h
  have h1 : Chain w.st (completeUpstream none (storeHeld W a m d w.st)) :=
    (Chain.of (.store _ _ _ _ _ hm hu hW hc hs)).trans (Chain.of (.complete _ _ (by simpa [NothingSent] using hu)))
  unfold storeWrite commitSeal
  split
  · exact h1.trans (sealOpen_chain W (w.map fun s => completeUpstream none (storeHeld W a m d s)))
  · exact h1

theorem sendDirect_chain (a : Addr) (m : Lanes) (d : Word) (s : State) (hu : NothingSent s) (h : s.classify a = .direct) :
    Chain s (sendDirect a m d s) :=
  Chain.of (.sendWrite _ _ _ _ hu h)

theorem reexamine_chain (w : Work) : Chain w.st (reexamine w).st := by
  unfold reexamine
  split
  · rename_i hp
    have hp : w.st.upstream.phase = .wait := by simpa using hp
    split
    · rename_i a m d ht
      unfold reclassify
      split
      · rename_i h
        exact sendDirect_chain _ _ _ _ (Or.inr hp) h
      · rename_i W h
        exact storeWrite_chain _ _ _ _ _ h (Or.inr hp)
      · rename_i why W h
        exact Chain.of (.cause _ _ _ _ _ _ hp ht h)
    · exact refl
    · exact refl
  · exact refl

theorem settle_chain (w : Work) : Chain w.st (settle w) := by
  simp only [settle]
  have h1 : Chain w.st (if w.reported = true then reexamine w else w).st := by
    split
    · exact reexamine_chain w
    · exact refl
  refine h1.trans ?_
  generalize (if w.reported = true then reexamine w else w) = v
  split
  · exact evaluate_chain _
  · exact refl

theorem applyIfEmpty_chain (w : Work) : Chain w.st (applyIfEmpty w).st := by
  unfold applyIfEmpty
  split
  · rename_i h
    rw [Bool.and_eq_true] at h
    exact Chain.of (.install _ h.1 h.2)
  · exact refl

theorem applyIfLost_chain (w : Work) : Chain w.st (applyIfLost w).st := by
  unfold applyIfLost
  split
  · exact applyIfEmpty_chain w
  · exact refl

theorem drainIfEmpty_chain (w : Work) : Chain w.st (drainIfEmpty w).st := by
  unfold drainIfEmpty
  split
  · rename_i h
    rw [Bool.and_eq_true, beq_iff_eq] at h
    exact Chain.of (.drained _ h.1 h.2 w rfl)
  · exact refl

theorem retire_chain (r : RecordIdx) (b : BatchRecord) (w : Work) (hp : w.st.engine.phase ≠ .idle)
    (hw : w.st.engine.write ≠ .waiting) (hr : w.st.engine.releasing = some r) (hb : w.st.records[r] = some b) :
    Chain w.st (retire r b w).st := by
  have h1 : Chain w.st (retireRecord r b w.st) := Chain.of (.retire _ _ _ hp hw hr hb)
  exact (h1.trans (applyIfLost_chain ((w.map (retireRecord r b)).tell.report))).trans (drainIfEmpty_chain _)

/-! ## The events -/

theorem trackLine_chain (s : State) : Chain s (trackLine s) := by
  unfold trackLine reportGeometry
  split
  · exact refl
  · rename_i T hT
    split
    · exact (Chain.of (.afterLine _ _ hT)).trans (Chain.of (.incident _ _))
    · exact Chain.of (.afterLine _ _ hT)

theorem trackFrame_chain (s : State) : Chain s (trackFrame s) := by
  unfold trackFrame reportLock reportGeometry
  split
  · exact refl
  · rename_i T hT
    have h1 := Chain.of (.afterFrame s _ hT)
    split <;> split
    · exact (h1.trans (Chain.of (.incident _ _))).trans (Chain.of (.flag _ _))
    · exact h1.trans (Chain.of (.flag _ _))
    · exact h1.trans (Chain.of (.incident _ _))
    · exact h1

theorem lineEvent_chain (s : State) : Chain s (lineEvent s).st := by
  unfold lineEvent idleEvent
  have h2 : Chain (lateCheck s) (countIdle (lateCheck s)) := Chain.of (.idle _)
  exact ((lateCheck_chain s).trans h2).trans (sealAll_chain _ (((Work.start (lateCheck s)).tell).map countIdle))

theorem expireSupervision_chain (s : State) : Chain s (expireSupervision s) := by
  unfold expireSupervision
  refine Relation.ReflTransGen.trans ?_ (settle_chain _)
  refine Relation.ReflTransGen.trans ?_ (applyIfLost_chain _)
  have h1 : Chain s (handIncident (s.tracker.incident .syncLost) s) := Chain.of (.incident _ _)
  have h2 := Chain.of (.lose (handIncident (s.tracker.incident .syncLost) s))
  exact (h1.trans h2).trans (Chain.of (.flag _ _))

theorem expiryAction_chain (w : Work) : Chain w.st (expiryAction w).st := by
  unfold expiryAction expireA expireB expireC sealLargest
  repeat' split
  all_goals first
    | exact refl
    | exact forceMark_chain _ _ _ _
    | exact markAll_chain _ _ _
    | exact (sealOpen_chain _ _).trans (forceMark_chain _ _ _ _)

theorem expireStall_chain (s : State) (hp : s.upstream.phase = .wait) : Chain s (expireStall s) := by
  unfold expireStall
  refine Relation.ReflTransGen.trans ?_ (settle_chain _)
  have h1 : Chain s (handIncident s.stallIncident s) := Chain.of (.incident _ _)
  have h2 := expiryAction_chain (Work.start (handIncident s.stallIncident s))
  refine (h1.trans h2).trans (Chain.of (.restartTimer _ ?_))
  simpa using hp

theorem supervisionDue_chain (s : State) : Chain s (supervisionDue s) := by
  unfold supervisionDue
  split
  · exact expireSupervision_chain s
  · exact refl

theorem stallDue_chain (s : State) : Chain s (stallDue s) := by
  unfold stallDue
  split
  · rename_i h
    rw [Bool.and_eq_true, beq_iff_eq] at h
    exact expireStall_chain s h.1
  · exact refl

theorem expireBoth_chain (f : Bool) (s : State) : Chain s (expireBoth f s) := by
  unfold expireBoth
  split
  · exact (supervisionDue_chain s).trans (stallDue_chain _)
  · exact (stallDue_chain s).trans (supervisionDue_chain _)

/-- One microsecond is a chain of elementary changes. -/
theorem tick_chain (s : State) : Chain s (tick s) := by
  unfold tick expireDue
  split
  · exact (Chain.of (.time s (s.freeIndex + 1))).trans (expireBoth_chain _ _)
  · exact (Chain.of (.time s s.freeIndex)).trans (expireBoth_chain _ _)

/-! ## The commands -/

theorem takeWrite_chain (a : Addr) (m : Lanes) (d : Word) (s : State) (hu : NothingSent s) :
    Chain s (takeWrite a m d s) := by
  unfold takeWrite
  split
  · refine Relation.ReflTransGen.trans ?_ (settle_chain _)
    refine Relation.ReflTransGen.trans (Chain.of (.complete s none hu)) ?_
    unfold zeroStrobeSeal
    repeat' split
    all_goals first
      | exact refl
      | exact sealOpen_chain _ (Work.start (completeUpstream none s))
  · refine Relation.ReflTransGen.trans ?_ (settle_chain _)
    unfold takeStrobedWrite
    split
    · rename_i h
      exact sendDirect_chain _ _ _ _ hu h
    · rename_i W h
      exact storeWrite_chain _ _ _ _ (Work.start s) h hu
    · rename_i why W h
      exact Chain.of (.wait _ _ _ _ _ _ hu h)

theorem takeRead_chain (a : Addr) (m : Lanes) (s : State) (hu : NothingSent s) : Chain s (takeRead a m s) := by
  unfold takeRead
  split
  · exact Chain.of (.complete _ _ hu)
  · exact Chain.of (.sendRead _ _ _ hu)

theorem inFlightBatch_some {s : State} {p : EnginePhase} {r : RecordIdx} {b : BatchRecord}
    (h : s.inFlightBatch p = some (r, b)) :
    s.engine.phase = p ∧ s.engine.write = .inFlight ∧ s.engine.releasing = some r ∧ s.records[r] = some b := by
  unfold State.inFlightBatch at h
  split at h
  · rename_i hc
    rw [Bool.and_eq_true, beq_iff_eq, beq_iff_eq] at hc
    rw [Option.bind_eq_some_iff] at h
    obtain ⟨q, hq, h⟩ := h
    rw [Option.map_eq_some_iff] at h
    obtain ⟨b', hb', h⟩ := h
    injection h with h1 h2
    subst h1 h2
    exact ⟨hc.1, hc.2, hq, hb'⟩
  · exact absurd h (by simp)

theorem removeEntry_record (r : RecordIdx) (b : BatchRecord) (s : State) :
    (removeEntry r b s).records[r] = some { b with entries := b.entries.tail, written := b.written + 1 } := by
  simp

theorem finishEntry_chain (r : RecordIdx) (b : BatchRecord) (w : Work) (hp : w.st.engine.phase = .entries)
    (hw : w.st.engine.write = .inFlight) (hr : w.st.engine.releasing = some r) (hb : w.st.records[r] = some b) :
    Chain w.st (finishEntry r b w).st := by
  have h1 : Chain w.st (removeEntry r b w.st) := Chain.of (.removeEntry _ _ _ hp hw hr hb)
  have hp' : (removeEntry r b w.st).engine.phase ≠ .idle := by simp [hp]
  unfold finishEntry continueRelease
  split
  · unfold endEntries
    have h2 : Chain (removeEntry r b w.st) (captureFrameByte (removeEntry r b w.st)) := Chain.of (.capture _)
    have hp2 : (captureFrameByte (removeEntry r b w.st)).engine.phase ≠ .idle := by simp [hp]
    split
    · refine (h1.trans h2).trans ?_
      refine (Chain.of (.receiptPhase _ hp2 (by simp))).trans (Chain.of (.placeRelease _ _ (by simp) ?_))
      exact ⟨r, _, by simpa using hr, by simp; rfl, by simp, fun _ => ⟨_, _, rfl⟩⟩
    · refine (h1.trans h2).trans ?_
      exact retire_chain r _ (((w.map (removeEntry r b)).report).map captureFrameByte) hp2 (by simp) (by simpa using hr)
        (by simp)
  · exact h1.trans
      (requestEntry_chain _ _ r { b with entries := b.entries.tail, written := b.written + 1 } (by simpa using hp)
        (by simpa using hr) (by simp) rfl)

theorem ownEntryCompletion_chain (w : Work) : Chain w.st (ownEntryCompletion w).st := by
  unfold ownEntryCompletion
  split
  · rename_i r b h
    obtain ⟨hp, hw, hr, hb⟩ := inFlightBatch_some h
    exact finishEntry_chain r b w hp hw hr hb
  · exact refl

theorem ownReceiptCompletion_chain (w : Work) : Chain w.st (ownReceiptCompletion w).st := by
  unfold ownReceiptCompletion
  split
  · rename_i r b h
    obtain ⟨hp, hw, hr, hb⟩ := inFlightBatch_some h
    exact retire_chain r b w (by simp [hp]) (by simp [hw]) hr hb
  · exact refl

theorem setTiming_chain (v : TimingFields) (s : State) : Chain s (setTiming v s) := by
  unfold setTiming
  split
  · rename_i h
    have hm : s.mode = .bypass ∧ timingInRange v = true ∧ tableFits s.live v.active.toNat = true := by
      revert h
      unfold State.timingStatus
      cases s.mode <;> cases timingInRange v <;> cases tableFits s.live v.active.toNat <;> simp
    refine Relation.ReflTransGen.trans ?_ (Chain.of (.link _ _ fun _ => idleLink_bounds _))
    unfold acceptTiming
    refine Relation.ReflTransGen.trans ?_ (settle_chain _)
    unfold loseTracker
    split
    · rename_i hk
      exact Chain.of (.timing s v hm.1 hm.2.1 hm.2.2 s.tracker (by simpa using hk) (Or.inl rfl))
    · refine Relation.ReflTransGen.trans ?_ (applyIfLost_chain _)
      exact (Chain.of (.timing s v hm.1 hm.2.1 hm.2.2 s.tracker.lose rfl (Or.inr rfl))).trans (Chain.of (.flag _ _))
  · exact Chain.of (.link _ _ fun _ => idleLink_bounds _)

theorem stageWindow_chain (i : BitVec 8) (f : RecordFields) (s : State) : Chain s (stageWindow i f s) := by
  unfold stageWindow
  split
  · exact Chain.of (.link _ _ fun _ => idleLink_bounds _)
  · rename_i h
    unfold stageRecord
    split
    · exact (Chain.of (.stage _ _ _ (by simpa using h))).trans (Chain.of (.link _ _ fun _ => idleLink_bounds _))
    · exact Chain.of (.link _ _ fun _ => idleLink_bounds _)

theorem applyStaged_chain (s : State) : Chain s (applyStaged s) := by
  unfold applyStaged
  split
  · rename_i h
    have hc : s.applyPending = false ∧ checkTable s.staged s.timing = none := by
      revert h
      unfold State.applyStatus
      cases s.applyPending
      · by_cases he : s.staged = s.live
        · simp [he]
        · simp only [beq_iff_eq, he, if_false, Bool.false_eq_true]
          cases hk : checkTable s.staged s.timing with
          | none => simp
          | some c =>
            intro hcc
            have : c ≠ .ok := by
              unfold checkTable at hk
              repeat' split at hk
              all_goals first
                | (injection hk with hk; subst hk; simp)
                | exact absurd hk (by simp)
            exact absurd hcc this
      · simp
    refine Relation.ReflTransGen.trans ?_ (Chain.of (.link _ _ fun _ => idleLink_bounds _))
    unfold acceptApply
    refine Relation.ReflTransGen.trans ?_ (settle_chain _)
    split
    · rename_i hm
      exact (Chain.of (.applyNow s (by simpa using hm) hc.1 hc.2)).trans (Chain.of (.flag _ _))
    · rename_i hm
      unfold applyLater
      refine Relation.ReflTransGen.trans ?_ (applyIfLost_chain _)
      exact (Chain.of (.markClosing s (by simpa using hm) hc.1 hc.2)).trans
        (sealAll_chain _ ((Work.start s).map markClosing))
  · exact Chain.of (.link _ _ fun _ => idleLink_bounds _)

theorem enable_chain (s : State) : Chain s (enable s) := by
  unfold enable
  split
  · rename_i hm
    split
    · rename_i hT
      refine Relation.ReflTransGen.trans ?_ (Chain.of (.link _ _ fun _ => idleLink_bounds _))
      refine Relation.ReflTransGen.trans ?_ (settle_chain _)
      exact Chain.of (.mode s .active (by simp) (Or.inr hT))
    · exact Chain.of (.link _ _ fun _ => idleLink_bounds _)
  · exact Chain.of (.link _ _ fun _ => idleLink_bounds _)
  · exact Chain.of (.link _ _ fun _ => idleLink_bounds _)

theorem disableDrain_chain (s : State) : Chain s (disableDrain s) := by
  unfold disableDrain
  split
  · rename_i hm
    refine Relation.ReflTransGen.trans ?_ (Chain.of (.link _ _ fun _ => idleLink_bounds _))
    unfold beginDrain
    refine Relation.ReflTransGen.trans ?_ (settle_chain _)
    refine Relation.ReflTransGen.trans ?_ (drainIfEmpty_chain _)
    exact (Chain.of (.mode s .draining (by simp) (Or.inl (by rw [beq_iff_eq.mp hm]; simp)))).trans (sealAll_chain _ (changeMode .draining (Work.start s)))
  · exact Chain.of (.link _ _ fun _ => idleLink_bounds _)

theorem disableDiscard_chain (s : State) : Chain s (disableDiscard s) := by
  unfold disableDiscard
  split
  · exact Chain.of (.link _ _ fun _ => idleLink_bounds _)
  · refine Relation.ReflTransGen.trans ?_ (Chain.of (.link _ _ fun _ => idleLink_bounds _))
    unfold discard
    refine Relation.ReflTransGen.trans ?_ (settle_chain _)
    refine Relation.ReflTransGen.trans (Chain.of (.discard s (Work.start (endRelease (dropAll s))) rfl)) ?_
    show Chain _ (reportDiscard s _)
    unfold reportDiscard
    split
    · exact Chain.of (.incident _ _)
    · exact refl

theorem sealNamed_chain (Ws : List WindowIdx) (s : State) : Chain s (sealNamed Ws s) :=
  (sealAll_chain Ws (Work.start s)).trans (settle_chain _)

theorem flushNamed_chain (Ws : List WindowIdx) (s : State) : Chain s (flushNamed Ws s) :=
  ((sealAll_chain Ws (Work.start s)).trans (markAll_chain _ _ _)).trans (settle_chain _)

theorem restartPart_chain (s : State) : Chain s (restartPart s) :=
  (Chain.of (.restart s)).trans (settle_chain (Work.start (restartState s)).tell.report)

theorem onRequest_chain (c : Command) (p : List Byte) (run : State → State) (s : State) (h : Chain s (run s)) :
    Chain s (onRequest c p run s) := by
  rcases onRequest_cases c p run s with e | e <;> rw [e]
  exact h

theorem answer_chain (r : Response) (s : State) : Chain s (answer r s) :=
  Chain.of (.link _ _ fun _ => idleLink_bounds _)

/-- Every command but the reset line's two is a chain of elementary changes. -/
theorem exec_chain {c : Instr} {s t : State} (hc : isReset c = false) (h : exec c s = .next t) : Chain s t := by
  cases c
  case resetLine => exact absurd hc (by simp [isReset])
  case resetLineEnd => exact absurd hc (by simp [isReset])
  case directWriteComplete =>
    unfold exec execDirectWriteComplete at h
    dsimp only at h
    split at h <;> injection h with h <;> subst h
    · rename_i a m d hp
      exact Chain.of (.completeSent s _ _ hp rfl)
    · exact refl
  case memoryReadComplete dd =>
    unfold exec execMemoryReadComplete at h
    dsimp only at h
    split at h <;> injection h with h <;> subst h
    · rename_i a hp
      exact Chain.of (.completeSent s _ _ hp rfl)
    · exact refl
  case entryWriteComplete =>
    unfold exec execEntryWriteComplete at h
    dsimp only at h
    split at h <;> injection h with h <;> subst h
    · rename_i a m d hp
      exact ((Chain.of (.acknowledge s _ hp rfl)).trans
        (ownEntryCompletion_chain (Work.start (acknowledge (.entryWrite a m d) s)))).trans (settle_chain _)
    · exact refl
  case receiptWriteComplete =>
    unfold exec execReceiptWriteComplete at h
    dsimp only at h
    split at h <;> injection h with h <;> subst h
    · rename_i a d hp
      exact ((Chain.of (.acknowledge s _ hp rfl)).trans
        (ownReceiptCompletion_chain (Work.start (acknowledge (.receiptWrite a d) s)))).trans (settle_chain _)
    · exact refl
  case upstreamWrite a m d =>
    injection h with h
    subst h
    split
    · rename_i hc
      exact takeWrite_chain a m d s (nothingSent_of_canTake hc)
    · exact refl
  case upstreamRead a m =>
    injection h with h
    subst h
    split
    · rename_i hc
      exact takeRead_chain a m s (nothingSent_of_canTake hc)
    · exact refl
  case ureqWithdrawn =>
    injection h with h
    subst h
    exact Chain.of (.urdy s)
  case drdyRelease =>
    injection h with h
    subst h
    split
    · rename_i hd
      by_cases hr : s.resetAsserted = true
      · unfold releaseDrdy
        rw [if_pos hr]
        exact Chain.of (.drdy s false hr)
      · exact Chain.of (.release s (by simpa using hr) hd)
    · exact refl
  case strayDrdy =>
    injection h with h
    subst h
    split
    · rename_i hr
      exact Chain.of (.drdy s true hr)
    · rename_i hr
      split
      · rename_i hp
        exact Chain.of (.stray s (by simpa using hr) (by simpa using hp))
      · exact refl
  case frameStart =>
    injection h with h
    subst h
    split
    · exact refl
    · exact (((trackFrame_chain s).trans (lineEvent_chain _)).trans (applyIfEmpty_chain _)).trans (settle_chain _)
  case lineStart =>
    injection h with h
    subst h
    split
    · exact refl
    · exact ((trackLine_chain s).trans (lineEvent_chain _)).trans (settle_chain _)
  case supervisionExpiry =>
    injection h with h
    subst h
    split
    · exact expireSupervision_chain s
    · exact refl
  case stallExpiry =>
    injection h with h
    subst h
    split
    · rename_i hc
      rw [Bool.and_eq_true, beq_iff_eq] at hc
      exact expireStall_chain s hc.1
    · exact refl
  case frameBegin =>
    injection h with h
    subst h
    split
    · exact refl
    · exact Chain.of (.link s _ fun _ => start_bounds _)
  case sckRisingEdge b =>
    injection h with h
    subst h
    split
    · exact Chain.of (.link s _ (takeBit_bounds _))
    · exact refl
  case sckFallingEdge =>
    injection h with h
    subst h
    split
    · exact Chain.of (.link s _ shiftOut_bounds)
    · exact refl
  case noBitReceived =>
    injection h with h
    subst h
    split
    · exact Chain.of (.link s _ fun _ => idleLink_bounds _)
    · exact refl
  case readBack bs n =>
    injection h with h
    subst h
    split
    · exact Chain.of (.link s _ fun _ => idleLink_bounds _)
    · exact refl
  case malformedFrame bs n =>
    injection h with h
    subst h
    repeat' split
    all_goals first
      | exact refl
      | exact Chain.of (.link s _ fun _ => idleLink_bounds _)
  case disableDrain x =>
    injection h with h
    subst h
    repeat' split
    · exact onRequest_chain _ _ _ _ (disableDrain_chain s)
    · exact refl
    · exact onRequest_chain _ _ _ _ (answer_chain _ s)
  case disableDiscard x =>
    injection h with h
    subst h
    repeat' split
    · exact onRequest_chain _ _ _ _ (disableDiscard_chain s)
    · exact refl
    · exact onRequest_chain _ _ _ _ (answer_chain _ s)
  all_goals
    injection h with h
    subst h
    apply onRequest_chain
  case ident => exact answer_chain _ s
  case status => exact answer_chain _ s
  case getTiming => exact answer_chain _ s
  case setTiming v => exact setTiming_chain v s
  case stageWindow i f => exact stageWindow_chain i f s
  case apply => exact applyStaged_chain s
  case enable => exact enable_chain s
  case sealWindows x => exact (sealNamed_chain _ s).trans (answer_chain _ _)
  case flush x => exact (flushNamed_chain _ s).trans (answer_chain _ _)
  case restart => exact (restartPart_chain s).trans (answer_chain _ _)
  case getWindow i j =>
    unfold getWindow
    split <;> exact answer_chain _ s
  case windowStatus i =>
    unfold windowStatus
    split <;> exact answer_chain _ s
  case clearFlags x =>
    unfold clearFlags
    split
    · exact (Chain.of (.clearFlags s _)).trans (answer_chain _ _)
    · exact answer_chain _ s
  case setMask x =>
    unfold setMask
    split
    · exact (Chain.of (.setMask s _)).trans (answer_chain _ _)
    · exact answer_chain _ s
  case takeIncident =>
    unfold takeIncident
    split
    · rename_i hq
      have h1 := Chain.of (.takeIncident s)
      rw [hq] at h1
      refine Relation.ReflTransGen.trans ?_ (answer_chain _ _)
      have e : ({ s with incidents := { s.incidents with dropped := 0 } } : State) =
          { s with incidents := { s.incidents with queue := List.tail [], dropped := 0 } } := by
        rw [List.tail_nil, ← hq]
      rw [e]
      exact h1
    · rename_i i rest hq
      have h1 := Chain.of (.takeIncident s)
      rw [hq] at h1
      exact h1.trans (answer_chain _ _)

/-- A law that every elementary change keeps, the reset line's two commands keep, and that does not speak of the queue of
commands, is kept by every step. -/
theorem step_keeps {P : State → Prop} (hq : ∀ s q, P s → P { s with pending := q }) (hP : ∀ s t, Change s t → P s → P t)
    (hr : ∀ c s t, isReset c = true → P s → exec c s = .next t → P t) {s t : State} (h : P s)
    (hs : step s = .next t) : P t := by
  unfold step at hs
  split at hs
  · injection hs with hs
    subst hs
    exact (tick_chain s).keeps hP h
  · rename_i i rest hp
    cases hc : isReset i
    · exact (exec_chain hc hs).keeps hP (hq s rest h)
    · exact hr i _ _ hc (hq s rest h) hs

end Sys2Proof.Machine
end

