-- ==== Sys2Proof/Laws/Port.lean ====
section
/-! SUPPORT. The downstream port and the engine's write: what a placing, a grant and a withdrawal make of them (R121, R122,
R127). -/

namespace Sys2Proof.Machine

/-! ## A grant leaves the rest of the engine alone (R71) -/

@[simp] theorem arbitrate_engine_phase (s : State) :
    (arbitrate s).engine.phase = s.engine.phase := by
  unfold arbitrate; split <;> first | rfl | (split <;> rfl)

@[simp] theorem arbitrate_engine_releasing (s : State) :
    (arbitrate s).engine.releasing = s.engine.releasing := by
  unfold arbitrate; split <;> first | rfl | (split <;> rfl)

@[simp] theorem arbitrate_engine_frameByte (s : State) :
    (arbitrate s).engine.frameByte = s.engine.frameByte := by
  unfold arbitrate; split <;> first | rfl | (split <;> rfl)

@[simp] theorem grant_engine_phase (s : State) :
    (grant s).engine.phase = s.engine.phase := by
  unfold grant; split <;> simp

@[simp] theorem grant_engine_releasing (s : State) :
    (grant s).engine.releasing = s.engine.releasing := by
  unfold grant; split <;> simp

@[simp] theorem grant_engine_frameByte (s : State) :
    (grant s).engine.frameByte = s.engine.frameByte := by
  unfold grant; split <;> simp

@[simp] theorem placeUpstream_engine_phase (c : Claim) (s : State) :
    (placeUpstream c s).engine.phase = s.engine.phase := by
  simp [placeUpstream]

@[simp] theorem placeUpstream_engine_releasing (c : Claim) (s : State) :
    (placeUpstream c s).engine.releasing = s.engine.releasing := by
  simp [placeUpstream]

@[simp] theorem placeUpstream_engine_frameByte (c : Claim) (s : State) :
    (placeUpstream c s).engine.frameByte = s.engine.frameByte := by
  simp [placeUpstream]

@[simp] theorem placeRelease_engine_phase (c : Claim) (s : State) :
    (placeRelease c s).engine.phase = s.engine.phase := by
  simp [placeRelease]

@[simp] theorem placeRelease_engine_releasing (c : Claim) (s : State) :
    (placeRelease c s).engine.releasing = s.engine.releasing := by
  simp [placeRelease]

@[simp] theorem placeRelease_engine_frameByte (c : Claim) (s : State) :
    (placeRelease c s).engine.frameByte = s.engine.frameByte := by
  simp [placeRelease]

@[simp] theorem sendUpstream_engine_phase (t : UpTransaction) (p : UpPhase) (c : Claim) (s : State) :
    (sendUpstream t p c s).engine.phase = s.engine.phase := by
  simp [sendUpstream]

@[simp] theorem sendUpstream_engine_releasing (t : UpTransaction) (p : UpPhase) (c : Claim) (s : State) :
    (sendUpstream t p c s).engine.releasing = s.engine.releasing := by
  simp [sendUpstream]

@[simp] theorem sendUpstream_engine_frameByte (t : UpTransaction) (p : UpPhase) (c : Claim) (s : State) :
    (sendUpstream t p c s).engine.frameByte = s.engine.frameByte := by
  simp [sendUpstream]

@[simp] theorem sendDirect_engine_phase (a : Addr) (m : Lanes) (d : Word) (s : State) :
    (sendDirect a m d s).engine.phase = s.engine.phase := by
  simp [sendDirect]

@[simp] theorem sendDirect_engine_releasing (a : Addr) (m : Lanes) (d : Word) (s : State) :
    (sendDirect a m d s).engine.releasing = s.engine.releasing := by
  simp [sendDirect]

@[simp] theorem sendDirect_engine_frameByte (a : Addr) (m : Lanes) (d : Word) (s : State) :
    (sendDirect a m d s).engine.frameByte = s.engine.frameByte := by
  simp [sendDirect]

@[simp] theorem requestEntry_engine_phase (es : List Entry) (s : State) :
    (requestEntry es s).engine.phase = s.engine.phase := by
  unfold requestEntry; split <;> simp

@[simp] theorem requestEntry_engine_releasing (es : List Entry) (s : State) :
    (requestEntry es s).engine.releasing = s.engine.releasing := by
  unfold requestEntry; split <;> simp

@[simp] theorem requestEntry_engine_frameByte (es : List Entry) (s : State) :
    (requestEntry es s).engine.frameByte = s.engine.frameByte := by
  unfold requestEntry; split <;> simp

@[simp] theorem releaseDrdy_engine_phase (s : State) :
    (releaseDrdy s).engine.phase = s.engine.phase := by
  unfold releaseDrdy; split <;> simp

@[simp] theorem releaseDrdy_engine_releasing (s : State) :
    (releaseDrdy s).engine.releasing = s.engine.releasing := by
  unfold releaseDrdy; split <;> simp

@[simp] theorem releaseDrdy_engine_frameByte (s : State) :
    (releaseDrdy s).engine.frameByte = s.engine.frameByte := by
  unfold releaseDrdy; split <;> simp

@[simp] theorem sendUpstream_upstream (t : UpTransaction) (p : UpPhase) (c : Claim) (s : State) :
    (sendUpstream t p c s).upstream = ⟨some t, p, none, none, none, false, none⟩ := by
  simp [sendUpstream]

@[simp] theorem sendDirect_upstream (a : Addr) (m : Lanes) (d : Word) (s : State) :
    (sendDirect a m d s).upstream = ⟨some (.write a m d), .direct, none, none, none, false, none⟩ := by
  simp [sendDirect]

/-! ## Placing a claim (R121, R122) -/

/-- A claim that arrives while the port is BUSY or RECOVERING waits. -/
theorem grant_busy (s : State) (h : s.port.phase ≠ .free) : grant s = s := by
  unfold grant
  rw [if_neg (by simpa using h)]

theorem placeUpstream_busy (c : Claim) (s : State) (h : s.port.phase ≠ .free) :
    placeUpstream c s = { s with port := { s.port with upstreamClaim := some c } } := by
  unfold placeUpstream
  rw [grant_busy]
  exact h

theorem placeRelease_busy (c : Claim) (s : State) (h : s.port.phase ≠ .free) :
    placeRelease c s = { s with port := { s.port with releaseClaim := some c }, engine := { s.engine with write := .waiting } } := by
  unfold placeRelease
  rw [grant_busy]
  exact h

/-- An upstream claim that arrives while the port is FREE and no release claim waits is granted at once. -/
theorem placeUpstream_free (c : Claim) (s : State) (h : s.port.phase = .free) (hr : s.port.releaseClaim = none) :
    placeUpstream c s =
      { s with port :=
        { s.port with phase := .busy, transaction := some c, upstreamClaim := none, releaseClaim := none, passedOver := 0 } } := by
  unfold placeUpstream grant arbitrate grantUpstream
  simp [h, hr]

/-- A release claim that arrives while the port is FREE and no upstream claim waits is granted at once. -/
theorem placeRelease_free (c : Claim) (s : State) (h : s.port.phase = .free) (hu : s.port.upstreamClaim = none) :
    placeRelease c s =
      { s with
        port :=
          { s.port with phase := .busy, transaction := some c, upstreamClaim := none, releaseClaim := none, passedOver := 0 }
        engine := { s.engine with write := .inFlight } } := by
  unfold placeRelease grant arbitrate grantRelease
  simp [h, hu]

/-! ## Ending a release (R81, R127) -/

@[simp] theorem withdrawRelease_claim (s : State) : (withdrawRelease s).port.releaseClaim = none := by
  unfold withdrawRelease
  split
  · rfl
  · rename_i h
    simpa using h

@[simp] theorem endRelease_engine (s : State) : (endRelease s).engine = Engine.reset := by
  simp [endRelease]

@[simp] theorem endRelease_claim (s : State) : (endRelease s).port.releaseClaim = none := by
  simp [endRelease]

end Sys2Proof.Machine
end

