-- ==== Sys2Proof/Laws/Store.lean ====
section
/-! SUPPORT. The hold store: what each of its operations makes of records, queues and the occupancy, and what it reports. -/

namespace Sys2Proof.Machine

/-! ## Records and windows one at a time -/

@[simp] theorem setRecord_get (s : State) (r q : RecordIdx) (b : Option BatchRecord) :
    (s.setRecord r b).records[q.val] = if r = q then b else s.records[q.val] := by
  rw [setRecord_records, Vector.getElem_set]
  exact if_congr Fin.ext_iff.symm rfl rfl

theorem records_set_get (v : Vector (Option BatchRecord) 16) (r q : RecordIdx) (b : Option BatchRecord) :
    (v.set r.val b r.isLt)[q.val] = if r = q then b else v[q.val] := by
  rw [Vector.getElem_set]
  exact if_congr Fin.ext_iff.symm rfl rfl

theorem windows_set_get (v : Vector WindowState 8) (W V : WindowIdx) (d : WindowState) :
    (v.set W.val d W.isLt)[V.val] = if W = V then d else v[V.val] := by
  rw [Vector.getElem_set]
  exact if_congr Fin.ext_iff.symm rfl rfl

theorem ofFn_get {α : Type} (f : Fin 8 → α) (W : Fin 8) : (Vector.ofFn f)[W.val] = f W := by
  simp

/-! ## Occupancy (R2) -/

theorem sum_map_set {α : Type} (f : α → Nat) (l : List α) (i : Nat) (x : α) (h : i < l.length) :
    ((l.set i x).map f).sum + f l[i] = (l.map f).sum + f x := by
  induction l generalizing i with
  | nil => exact absurd h (by simp)
  | cons a l ih =>
    cases i with
    | zero => simp only [List.set_cons_zero, List.map_cons, List.sum_cons, List.getElem_cons_zero]; omega
    | succ i =>
      have := ih i (by simpa using h)
      simp only [List.set_cons_succ, List.map_cons, List.sum_cons, List.getElem_cons_succ]
      omega

/-- Replacing one record changes the occupancy by the difference of the two entry counts. -/
theorem occupancy_of_set {s t : State} {r : RecordIdx} {b : Option BatchRecord}
    (h : t.records = s.records.set r.val b r.isLt) :
    t.occupancy + (recordEntries s.records[r.val]).length = s.occupancy + (recordEntries b).length := by
  unfold State.occupancy
  rw [h, Vector.toList_set]
  have hl : r.val < s.records.toList.length := by simp
  have := sum_map_set (fun b => (recordEntries b).length) s.records.toList r.val b hl
  simpa using this

theorem occupancy_congr {s t : State} (h : t.records = s.records) : t.occupancy = s.occupancy := by
  unfold State.occupancy
  rw [h]

theorem recordsInUse_congr {s t : State} (h : t.records = s.records) : t.recordsInUse = s.recordsInUse := by
  unfold State.recordsInUse
  rw [h]

theorem recordsInUse_eq_zero {s : State} : s.recordsInUse = 0 ↔ ∀ r : RecordIdx, s.records[r.val] = none := by
  unfold State.recordsInUse
  rw [List.countP_eq_zero]
  constructor
  · intro h r
    have := h s.records[r.val] (by simp)
    simpa using this
  · intro h b hb
    rw [Vector.mem_toList_iff, Vector.mem_iff_getElem] at hb
    obtain ⟨i, hi, rfl⟩ := hb
    rw [h ⟨i, hi⟩]
    simp

theorem occupancy_eq_zero_of_free {s : State} (h : ∀ r : RecordIdx, s.records[r.val] = none) : s.occupancy = 0 := by
  unfold State.occupancy
  rw [List.sum_eq_zero_iff_forall_eq_nat]
  intro n hn
  rw [List.mem_map] at hn
  obtain ⟨b, hb, rfl⟩ := hn
  rw [Vector.mem_toList_iff, Vector.mem_iff_getElem] at hb
  obtain ⟨i, hi, rfl⟩ := hb
  rw [h ⟨i, hi⟩]
  rfl

/-- R24, R129: the store is empty exactly when every record is free. -/
theorem storeEmpty_iff {s : State} : s.storeEmpty = true ↔ ∀ r : RecordIdx, s.records[r.val] = none := by
  unfold State.storeEmpty
  rw [Bool.and_eq_true, beq_iff_eq, beq_iff_eq, recordsInUse_eq_zero]
  exact ⟨fun h => h.1, fun h => ⟨h, occupancy_eq_zero_of_free h⟩⟩

theorem freeRecord_some {s : State} {r : RecordIdx} (h : s.freeRecord = some r) : s.records[r.val] = none := by
  have := List.find?_some h
  simpa using this

/-! ## Reports -/

@[simp] theorem markAll_reported (reason : ForceReason) (rs : List RecordIdx) (w : Work) :
    (markAll reason rs w).reported = w.reported := rfl

@[simp] theorem forceMark_reported (reason : ForceReason) (W : WindowIdx) (r : RecordIdx) (w : Work) :
    (forceMark reason W r w).reported = w.reported := rfl

@[simp] theorem oversizeCheck_reported (W : WindowIdx) (r : RecordIdx) (b : BatchRecord) (w : Work) :
    (oversizeCheck W r b w).reported = w.reported := by
  unfold oversizeCheck
  split <;> simp

/-- R11: a seal brings no report to the upstream port. -/
@[simp] theorem sealOpen_reported (W : WindowIdx) (w : Work) : (sealOpen W w).reported = w.reported := by
  unfold sealOpen
  split
  · rfl
  · split
    · rfl
    · simp

@[simp] theorem sealAll_reported (Ws : List WindowIdx) (w : Work) : (sealAll Ws w).reported = w.reported := by
  induction Ws generalizing w with
  | nil => rfl
  | cons W Ws ih => rw [sealAll_cons, ih, sealOpen_reported]

@[simp] theorem commitSeal_reported (W : WindowIdx) (a : Addr) (w : Work) :
    (commitSeal W a w).reported = w.reported := by
  unfold commitSeal
  split <;> simp

@[simp] theorem storeWrite_reported (W : WindowIdx) (a : Addr) (m : Lanes) (d : Word) (w : Work) :
    (storeWrite W a m d w).reported = w.reported := by
  simp [storeWrite]

@[simp] theorem idleEvent_reported (w : Work) : (idleEvent w).reported = w.reported := by
  simp [idleEvent]

@[simp] theorem lineEvent_reported (s : State) : (lineEvent s).reported = false := by
  simp [lineEvent]

@[simp] theorem expiryAction_reported (w : Work) : (expiryAction w).reported = w.reported := by
  unfold expiryAction expireA expireB expireC sealLargest
  repeat' split
  all_goals simp

/-- With nothing reported, the end of an event is at most an evaluation. -/
theorem settle_quiet (w : Work) (h : w.reported = false) : settle w = if w.told = true then evaluate w.st else w.st := by
  simp only [settle, h, Bool.false_eq_true, if_false]

/-- With no write waiting, a re-examination changes nothing. -/
theorem reexamine_idle (w : Work) (h : w.st.upstream.phase ≠ .wait) : reexamine w = w := by
  unfold reexamine
  rw [if_neg (by simpa using h)]

/-- With no write waiting, the end of an event is at most an evaluation. -/
theorem settle_noWait (w : Work) (h : w.st.upstream.phase ≠ .wait) :
    settle w = if w.told = true then evaluate w.st else w.st := by
  simp only [settle, reexamine_idle w h, ite_self]

/-- While the engine is busy there is no evaluation (R68). -/
theorem evaluate_busy (s : State) (h : s.engine.phase ≠ .idle) : evaluate s = s := by
  unfold evaluate
  rw [if_neg (by simpa using h)]

/-- An evaluation leaves the upstream port alone, so no write waits after it that did not wait before. -/
theorem settle_upstream_noWait (w : Work) (h : w.st.upstream.phase ≠ .wait) : (settle w).upstream = w.st.upstream := by
  rw [settle_noWait w h]
  split <;> simp

end Sys2Proof.Machine
end

