-- ==== Sys2Proof/Laws/Seal.lean ====
section
/-! SUPPORT. Force marks and seals: what they make of every record, and what they tell (R12, R20, R21). -/

namespace Sys2Proof.Machine

/-! ## Force marks (R20, R21) -/

@[simp] theorem force_force (b : BatchRecord) (x y : ForceReason) : (b.force x).force y = b.force x := by
  unfold BatchRecord.force
  cases b.mark <;> rfl

@[simp] theorem force_entries (b : BatchRecord) (x : ForceReason) : (b.force x).entries = b.entries := rfl
@[simp] theorem force_state (b : BatchRecord) (x : ForceReason) : (b.force x).state = b.state := rfl
@[simp] theorem force_window (b : BatchRecord) (x : ForceReason) : (b.force x).window = b.window := rfl
@[simp] theorem force_seq (b : BatchRecord) (x : ForceReason) : (b.force x).seq = b.seq := rfl
@[simp] theorem force_ordinal (b : BatchRecord) (x : ForceReason) : (b.force x).ordinal = b.ordinal := rfl
@[simp] theorem force_mark (b : BatchRecord) (x : ForceReason) : (b.force x).mark = (b.mark <|> some x) := rfl

theorem markRecord_get (reason : ForceReason) (r q : RecordIdx) (s : State) :
    (markRecord reason r s).records[q.val] =
      if r = q then s.records[q.val].map (fun b => b.force reason) else s.records[q.val] := by
  rw [markRecord_records, records_set_get]
  split
  · rename_i h
    rw [h]
    rfl
  · rfl

/-- R20: of some records, exactly those in use are marked, each with its first reason kept. -/
theorem markAll_get (reason : ForceReason) (rs : List RecordIdx) (w : Work) (q : RecordIdx) :
    (markAll reason rs w).st.records[q.val] =
      if q ∈ rs then w.st.records[q.val].map (fun b => b.force reason) else w.st.records[q.val] := by
  show (rs.foldl (fun s r => markRecord reason r s) w.st).records[q.val] = _
  generalize w.st = s
  induction rs generalizing s with
  | nil => simp
  | cons r rs ih =>
    rw [List.foldl_cons, ih, markRecord_get]
    by_cases h1 : q ∈ rs
    · rw [if_pos h1, if_pos (List.mem_cons_of_mem _ h1)]
      split
      · rw [Option.map_map]
        exact congrArg (fun f => Option.map f s.records[q.val]) (funext fun b => force_force b reason reason)
      · rfl
    · by_cases h2 : r = q
      · rw [if_neg h1, if_pos h2, if_pos (by simp [h2])]
      · rw [if_neg h1, if_neg h2, if_neg (by simp [h1, Ne.symm h2])]

/-- R21: force-marking a batch marks it and the older SEALED batches of its window. -/
theorem forceMark_get (reason : ForceReason) (W : WindowIdx) (r : RecordIdx) (w : Work) (q : RecordIdx) :
    (forceMark reason W r w).st.records[q.val] =
      if q ∈ w.st.olderThan W r ++ [r] then w.st.records[q.val].map (fun b => b.force reason) else w.st.records[q.val] :=
  markAll_get _ _ _ _

theorem forceMark_told (reason : ForceReason) (W : WindowIdx) (r : RecordIdx) (w : Work) (h : w.told = true) :
    (forceMark reason W r w).told = true := by
  simp [forceMark, markAll, h]

theorem markAll_told (reason : ForceReason) (rs : List RecordIdx) (w : Work) (h : w.told = true) :
    (markAll reason rs w).told = true := by
  simp [markAll, h]

/-! ## One seal (R12, R13) -/

/-- R13: a window without an open batch is left as it is. -/
theorem sealOpen_none (W : WindowIdx) (w : Work) (h : w.st.windows[W].openBatch = none) : sealOpen W w = w := by
  unfold sealOpen
  rw [h]

/-- The window after a seal (R12 steps 1, 2 and 4). -/
def sealedWindow (d : WindowState) (r : RecordIdx) : WindowState :=
  { d with openBatch := none, lastSealed := d.lastSealed + 1, sealedQueue := d.sealedQueue ++ [r] }

/-- The batch after a seal, less the mark of the oversize check (R12 steps 1 to 3). -/
def sealedBatch (b : BatchRecord) (seq : BitVec 16) (ordinal : BitVec 32) : BatchRecord :=
  { b with state := .sealed, seq := some seq, ordinal := some ordinal }

theorem sealOpen_windows (W : WindowIdx) (w : Work) (r : RecordIdx) (b : BatchRecord)
    (ho : w.st.windows[W].openBatch = some r) (hb : w.st.records[r] = some b) :
    (sealOpen W w).st.windows = w.st.windows.set W.val (sealedWindow w.st.windows[W] r) W.isLt := by
  unfold sealOpen
  rw [ho]
  dsimp only
  rw [hb]
  dsimp only
  rw [oversizeCheck_windows]
  exact sealRecord_windows W r b w.st

theorem sealOpen_sealOrdinal (W : WindowIdx) (w : Work) (r : RecordIdx) (b : BatchRecord)
    (ho : w.st.windows[W].openBatch = some r) (hb : w.st.records[r] = some b) :
    (sealOpen W w).st.sealOrdinal = w.st.sealOrdinal + 1 := by
  unfold sealOpen
  rw [ho]
  dsimp only
  rw [hb]
  dsimp only
  rw [oversizeCheck_sealOrdinal]
  exact sealRecord_sealOrdinal W r b w.st

theorem sealOpen_told (W : WindowIdx) (w : Work) (r : RecordIdx) (b : BatchRecord)
    (ho : w.st.windows[W].openBatch = some r) (hb : w.st.records[r] = some b) : (sealOpen W w).told = true := by
  unfold sealOpen
  rw [ho]
  dsimp only
  rw [hb]
  dsimp only
  unfold oversizeCheck
  split
  · exact forceMark_told _ _ _ _ rfl
  · rfl

/-- R12, R66: the sealed record takes its numbers; some records may take the mark OVERSIZE; nothing else changes in any. -/
theorem sealOpen_get (W : WindowIdx) (w : Work) (r : RecordIdx) (b : BatchRecord)
    (ho : w.st.windows[W].openBatch = some r) (hb : w.st.records[r] = some b) :
    ∃ marked : List RecordIdx, ∀ q : RecordIdx,
      (sealOpen W w).st.records[q.val] =
        (if r = q then some (sealedBatch b (w.st.windows[W].lastSealed + 1) (w.st.sealOrdinal + 1))
          else w.st.records[q.val]).map fun c => if q ∈ marked then c.force .oversize else c := by
  unfold sealOpen
  rw [ho]
  dsimp only
  rw [hb]
  dsimp only
  have hs : ∀ q : RecordIdx, (sealRecord W r b w.st).records[q.val] =
      if r = q then some (sealedBatch b (w.st.windows[W].lastSealed + 1) (w.st.sealOrdinal + 1)) else w.st.records[q.val] := by
    intro q
    rw [sealRecord_records, records_set_get]
    rfl
  unfold oversizeCheck
  split
  · refine ⟨(w.map (sealRecord W r b)).tell.st.olderThan W r ++ [r], fun q => ?_⟩
    rw [forceMark_get]
    show (if _ then Option.map _ (sealRecord W r b w.st).records[q.val] else (sealRecord W r b w.st).records[q.val]) = _
    rw [hs q]
    split
    · rename_i hm
      simp only [hm, if_true]
    · rename_i hm
      simp only [hm, if_false, Option.map_id']
  · refine ⟨[], fun q => ?_⟩
    show (sealRecord W r b w.st).records[q.val] = _
    rw [hs q]
    simp

end Sys2Proof.Machine
end

