-- ==== Sys2Proof/Laws/Release.lean ====
section
/-! SUPPORT. An evaluation of the release engine, said once: it starts nothing, or the one batch that R69 chooses (R68 to
R70). -/

namespace Sys2Proof.Machine

/-- The window of a batch that starts (R22). -/
def startedWindow (d : WindowState) (r : RecordIdx) : WindowState :=
  { d with sealedQueue := d.sealedQueue.erase r }

/-- The record of a batch that starts (R22, R70). -/
def startedBatch (b : BatchRecord) (ground : Ground) : BatchRecord :=
  { b with state := .releasing, ground := some ground }

theorem startBatch_some (r : RecordIdx) (s : State) (b : BatchRecord) (hb : s.records[r] = some b) :
    startBatch r s = requestEntry b.entries (reportForced b (takeBatch r b s)) := by
  unfold startBatch
  rw [hb]

theorem startBatch_records (r : RecordIdx) (s : State) (b : BatchRecord) (hb : s.records[r] = some b) :
    (startBatch r s).records = s.records.set r.val (some (startedBatch b (s.groundOf b))) r.isLt := by
  rw [startBatch_some r s b hb, requestEntry_records, reportForced_records]
  exact takeBatch_records r b s

theorem startBatch_windows (r : RecordIdx) (s : State) (b : BatchRecord) (hb : s.records[r] = some b) :
    (startBatch r s).windows = s.windows.set b.window.val (startedWindow s.windows[b.window] r) b.window.isLt := by
  rw [startBatch_some r s b hb, requestEntry_windows, reportForced_windows]
  exact takeBatch_windows r b s

theorem startBatch_phase (r : RecordIdx) (s : State) (b : BatchRecord) (hb : s.records[r] = some b) :
    (startBatch r s).engine.phase = .entries := by
  rw [startBatch_some r s b hb, requestEntry_engine_phase, reportForced_engine]
  rfl

theorem startBatch_releasing (r : RecordIdx) (s : State) (b : BatchRecord) (hb : s.records[r] = some b) :
    (startBatch r s).engine.releasing = some r := by
  rw [startBatch_some r s b hb, requestEntry_engine_releasing, reportForced_engine]
  rfl

/-- An evaluation that finds nothing to start changes nothing. -/
theorem evaluate_none (s : State) (h : s.choice = none) : evaluate s = s := by
  unfold evaluate
  rw [h]
  split <;> rfl

/-- Every record the choice can name is an eligible head, so it is in use. -/
theorem oldest_mem (s : State) : ∀ (l : List RecordIdx) (r : RecordIdx), s.oldest l = some r → r ∈ l
  | [], _, h => by simp [State.oldest] at h
  | a :: l, r, h => by
    unfold State.oldest at h
    split at h
    · simp only [Option.some.injEq] at h
      simp [h]
    · rename_i q hq
      split at h
      · simp only [Option.some.injEq] at h
        exact List.mem_cons_of_mem _ (oldest_mem s l r (by rw [hq, h]))
      · simp only [Option.some.injEq] at h
        simp [h]

theorem oldest_isSome (s : State) : ∀ l : List RecordIdx, l ≠ [] → (s.oldest l).isSome = true
  | [], h => absurd rfl h
  | a :: l, _ => by
    unfold State.oldest
    split
    · rfl
    · split <;> rfl

theorem choice_mem (s : State) (r : RecordIdx) (h : s.choice = some r) : r ∈ s.candidates ∧ s.eligible r = true := by
  have h1 := oldest_mem s _ r h
  have h2 : r ∈ s.candidates.filter s.eligible := by
    split at h1
    · exact h1
    · exact List.mem_of_mem_filter h1
  exact List.mem_filter.mp h2

theorem choice_none (s : State) (h : s.choice = none) : ∀ r ∈ s.candidates, s.eligible r = false := by
  have h1 : s.candidates.filter s.eligible = [] := by
    by_contra hne
    have := oldest_isSome s
      (if ((s.candidates.filter s.eligible).filter fun r => !s.unmarked r).isEmpty then s.candidates.filter s.eligible
        else (s.candidates.filter s.eligible).filter fun r => !s.unmarked r)
      (by
        split
        · exact hne
        · rename_i hm
          simpa using hm)
    rw [show s.oldest _ = s.choice from rfl, h] at this
    exact absurd this (by simp)
  intro r hr
  by_contra he
  have : r ∈ s.candidates.filter s.eligible := List.mem_filter.mpr ⟨hr, by simpa using he⟩
  rw [h1] at this
  exact absurd this (by simp)

theorem eligible_some (s : State) (r : RecordIdx) (h : s.eligible r = true) :
    ∃ b, s.records[r] = some b ∧ s.batchEligible b = true := by
  unfold State.eligible at h
  cases hb : s.records[r] with
  | none => rw [hb] at h; simp at h
  | some b => rw [hb] at h; exact ⟨b, rfl, by simpa using h⟩

/-- Everything an evaluation can do. -/
theorem evaluate_cases (s : State) :
    evaluate s = s ∧ (s.engine.phase = .idle → ∀ r ∈ s.candidates, s.eligible r = false) ∨
      ∃ r b, s.engine.phase = .idle ∧ s.choice = some r ∧ s.records[r] = some b ∧ evaluate s = startBatch r s := by
  unfold evaluate
  by_cases hp : s.engine.phase = .idle
  · rw [if_pos (by simpa using hp)]
    cases hc : s.choice with
    | none => exact .inl ⟨rfl, fun _ => choice_none s hc⟩
    | some r =>
      obtain ⟨b, hb, _⟩ := eligible_some s r (choice_mem s r hc).2
      exact .inr ⟨r, b, hp, rfl, hb, rfl⟩
  · rw [if_neg (by simpa using hp)]
    exact .inl ⟨rfl, fun h => absurd h hp⟩

/-- What an evaluation makes of a record in use: nothing, or the releasing batch. -/
theorem evaluate_record (s : State) (q : RecordIdx) (b : BatchRecord) (hb : s.records[q.val] = some b) :
    (evaluate s).records[q.val] = some b ∨
      (∃ ground, (evaluate s).records[q.val] = some (startedBatch b ground)) ∧
        (evaluate s).engine.releasing = some q ∧ s.choice = some q := by
  rcases evaluate_cases s with ⟨h, _⟩ | ⟨r, c, _, hch, hc, h⟩
  · rw [h]
    exact .inl hb
  · rw [h, startBatch_records r s c hc, records_set_get, startBatch_releasing r s c hc]
    by_cases hr : r = q
    · subst hr
      have : c = b := Option.some.inj (hc.symm.trans hb)
      subst this
      rw [if_pos rfl]
      exact .inr ⟨⟨_, rfl⟩, rfl, hch⟩
    · rw [if_neg hr]
      exact .inl hb

/-- What an evaluation makes of a free record: nothing. -/
theorem evaluate_free (s : State) (q : RecordIdx) (hb : s.records[q.val] = none) : (evaluate s).records[q.val] = none := by
  rcases evaluate_cases s with ⟨h, _⟩ | ⟨r, c, _, _, hc, h⟩
  · rw [h]
    exact hb
  · rw [h, startBatch_records r s c hc, records_set_get, if_neg]
    · exact hb
    · rintro rfl
      exact absurd (hc.symm.trans hb) (by simp)

/-- What an evaluation makes of a window: nothing, or its queue loses the batch that starts. -/
theorem evaluate_window (s : State) (V : WindowIdx) :
    (evaluate s).windows[V.val] = s.windows[V.val] ∨
      ∃ r, (evaluate s).windows[V.val] = startedWindow s.windows[V.val] r ∧ (evaluate s).engine.releasing = some r ∧
        s.choice = some r := by
  rcases evaluate_cases s with ⟨h, _⟩ | ⟨r, c, _, hch, hc, h⟩
  · rw [h]
    exact .inl rfl
  · rw [h, startBatch_windows r s c hc, windows_set_get, startBatch_releasing r s c hc]
    split
    · rename_i hV
      subst hV
      exact .inr ⟨r, rfl, rfl, hch⟩
    · exact .inl rfl

end Sys2Proof.Machine
end

