-- ==== Sys2Proof/Laws/Settle.lean ====
section
/-! SUPPORT. What the end of an event (a re-examination, then an evaluation) can and cannot touch: values of the windows,
flags, the handshake (R68, R99, R148). -/

namespace Sys2Proof.Machine

/-! ## Values of a window that no seal, store or start changes -/

/-- The end of an event: the state as it is or as the re-examination leaves it, then evaluated or not. -/
theorem settle_ends (w : Work) : ∃ v, (v = w ∨ v = reexamine w) ∧ (settle w = v.st ∨ settle w = evaluate v.st) := by
  refine ⟨if w.reported then reexamine w else w, ?_, ?_⟩
  · split
    · exact .inr rfl
    · exact .inl rfl
  · simp only [settle]
    split
    · split
      · exact .inr rfl
      · exact .inl rfl
    · split
      · exact .inr rfl
      · exact .inl rfl

section
variable {α : Type} (f : WindowState → α)

theorem evaluate_proj (hstart : ∀ d r, f (startedWindow d r) = f d) (s : State) (V : WindowIdx) :
    f (evaluate s).windows[V.val] = f s.windows[V.val] := by
  rcases evaluate_window s V with h | ⟨r, h, _⟩
  · rw [h]
  · rw [h, hstart]

theorem sealOpen_free (W : WindowIdx) (w : Work) (r : RecordIdx) (ho : w.st.windows[W].openBatch = some r)
    (hb : w.st.records[r] = none) : sealOpen W w = w := by
  unfold sealOpen
  rw [ho]
  dsimp only
  rw [hb]

theorem sealOpen_proj (hseal : ∀ d r, f (sealedWindow d r) = f d) (W : WindowIdx) (w : Work) (V : WindowIdx) :
    f (sealOpen W w).st.windows[V.val] = f w.st.windows[V.val] := by
  cases ho : w.st.windows[W].openBatch with
  | none => rw [sealOpen_none W w ho]
  | some r =>
    cases hb : w.st.records[r] with
    | none => rw [sealOpen_free W w r ho hb]
    | some b =>
      rw [sealOpen_windows W w r b ho hb, windows_set_get]
      split
      · rename_i h
        subst h
        exact hseal _ _
      · rfl

theorem sealAll_proj (hseal : ∀ d r, f (sealedWindow d r) = f d) (Ws : List WindowIdx) (w : Work) (V : WindowIdx) :
    f (sealAll Ws w).st.windows[V.val] = f w.st.windows[V.val] := by
  induction Ws generalizing w with
  | nil => rfl
  | cons W Ws ih => rw [sealAll_cons, ih, sealOpen_proj f hseal]

theorem storeHeld_proj (hstore : ∀ d r, f { d with openBatch := some r, idle := 0 } = f d) (W : WindowIdx) (a : Addr)
    (m : Lanes) (d : Word) (s : State) (V : WindowIdx) :
    f (storeHeld W a m d s).windows[V.val] = f s.windows[V.val] := by
  unfold storeHeld
  split
  · rfl
  · simp only [setWindow_windows, windows_set_get, setRecord_windows]
    split
    · rename_i h
      subst h
      exact hstore _ _
    · rfl

theorem reexamine_proj (hseal : ∀ d r, f (sealedWindow d r) = f d)
    (hstore : ∀ d r, f { d with openBatch := some r, idle := 0 } = f d) (w : Work) (V : WindowIdx) :
    f (reexamine w).st.windows[V.val] = f w.st.windows[V.val] := by
  unfold reexamine
  split
  · split
    · unfold reclassify
      split
      · rw [show (w.map (sendDirect _ _ _)).st = sendDirect _ _ _ w.st from rfl, sendDirect_windows]
      · rename_i a m d _ _ W _
        unfold storeWrite commitSeal
        have h : f (w.map fun s => completeUpstream none (storeHeld W a m d s)).st.windows[V.val] = f w.st.windows[V.val] :=
          storeHeld_proj f hstore W a m d w.st V
        split
        · rw [sealOpen_proj f hseal]
          exact h
        · exact h
      · rfl
    · rfl
    · rfl
  · rfl

/-- The end of an event leaves in each window every value that seals, stores and starts leave. -/
theorem settle_proj (hseal : ∀ d r, f (sealedWindow d r) = f d) (hstart : ∀ d r, f (startedWindow d r) = f d)
    (hstore : ∀ d r, f { d with openBatch := some r, idle := 0 } = f d) (w : Work) (V : WindowIdx) :
    f (settle w).windows[V.val] = f w.st.windows[V.val] := by
  obtain ⟨v, hv, e⟩ := settle_ends w
  have h1 : f v.st.windows[V.val] = f w.st.windows[V.val] := by
    rcases hv with rfl | rfl
    · rfl
    · exact reexamine_proj f hseal hstore w V
  rcases e with e | e
  · rw [e, h1]
  · rw [e, evaluate_proj f hstart, h1]

end

/-- A window's retirement counters and its closing mark pass the end of an event. -/
theorem settle_counters (w : Work) (V : WindowIdx) :
    (settle w).windows[V.val].lastRetired = w.st.windows[V.val].lastRetired ∧
      (settle w).windows[V.val].retired = w.st.windows[V.val].retired ∧
      (settle w).windows[V.val].closing = w.st.windows[V.val].closing :=
  ⟨settle_proj (fun d => d.lastRetired) (fun _ _ => rfl) (fun _ _ => rfl) (fun _ _ => rfl) w V,
    settle_proj (fun d => d.retired) (fun _ _ => rfl) (fun _ _ => rfl) (fun _ _ => rfl) w V,
    settle_proj (fun d => d.closing) (fun _ _ => rfl) (fun _ _ => rfl) (fun _ _ => rfl) w V⟩

/-! ## Flags are only ever handed (R148) -/

theorem flagBit_lt (f : Flag) : flagBit f < 14 := by
  cases f
  case retire W =>
    simp only [flagBit]
    have := W.isLt
    omega
  all_goals simp [flagBit]

/-- A handed flag is set. -/
theorem handFlag_self (s : State) (f : Flag) : (handFlag f s).flagSet f = true := by
  have h := flagBit_lt f
  have : (flagMask f).getLsbD (flagBit f) = true := by
    have key : ∀ n : Fin 14, ((1 : BitVec 14) <<< n.val).getLsbD n.val = true := by decide
    exact key ⟨_, h⟩
  unfold State.flagSet handFlag
  simp only [BitVec.getLsbD_or, this, Bool.or_true]

/-- A set flag stays set when another is handed. -/
theorem handFlag_keeps (s : State) (f g : Flag) (h : s.flagSet f = true) : (handFlag g s).flagSet f = true := by
  unfold State.flagSet handFlag at *
  simp only [BitVec.getLsbD_or, h, Bool.true_or]

theorem handIncident_keeps (s : State) (f : Flag) (i : Incident) (h : s.flagSet f = true) :
    (handIncident i s).flagSet f = true := by
  unfold handIncident
  apply handFlag_keeps
  unfold State.flagSet queueIncident at *
  split <;> exact h

theorem requestEntry_flagSet (es : List Entry) (s : State) (f : Flag) : (requestEntry es s).flagSet f = s.flagSet f := by
  unfold State.flagSet
  simp

theorem evaluate_flag (s : State) (f : Flag) (h : s.flagSet f = true) : (evaluate s).flagSet f = true := by
  rcases evaluate_cases s with ⟨e, _⟩ | ⟨r, b, _, _, hb, e⟩
  · rw [e]
    exact h
  · rw [e, startBatch_some r s b hb, requestEntry_flagSet]
    unfold reportForced
    split
    · exact handIncident_keeps _ _ _ h
    · exact h

theorem settle_flag (w : Work) (f : Flag) (h : w.st.flagSet f = true) : (settle w).flagSet f = true := by
  simp only [settle]
  have h1 : (if w.reported = true then reexamine w else w).st.flagSet f = true := by
    split
    · unfold State.flagSet at *
      simpa using h
    · exact h
  revert h1
  generalize (if w.reported = true then reexamine w else w) = v
  intro h1
  split
  · exact evaluate_flag _ _ h1
  · exact h1

theorem installStaged_flag (s : State) (f : Flag) (h : s.flagSet f = true) : (installStaged s).flagSet f = true :=
  handFlag_keeps _ _ _ h

theorem applyIfEmpty_flag (w : Work) (f : Flag) (h : w.st.flagSet f = true) : (applyIfEmpty w).st.flagSet f = true := by
  unfold applyIfEmpty
  split
  · exact installStaged_flag _ _ h
  · exact h

theorem applyIfLost_flag (w : Work) (f : Flag) (h : w.st.flagSet f = true) : (applyIfLost w).st.flagSet f = true := by
  unfold applyIfLost
  split
  · exact applyIfEmpty_flag _ _ h
  · exact h

theorem applyAtBypass_flag (w : Work) (f : Flag) (h : w.st.flagSet f = true) : (applyAtBypass w).st.flagSet f = true := by
  unfold applyAtBypass
  split
  · exact installStaged_flag _ _ h
  · exact h

theorem drainIfEmpty_flag (w : Work) (f : Flag) (h : w.st.flagSet f = true) : (drainIfEmpty w).st.flagSet f = true := by
  unfold drainIfEmpty
  split
  · exact handFlag_keeps _ _ _ (applyAtBypass_flag (changeMode .bypass w) _ h)
  · exact h

/-! ## Applies leave the retirement counters (R143) -/

theorem installStaged_window (s : State) (V : WindowIdx) :
    (installStaged s).windows[V.val] = { s.windows[V.val] with closing := false } := by
  unfold installStaged
  simp [State.mapWindows, handFlag]

section
variable {α : Type} (f : WindowState → α)

theorem applyIfEmpty_proj (hclose : ∀ d, f { d with closing := false } = f d) (w : Work) (V : WindowIdx) :
    f (applyIfEmpty w).st.windows[V.val] = f w.st.windows[V.val] := by
  unfold applyIfEmpty
  split
  · exact (congrArg f (installStaged_window w.st V)).trans (hclose _)
  · rfl

theorem applyIfLost_proj (hclose : ∀ d, f { d with closing := false } = f d) (w : Work) (V : WindowIdx) :
    f (applyIfLost w).st.windows[V.val] = f w.st.windows[V.val] := by
  unfold applyIfLost
  split
  · exact applyIfEmpty_proj f hclose w V
  · rfl

theorem applyAtBypass_proj (hclose : ∀ d, f { d with closing := false } = f d) (w : Work) (V : WindowIdx) :
    f (applyAtBypass w).st.windows[V.val] = f w.st.windows[V.val] := by
  unfold applyAtBypass
  split
  · exact (congrArg f (installStaged_window w.st V)).trans (hclose _)
  · rfl

theorem drainIfEmpty_proj (hclose : ∀ d, f { d with closing := false } = f d) (w : Work) (V : WindowIdx) :
    f (drainIfEmpty w).st.windows[V.val] = f w.st.windows[V.val] := by
  unfold drainIfEmpty
  split
  · exact applyAtBypass_proj f hclose (changeMode .bypass w) V
  · rfl

end

/-! ## While the memory recovers, a claim waits (R121) -/

/-- The port is RECOVERING, with no transaction in flight. -/
abbrev State.recovering (s : State) : Prop :=
  s.port.phase = .recovering ∧ s.port.transaction = none

theorem placeUpstream_recovering (c : Claim) (s : State) (h : s.recovering) :
    (placeUpstream c s).recovering ∧ (placeUpstream c s).port.upstreamClaim = some c := by
  rw [placeUpstream_busy _ _ (by rw [h.1]; simp)]
  exact ⟨h, rfl⟩

theorem placeRelease_recovering (c : Claim) (s : State) (h : s.recovering) :
    (placeRelease c s).recovering ∧ (placeRelease c s).port.upstreamClaim = s.port.upstreamClaim := by
  rw [placeRelease_busy _ _ (by rw [h.1]; simp)]
  exact ⟨h, rfl⟩

theorem evaluate_recovering (s : State) (h : s.recovering) :
    (evaluate s).recovering ∧ (evaluate s).port.upstreamClaim = s.port.upstreamClaim := by
  rcases evaluate_cases s with ⟨e, _⟩ | ⟨r, b, _, _, hb, e⟩
  · rw [e]
    exact ⟨h, rfl⟩
  · rw [e, startBatch_some r s b hb]
    have h2 : (reportForced b (takeBatch r b s)).port = s.port := by simp
    unfold requestEntry
    split
    · exact ⟨⟨by rw [h2]; exact h.1, by rw [h2]; exact h.2⟩, by rw [h2]⟩
    · have := placeRelease_recovering (.entryWrite (by assumption : Entry).addr (by assumption : Entry).lanes
        (by assumption : Entry).data) (reportForced b (takeBatch r b s))
        ⟨by rw [h2]; exact h.1, by rw [h2]; exact h.2⟩
      exact ⟨this.1, by rw [this.2, h2]⟩

theorem reexamine_recovering (w : Work) (h : w.st.recovering) : (reexamine w).st.recovering := by
  unfold reexamine
  split
  · split
    · unfold reclassify
      split
      · rename_i a m d _ _ _
        exact (placeUpstream_recovering (.directWrite a m d)
          { w.st with upstream := ⟨some (.write a m d), .direct, none, none, none, false, none⟩ } h).1
      · exact ⟨by simpa using h.1, by simpa using h.2⟩
      · exact h
    · exact h
    · exact h
  · exact h

theorem settle_recovering (w : Work) (h : w.st.recovering) : (settle w).recovering := by
  simp only [settle]
  have h1 : (if w.reported = true then reexamine w else w).st.recovering := by
    split
    · exact reexamine_recovering w h
    · exact h
  revert h1
  generalize (if w.reported = true then reexamine w else w) = v
  intro h1
  split
  · exact (evaluate_recovering _ h1).1
  · exact h1

/-- R100: a waiting write that a re-examination finds direct is claimed at the downstream port. -/
theorem settle_direct (w : Work) (a : Addr) (m : Lanes) (d : Word) (hr : w.reported = true)
    (hp : w.st.upstream.phase = .wait) (ht : w.st.upstream.transaction = some (.write a m d)) (hrec : w.st.recovering)
    (hcl : w.st.classify a = .direct) :
    (settle w).upstream = ⟨some (.write a m d), .direct, none, none, none, false, none⟩ ∧
      (settle w).port.upstreamClaim = some (.directWrite a m d) := by
  have h1 : reexamine w = w.map (sendDirect a m d) := by
    unfold reexamine reclassify
    rw [hp, ht]
    simp [hcl]
  have h2 : (w.map (sendDirect a m d)).st = sendDirect a m d w.st := rfl
  have h3 := placeUpstream_recovering (.directWrite a m d)
    { w.st with upstream := ⟨some (.write a m d), .direct, none, none, none, false, none⟩ } hrec
  have h4 : (sendDirect a m d w.st).recovering ∧ (sendDirect a m d w.st).port.upstreamClaim = some (.directWrite a m d) := h3
  simp only [settle, hr, if_true, h1, h2]
  split
  · rw [evaluate_upstream, (evaluate_recovering _ h4.1).2, h4.2]
    simp
  · rw [h4.2]
    simp

/-- In BYPASS every write is direct (R88). -/
theorem classify_bypass {s : State} (h : s.mode = .bypass) (a : Addr) : s.classify a = .direct := by
  unfold State.classify
  rw [h]

end Sys2Proof.Machine
end

