-- ==== Sys2Proof/Laws/Incidents.lean ====
section
/-! SUPPORT. Incidents: what handing one leaves in the unit, and that the rest of its event only adds to it (R148, R152 to
R154). -/

namespace Sys2Proof.Machine

/-- What every step but the taking of incidents, the clearing of flags and the resets does to the incident unit: flags are
only set, the queue only grows at its tail, a full queue stays, and the dropped count does not fall. -/
def Grows (u v : IncidentUnit) : Prop :=
  u.queue <+: v.queue ∧ u.dropped ≤ v.dropped ∧ (8 ≤ u.queue.length → v.queue = u.queue) ∧ v.mask = u.mask ∧
    ∀ f : Flag, u.flags.getLsbD (flagBit f) = true → v.flags.getLsbD (flagBit f) = true

theorem Grows.refl (u : IncidentUnit) : Grows u u :=
  ⟨List.prefix_refl _, Nat.le_refl _, fun _ => rfl, rfl, fun _ h => h⟩

theorem Grows.trans {u v w : IncidentUnit} (h : Grows u v) (k : Grows v w) : Grows u w := by
  refine ⟨h.1.trans k.1, h.2.1.trans k.2.1, fun hf => ?_, k.2.2.2.1.trans h.2.2.2.1, fun f hf => k.2.2.2.2 f (h.2.2.2.2 f hf)⟩
  have := h.2.2.1 hf
  rw [k.2.2.1 (by rw [this]; exact hf), this]

theorem handFlag_grows (f : Flag) (s : State) : Grows s.incidents (handFlag f s).incidents :=
  ⟨List.prefix_refl _, Nat.le_refl _, fun _ => rfl, rfl, fun g h => handFlag_keeps s g f h⟩

theorem queueIncident_grows (i : Incident) (u : IncidentUnit) : Grows u (queueIncident i u) := by
  unfold queueIncident Config.incidentDepth Config.stopCount
  split
  · rename_i h
    exact ⟨List.prefix_append _ _, Nat.le_refl _, fun hf => absurd h (Nat.not_lt.mpr hf), rfl, fun _ h => h⟩
  · refine ⟨List.prefix_refl _, ?_, fun _ => rfl, rfl, fun _ h => h⟩
    dsimp only
    split <;> omega

theorem handIncident_grows (i : Incident) (s : State) : Grows s.incidents (handIncident i s).incidents :=
  (queueIncident_grows i s.incidents).trans
    (handFlag_grows .incident { s with incidents := queueIncident i s.incidents })

/-- R153, R154: handing an incident. -/
theorem handIncident_handed (i : Incident) (s : State) : Handed i s (handIncident i s) := by
  refine ⟨handFlag_self _ _, fun hq => ?_, fun hq => ?_⟩
  · show _ <+: (queueIncident i s.incidents).queue
    unfold queueIncident Config.incidentDepth
    rw [if_pos hq]
  · show (queueIncident i s.incidents).queue = _ ∧ _ ≤ (queueIncident i s.incidents).dropped
    unfold queueIncident Config.incidentDepth Config.stopCount
    rw [if_neg (Nat.not_lt.mpr hq)]
    refine ⟨rfl, ?_⟩
    dsimp only
    split <;> omega

/-- What was handed stays so while the unit only grows, before and after. -/
theorem Handed.mono {i : Incident} {s t u : State} (h : Handed i s t) (hg : Grows t.incidents u.incidents) : Handed i s u := by
  refine ⟨hg.2.2.2.2 .incident h.1, fun hq => (h.2.1 hq).trans hg.1, fun hq => ?_⟩
  have h1 := h.2.2 hq
  have h2 := hg.2.2.1 (by rw [h1.1]; exact hq)
  exact ⟨h2.trans h1.1, h1.2.trans hg.2.1⟩

theorem Handed.congr {i : Incident} {s s' t : State} (h : Handed i s t) (hq : s'.incidents.queue = s.incidents.queue)
    (hd : s'.incidents.dropped = s.incidents.dropped) : Handed i s' t := by
  unfold Handed at *
  rw [hq, hd]
  exact h

theorem evaluate_grows (s : State) : Grows s.incidents (evaluate s).incidents := by
  rcases evaluate_cases s with ⟨e, _⟩ | ⟨r, b, _, _, hb, e⟩
  · rw [e]
    exact Grows.refl _
  · rw [e, startBatch_some r s b hb, requestEntry_incidents]
    unfold reportForced
    split
    · exact handIncident_grows _ (takeBatch r b s)
    · exact Grows.refl _

theorem settle_grows (w : Work) : Grows w.st.incidents (settle w).incidents := by
  obtain ⟨v, hv, e⟩ := settle_ends w
  have h1 : v.st.incidents = w.st.incidents := by
    rcases hv with rfl | rfl
    · rfl
    · simp
  rcases e with e | e
  · rw [e, h1]
    exact Grows.refl _
  · rw [e, ← h1]
    exact evaluate_grows _

theorem applyIfEmpty_grows (w : Work) : Grows w.st.incidents (applyIfEmpty w).st.incidents := by
  unfold applyIfEmpty
  split
  · exact handFlag_grows .applied _
  · exact Grows.refl _

theorem applyIfLost_grows (w : Work) : Grows w.st.incidents (applyIfLost w).st.incidents := by
  unfold applyIfLost
  split
  · exact applyIfEmpty_grows w
  · exact Grows.refl _

theorem lateCheck_grows (s : State) : Grows s.incidents (lateCheck s).incidents := by
  unfold lateCheck
  split
  · split
    · split
      · exact Grows.refl _
      · unfold checkLate
        split
        · exact handIncident_grows _ (s.setRecord _ _)
        · exact Grows.refl _
    · exact Grows.refl _
  · exact Grows.refl _

end Sys2Proof.Machine
end

