-- ==== Sys2Proof/Laws/Lines.lean ====
section
/-! SUPPORT. The oldest of some batches, the seals of several windows at once, and the largest open batch: what a line event
and a stall expiry rest on (R7, R12, R15, R111). -/

namespace Sys2Proof.Machine

/-! ## The oldest (R7) -/

/-- No batch is older than one that is older than it. -/
theorem olderOrdinal_asymm {x y : BitVec 32} (h : olderOrdinal x y = true) : olderOrdinal y x = false := by
  unfold olderOrdinal at *
  simp only [Bool.and_eq_true, decide_eq_true_eq, BitVec.toNat_sub, Bool.and_eq_false_iff, decide_eq_false_iff_not] at *
  have := x.isLt
  have := y.isLt
  omega

theorem olderOrdinal_self (x : BitVec 32) : olderOrdinal x x = false := by
  unfold olderOrdinal
  simp

/-- A batch older than every other of a list is the one that is found. -/
theorem oldest_eq (s : State) (r : RecordIdx) : ∀ l : List RecordIdx, r ∈ l →
    (∀ q ∈ l, q ≠ r → olderOrdinal (s.ordinalOf r) (s.ordinalOf q) = true) → s.oldest l = some r
  | [], h, _ => by simp at h
  | a :: l, h, ho => by
    have ho' : ∀ q ∈ l, q ≠ r → olderOrdinal (s.ordinalOf r) (s.ordinalOf q) = true :=
      fun q hq => ho q (List.mem_cons_of_mem _ hq)
    unfold State.oldest
    by_cases hr : r ∈ l
    · rw [oldest_eq s r l hr ho']
      dsimp only
      by_cases ha : a = r
      · subst ha
        simp [olderOrdinal_self]
      · rw [if_pos (ho a (List.mem_cons_self ..) ha)]
    · have ha : a = r := by
        rcases List.mem_cons.mp h with h | h
        · exact h.symm
        · exact absurd h hr
      subst ha
      cases hq : s.oldest l with
      | none => rfl
      | some q =>
        dsimp only
        have hm := oldest_mem s l q hq
        have hne : q ≠ a := fun h => hr (h ▸ hm)
        rw [olderOrdinal_asymm (ho' q hm hne)]
        simp

/-! ## Several seals (R12) -/

/-- A seal leaves every other window as it is. -/
theorem sealOpen_window_other (V W : WindowIdx) (w : Work) (h : V ≠ W) :
    (sealOpen V w).st.windows[W.val] = w.st.windows[W.val] := by
  cases ho : w.st.windows[V].openBatch with
  | none => rw [sealOpen_none V w ho]
  | some r =>
    cases hb : w.st.records[r] with
    | none => rw [sealOpen_free V w r ho hb]
    | some b => rw [sealOpen_windows V w r b ho hb, windows_set_get, if_neg h]

/-- A seal frees no record. -/
theorem sealOpen_isSome (V : WindowIdx) (w : Work) (q : RecordIdx) (h : w.st.records[q.val].isSome = true) :
    (sealOpen V w).st.records[q.val].isSome = true := by
  cases ho : w.st.windows[V].openBatch with
  | none => rwa [sealOpen_none V w ho]
  | some r =>
    cases hb : w.st.records[r] with
    | none => rwa [sealOpen_free V w r ho hb]
    | some b =>
      obtain ⟨_, hg⟩ := sealOpen_get V w r b ho hb
      rw [hg q, Option.isSome_map]
      split
      · rfl
      · exact h

theorem sealAll_window_other (Ws : List WindowIdx) (W : WindowIdx) (w : Work) (h : W ∉ Ws) :
    (sealAll Ws w).st.windows[W.val] = w.st.windows[W.val] := by
  induction Ws generalizing w with
  | nil => rfl
  | cons V Ws ih =>
    rw [sealAll_cons, ih _ (fun hm => h (List.mem_cons_of_mem _ hm)), sealOpen_window_other]
    rintro rfl
    exact h (List.mem_cons_self ..)

/-- Each of the named windows that has an open batch has it sealed. -/
theorem sealAll_window (Ws : List WindowIdx) (W : WindowIdx) (w : Work) (r : RecordIdx) (hn : Ws.Nodup) (hW : W ∈ Ws)
    (ho : w.st.windows[W.val].openBatch = some r) (hb : w.st.records[r.val].isSome = true) :
    (sealAll Ws w).st.windows[W.val] = sealedWindow w.st.windows[W.val] r := by
  induction Ws generalizing w with
  | nil => simp at hW
  | cons V Ws ih =>
    rw [sealAll_cons]
    rw [List.nodup_cons] at hn
    by_cases hV : V = W
    · subst hV
      obtain ⟨b, hb⟩ := Option.isSome_iff_exists.mp hb
      rw [sealAll_window_other _ _ _ hn.1, sealOpen_windows V w r b ho hb, windows_set_get, if_pos rfl]
      rfl
    · have hW' : W ∈ Ws := by
        rcases List.mem_cons.mp hW with h | h
        · exact absurd h.symm hV
        · exact h
      rw [ih _ hn.2 hW' (by rw [sealOpen_window_other V W w hV]; exact ho) (sealOpen_isSome V w r hb),
        sealOpen_window_other V W w hV]

/-- Seals of windows without an open batch do nothing. -/
theorem sealAll_none (Ws : List WindowIdx) (w : Work) (h : ∀ W ∈ Ws, w.st.windows[W].openBatch = none) :
    sealAll Ws w = w := by
  induction Ws with
  | nil => rfl
  | cons V Ws ih =>
    rw [sealAll_cons, sealOpen_none V w (h V (List.mem_cons_self ..))]
    exact ih fun W hW => h W (List.mem_cons_of_mem _ hW)

/-- What a seal makes of a record in use: its state and numbers may change, a mark may be set, and nothing else. -/
theorem sealOpen_record (V : WindowIdx) (w : Work) (q : RecordIdx) (b : BatchRecord) (h : w.st.records[q.val] = some b) :
    ∃ b', (sealOpen V w).st.records[q.val] = some b' ∧ b'.entries = b.entries ∧ b'.window = b.window ∧
      b'.late = b.late ∧ b'.ground = b.ground ∧ b'.written = b.written ∧ b'.firstRow = b.firstRow ∧
      b'.lastRow = b.lastRow := by
  cases ho : w.st.windows[V].openBatch with
  | none => exact ⟨b, by rwa [sealOpen_none V w ho], rfl, rfl, rfl, rfl, rfl, rfl, rfl⟩
  | some r =>
    cases hb : w.st.records[r] with
    | none => exact ⟨b, by rwa [sealOpen_free V w r ho hb], rfl, rfl, rfl, rfl, rfl, rfl, rfl⟩
    | some c =>
      obtain ⟨m, hg⟩ := sealOpen_get V w r c ho hb
      by_cases hr : r = q
      · subst hr
        have : c = b := Option.some.inj (hb.symm.trans h)
        subst this
        refine ⟨_, by rw [hg r, if_pos rfl]; rfl, ?_⟩
        split <;> exact ⟨rfl, rfl, rfl, rfl, rfl, rfl, rfl⟩
      · refine ⟨_, by rw [hg q, if_neg hr, h]; rfl, ?_⟩
        split <;> exact ⟨rfl, rfl, rfl, rfl, rfl, rfl, rfl⟩

theorem sealAll_record (Ws : List WindowIdx) (w : Work) (q : RecordIdx) (b : BatchRecord)
    (h : w.st.records[q.val] = some b) :
    ∃ b', (sealAll Ws w).st.records[q.val] = some b' ∧ b'.entries = b.entries ∧ b'.window = b.window ∧
      b'.late = b.late ∧ b'.ground = b.ground ∧ b'.written = b.written ∧ b'.firstRow = b.firstRow ∧
      b'.lastRow = b.lastRow := by
  induction Ws generalizing w b with
  | nil => exact ⟨b, h, rfl, rfl, rfl, rfl, rfl, rfl, rfl⟩
  | cons V Ws ih =>
    obtain ⟨c, hc, h1, h2, h3, h4, h5, h6, h7⟩ := sealOpen_record V w q b h
    obtain ⟨d, hd, k1, k2, k3, k4, k5, k6, k7⟩ := ih _ c hc
    exact ⟨d, by rw [sealAll_cons]; exact hd, k1.trans h1, k2.trans h2, k3.trans h3, k4.trans h4, k5.trans h5,
      k6.trans h6, k7.trans h7⟩

/-- A window without an open batch keeps its seal, whatever is sealed (R13). -/
theorem sealAll_window_none (Ws : List WindowIdx) (W : WindowIdx) (w : Work) (h : w.st.windows[W.val].openBatch = none) :
    (sealAll Ws w).st.windows[W.val] = w.st.windows[W.val] := by
  induction Ws generalizing w with
  | nil => rfl
  | cons V Ws ih =>
    rw [sealAll_cons]
    by_cases hV : V = W
    · subst hV
      rw [sealOpen_none V w h]
      exact ih w h
    · have h1 := sealOpen_window_other V W w hV
      rw [ih _ (by rw [h1]; exact h), h1]

/-- Sealing some windows leaves each of them sealed, with its number advanced if it had an open batch (R12, R13). -/
theorem sealAll_sealed (Ws : List WindowIdx) (W : WindowIdx) (w : Work) (hn : Ws.Nodup) (hW : W ∈ Ws)
    (hu : ∀ r, w.st.windows[W.val].openBatch = some r → w.st.records[r.val].isSome = true) :
    (sealAll Ws w).st.windows[W.val].openBatch = none ∧
      (sealAll Ws w).st.windows[W.val].lastSealed =
        if w.st.windows[W.val].openBatch = none then w.st.windows[W.val].lastSealed
        else w.st.windows[W.val].lastSealed + 1 := by
  cases ho : w.st.windows[W.val].openBatch with
  | none =>
    rw [sealAll_window_none Ws W w ho]
    exact ⟨ho, rfl⟩
  | some r =>
    rw [sealAll_window Ws W w r hn hW ho (hu r ho)]
    exact ⟨rfl, rfl⟩

/-! ## What a seal leaves of a window's having a batch -/

theorem releasingOf_congr {s t : State} (W : WindowIdx) (he : t.engine.releasing = s.engine.releasing)
    (hr : ∀ q : RecordIdx, (t.records[q.val].map fun b => b.window) = s.records[q.val].map fun b => b.window) :
    t.releasingOf W = s.releasingOf W := by
  unfold State.releasingOf
  rw [he]
  cases s.engine.releasing with
  | none => rfl
  | some q =>
    have h := hr q
    have : (t.records[q].any fun b => b.window == W) = s.records[q].any fun b => b.window == W := by
      simp only [Fin.getElem_fin]
      cases ht : t.records[q.val] <;> cases hs : s.records[q.val] <;> rw [ht, hs] at h <;> simp_all
    simp only [Option.filter, this]

theorem hasBatch_eq (s : State) (W : WindowIdx) :
    s.hasBatch W = (s.windows[W.val].openBatch.isSome || !s.windows[W.val].sealedQueue.isEmpty || (s.releasingOf W).isSome) := by
  unfold State.hasBatch State.batchesOf
  simp only [Fin.getElem_fin]
  cases s.windows[W.val].openBatch <;> cases s.windows[W.val].sealedQueue <;> cases s.releasingOf W <;> simp

theorem sealOpen_windowOf (V : WindowIdx) (w : Work) (q : RecordIdx) :
    ((sealOpen V w).st.records[q.val].map fun b => b.window) = w.st.records[q.val].map fun b => b.window := by
  cases hb : w.st.records[q.val] with
  | some b =>
    obtain ⟨b', h1, _, h2, _⟩ := sealOpen_record V w q b hb
    rw [h1]
    simp [h2]
  | none =>
    cases ho : w.st.windows[V].openBatch with
    | none => rw [sealOpen_none V w ho, hb]
    | some r =>
      cases hr : w.st.records[r] with
      | none => rw [sealOpen_free V w r ho hr, hb]
      | some c =>
        obtain ⟨m, hg⟩ := sealOpen_get V w r c ho hr
        rw [hg q, if_neg, hb]
        · rfl
        · rintro rfl
          simp only [Fin.getElem_fin] at hr
          rw [hr] at hb
          exact absurd hb (by simp)

/-- A seal turns an open batch into a SEALED one: a window has a batch after it as before. -/
theorem sealOpen_hasBatch (V W : WindowIdx) (w : Work) : (sealOpen V w).st.hasBatch W = w.st.hasBatch W := by
  rw [hasBatch_eq, hasBatch_eq, releasingOf_congr W (by simp) (sealOpen_windowOf V w)]
  cases ho : w.st.windows[V].openBatch with
  | none => rw [sealOpen_none V w ho]
  | some r =>
    cases hb : w.st.records[r] with
    | none => rw [sealOpen_free V w r ho hb]
    | some b =>
      rw [sealOpen_windows V w r b ho hb, windows_set_get]
      split
      · rename_i h
        subst h
        simp only [Fin.getElem_fin] at ho
        simp [sealedWindow, ho]
      · rfl

theorem sealAll_hasBatch (Ws : List WindowIdx) (W : WindowIdx) (w : Work) :
    (sealAll Ws w).st.hasBatch W = w.st.hasBatch W := by
  induction Ws generalizing w with
  | nil => rfl
  | cons V Ws ih => rw [sealAll_cons, ih, sealOpen_hasBatch]

/-! ## A re-examination and the windows it does not store to -/

theorem reexamine_window_other (w : Work) (V : WindowIdx) (h : ∀ a, w.st.classify a ≠ .held V) :
    (reexamine w).st.windows[V.val] = w.st.windows[V.val] := by
  unfold reexamine
  split
  · split
    · rename_i a m d _
      unfold reclassify
      split
      · rw [show (w.map (sendDirect a m d)).st = sendDirect a m d w.st from rfl, sendDirect_windows]
      · rename_i W hW
        have hne : W ≠ V := by
          rintro rfl
          exact h a hW
        have hs : (storeHeld W a m d w.st).windows[V.val] = w.st.windows[V.val] := by
          unfold storeHeld
          split
          · rfl
          · show (State.setWindow _ W _).windows[V.val] = _
            rw [setWindow_windows, windows_set_get, if_neg hne]
            rfl
        unfold storeWrite commitSeal
        split
        · rw [sealOpen_window_other W V _ hne]
          exact hs
        · exact hs
      · rfl
    · rfl
    · rfl
  · rfl

/-- The end of an event leaves the seal of a window it cannot store to. -/
theorem settle_seal (w : Work) (V : WindowIdx) (h : w.reported = true → ∀ a, w.st.classify a ≠ .held V) :
    (settle w).windows[V.val].openBatch = w.st.windows[V.val].openBatch ∧
      (settle w).windows[V.val].lastSealed = w.st.windows[V.val].lastSealed := by
  by_cases hr : w.reported = true
  · obtain ⟨v, hv, e⟩ := settle_ends w
    have h1 : v.st.windows[V.val] = w.st.windows[V.val] := by
      rcases hv with rfl | rfl
      · rfl
      · exact reexamine_window_other w V (h hr)
    rw [← h1]
    rcases e with e | e
    · rw [e]
      exact ⟨rfl, rfl⟩
    · rw [e]
      exact ⟨evaluate_proj (fun d => d.openBatch) (fun _ _ => rfl) v.st V,
        evaluate_proj (fun d => d.lastSealed) (fun _ _ => rfl) v.st V⟩
  · have e := settle_quiet w (by simpa using hr)
    rw [e]
    split
    · exact ⟨evaluate_proj (fun d => d.openBatch) (fun _ _ => rfl) w.st V,
        evaluate_proj (fun d => d.lastSealed) (fun _ _ => rfl) w.st V⟩
    · exact ⟨rfl, rfl⟩

/-- With no record in use there is nothing to start. -/
theorem evaluate_empty (s : State) (h : ∀ r : RecordIdx, s.records[r.val] = none) : evaluate s = s := by
  apply evaluate_none
  cases hc : s.choice with
  | none => rfl
  | some r =>
    obtain ⟨b, hb, _⟩ := eligible_some s r (choice_mem s r hc).2
    simp only [Fin.getElem_fin, h] at hb
    exact absurd hb (by simp)

/-- A waiting write that a re-examination finds direct goes to memory (R100). -/
theorem settle_upstream_direct (w : Work) (a : Addr) (m : Lanes) (d : Word) (hr : w.reported = true)
    (hp : w.st.upstream.phase = .wait) (ht : w.st.upstream.transaction = some (.write a m d))
    (hc : w.st.classify a = .direct) :
    (settle w).upstream = ⟨some (.write a m d), .direct, none, none, none, false, none⟩ := by
  have h1 : reexamine w = w.map (sendDirect a m d) := by
    unfold reexamine reclassify
    rw [hp, ht]
    simp [hc]
  simp only [settle, hr, if_true, h1]
  split
  · rw [evaluate_upstream]
    exact sendDirect_upstream a m d w.st
  · exact sendDirect_upstream a m d w.st

/-! ## The largest open batch (R111) -/

theorem largestOpen_mem (s : State) : ∀ (l : List WindowIdx) (V : WindowIdx), s.largestOpen l = some V →
    V ∈ l ∧ s.windows[V].openBatch.isSome = true
  | [], V, h => by simp [State.largestOpen] at h
  | a :: l, V, h => by
    unfold State.largestOpen at h
    by_cases ha : s.windows[a].openBatch.isSome = true
    · rw [if_pos ha] at h
      cases hl : s.largestOpen l with
      | none =>
        rw [hl] at h
        have : a = V := Option.some.inj h
        subst this
        exact ⟨List.mem_cons_self .., ha⟩
      | some U =>
        rw [hl] at h
        dsimp only at h
        split at h
        · have : U = V := Option.some.inj h
          subst this
          exact ⟨List.mem_cons_of_mem _ (largestOpen_mem s l U hl).1, (largestOpen_mem s l U hl).2⟩
        · have : a = V := Option.some.inj h
          subst this
          exact ⟨List.mem_cons_self .., ha⟩
    · rw [if_neg ha] at h
      exact ⟨List.mem_cons_of_mem _ (largestOpen_mem s l V h).1, (largestOpen_mem s l V h).2⟩

/-- A window whose open batch has the most entries, the lowest among equals, is the one that is found. -/
theorem largestOpen_eq (s : State) (W : WindowIdx) (ho : s.windows[W].openBatch.isSome = true) :
    ∀ l : List WindowIdx, l.Pairwise (· < ·) → W ∈ l →
    (∀ V ∈ l, s.windows[V].openBatch.isSome = true → V ≠ W →
      s.openCount V < s.openCount W ∨ s.openCount V = s.openCount W ∧ W < V) → s.largestOpen l = some W
  | [], _, h, _ => by simp at h
  | a :: l, hp, h, hm => by
    rw [List.pairwise_cons] at hp
    have hm' : ∀ V ∈ l, s.windows[V].openBatch.isSome = true → V ≠ W →
        s.openCount V < s.openCount W ∨ s.openCount V = s.openCount W ∧ W < V :=
      fun V hV => hm V (List.mem_cons_of_mem _ hV)
    unfold State.largestOpen
    by_cases ha : a = W
    · subst ha
      rw [if_pos ho]
      cases hl : s.largestOpen l with
      | none => rfl
      | some V =>
        have h1 := largestOpen_mem s l V hl
        have h2 : V ≠ a := by
          rintro rfl
          exact absurd (hp.1 V h1.1) (by simp)
        dsimp only
        rw [if_neg]
        have := hm' V h1.1 h1.2 h2
        omega
    · have hW : W ∈ l := by
        rcases List.mem_cons.mp h with h | h
        · exact absurd h.symm ha
        · exact h
      rw [largestOpen_eq s W ho l hp.2 hW hm']
      dsimp only
      split
      · rename_i hao
        rw [if_pos]
        have h1 := hm a (List.mem_cons_self ..) hao ha
        have h2 := hp.1 W hW
        rcases h1 with h1 | ⟨_, h1⟩
        · exact h1
        · exact absurd h1 (by
            have := h2
            simp only [Fin.lt_def] at *
            omega)
      · rfl

end Sys2Proof.Machine
end

