-- ==== Sys2Proof/Laws/Memory.lean ====
section
/-! SUPPORT. The frame memory: what a read finds after a write, and that every operation keeps the canonical form. -/

namespace Sys2Proof.Machine

@[simp] theorem Memory.read_nil (k : Nat) : Memory.read [] k = none := rfl

theorem Memory.read_cons (c : Host.Cell) (m : Memory) (k : Nat) :
    Memory.read (c :: m) k = if c.1 = k then some c.2 else Memory.read m k := by
  unfold Memory.read
  by_cases h : c.1 = k <;> simp [h]

/-- A read after a write of one byte finds that byte at its key, and elsewhere what was there. -/
theorem Memory.read_put (m : Memory) (k q : Nat) (b : Byte) :
    (m.put k b).read q = if q = k then some b else m.read q := by
  induction m with
  | nil => simp [Memory.put, Memory.read_cons, eq_comm]
  | cons c rest ih =>
    unfold Memory.put
    split
    · simp [Memory.read_cons, eq_comm]
    · split
      · rename_i h1 h2
        subst h2
        simp only [Memory.read_cons, eq_comm (a := q)]
        split <;> rfl
      · rename_i h1 h2
        rw [Memory.read_cons, ih, Memory.read_cons]
        by_cases hq : q = k
        · subst hq
          have : ¬ c.1 = q := fun h => h2 h.symm
          simp [this]
        · simp [hq]

theorem risesFrom_put (m : Memory) (low k : Nat) (b : Byte) (hk : low ≤ k) (h : risesFrom low m = true) :
    risesFrom low (m.put k b) = true := by
  induction m generalizing low with
  | nil => simp [Memory.put, risesFrom, hk]
  | cons c rest ih =>
    simp only [risesFrom, Bool.and_eq_true, decide_eq_true_eq] at h
    unfold Memory.put
    split
    · rename_i hlt
      simp only [risesFrom, Bool.and_eq_true, decide_eq_true_eq]
      exact ⟨hk, by omega, h.2⟩
    · split
      · rename_i heq
        subst heq
        simp only [risesFrom, Bool.and_eq_true, decide_eq_true_eq]
        exact h
      · simp only [risesFrom, Bool.and_eq_true, decide_eq_true_eq]
        exact ⟨h.1, ih _ (by omega) h.2⟩

theorem Memory.wf_put (m : Memory) (k : Nat) (b : Byte) (h : m.wf = true) : (m.put k b).wf = true :=
  risesFrom_put m 0 k b (Nat.zero_le k) h

theorem writeLane_wf (w : Addr) (lanes : Lanes) (d : Word) (i : Fin 4) (m : Memory) (h : m.wf = true) :
    (writeLane w lanes d i m).wf = true := by
  unfold writeLane
  split
  · exact Memory.wf_put _ _ _ h
  · exact h

theorem writeWord_wf (w : Addr) (lanes : Lanes) (d : Word) (m : Memory) (h : m.wf = true) :
    (writeWord w lanes d m).wf = true :=
  writeLane_wf _ _ _ _ _ (writeLane_wf _ _ _ _ _ (writeLane_wf _ _ _ _ _ (writeLane_wf _ _ _ _ _ h)))

/-- Every transaction keeps the canonical form. -/
theorem Claim.store_wf (c : Claim) (lanes : Lanes) (m : Memory) (h : m.wf = true) : (c.store lanes m).wf = true := by
  unfold Claim.store
  split
  · exact h
  · exact writeWord_wf _ _ _ _ h

theorem writeLane_read (w : Addr) (lanes : Lanes) (d : Word) (i : Fin 4) (m : Memory) (k : Nat) :
    (writeLane w lanes d i m).read k =
      if lanes.getLsbD i.val = true ∧ k = laneKey w i.val then some (laneByte d i) else m.read k := by
  unfold writeLane
  split <;> rename_i h
  · rw [Memory.read_put]
    exact if_congr (by rw [h]; simp) rfl rfl
  · exact (if_neg fun c => h c.1).symm

theorem laneKey_inj {w v : Addr} {i j : Fin 4} : laneKey w i.val = laneKey v j.val ↔ w = v ∧ i = j := by
  unfold laneKey
  refine ⟨fun h => ?_, fun h => by rw [h.1, h.2]⟩
  have hi := i.isLt
  have hj := j.isLt
  exact ⟨BitVec.eq_of_toNat_eq (by omega), Fin.ext (by omega)⟩

/-- R119: a lane of the written word reads the transaction's byte when it is strobed, and what it read before otherwise. -/
theorem writeWord_read_lane (w : Addr) (lanes : Lanes) (d : Word) (m : Memory) (i : Fin 4) :
    (writeWord w lanes d m).read (laneKey w i.val) =
      if lanes.getLsbD i.val = true then some (laneByte d i) else m.read (laneKey w i.val) := by
  unfold writeWord
  simp only [writeLane_read, laneKey_inj, true_and]
  fin_cases i <;> simp

/-- R119: outside the written word every byte reads what it read before. -/
theorem writeWord_read_other (w : Addr) (lanes : Lanes) (d : Word) (m : Memory) (k : Nat)
    (h : ∀ i : Fin 4, lanes.getLsbD i.val = true → k ≠ laneKey w i.val) : (writeWord w lanes d m).read k = m.read k := by
  unfold writeWord
  simp only [writeLane_read]
  have h0 := h 0
  have h1 := h 1
  have h2 := h 2
  have h3 := h 3
  rw [if_neg (fun c => h3 c.1 c.2), if_neg (fun c => h2 c.1 c.2), if_neg (fun c => h1 c.1 c.2),
    if_neg (fun c => h0 c.1 c.2)]

/-- The memory right after reset is canonical. -/
theorem reset_memory_wf : State.reset.memory.wf = true := rfl

end Sys2Proof.Machine
end

