-- ==== Sys2Proof/Laws/Receipt.lean ====
section
/-! SUPPORT. The receipt word: each field stands at its bits (R175). -/

namespace Sys2Proof.Machine

/-- The six parts of a word laid out as Table 11-15 says, read back. -/
theorem receipt_layout (x16 : BitVec 16) (f : BitVec 8) (g : BitVec 2) (l : Bool) (mk : BitVec 2) (w : BitVec 3) :
    (x16 ++ f ++ g ++ BitVec.ofBool l ++ mk ++ w).extractLsb' 16 16 = x16 ∧
      (x16 ++ f ++ g ++ BitVec.ofBool l ++ mk ++ w).extractLsb' 8 8 = f ∧
      (x16 ++ f ++ g ++ BitVec.ofBool l ++ mk ++ w).extractLsb' 6 2 = g ∧
      (x16 ++ f ++ g ++ BitVec.ofBool l ++ mk ++ w).getLsbD 5 = l ∧
      (x16 ++ f ++ g ++ BitVec.ofBool l ++ mk ++ w).extractLsb' 3 2 = mk ∧
      (x16 ++ f ++ g ++ BitVec.ofBool l ++ mk ++ w).extractLsb' 0 3 = w := by
  refine ⟨?_, ?_, ?_, ?_, ?_, ?_⟩
  all_goals first
    | (apply BitVec.eq_of_getLsbD_eq
       intro i hi
       simp only [BitVec.getLsbD_extractLsb', BitVec.getLsbD_append, hi, decide_true, Bool.true_and]
       interval_cases i <;> simp)
    | (cases l <;> simp only [BitVec.getLsbD_append] <;> simp)

theorem receiptWord_fields (b : BatchRecord) (f : Byte) : ReceiptFields (receiptWord b f) b f := by
  unfold ReceiptFields receiptWord
  obtain ⟨h1, h2, h3, h4, h5, h6⟩ :=
    receipt_layout (b.seq.getD 0) f (groundCode b.ground) b.late (markCode b.mark) (BitVec.ofNat 3 b.window.val)
  refine ⟨fun q hq => ?_, h2, fun g hg => ?_, h4, ?_, ?_⟩
  · rw [h1, hq]
    rfl
  · rw [h3, hg]
    cases g <;> rfl
  · rw [h5]
    rcases b.mark with _ | m
    · rfl
    · cases m <;> rfl
  · rw [h6]
    have := b.window.isLt
    simp

end Sys2Proof.Machine
end

