-- ==== Sys2Proof/Laws/Completion.lean ====
section
/-! SUPPORT. What the memory's acknowledgement of an entry's or a receipt's write brings (R23, R71, R72, R80, R119). -/

namespace Sys2Proof.Machine

/-- R119: a write stores its strobed lanes and nothing else. -/
theorem writtenLanes_store (c : Claim) (d : Word) (m : Memory) (h : c.data = some d) :
    WrittenLanes m (c.store c.strobes m) c.addr c.strobes d := by
  unfold Claim.store; rw [h]
  exact ⟨fun i hi => by rw [writeWord_read_lane, if_pos hi], fun k hk => writeWord_read_other _ _ _ _ _ hk⟩

/-- A byte after a store is as before, or a byte of the store. -/
theorem store_same (c : Claim) (lanes : Lanes) (m : Memory) (k : Nat) (hl : ∀ i : Fin 4, lanes.getLsbD i.val = true → c.strobes.getLsbD i.val = true) :
    (c.store lanes m).read k = m.read k ∨ ∃ (d : Word) (i : Fin 4), c.data = some d ∧ c.strobes.getLsbD i.val = true ∧ k = laneKey c.addr i.val ∧
      (c.store lanes m).read k = some (laneByte d i) := by
  unfold Claim.store
  cases hd : c.data with
  | none => exact .inl rfl
  | some d =>
    dsimp only
    by_cases h : ∃ i : Fin 4, lanes.getLsbD i.val = true ∧ k = laneKey c.addr i.val
    · obtain ⟨i, hi, rfl⟩ := h
      right
      refine ⟨d, i, rfl, hl i hi, rfl, ?_⟩
      rw [writeWord_read_lane, if_pos hi]
    · left
      apply writeWord_read_other
      intro i hi hk
      exact h ⟨i, hi, hk⟩

/-- The memory's acknowledgement leaves the engine its batch. -/
theorem inFlight_ack {s : State} {ph : EnginePhase} {r : RecordIdx} {b : BatchRecord} (c : Claim) (h : WriteInFlight s ph r b) :
    (Work.start (acknowledge c s)).st.inFlightBatch ph = some (r, b) := by
  obtain ⟨h1, h2, h3, h4⟩ := h
  unfold State.inFlightBatch
  simp only [Work.start, acknowledge_engine, acknowledge_records, h1, h2, h3]
  simp only [Fin.getElem_fin] at h4
  simp [h4]

/-- A release claim placed while the memory recovers waits (R121). -/
theorem placeRelease_ack (c : Claim) (s : State) (h : s.port.phase = .recovering) :
  placeRelease c s = { s with port := { s.port with releaseClaim := some c }, engine := { s.engine with write := .waiting } } :=
  placeRelease_busy c s (by rw [h]; simp)

/-- What the completion of an entry's write, with entries left, makes before the end of the event (R23, R71). -/
theorem own_next {s : State} {r : RecordIdx} {b : BatchRecord} {e next : Entry} {rest : List Entry} (c : Claim)
    (h : WriteInFlight s .entries r b) (he : b.entries = e :: next :: rest) :
    ownEntryCompletion (Work.start (acknowledge c s)) =
      ⟨{ s.setRecord r (some { b with entries := next :: rest, written := b.written + 1 }) with
            port := { s.port.acknowledged with releaseClaim := some (.entryWrite next.addr next.lanes next.data) }
            engine := { s.engine with write := .waiting }
            memory := c.store c.strobes s.memory }, false, true⟩ := by
  unfold ownEntryCompletion
  rw [inFlight_ack c h]
  dsimp only
  unfold finishEntry continueRelease
  simp only [he, List.tail_cons, List.isEmpty_cons, Bool.false_eq_true, if_false]
  simp only [requestEntry, Work.map, Work.report, Work.start, removeEntry, he, List.tail_cons]
  rw [placeRelease_ack]
  · rfl
  · rfl

/-- What the completion of the last entry's write makes when a receipt follows (R72, R78). -/
theorem own_receipt {s : State} {r : RecordIdx} {b : BatchRecord} {e : Entry} {ad : Addr} (c : Claim)
    (h : WriteInFlight s .entries r b) (he : b.entries = [e]) (hr : s.live[b.window].receipt = some ad) :
    ∃ word, ReceiptFields word b (s.tracker.frameCounter.extractLsb' 0 8) ∧
    ownEntryCompletion (Work.start (acknowledge c s)) =
      ⟨{ s.setRecord r (some { b with entries := [], written := b.written + 1 }) with
            port := { s.port.acknowledged with releaseClaim := some (.receiptWrite ad word) }
            engine := ⟨.receipt, some r, .waiting, some (s.tracker.frameCounter.extractLsb' 0 8)⟩
            memory := c.store c.strobes s.memory }, false, true⟩ := by
  refine ⟨receiptWord b (s.tracker.frameCounter.extractLsb' 0 8), ?_, ?_⟩
  · exact receiptWord_fields _ _
  · unfold ownEntryCompletion
    rw [inFlight_ack c h]
    dsimp only
    unfold finishEntry continueRelease
    simp only [he, List.tail_cons, List.isEmpty_nil, if_true]
    unfold endEntries
    have h5 : (((Work.start (acknowledge c s)).map (removeEntry r b)).report).st.live[b.window].receipt = some ad := hr
    dsimp only
    simp only [Fin.getElem_fin] at h5
    simp only [Fin.getElem_fin, h5]
    simp only [requestReceipt, Work.map, Work.report, Work.start, removeEntry, he, List.tail_cons, captureFrameByte]
    rw [placeRelease_ack _ _ rfl]
    have h3 := h.2.2.1
    have hf : s.tracker.frameCounter.setWidth 8 = s.tracker.frameCounter.extractLsb' 0 8 := by
      apply BitVec.eq_of_getLsbD_eq
      intro i hi
      simp only [BitVec.getLsbD_setWidth, BitVec.getLsbD_extractLsb', hi, Nat.zero_add]
    simp only [acknowledge_engine, Option.getD_some, setRecord_tracker, acknowledge_tracker, hf, h3]
    have hw : receiptWord { b with entries := [], written := b.written + 1 } (s.tracker.frameCounter.extractLsb' 0 8) =
        receiptWord b (s.tracker.frameCounter.extractLsb' 0 8) := rfl
    rw [hw]
    rfl

/-- A retiring completion as a retirement and the end of its event (R80). -/
theorem own_retire {c : Instr} {s : State} {r : RecordIdx} {b : BatchRecord} {a : Addr} {m : Lanes} {d : Word}
    (h : RetiresAt c s r b a m d) :
    ∃ (w : Work) (b' : BatchRecord) (x : Claim), exec c s = .next (settle (retire r b' w)) ∧ b'.window = b.window ∧ b'.seq = b.seq ∧
      w.st.windows = s.windows ∧ (∀ q, q ≠ r → w.st.records[q.val] = s.records[q.val]) ∧ w.st.upstream = s.upstream ∧
      w.st.mode = s.mode ∧ w.st.live = s.live ∧ w.st.staged = s.staged ∧ w.st.applyPending = s.applyPending ∧
      w.st.tracker = s.tracker ∧
      w.st.port = s.port.acknowledged ∧ x.data = some d ∧ x.addr = a ∧ x.strobes = m ∧
      w.st.memory = x.store x.strobes s.memory := by
  rcases h with ⟨rfl, h, rfl, ht⟩ | ⟨rfl, h, hl, hr, ht⟩
  · refine ⟨Work.start (acknowledge (.receiptWrite a d) s), b, .receiptWrite a d, ?_, rfl, rfl, rfl, fun _ _ => rfl, rfl, rfl, rfl, rfl, rfl, rfl, rfl, rfl, rfl, rfl, rfl⟩
    simp only [exec, execReceiptWriteComplete, ht]
    unfold ownReceiptCompletion
    rw [inFlight_ack _ h]
  · obtain ⟨e, he⟩ := List.length_eq_one_iff.mp hl
    refine ⟨(((Work.start (acknowledge (.entryWrite a m d) s)).map (removeEntry r b)).report).map captureFrameByte, { b with entries := b.entries.tail, written := b.written + 1 }, .entryWrite a m d, ?_, rfl, rfl, rfl, ?_, rfl, rfl, rfl, rfl, rfl, rfl, rfl, rfl, rfl, rfl, rfl⟩
    · simp only [exec, execEntryWriteComplete, ht]
      unfold ownEntryCompletion
      rw [inFlight_ack _ h]
      dsimp only
      unfold finishEntry continueRelease
      simp only [he, List.tail_cons, List.isEmpty_nil, if_true]
      unfold endEntries
      have h5 : (((Work.start (acknowledge (.entryWrite a m d) s)).map (removeEntry r b)).report).st.live[b.window].receipt = none := hr
      dsimp only
      simp only [Fin.getElem_fin] at h5
      simp only [Fin.getElem_fin, h5]
    · intro q hq
      show ((acknowledge (.entryWrite a m d) s).setRecord r _).records[q.val] = _
      rw [setRecord_get, if_neg (Ne.symm hq)]
      rfl

end Sys2Proof.Machine
end

