-- ==== Sys2Proof/Laws/Exec.lean ====
section
/-! SUPPORT. What each command leaves alone, block by block, for the whole of `exec`: every law of a command's frame, said
once. -/

namespace Sys2Proof.Machine

/-- An event that reports nothing leaves the upstream port alone. -/
theorem quiet_upstream (w : Work) (h : w.reported = false) : (settle w).upstream = w.st.upstream := by
  rw [settle_quiet w h]
  split <;> simp

theorem exec_upstream {c : Instr} {s t : State} (h : exec c s = .next t) (hc : changesUpstream c = false) :
    t.upstream = s.upstream := by
  cases c with
  | upstreamWrite addr strobes data => exact Bool.noConfusion (show true = false from hc)
  | upstreamRead addr strobes => exact Bool.noConfusion (show true = false from hc)
  | ureqWithdrawn => exact Bool.noConfusion (show true = false from hc)
  | directWriteComplete => exact Bool.noConfusion (show true = false from hc)
  | memoryReadComplete dd => exact Bool.noConfusion (show true = false from hc)
  | entryWriteComplete => exact Bool.noConfusion (show true = false from hc)
  | receiptWriteComplete => exact Bool.noConfusion (show true = false from hc)
  | drdyRelease => exact execDrdyRelease_upstream h
  | strayDrdy => exact execStrayDrdy_upstream h
  | frameStart => exact Bool.noConfusion (show true = false from hc)
  | lineStart => 
    simp only [exec] at h
    injection h with h
    subst h
    split
    · rfl
    · exact quiet_upstream (lineEvent (trackLine s)) (by simp) |>.trans (by simp)
  | supervisionExpiry => exact Bool.noConfusion (show true = false from hc)
  | stallExpiry => exact Bool.noConfusion (show true = false from hc)
  | resetLine => exact Bool.noConfusion (show true = false from hc)
  | frameBegin => exact execFrameBegin_upstream h
  | readBack bytes extra => exact execReadBack_upstream bytes extra h
  | malformedFrame bytes extra => exact execMalformedFrame_upstream bytes extra h
  | ident => exact execIdent_upstream h
  | status => exact execStatus_upstream h
  | clearFlags flagSet => exact execClearFlags_upstream flagSet h
  | setMask maskSet => exact execSetMask_upstream maskSet h
  | setTiming values => exact Bool.noConfusion (show true = false from hc)
  | getTiming => exact execGetTiming_upstream h
  | stageWindow index record => exact execStageWindow_upstream index record h
  | getWindow index table => exact execGetWindow_upstream index table h
  | apply => exact Bool.noConfusion (show true = false from hc)
  | enable => exact Bool.noConfusion (show true = false from hc)
  | disableDrain selector => exact Bool.noConfusion (show true = false from hc)
  | disableDiscard selector => exact Bool.noConfusion (show true = false from hc)
  | sealWindows windows => 
    simp only [exec] at h
    injection h with h
    subst h
    rcases onRequest_cases .sealWindows [windows] (fun s => answerStatus .ok (sealNamed (windowsOf windows) s)) s with h | h
    · rw [h]
      exact quiet_upstream (sealAll (windowsOf windows) (Work.start s)) (by simp [Work.start]) |>.trans (by simp [Work.start])
    · rw [h]
  | flush windows => 
    simp only [exec] at h
    injection h with h
    subst h
    rcases onRequest_cases .flush [windows] (fun s => answerStatus .ok (flushNamed (windowsOf windows) s)) s with h | h
    · rw [h]
      exact quiet_upstream (markSealed .flush (windowsOf windows) (sealAll (windowsOf windows) (Work.start s)))
        (by simp [Work.start, markSealed]) |>.trans (by simp [Work.start, markSealed])
    · rw [h]
  | windowStatus index => exact execWindowStatus_upstream index h
  | takeIncident => exact execTakeIncident_upstream h
  | restart => exact Bool.noConfusion (show true = false from hc)
  | resetLineEnd => exact execResetLineEnd_upstream h
  | sckRisingEdge sdi => exact execSckRisingEdge_upstream sdi h
  | sckFallingEdge => exact execSckFallingEdge_upstream h
  | noBitReceived => exact execNoBitReceived_upstream h

theorem exec_live {c : Instr} {s t : State} (h : exec c s = .next t) (hc : changesLive c = false) :
    t.live = s.live := by
  cases c with
  | upstreamWrite addr strobes data => exact execUpstreamWrite_live addr strobes data h
  | upstreamRead addr strobes => exact execUpstreamRead_live addr strobes h
  | ureqWithdrawn => exact execUreqWithdrawn_live h
  | directWriteComplete => exact execDirectWriteComplete_live h
  | memoryReadComplete dd => exact execMemoryReadComplete_live dd h
  | entryWriteComplete => exact Bool.noConfusion (show true = false from hc)
  | receiptWriteComplete => exact Bool.noConfusion (show true = false from hc)
  | drdyRelease => exact execDrdyRelease_live h
  | strayDrdy => exact execStrayDrdy_live h
  | frameStart => exact Bool.noConfusion (show true = false from hc)
  | lineStart => exact execLineStart_live h
  | supervisionExpiry => exact Bool.noConfusion (show true = false from hc)
  | stallExpiry => exact execStallExpiry_live h
  | resetLine => exact Bool.noConfusion (show true = false from hc)
  | frameBegin => exact execFrameBegin_live h
  | readBack bytes extra => exact execReadBack_live bytes extra h
  | malformedFrame bytes extra => exact execMalformedFrame_live bytes extra h
  | ident => exact execIdent_live h
  | status => exact execStatus_live h
  | clearFlags flagSet => exact execClearFlags_live flagSet h
  | setMask maskSet => exact execSetMask_live maskSet h
  | setTiming values => exact Bool.noConfusion (show true = false from hc)
  | getTiming => exact execGetTiming_live h
  | stageWindow index record => exact execStageWindow_live index record h
  | getWindow index table => exact execGetWindow_live index table h
  | apply => exact Bool.noConfusion (show true = false from hc)
  | enable => exact execEnable_live h
  | disableDrain selector => exact Bool.noConfusion (show true = false from hc)
  | disableDiscard selector => exact Bool.noConfusion (show true = false from hc)
  | sealWindows windows => exact execSealWindows_live windows h
  | flush windows => exact execFlush_live windows h
  | windowStatus index => exact execWindowStatus_live index h
  | takeIncident => exact execTakeIncident_live h
  | restart => exact execRestart_live h
  | resetLineEnd => exact execResetLineEnd_live h
  | sckRisingEdge sdi => exact execSckRisingEdge_live sdi h
  | sckFallingEdge => exact execSckFallingEdge_live h
  | noBitReceived => exact execNoBitReceived_live h

theorem exec_staged {c : Instr} {s t : State} (h : exec c s = .next t) (hc : changesStaged c = false) :
    t.staged = s.staged := by
  cases c with
  | upstreamWrite addr strobes data => exact execUpstreamWrite_staged addr strobes data h
  | upstreamRead addr strobes => exact execUpstreamRead_staged addr strobes h
  | ureqWithdrawn => exact execUreqWithdrawn_staged h
  | directWriteComplete => exact execDirectWriteComplete_staged h
  | memoryReadComplete dd => exact execMemoryReadComplete_staged dd h
  | entryWriteComplete => exact execEntryWriteComplete_staged h
  | receiptWriteComplete => exact execReceiptWriteComplete_staged h
  | drdyRelease => exact execDrdyRelease_staged h
  | strayDrdy => exact execStrayDrdy_staged h
  | frameStart => exact execFrameStart_staged h
  | lineStart => exact execLineStart_staged h
  | supervisionExpiry => exact execSupervisionExpiry_staged h
  | stallExpiry => exact execStallExpiry_staged h
  | resetLine => exact Bool.noConfusion (show true = false from hc)
  | frameBegin => exact execFrameBegin_staged h
  | readBack bytes extra => exact execReadBack_staged bytes extra h
  | malformedFrame bytes extra => exact execMalformedFrame_staged bytes extra h
  | ident => exact execIdent_staged h
  | status => exact execStatus_staged h
  | clearFlags flagSet => exact execClearFlags_staged flagSet h
  | setMask maskSet => exact execSetMask_staged maskSet h
  | setTiming values => exact execSetTiming_staged values h
  | getTiming => exact execGetTiming_staged h
  | stageWindow index record => exact Bool.noConfusion (show true = false from hc)
  | getWindow index table => exact execGetWindow_staged index table h
  | apply => exact execApply_staged h
  | enable => exact execEnable_staged h
  | disableDrain selector => exact execDisableDrain_staged selector h
  | disableDiscard selector => exact execDisableDiscard_staged selector h
  | sealWindows windows => exact execSealWindows_staged windows h
  | flush windows => exact execFlush_staged windows h
  | windowStatus index => exact execWindowStatus_staged index h
  | takeIncident => exact execTakeIncident_staged h
  | restart => exact execRestart_staged h
  | resetLineEnd => exact execResetLineEnd_staged h
  | sckRisingEdge sdi => exact execSckRisingEdge_staged sdi h
  | sckFallingEdge => exact execSckFallingEdge_staged h
  | noBitReceived => exact execNoBitReceived_staged h

theorem exec_windows {c : Instr} {s t : State} (h : exec c s = .next t) (hc : changesWindows c = false) :
    t.windows = s.windows := by
  cases c with
  | upstreamWrite addr strobes data => exact Bool.noConfusion (show true = false from hc)
  | upstreamRead addr strobes => exact execUpstreamRead_windows addr strobes h
  | ureqWithdrawn => exact execUreqWithdrawn_windows h
  | directWriteComplete => exact execDirectWriteComplete_windows h
  | memoryReadComplete dd => exact execMemoryReadComplete_windows dd h
  | entryWriteComplete => exact Bool.noConfusion (show true = false from hc)
  | receiptWriteComplete => exact Bool.noConfusion (show true = false from hc)
  | drdyRelease => exact execDrdyRelease_windows h
  | strayDrdy => exact execStrayDrdy_windows h
  | frameStart => exact Bool.noConfusion (show true = false from hc)
  | lineStart => exact Bool.noConfusion (show true = false from hc)
  | supervisionExpiry => exact Bool.noConfusion (show true = false from hc)
  | stallExpiry => exact Bool.noConfusion (show true = false from hc)
  | resetLine => exact Bool.noConfusion (show true = false from hc)
  | frameBegin => exact execFrameBegin_windows h
  | readBack bytes extra => exact execReadBack_windows bytes extra h
  | malformedFrame bytes extra => exact execMalformedFrame_windows bytes extra h
  | ident => exact execIdent_windows h
  | status => exact execStatus_windows h
  | clearFlags flagSet => exact execClearFlags_windows flagSet h
  | setMask maskSet => exact execSetMask_windows maskSet h
  | setTiming values => exact Bool.noConfusion (show true = false from hc)
  | getTiming => exact execGetTiming_windows h
  | stageWindow index record => exact execStageWindow_windows index record h
  | getWindow index table => exact execGetWindow_windows index table h
  | apply => exact Bool.noConfusion (show true = false from hc)
  | enable => exact Bool.noConfusion (show true = false from hc)
  | disableDrain selector => exact Bool.noConfusion (show true = false from hc)
  | disableDiscard selector => exact Bool.noConfusion (show true = false from hc)
  | sealWindows windows => exact Bool.noConfusion (show true = false from hc)
  | flush windows => exact Bool.noConfusion (show true = false from hc)
  | windowStatus index => exact execWindowStatus_windows index h
  | takeIncident => exact execTakeIncident_windows h
  | restart => exact Bool.noConfusion (show true = false from hc)
  | resetLineEnd => exact execResetLineEnd_windows h
  | sckRisingEdge sdi => exact execSckRisingEdge_windows sdi h
  | sckFallingEdge => exact execSckFallingEdge_windows h
  | noBitReceived => exact execNoBitReceived_windows h

theorem exec_records {c : Instr} {s t : State} (h : exec c s = .next t) (hc : changesRecords c = false) :
    t.records = s.records := by
  cases c with
  | upstreamWrite addr strobes data => exact Bool.noConfusion (show true = false from hc)
  | upstreamRead addr strobes => exact execUpstreamRead_records addr strobes h
  | ureqWithdrawn => exact execUreqWithdrawn_records h
  | directWriteComplete => exact execDirectWriteComplete_records h
  | memoryReadComplete dd => exact execMemoryReadComplete_records dd h
  | entryWriteComplete => exact Bool.noConfusion (show true = false from hc)
  | receiptWriteComplete => exact Bool.noConfusion (show true = false from hc)
  | drdyRelease => exact execDrdyRelease_records h
  | strayDrdy => exact execStrayDrdy_records h
  | frameStart => exact Bool.noConfusion (show true = false from hc)
  | lineStart => exact Bool.noConfusion (show true = false from hc)
  | supervisionExpiry => exact Bool.noConfusion (show true = false from hc)
  | stallExpiry => exact Bool.noConfusion (show true = false from hc)
  | resetLine => exact Bool.noConfusion (show true = false from hc)
  | frameBegin => exact execFrameBegin_records h
  | readBack bytes extra => exact execReadBack_records bytes extra h
  | malformedFrame bytes extra => exact execMalformedFrame_records bytes extra h
  | ident => exact execIdent_records h
  | status => exact execStatus_records h
  | clearFlags flagSet => exact execClearFlags_records flagSet h
  | setMask maskSet => exact execSetMask_records maskSet h
  | setTiming values => exact Bool.noConfusion (show true = false from hc)
  | getTiming => exact execGetTiming_records h
  | stageWindow index record => exact execStageWindow_records index record h
  | getWindow index table => exact execGetWindow_records index table h
  | apply => exact Bool.noConfusion (show true = false from hc)
  | enable => exact Bool.noConfusion (show true = false from hc)
  | disableDrain selector => exact Bool.noConfusion (show true = false from hc)
  | disableDiscard selector => exact Bool.noConfusion (show true = false from hc)
  | sealWindows windows => exact Bool.noConfusion (show true = false from hc)
  | flush windows => exact Bool.noConfusion (show true = false from hc)
  | windowStatus index => exact execWindowStatus_records index h
  | takeIncident => exact execTakeIncident_records h
  | restart => exact Bool.noConfusion (show true = false from hc)
  | resetLineEnd => exact execResetLineEnd_records h
  | sckRisingEdge sdi => exact execSckRisingEdge_records sdi h
  | sckFallingEdge => exact execSckFallingEdge_records h
  | noBitReceived => exact execNoBitReceived_records h

theorem exec_sealOrdinal {c : Instr} {s t : State} (h : exec c s = .next t) (hc : changesSealOrdinal c = false) :
    t.sealOrdinal = s.sealOrdinal := by
  cases c with
  | upstreamWrite addr strobes data => exact Bool.noConfusion (show true = false from hc)
  | upstreamRead addr strobes => exact execUpstreamRead_sealOrdinal addr strobes h
  | ureqWithdrawn => exact execUreqWithdrawn_sealOrdinal h
  | directWriteComplete => exact execDirectWriteComplete_sealOrdinal h
  | memoryReadComplete dd => exact execMemoryReadComplete_sealOrdinal dd h
  | entryWriteComplete => exact Bool.noConfusion (show true = false from hc)
  | receiptWriteComplete => exact Bool.noConfusion (show true = false from hc)
  | drdyRelease => exact execDrdyRelease_sealOrdinal h
  | strayDrdy => exact execStrayDrdy_sealOrdinal h
  | frameStart => exact Bool.noConfusion (show true = false from hc)
  | lineStart => exact Bool.noConfusion (show true = false from hc)
  | supervisionExpiry => exact Bool.noConfusion (show true = false from hc)
  | stallExpiry => exact Bool.noConfusion (show true = false from hc)
  | resetLine => exact Bool.noConfusion (show true = false from hc)
  | frameBegin => exact execFrameBegin_sealOrdinal h
  | readBack bytes extra => exact execReadBack_sealOrdinal bytes extra h
  | malformedFrame bytes extra => exact execMalformedFrame_sealOrdinal bytes extra h
  | ident => exact execIdent_sealOrdinal h
  | status => exact execStatus_sealOrdinal h
  | clearFlags flagSet => exact execClearFlags_sealOrdinal flagSet h
  | setMask maskSet => exact execSetMask_sealOrdinal maskSet h
  | setTiming values => exact Bool.noConfusion (show true = false from hc)
  | getTiming => exact execGetTiming_sealOrdinal h
  | stageWindow index record => exact execStageWindow_sealOrdinal index record h
  | getWindow index table => exact execGetWindow_sealOrdinal index table h
  | apply => exact Bool.noConfusion (show true = false from hc)
  | enable => exact Bool.noConfusion (show true = false from hc)
  | disableDrain selector => exact Bool.noConfusion (show true = false from hc)
  | disableDiscard selector => exact Bool.noConfusion (show true = false from hc)
  | sealWindows windows => exact Bool.noConfusion (show true = false from hc)
  | flush windows => exact Bool.noConfusion (show true = false from hc)
  | windowStatus index => exact execWindowStatus_sealOrdinal index h
  | takeIncident => exact execTakeIncident_sealOrdinal h
  | restart => exact Bool.noConfusion (show true = false from hc)
  | resetLineEnd => exact execResetLineEnd_sealOrdinal h
  | sckRisingEdge sdi => exact execSckRisingEdge_sealOrdinal sdi h
  | sckFallingEdge => exact execSckFallingEdge_sealOrdinal h
  | noBitReceived => exact execNoBitReceived_sealOrdinal h

theorem exec_timing {c : Instr} {s t : State} (h : exec c s = .next t) (hc : changesTiming c = false) :
    t.timing = s.timing := by
  cases c with
  | upstreamWrite addr strobes data => exact execUpstreamWrite_timing addr strobes data h
  | upstreamRead addr strobes => exact execUpstreamRead_timing addr strobes h
  | ureqWithdrawn => exact execUreqWithdrawn_timing h
  | directWriteComplete => exact execDirectWriteComplete_timing h
  | memoryReadComplete dd => exact execMemoryReadComplete_timing dd h
  | entryWriteComplete => exact execEntryWriteComplete_timing h
  | receiptWriteComplete => exact execReceiptWriteComplete_timing h
  | drdyRelease => exact execDrdyRelease_timing h
  | strayDrdy => exact execStrayDrdy_timing h
  | frameStart => exact execFrameStart_timing h
  | lineStart => exact execLineStart_timing h
  | supervisionExpiry => exact execSupervisionExpiry_timing h
  | stallExpiry => exact execStallExpiry_timing h
  | resetLine => exact Bool.noConfusion (show true = false from hc)
  | frameBegin => exact execFrameBegin_timing h
  | readBack bytes extra => exact execReadBack_timing bytes extra h
  | malformedFrame bytes extra => exact execMalformedFrame_timing bytes extra h
  | ident => exact execIdent_timing h
  | status => exact execStatus_timing h
  | clearFlags flagSet => exact execClearFlags_timing flagSet h
  | setMask maskSet => exact execSetMask_timing maskSet h
  | setTiming values => exact Bool.noConfusion (show true = false from hc)
  | getTiming => exact execGetTiming_timing h
  | stageWindow index record => exact execStageWindow_timing index record h
  | getWindow index table => exact execGetWindow_timing index table h
  | apply => exact execApply_timing h
  | enable => exact execEnable_timing h
  | disableDrain selector => exact execDisableDrain_timing selector h
  | disableDiscard selector => exact execDisableDiscard_timing selector h
  | sealWindows windows => exact execSealWindows_timing windows h
  | flush windows => exact execFlush_timing windows h
  | windowStatus index => exact execWindowStatus_timing index h
  | takeIncident => exact execTakeIncident_timing h
  | restart => exact execRestart_timing h
  | resetLineEnd => exact execResetLineEnd_timing h
  | sckRisingEdge sdi => exact execSckRisingEdge_timing sdi h
  | sckFallingEdge => exact execSckFallingEdge_timing h
  | noBitReceived => exact execNoBitReceived_timing h

theorem exec_tracker {c : Instr} {s t : State} (h : exec c s = .next t) (hc : changesTracker c = false) :
    t.tracker = s.tracker := by
  cases c with
  | upstreamWrite addr strobes data => exact execUpstreamWrite_tracker addr strobes data h
  | upstreamRead addr strobes => exact execUpstreamRead_tracker addr strobes h
  | ureqWithdrawn => exact execUreqWithdrawn_tracker h
  | directWriteComplete => exact execDirectWriteComplete_tracker h
  | memoryReadComplete dd => exact execMemoryReadComplete_tracker dd h
  | entryWriteComplete => exact execEntryWriteComplete_tracker h
  | receiptWriteComplete => exact execReceiptWriteComplete_tracker h
  | drdyRelease => exact execDrdyRelease_tracker h
  | strayDrdy => exact execStrayDrdy_tracker h
  | frameStart => exact Bool.noConfusion (show true = false from hc)
  | lineStart => exact Bool.noConfusion (show true = false from hc)
  | supervisionExpiry => exact Bool.noConfusion (show true = false from hc)
  | stallExpiry => exact execStallExpiry_tracker h
  | resetLine => exact Bool.noConfusion (show true = false from hc)
  | frameBegin => exact execFrameBegin_tracker h
  | readBack bytes extra => exact execReadBack_tracker bytes extra h
  | malformedFrame bytes extra => exact execMalformedFrame_tracker bytes extra h
  | ident => exact execIdent_tracker h
  | status => exact execStatus_tracker h
  | clearFlags flagSet => exact execClearFlags_tracker flagSet h
  | setMask maskSet => exact execSetMask_tracker maskSet h
  | setTiming values => exact Bool.noConfusion (show true = false from hc)
  | getTiming => exact execGetTiming_tracker h
  | stageWindow index record => exact execStageWindow_tracker index record h
  | getWindow index table => exact execGetWindow_tracker index table h
  | apply => exact execApply_tracker h
  | enable => exact execEnable_tracker h
  | disableDrain selector => exact execDisableDrain_tracker selector h
  | disableDiscard selector => exact execDisableDiscard_tracker selector h
  | sealWindows windows => exact execSealWindows_tracker windows h
  | flush windows => exact execFlush_tracker windows h
  | windowStatus index => exact execWindowStatus_tracker index h
  | takeIncident => exact execTakeIncident_tracker h
  | restart => exact Bool.noConfusion (show true = false from hc)
  | resetLineEnd => exact execResetLineEnd_tracker h
  | sckRisingEdge sdi => exact execSckRisingEdge_tracker sdi h
  | sckFallingEdge => exact execSckFallingEdge_tracker h
  | noBitReceived => exact execNoBitReceived_tracker h

theorem exec_engine {c : Instr} {s t : State} (h : exec c s = .next t) (hc : changesEngine c = false) :
    t.engine = s.engine := by
  cases c with
  | upstreamWrite addr strobes data => exact Bool.noConfusion (show true = false from hc)
  | upstreamRead addr strobes => exact Bool.noConfusion (show true = false from hc)
  | ureqWithdrawn => exact execUreqWithdrawn_engine h
  | directWriteComplete => exact execDirectWriteComplete_engine h
  | memoryReadComplete dd => exact execMemoryReadComplete_engine dd h
  | entryWriteComplete => exact Bool.noConfusion (show true = false from hc)
  | receiptWriteComplete => exact Bool.noConfusion (show true = false from hc)
  | drdyRelease => exact Bool.noConfusion (show true = false from hc)
  | strayDrdy => exact execStrayDrdy_engine h
  | frameStart => exact Bool.noConfusion (show true = false from hc)
  | lineStart => exact Bool.noConfusion (show true = false from hc)
  | supervisionExpiry => exact Bool.noConfusion (show true = false from hc)
  | stallExpiry => exact Bool.noConfusion (show true = false from hc)
  | resetLine => exact Bool.noConfusion (show true = false from hc)
  | frameBegin => exact execFrameBegin_engine h
  | readBack bytes extra => exact execReadBack_engine bytes extra h
  | malformedFrame bytes extra => exact execMalformedFrame_engine bytes extra h
  | ident => exact execIdent_engine h
  | status => exact execStatus_engine h
  | clearFlags flagSet => exact execClearFlags_engine flagSet h
  | setMask maskSet => exact execSetMask_engine maskSet h
  | setTiming values => exact Bool.noConfusion (show true = false from hc)
  | getTiming => exact execGetTiming_engine h
  | stageWindow index record => exact execStageWindow_engine index record h
  | getWindow index table => exact execGetWindow_engine index table h
  | apply => exact Bool.noConfusion (show true = false from hc)
  | enable => exact Bool.noConfusion (show true = false from hc)
  | disableDrain selector => exact Bool.noConfusion (show true = false from hc)
  | disableDiscard selector => exact Bool.noConfusion (show true = false from hc)
  | sealWindows windows => exact Bool.noConfusion (show true = false from hc)
  | flush windows => exact Bool.noConfusion (show true = false from hc)
  | windowStatus index => exact execWindowStatus_engine index h
  | takeIncident => exact execTakeIncident_engine h
  | restart => exact Bool.noConfusion (show true = false from hc)
  | resetLineEnd => exact execResetLineEnd_engine h
  | sckRisingEdge sdi => exact execSckRisingEdge_engine sdi h
  | sckFallingEdge => exact execSckFallingEdge_engine h
  | noBitReceived => exact execNoBitReceived_engine h

theorem exec_port {c : Instr} {s t : State} (h : exec c s = .next t) (hc : changesPort c = false) :
    t.port = s.port := by
  cases c with
  | upstreamWrite addr strobes data => exact Bool.noConfusion (show true = false from hc)
  | upstreamRead addr strobes => exact Bool.noConfusion (show true = false from hc)
  | ureqWithdrawn => exact execUreqWithdrawn_port h
  | directWriteComplete => exact Bool.noConfusion (show true = false from hc)
  | memoryReadComplete dd => exact Bool.noConfusion (show true = false from hc)
  | entryWriteComplete => exact Bool.noConfusion (show true = false from hc)
  | receiptWriteComplete => exact Bool.noConfusion (show true = false from hc)
  | drdyRelease => exact Bool.noConfusion (show true = false from hc)
  | strayDrdy => exact Bool.noConfusion (show true = false from hc)
  | frameStart => exact Bool.noConfusion (show true = false from hc)
  | lineStart => exact Bool.noConfusion (show true = false from hc)
  | supervisionExpiry => exact Bool.noConfusion (show true = false from hc)
  | stallExpiry => exact Bool.noConfusion (show true = false from hc)
  | resetLine => exact Bool.noConfusion (show true = false from hc)
  | frameBegin => exact execFrameBegin_port h
  | readBack bytes extra => exact execReadBack_port bytes extra h
  | malformedFrame bytes extra => exact execMalformedFrame_port bytes extra h
  | ident => exact execIdent_port h
  | status => exact execStatus_port h
  | clearFlags flagSet => exact execClearFlags_port flagSet h
  | setMask maskSet => exact execSetMask_port maskSet h
  | setTiming values => exact Bool.noConfusion (show true = false from hc)
  | getTiming => exact execGetTiming_port h
  | stageWindow index record => exact execStageWindow_port index record h
  | getWindow index table => exact execGetWindow_port index table h
  | apply => exact Bool.noConfusion (show true = false from hc)
  | enable => exact Bool.noConfusion (show true = false from hc)
  | disableDrain selector => exact Bool.noConfusion (show true = false from hc)
  | disableDiscard selector => exact Bool.noConfusion (show true = false from hc)
  | sealWindows windows => exact Bool.noConfusion (show true = false from hc)
  | flush windows => exact Bool.noConfusion (show true = false from hc)
  | windowStatus index => exact execWindowStatus_port index h
  | takeIncident => exact execTakeIncident_port h
  | restart => exact Bool.noConfusion (show true = false from hc)
  | resetLineEnd => exact Bool.noConfusion (show true = false from hc)
  | sckRisingEdge sdi => exact execSckRisingEdge_port sdi h
  | sckFallingEdge => exact execSckFallingEdge_port h
  | noBitReceived => exact execNoBitReceived_port h

theorem exec_mode {c : Instr} {s t : State} (h : exec c s = .next t) (hc : changesMode c = false) :
    t.mode = s.mode := by
  cases c with
  | upstreamWrite addr strobes data => exact execUpstreamWrite_mode addr strobes data h
  | upstreamRead addr strobes => exact execUpstreamRead_mode addr strobes h
  | ureqWithdrawn => exact execUreqWithdrawn_mode h
  | directWriteComplete => exact execDirectWriteComplete_mode h
  | memoryReadComplete dd => exact execMemoryReadComplete_mode dd h
  | entryWriteComplete => exact Bool.noConfusion (show true = false from hc)
  | receiptWriteComplete => exact Bool.noConfusion (show true = false from hc)
  | drdyRelease => exact execDrdyRelease_mode h
  | strayDrdy => exact execStrayDrdy_mode h
  | frameStart => exact execFrameStart_mode h
  | lineStart => exact execLineStart_mode h
  | supervisionExpiry => exact execSupervisionExpiry_mode h
  | stallExpiry => exact execStallExpiry_mode h
  | resetLine => exact Bool.noConfusion (show true = false from hc)
  | frameBegin => exact execFrameBegin_mode h
  | readBack bytes extra => exact execReadBack_mode bytes extra h
  | malformedFrame bytes extra => exact execMalformedFrame_mode bytes extra h
  | ident => exact execIdent_mode h
  | status => exact execStatus_mode h
  | clearFlags flagSet => exact execClearFlags_mode flagSet h
  | setMask maskSet => exact execSetMask_mode maskSet h
  | setTiming values => exact execSetTiming_mode values h
  | getTiming => exact execGetTiming_mode h
  | stageWindow index record => exact execStageWindow_mode index record h
  | getWindow index table => exact execGetWindow_mode index table h
  | apply => exact execApply_mode h
  | enable => exact Bool.noConfusion (show true = false from hc)
  | disableDrain selector => exact Bool.noConfusion (show true = false from hc)
  | disableDiscard selector => exact Bool.noConfusion (show true = false from hc)
  | sealWindows windows => exact execSealWindows_mode windows h
  | flush windows => exact execFlush_mode windows h
  | windowStatus index => exact execWindowStatus_mode index h
  | takeIncident => exact execTakeIncident_mode h
  | restart => exact Bool.noConfusion (show true = false from hc)
  | resetLineEnd => exact execResetLineEnd_mode h
  | sckRisingEdge sdi => exact execSckRisingEdge_mode sdi h
  | sckFallingEdge => exact execSckFallingEdge_mode h
  | noBitReceived => exact execNoBitReceived_mode h

theorem exec_applyPending {c : Instr} {s t : State} (h : exec c s = .next t) (hc : changesApplyPending c = false) :
    t.applyPending = s.applyPending := by
  cases c with
  | upstreamWrite addr strobes data => exact execUpstreamWrite_applyPending addr strobes data h
  | upstreamRead addr strobes => exact execUpstreamRead_applyPending addr strobes h
  | ureqWithdrawn => exact execUreqWithdrawn_applyPending h
  | directWriteComplete => exact execDirectWriteComplete_applyPending h
  | memoryReadComplete dd => exact execMemoryReadComplete_applyPending dd h
  | entryWriteComplete => exact Bool.noConfusion (show true = false from hc)
  | receiptWriteComplete => exact Bool.noConfusion (show true = false from hc)
  | drdyRelease => exact execDrdyRelease_applyPending h
  | strayDrdy => exact execStrayDrdy_applyPending h
  | frameStart => exact Bool.noConfusion (show true = false from hc)
  | lineStart => exact execLineStart_applyPending h
  | supervisionExpiry => exact Bool.noConfusion (show true = false from hc)
  | stallExpiry => exact execStallExpiry_applyPending h
  | resetLine => exact Bool.noConfusion (show true = false from hc)
  | frameBegin => exact execFrameBegin_applyPending h
  | readBack bytes extra => exact execReadBack_applyPending bytes extra h
  | malformedFrame bytes extra => exact execMalformedFrame_applyPending bytes extra h
  | ident => exact execIdent_applyPending h
  | status => exact execStatus_applyPending h
  | clearFlags flagSet => exact execClearFlags_applyPending flagSet h
  | setMask maskSet => exact execSetMask_applyPending maskSet h
  | setTiming values => exact Bool.noConfusion (show true = false from hc)
  | getTiming => exact execGetTiming_applyPending h
  | stageWindow index record => exact execStageWindow_applyPending index record h
  | getWindow index table => exact execGetWindow_applyPending index table h
  | apply => exact Bool.noConfusion (show true = false from hc)
  | enable => exact execEnable_applyPending h
  | disableDrain selector => exact Bool.noConfusion (show true = false from hc)
  | disableDiscard selector => exact Bool.noConfusion (show true = false from hc)
  | sealWindows windows => exact execSealWindows_applyPending windows h
  | flush windows => exact execFlush_applyPending windows h
  | windowStatus index => exact execWindowStatus_applyPending index h
  | takeIncident => exact execTakeIncident_applyPending h
  | restart => exact Bool.noConfusion (show true = false from hc)
  | resetLineEnd => exact execResetLineEnd_applyPending h
  | sckRisingEdge sdi => exact execSckRisingEdge_applyPending sdi h
  | sckFallingEdge => exact execSckFallingEdge_applyPending h
  | noBitReceived => exact execNoBitReceived_applyPending h

theorem exec_incidents {c : Instr} {s t : State} (h : exec c s = .next t) (hc : changesIncidents c = false) :
    t.incidents = s.incidents := by
  cases c with
  | upstreamWrite addr strobes data => exact Bool.noConfusion (show true = false from hc)
  | upstreamRead addr strobes => exact execUpstreamRead_incidents addr strobes h
  | ureqWithdrawn => exact execUreqWithdrawn_incidents h
  | directWriteComplete => exact execDirectWriteComplete_incidents h
  | memoryReadComplete dd => exact execMemoryReadComplete_incidents dd h
  | entryWriteComplete => exact Bool.noConfusion (show true = false from hc)
  | receiptWriteComplete => exact Bool.noConfusion (show true = false from hc)
  | drdyRelease => exact execDrdyRelease_incidents h
  | strayDrdy => exact execStrayDrdy_incidents h
  | frameStart => exact Bool.noConfusion (show true = false from hc)
  | lineStart => exact Bool.noConfusion (show true = false from hc)
  | supervisionExpiry => exact Bool.noConfusion (show true = false from hc)
  | stallExpiry => exact Bool.noConfusion (show true = false from hc)
  | resetLine => exact Bool.noConfusion (show true = false from hc)
  | frameBegin => exact execFrameBegin_incidents h
  | readBack bytes extra => exact execReadBack_incidents bytes extra h
  | malformedFrame bytes extra => exact execMalformedFrame_incidents bytes extra h
  | ident => exact execIdent_incidents h
  | status => exact execStatus_incidents h
  | clearFlags flagSet => exact Bool.noConfusion (show true = false from hc)
  | setMask maskSet => exact Bool.noConfusion (show true = false from hc)
  | setTiming values => exact Bool.noConfusion (show true = false from hc)
  | getTiming => exact execGetTiming_incidents h
  | stageWindow index record => exact execStageWindow_incidents index record h
  | getWindow index table => exact execGetWindow_incidents index table h
  | apply => exact Bool.noConfusion (show true = false from hc)
  | enable => exact Bool.noConfusion (show true = false from hc)
  | disableDrain selector => exact Bool.noConfusion (show true = false from hc)
  | disableDiscard selector => exact Bool.noConfusion (show true = false from hc)
  | sealWindows windows => exact Bool.noConfusion (show true = false from hc)
  | flush windows => exact Bool.noConfusion (show true = false from hc)
  | windowStatus index => exact execWindowStatus_incidents index h
  | takeIncident => exact Bool.noConfusion (show true = false from hc)
  | restart => exact Bool.noConfusion (show true = false from hc)
  | resetLineEnd => exact execResetLineEnd_incidents h
  | sckRisingEdge sdi => exact execSckRisingEdge_incidents sdi h
  | sckFallingEdge => exact execSckFallingEdge_incidents h
  | noBitReceived => exact execNoBitReceived_incidents h

theorem exec_link {c : Instr} {s t : State} (h : exec c s = .next t) (hc : changesLink c = false) :
    t.link = s.link := by
  cases c with
  | upstreamWrite addr strobes data => exact execUpstreamWrite_link addr strobes data h
  | upstreamRead addr strobes => exact execUpstreamRead_link addr strobes h
  | ureqWithdrawn => exact execUreqWithdrawn_link h
  | directWriteComplete => exact execDirectWriteComplete_link h
  | memoryReadComplete dd => exact execMemoryReadComplete_link dd h
  | entryWriteComplete => exact execEntryWriteComplete_link h
  | receiptWriteComplete => exact execReceiptWriteComplete_link h
  | drdyRelease => exact execDrdyRelease_link h
  | strayDrdy => exact execStrayDrdy_link h
  | frameStart => exact execFrameStart_link h
  | lineStart => exact execLineStart_link h
  | supervisionExpiry => exact execSupervisionExpiry_link h
  | stallExpiry => exact execStallExpiry_link h
  | resetLine => exact Bool.noConfusion (show true = false from hc)
  | frameBegin => exact Bool.noConfusion (show true = false from hc)
  | readBack bytes extra => exact Bool.noConfusion (show true = false from hc)
  | malformedFrame bytes extra => exact Bool.noConfusion (show true = false from hc)
  | ident => exact Bool.noConfusion (show true = false from hc)
  | status => exact Bool.noConfusion (show true = false from hc)
  | clearFlags flagSet => exact Bool.noConfusion (show true = false from hc)
  | setMask maskSet => exact Bool.noConfusion (show true = false from hc)
  | setTiming values => exact Bool.noConfusion (show true = false from hc)
  | getTiming => exact Bool.noConfusion (show true = false from hc)
  | stageWindow index record => exact Bool.noConfusion (show true = false from hc)
  | getWindow index table => exact Bool.noConfusion (show true = false from hc)
  | apply => exact Bool.noConfusion (show true = false from hc)
  | enable => exact Bool.noConfusion (show true = false from hc)
  | disableDrain selector => exact Bool.noConfusion (show true = false from hc)
  | disableDiscard selector => exact Bool.noConfusion (show true = false from hc)
  | sealWindows windows => exact Bool.noConfusion (show true = false from hc)
  | flush windows => exact Bool.noConfusion (show true = false from hc)
  | windowStatus index => exact Bool.noConfusion (show true = false from hc)
  | takeIncident => exact Bool.noConfusion (show true = false from hc)
  | restart => exact Bool.noConfusion (show true = false from hc)
  | resetLineEnd => exact execResetLineEnd_link h
  | sckRisingEdge sdi => exact Bool.noConfusion (show true = false from hc)
  | sckFallingEdge => exact Bool.noConfusion (show true = false from hc)
  | noBitReceived => exact Bool.noConfusion (show true = false from hc)

theorem exec_resetAsserted {c : Instr} {s t : State} (h : exec c s = .next t) (hc : changesResetAsserted c = false) :
    t.resetAsserted = s.resetAsserted := by
  cases c with
  | upstreamWrite addr strobes data => exact execUpstreamWrite_resetAsserted addr strobes data h
  | upstreamRead addr strobes => exact execUpstreamRead_resetAsserted addr strobes h
  | ureqWithdrawn => exact execUreqWithdrawn_resetAsserted h
  | directWriteComplete => exact execDirectWriteComplete_resetAsserted h
  | memoryReadComplete dd => exact execMemoryReadComplete_resetAsserted dd h
  | entryWriteComplete => exact execEntryWriteComplete_resetAsserted h
  | receiptWriteComplete => exact execReceiptWriteComplete_resetAsserted h
  | drdyRelease => exact execDrdyRelease_resetAsserted h
  | strayDrdy => exact execStrayDrdy_resetAsserted h
  | frameStart => exact execFrameStart_resetAsserted h
  | lineStart => exact execLineStart_resetAsserted h
  | supervisionExpiry => exact execSupervisionExpiry_resetAsserted h
  | stallExpiry => exact execStallExpiry_resetAsserted h
  | resetLine => exact Bool.noConfusion (show true = false from hc)
  | frameBegin => exact execFrameBegin_resetAsserted h
  | readBack bytes extra => exact execReadBack_resetAsserted bytes extra h
  | malformedFrame bytes extra => exact execMalformedFrame_resetAsserted bytes extra h
  | ident => exact execIdent_resetAsserted h
  | status => exact execStatus_resetAsserted h
  | clearFlags flagSet => exact execClearFlags_resetAsserted flagSet h
  | setMask maskSet => exact execSetMask_resetAsserted maskSet h
  | setTiming values => exact execSetTiming_resetAsserted values h
  | getTiming => exact execGetTiming_resetAsserted h
  | stageWindow index record => exact execStageWindow_resetAsserted index record h
  | getWindow index table => exact execGetWindow_resetAsserted index table h
  | apply => exact execApply_resetAsserted h
  | enable => exact execEnable_resetAsserted h
  | disableDrain selector => exact execDisableDrain_resetAsserted selector h
  | disableDiscard selector => exact execDisableDiscard_resetAsserted selector h
  | sealWindows windows => exact execSealWindows_resetAsserted windows h
  | flush windows => exact execFlush_resetAsserted windows h
  | windowStatus index => exact execWindowStatus_resetAsserted index h
  | takeIncident => exact execTakeIncident_resetAsserted h
  | restart => exact execRestart_resetAsserted h
  | resetLineEnd => exact Bool.noConfusion (show true = false from hc)
  | sckRisingEdge sdi => exact execSckRisingEdge_resetAsserted sdi h
  | sckFallingEdge => exact execSckFallingEdge_resetAsserted h
  | noBitReceived => exact execNoBitReceived_resetAsserted h

theorem exec_memory {c : Instr} {s t : State} (h : exec c s = .next t) (hc : changesMemory c = false) :
    t.memory = s.memory := by
  cases c with
  | upstreamWrite addr strobes data => exact execUpstreamWrite_memory addr strobes data h
  | upstreamRead addr strobes => exact execUpstreamRead_memory addr strobes h
  | ureqWithdrawn => exact execUreqWithdrawn_memory h
  | directWriteComplete => exact Bool.noConfusion (show true = false from hc)
  | memoryReadComplete dd => 
    simp only [exec] at h
    unfold execMemoryReadComplete at h
    split at h <;> (injection h with h; subst h; rfl)
  | entryWriteComplete => exact Bool.noConfusion (show true = false from hc)
  | receiptWriteComplete => exact Bool.noConfusion (show true = false from hc)
  | drdyRelease => exact execDrdyRelease_memory h
  | strayDrdy => exact execStrayDrdy_memory h
  | frameStart => exact execFrameStart_memory h
  | lineStart => exact execLineStart_memory h
  | supervisionExpiry => exact execSupervisionExpiry_memory h
  | stallExpiry => exact execStallExpiry_memory h
  | resetLine => exact Bool.noConfusion (show true = false from hc)
  | frameBegin => exact execFrameBegin_memory h
  | readBack bytes extra => exact execReadBack_memory bytes extra h
  | malformedFrame bytes extra => exact execMalformedFrame_memory bytes extra h
  | ident => exact execIdent_memory h
  | status => exact execStatus_memory h
  | clearFlags flagSet => exact execClearFlags_memory flagSet h
  | setMask maskSet => exact execSetMask_memory maskSet h
  | setTiming values => exact execSetTiming_memory values h
  | getTiming => exact execGetTiming_memory h
  | stageWindow index record => exact execStageWindow_memory index record h
  | getWindow index table => exact execGetWindow_memory index table h
  | apply => exact execApply_memory h
  | enable => exact execEnable_memory h
  | disableDrain selector => exact execDisableDrain_memory selector h
  | disableDiscard selector => exact execDisableDiscard_memory selector h
  | sealWindows windows => exact execSealWindows_memory windows h
  | flush windows => exact execFlush_memory windows h
  | windowStatus index => exact execWindowStatus_memory index h
  | takeIncident => exact execTakeIncident_memory h
  | restart => exact execRestart_memory h
  | resetLineEnd => exact execResetLineEnd_memory h
  | sckRisingEdge sdi => exact execSckRisingEdge_memory sdi h
  | sckFallingEdge => exact execSckFallingEdge_memory h
  | noBitReceived => exact execNoBitReceived_memory h

theorem exec_freeIndex {c : Instr} {s t : State} (h : exec c s = .next t) (hc : changesFreeIndex c = false) :
    t.freeIndex = s.freeIndex := by
  cases c with
  | upstreamWrite addr strobes data => exact execUpstreamWrite_freeIndex addr strobes data h
  | upstreamRead addr strobes => exact execUpstreamRead_freeIndex addr strobes h
  | ureqWithdrawn => exact execUreqWithdrawn_freeIndex h
  | directWriteComplete => exact execDirectWriteComplete_freeIndex h
  | memoryReadComplete dd => exact execMemoryReadComplete_freeIndex dd h
  | entryWriteComplete => exact execEntryWriteComplete_freeIndex h
  | receiptWriteComplete => exact execReceiptWriteComplete_freeIndex h
  | drdyRelease => exact execDrdyRelease_freeIndex h
  | strayDrdy => exact execStrayDrdy_freeIndex h
  | frameStart => exact execFrameStart_freeIndex h
  | lineStart => exact execLineStart_freeIndex h
  | supervisionExpiry => exact execSupervisionExpiry_freeIndex h
  | stallExpiry => exact execStallExpiry_freeIndex h
  | resetLine => exact Bool.noConfusion (show true = false from hc)
  | frameBegin => exact execFrameBegin_freeIndex h
  | readBack bytes extra => exact execReadBack_freeIndex bytes extra h
  | malformedFrame bytes extra => exact execMalformedFrame_freeIndex bytes extra h
  | ident => exact execIdent_freeIndex h
  | status => exact execStatus_freeIndex h
  | clearFlags flagSet => exact execClearFlags_freeIndex flagSet h
  | setMask maskSet => exact execSetMask_freeIndex maskSet h
  | setTiming values => exact execSetTiming_freeIndex values h
  | getTiming => exact execGetTiming_freeIndex h
  | stageWindow index record => exact execStageWindow_freeIndex index record h
  | getWindow index table => exact execGetWindow_freeIndex index table h
  | apply => exact execApply_freeIndex h
  | enable => exact execEnable_freeIndex h
  | disableDrain selector => exact execDisableDrain_freeIndex selector h
  | disableDiscard selector => exact execDisableDiscard_freeIndex selector h
  | sealWindows windows => exact execSealWindows_freeIndex windows h
  | flush windows => exact execFlush_freeIndex windows h
  | windowStatus index => exact execWindowStatus_freeIndex index h
  | takeIncident => exact execTakeIncident_freeIndex h
  | restart => exact execRestart_freeIndex h
  | resetLineEnd => exact execResetLineEnd_freeIndex h
  | sckRisingEdge sdi => exact execSckRisingEdge_freeIndex sdi h
  | sckFallingEdge => exact execSckFallingEdge_freeIndex h
  | noBitReceived => exact execNoBitReceived_freeIndex h

/-- No command touches the queue of those that wait behind it. -/
theorem exec_pending {c : Instr} {s t : State} (h : exec c s = .next t) :
    t.pending = s.pending := by
  cases c with
  | upstreamWrite addr strobes data => exact execUpstreamWrite_pending addr strobes data h
  | upstreamRead addr strobes => exact execUpstreamRead_pending addr strobes h
  | ureqWithdrawn => exact execUreqWithdrawn_pending h
  | directWriteComplete => exact execDirectWriteComplete_pending h
  | memoryReadComplete dd => exact execMemoryReadComplete_pending dd h
  | entryWriteComplete => exact execEntryWriteComplete_pending h
  | receiptWriteComplete => exact execReceiptWriteComplete_pending h
  | drdyRelease => exact execDrdyRelease_pending h
  | strayDrdy => exact execStrayDrdy_pending h
  | frameStart => exact execFrameStart_pending h
  | lineStart => exact execLineStart_pending h
  | supervisionExpiry => exact execSupervisionExpiry_pending h
  | stallExpiry => exact execStallExpiry_pending h
  | resetLine =>
    injection h with h
    rw [← h]
    exact cutTransaction_pending s
  | frameBegin => exact execFrameBegin_pending h
  | readBack bytes extra => exact execReadBack_pending bytes extra h
  | malformedFrame bytes extra => exact execMalformedFrame_pending bytes extra h
  | ident => exact execIdent_pending h
  | status => exact execStatus_pending h
  | clearFlags flagSet => exact execClearFlags_pending flagSet h
  | setMask maskSet => exact execSetMask_pending maskSet h
  | setTiming values => exact execSetTiming_pending values h
  | getTiming => exact execGetTiming_pending h
  | stageWindow index record => exact execStageWindow_pending index record h
  | getWindow index table => exact execGetWindow_pending index table h
  | apply => exact execApply_pending h
  | enable => exact execEnable_pending h
  | disableDrain selector => exact execDisableDrain_pending selector h
  | disableDiscard selector => exact execDisableDiscard_pending selector h
  | sealWindows windows => exact execSealWindows_pending windows h
  | flush windows => exact execFlush_pending windows h
  | windowStatus index => exact execWindowStatus_pending index h
  | takeIncident => exact execTakeIncident_pending h
  | restart => exact execRestart_pending h
  | resetLineEnd => exact execResetLineEnd_pending h
  | sckRisingEdge sdi => exact execSckRisingEdge_pending sdi h
  | sckFallingEdge => exact execSckFallingEdge_pending h
  | noBitReceived => exact execNoBitReceived_pending h

end Sys2Proof.Machine
end

