-- ==== Sys2Proof/Laws/Requests.lean ====
section
/-! SUPPORT. Requests and their checks: the frame of a request, the judgement of the others, the codes, and the checks of the timing, of a
record and of a table as the statements have them. -/

namespace Sys2Proof.Machine

open Sys2Proof

theorem takeBits (b : Byte) (l : Link) (h : l.bits = 0) :
    (bitsOf b).foldl (fun l x => l.takeBit x) l = l.takeByte b := by
  have hbits : bitsOf b = [b.getLsbD 7, b.getLsbD 6, b.getLsbD 5, b.getLsbD 4, b.getLsbD 3, b.getLsbD 2, b.getLsbD 1, b.getLsbD 0] := by
    unfold bitsOf; rfl
  have key : ∀ (c x : Byte), (((((((c <<< 1 ||| (BitVec.ofBool (x.getLsbD 7)).setWidth 8) <<< 1 ||| (BitVec.ofBool (x.getLsbD 6)).setWidth 8) <<< 1
      ||| (BitVec.ofBool (x.getLsbD 5)).setWidth 8) <<< 1 ||| (BitVec.ofBool (x.getLsbD 4)).setWidth 8) <<< 1 ||| (BitVec.ofBool (x.getLsbD 3)).setWidth 8) <<< 1
      ||| (BitVec.ofBool (x.getLsbD 2)).setWidth 8) <<< 1 ||| (BitVec.ofBool (x.getLsbD 1)).setWidth 8) <<< 1 ||| (BitVec.ofBool (x.getLsbD 0)).setWidth 8 = x := by
    intro c x
    apply BitVec.eq_of_getLsbD_eq
    intro i hi
    have : i = 0 ∨ i = 1 ∨ i = 2 ∨ i = 3 ∨ i = 4 ∨ i = 5 ∨ i = 6 ∨ i = 7 := by omega
    rcases this with rfl | rfl | rfl | rfl | rfl | rfl | rfl | rfl <;> simp
  rw [hbits]
  obtain ⟨ip, bits, cur, bc, st, resp, op, ob⟩ := l
  dsimp only at h
  subst h
  simp only [List.foldl_cons, List.foldl_nil]
  conv_lhs => simp only [Link.takeBit]
  simp only [Nat.reduceBEq, Nat.reduceAdd, Bool.false_eq_true, if_false, if_true]
  rw [key]
  simp [Link.takeByte]

theorem execAll_bits (bs : List Bool) (s : State) (h : s.link.inProgress = true) :
    execAll (bs.map .sckRisingEdge) s = .next { s with link := bs.foldl (fun l x => l.takeBit x) s.link } := by
  induction bs generalizing s with
  | nil => rfl
  | cons x bs ih =>
    simp only [List.map_cons, execAll, exec, execSckRisingEdge, h, if_true]
    rw [ih]
    · rfl
    · show (s.link.takeBit x).inProgress = true
      unfold Link.takeBit Link.takeByte
      split <;> exact h

theorem execAll_falls (n : Nat) (s : State) (h : s.link.inProgress = true) :
    execAll (List.replicate n .sckFallingEdge) s = .next { s with link := (Link.shiftOut)^[n] s.link } := by
  induction n generalizing s with
  | zero => rfl
  | succ n ih =>
    simp only [List.replicate_succ, execAll, exec, execSckFallingEdge, h, if_true]
    rw [ih]
    · rfl
    · show (s.link.shiftOut).inProgress = true
      unfold Link.shiftOut
      split <;> exact h

theorem shiftOut_iter (p j : Nat) (hj : j < 8) (l : Link) (h1 : l.outPosition = 0) (h2 : l.outBits = 0) :
    (Link.shiftOut)^[8 * p + j] l = { l with outPosition := p, outBits := j } := by
  have step : ∀ n, (Link.shiftOut)^[n] l = { l with outPosition := n / 8, outBits := n % 8 } := by
    intro n
    induction n with
    | zero =>
      obtain ⟨_, _, _, _, _, _, _, _⟩ := l
      dsimp only at h1 h2
      subst h1 h2
      rfl
    | succ n ih =>
      rw [Function.iterate_succ_apply', ih]
      unfold Link.shiftOut
      by_cases h : n % 8 = 7
      · simp only [h, beq_self_eq_true, if_true]
        congr 1 <;> omega
      · have hb : (n % 8 == 7) = false := by simpa using h
        simp only [hb, Bool.false_eq_true, if_false]
        congr 1 <;> omega
  rw [step]
  congr 1 <;> omega

theorem pad (x : BitVec 14) : (0#2 ++ x : BitVec 16) = x.setWidth 16 := by
  apply BitVec.eq_of_toNat_eq
  show ((0#2 ++ x : BitVec (2 + 14))).toNat = _
  rw [BitVec.toNat_append]
  have := x.isLt
  simp
  omega

theorem ends_run {s : State} {c : Command} {p : List Byte} (h : Ends s c p) (run : State → State) (hl : p.length = payloadLength c := by rfl) :
    onRequest c p run s = run s := onRequest_run c p run s hl h

theorem answered_eq (s : State) (c : StatusCode) (p : List Byte) : s.answered c p = answer ⟨c, p⟩ s := rfl

theorem judge_cases (bytes : List Byte) (extra : Nat) (hne : bytes ≠ [] ∨ extra ≠ 0) (h0 : bytes.head? ≠ some 0x00) (hF : bytes.head? ≠ some 0xFF) :
    let l := (bytes.getD 1 0).toNat
    judgeFrame bytes extra = if extra = 0 ∧ l ≤ 64 ∧ bytes.length = l + 3 then
        (if bytes.getD (l + 2) 0 ≠ checkByte (bytes.take (l + 2)) then .check
         else match commandOf (bytes.getD 0 0) with
           | none => .unknown
           | some c => if l = payloadLength c then .command c else .payloadLength)
      else .length := by
  intro l
  unfold judgeFrame judge
  have hcount : countOf bytes = min bytes.length 68 := rfl
  have c1 : (countOf bytes == 0 && extra == 0) = false := by
    rw [hcount]
    rw [Bool.and_eq_false_iff]
    rcases hne with h | h
    · left
      have : bytes.length ≠ 0 := by simpa using h
      simp only [beq_eq_false_iff_ne]; omega
    · right; simpa using h
  rw [c1]
  have hst : ∀ k, k < 67 → (storedOf bytes)[k]? = bytes[k]? := by
    intro k hk
    unfold storedOf Config.storedBytes
    rw [List.getElem?_take]
    simp [hk]
  have hhead : bytes.head? = bytes[0]? := by cases bytes <;> rfl
  have c2 : ((storedOf bytes)[0]? == some 0x00 || (storedOf bytes)[0]? == some 0xFF) = false := by
    rw [hst 0 (by omega), ← hhead]
    simp only [Bool.or_eq_false_iff, beq_eq_false_iff_ne]
    exact ⟨h0, hF⟩
  rw [c2]
  have hD : ∀ k, k < 67 → (storedOf bytes).getD k 0 = bytes.getD k 0 := by
    intro k hk
    rw [List.getD_eq_getElem?_getD, List.getD_eq_getElem?_getD, hst k hk]
  simp only [Bool.false_eq_true, if_false, hD 1 (by omega), hD 0 (by omega)]
  by_cases hw : extra = 0 ∧ l ≤ 64 ∧ bytes.length = l + 3
  · rw [if_pos hw]
    obtain ⟨w1, w2, w3⟩ := hw
    have c3 : (extra != 0 || decide (countOf bytes < 3) || decide (64 < (bytes.getD 1 0).toNat) || countOf bytes != (bytes.getD 1 0).toNat + 3) = false := by
      rw [hcount, w1]
      have : min bytes.length 68 = l + 3 := by omega
      rw [this]
      simp only [bne_self_eq_false, Bool.false_or, Bool.or_eq_false_iff, decide_eq_false_iff_not, bne_eq_false_iff_eq]
      exact ⟨⟨by omega, by show ¬ 64 < l; omega⟩, rfl⟩
    rw [c3]
    have ht : (storedOf bytes).take (l + 2) = bytes.take (l + 2) := by
      unfold storedOf Config.storedBytes
      rw [List.take_take]
      congr 1; omega
    have hx : (storedOf bytes).getD (l + 2) 0 = bytes.getD (l + 2) 0 := hD _ (by omega)
    show (if false = true then _ else if ((storedOf bytes).getD (l + 2) 0 != checkByte ((storedOf bytes).take (l + 2))) = true then _ else _) = _
    rw [ht, hx]
    simp only [Bool.false_eq_true, if_false, bne_iff_ne]
    split
    · rfl
    · cases hcm : commandOf (bytes.getD 0 0) with
      | none => rfl
      | some c => simp only [beq_iff_eq]; rfl
  · rw [if_neg hw]
    have c3 : (extra != 0 || decide (countOf bytes < 3) || decide (64 < (bytes.getD 1 0).toNat) || countOf bytes != (bytes.getD 1 0).toNat + 3) = true := by
      by_contra hc
      apply hw
      rw [Bool.not_eq_true] at hc
      simp only [Bool.or_eq_false_iff, decide_eq_false_iff_not, bne_eq_false_iff_eq] at hc
      obtain ⟨⟨⟨k1, k2⟩, k3⟩, k4⟩ := hc
      rw [hcount] at k4
      have k3 : ¬ 64 < l := k3
      have k4 : min bytes.length 68 = l + 3 := k4
      exact ⟨k1, by omega, by omega⟩
    rw [c3]
    rfl

theorem crc_zero (bs : List Byte) : checkByte (bs ++ [checkByte bs]) = 0 := by
  unfold checkByte
  rw [List.foldl_append]
  simp only [List.foldl_cons, List.foldl_nil]
  unfold crcByte
  rw [BitVec.xor_self]
  decide

theorem commandOf_none (b : Byte) : commandOf b = none ↔ ∀ c : Command, commandByte c ≠ b := by
  unfold commandOf
  rw [List.find?_eq_none]
  constructor
  · intro h c
    have := h c (by cases c <;> simp [commandList])
    simpa using this
  · intro h c _
    simpa using h c

theorem flag_exists (x : BitVec 14) : (x != 0) = true ↔ ∃ f : Flag, x.getLsbD (flagBit f) = true := by
  constructor
  · intro h
    by_contra hc
    push Not at hc
    have : x = 0 := by
      apply BitVec.eq_of_getLsbD_eq
      intro i hi
      have hf : ∃ f : Flag, flagBit f = i := by
        by_cases h8 : i < 8
        · exact ⟨.retire ⟨i, h8⟩, rfl⟩
        · have : i = 8 ∨ i = 9 ∨ i = 10 ∨ i = 11 ∨ i = 12 ∨ i = 13 := by omega
          rcases this with rfl | rfl | rfl | rfl | rfl | rfl
          · exact ⟨.incident, rfl⟩
          · exact ⟨.stall, rfl⟩
          · exact ⟨.drained, rfl⟩
          · exact ⟨.applied, rfl⟩
          · exact ⟨.locked, rfl⟩
          · exact ⟨.lost, rfl⟩
      obtain ⟨f, hf⟩ := hf
      have := hc f
      rw [hf] at this
      simpa using this
    rw [this] at h
    simp at h
  · rintro ⟨f, hf⟩
    rw [bne_iff_ne]
    rintro rfl
    simp at hf

theorem timingInRange_iff (v : TimingFields) : timingInRange v = true ↔ TimingInRange v := by
  unfold timingInRange TimingInRange
  simp only [Bool.and_eq_true, decide_eq_true_eq]
  tauto

theorem tableFits_iff (t : Vector WindowRecord 8) (a : Nat) : tableFits t a = true ↔ FitsActive t a := by
  unfold tableFits FitsActive
  rw [List.all_eq_true]
  simp only [Bool.or_eq_true, beq_iff_eq, decide_eq_true_eq]
  constructor
  · intro h W hp
    rcases h W (by simp) with h | h
    · exact absurd h hp
    · exact h
  · intro h W _
    by_cases hp : t[W].policy = .off
    · exact .inl hp
    · exact .inr (h W hp)

theorem recordInRange_iff (f : RecordFields) : recordInRange f = true ↔ RecordInRange f := by
  unfold recordInRange RecordInRange
  simp only [Bool.and_eq_true, decide_eq_true_eq]
  constructor
  · rintro ⟨⟨⟨⟨⟨⟨⟨⟨a, b⟩, c⟩, d⟩, e⟩, g⟩, h⟩, i⟩, j⟩
    exact ⟨a, b, c, d, e, by omega, h, by omega, j⟩
  · rintro ⟨a, b, c, d, e, g, h, i, j⟩
    have : 1 ≤ f.pitch.toNat * f.rows.toNat := Nat.mul_pos a c
    exact ⟨⟨⟨⟨⟨⟨⟨⟨a, b⟩, c⟩, d⟩, e⟩, by omega⟩, h⟩, by omega⟩, j⟩

theorem windowOf_val {index : BitVec 8} {W : WindowIdx} (hW : index.toNat = W.val) : windowOf index = some W := by
  unfold windowOf
  rw [dif_pos (by have := W.isLt; omega)]
  simp only [Option.some.injEq]
  exact Fin.ext hW

theorem tableOverlaps_iff (t : Vector WindowRecord 8) : tableOverlaps t = true ↔ Overlapping t := by
  unfold tableOverlaps Overlapping WindowRecord.overlaps WindowRecord.size
  simp only [List.any_eq_true, Bool.and_eq_true, bne_iff_ne, List.mem_finRange, true_and, decide_eq_true_eq]
  constructor
  · rintro ⟨V, W, h, ⟨⟨h1, h2⟩, h3⟩, h4⟩; exact ⟨V, W, h, h1, h2, h3, h4⟩
  · rintro ⟨V, W, h, h1, h2, h3, h4⟩; exact ⟨V, W, h, ⟨⟨h1, h2⟩, h3⟩, h4⟩

theorem receipt_iff (t : Vector WindowRecord 8) : receiptMisplaced t = true ↔ ReceiptInside t := by
  unfold receiptMisplaced ReceiptInside
  simp only [List.any_eq_true, Bool.and_eq_true, List.mem_finRange, true_and]
  constructor
  · rintro ⟨V, h1, h2⟩
    cases hr : t[V].receipt with
    | none => rw [hr] at h2; exact absurd h2 (by simp)
    | some a =>
      rw [hr] at h2
      simp only [List.any_eq_true, Bool.and_eq_true, List.mem_finRange, true_and] at h2
      obtain ⟨W, h3, h4⟩ := h2
      exact ⟨V, W, a, h1, hr, h3, h4⟩
  · rintro ⟨V, W, a, h1, hr, h3, h4⟩
    refine ⟨V, h1, ?_⟩
    rw [hr]
    simp only [List.any_eq_true, Bool.and_eq_true, List.mem_finRange, true_and]
    exact ⟨W, h3, h4⟩

theorem mem_windowsOf (set : BitVec 8) (W : WindowIdx) : W ∈ windowsOf set ↔ set.getLsbD W.val = true := by
  unfold windowsOf; simp

theorem windowsOf_nodup (set : BitVec 8) : (windowsOf set).Nodup := (List.nodup_finRange 8).filter _

end Sys2Proof.Machine
end

