-- ==== Sys2Proof/Laws/Lanes.lean ====
section
/-! SUPPORT. Lanes of words, lane by lane: what a mask selects and what a merge leaves (R9, R27, R95, R119). -/

namespace Sys2Proof.Machine

theorem laneBits_bit (m : Lanes) (i : Fin 4) (j : Fin 8) :
    (laneBits m).getLsbD (8 * i.val + j.val) = m.getLsbD i.val := by
  revert m i j
  decide

/-- Words agree when their four lanes do. -/
theorem word_ext {x y : Word} (h : ∀ i : Fin 4, laneByte x i = laneByte y i) : x = y := by
  apply BitVec.eq_of_getLsbD_eq
  intro k hk
  have h1 := congrArg (fun b => b.getLsbD (k % 8)) (h ⟨k / 8, by omega⟩)
  have hlt : k % 8 < 8 := Nat.mod_lt _ (by decide)
  have he : 8 * (k / 8) + k % 8 = k := Nat.div_add_mod k 8
  simpa [laneByte, BitVec.getLsbD_extractLsb', hlt, he] using h1

/-- A merge takes the new word's bytes in the lanes of the mask and keeps the old word's in the others. -/
theorem laneByte_mergeLanes (old new : Word) (m : Lanes) (i : Fin 4) :
    laneByte (mergeLanes old new m) i = if m.getLsbD i.val then laneByte new i else laneByte old i := by
  apply BitVec.eq_of_getLsbD_eq
  intro j hj
  have hb := laneBits_bit m i ⟨j, hj⟩
  have hlt : 8 * i.val + j < 32 := by omega
  unfold laneByte mergeLanes
  cases hm : m.getLsbD i.val <;>
    simp only [BitVec.getLsbD_extractLsb', hj, decide_true, Bool.true_and, BitVec.getLsbD_or, BitVec.getLsbD_and,
      BitVec.getLsbD_not, hlt, hb, hm, Bool.not_true, Bool.not_false, Bool.and_false, Bool.and_true, Bool.or_false,
      Bool.false_or, if_true, if_false, Bool.false_eq_true]

@[simp] theorem mergeLanes_all (old new : Word) : mergeLanes old new allLanes = new :=
  word_ext fun i => by
    rw [laneByte_mergeLanes]
    fin_cases i <;> rfl

@[simp] theorem mergeLanes_zero (old new : Word) : mergeLanes old new 0 = old :=
  word_ext fun i => by
    rw [laneByte_mergeLanes]
    simp

end Sys2Proof.Machine
end

