-- ==== Sys2Proof/Laws/Upstream.lean ====
section
/-! SUPPORT. How the upstream port treats a write and how the store takes it (R6, R8 to R11, R27, R88 to R92). -/

namespace Sys2Proof.Machine

/-- A write of the lines of Table 6-2 that say direct. -/
theorem classify_direct {s : State} {a : Addr} (h : GoesDirect s a) : s.classify a = .direct := by
  unfold State.classify
  rcases h with h | h | ⟨h1, h2, h3⟩
  · rw [h]
  · rw [h]; cases s.mode <;> rfl
  · rw [h1]
    cases hW : coherentWindow s.live a with
    | none => rfl
    | some W =>
      have h3 := h3 W hW
      simp only [Fin.getElem_fin] at h3
      simp [h3, h2]

/-- A write of the line of Table 6-2 that says held, or wait under cause A where the store has not what it needs. -/
theorem classify_goesHeld {s : State} {a : Addr} {W : WindowIdx} (h : GoesHeld s a W) :
    s.classify a = if s.canStore W a then .held W else .wait .a W := by
  unfold State.classify
  simp only [h.1, h.2.1, h.2.2]
  simp

/-- A write of the lines of Table 6-2 that say wait. -/
theorem classify_blocked {s : State} {a : Addr} {W : WindowIdx} {why : Cause} (h : Blocked s a W why) :
    s.classify a = .wait why W := by
  cases why
  · rw [classify_goesHeld h.1, h.2]; rfl
  · obtain ⟨h1, h2, h3, h4⟩ := h
    simp only [Fin.getElem_fin] at h3
    unfold State.classify
    simp [h1, h2, h3, h4]
  · obtain ⟨h1, h2, h3⟩ := h
    simp only [Fin.getElem_fin] at h3
    unfold State.classify
    cases hm : s.mode with
    | bypass => exact absurd hm h1
    | active => simp [h2, h3]
    | draining => simp [h2, h3]

/-- A transaction sent to memory, with the grant it gets (R121, R122). -/
theorem sendUpstream_eq (s : State) (t : UpTransaction) (p : UpPhase) (c : Claim) (h : NoClaimWaitsInFree s) :
    sendUpstream t p c s = s.withUpstreamClaim t p c := by
  unfold sendUpstream State.withUpstreamClaim
  by_cases hp : s.port.phase = .free
  · rw [placeUpstream_free _ _ (by simpa using hp) (by simpa using (h hp).2)]
    simp [hp]
  · rw [placeUpstream_busy _ _ (by simpa using hp)]
    simp [hp]

/-- R6: a free record all of whose lower neighbours are in use is the one that is taken. -/
theorem freeRecord_eq {s : State} {r : RecordIdx} (h : s.records[r] = none)
    (hl : ∀ q : RecordIdx, q < r → s.records[q].isSome = true) : s.freeRecord = some r := by
  unfold State.freeRecord
  rw [List.find?_eq_some_iff_getElem]
  refine ⟨by simp [h], r.val, by simp, by simp, ?_⟩
  intro j hj
  simp only [List.getElem_finRange]
  have := hl ⟨j, by omega⟩ hj
  simpa using this

/-- A held write that does not store to the commit word: no seal follows (R14). -/
theorem storeWrite_nocommit {s : State} {a : Addr} {m : Lanes} {d : Word} {W : WindowIdx}
    (hn : s.live[W].isCommit a = false) :
    settle (storeWrite W a m d (Work.start s)) = completeUpstream none (storeHeld W a m d s) := by
  unfold storeWrite commitSeal
  have h : ((Work.start s).map fun s => completeUpstream none (storeHeld W a m d s)).st =
    completeUpstream none (storeHeld W a m d s) := rfl
  rw [h]
  have hl : (completeUpstream none (storeHeld W a m d s)).live = s.live := by simp
  rw [hl, hn]
  simp [settle, Work.start, Work.map]

/-- A held write the store has room for is stored as it is taken (R91). -/
theorem exec_held {s : State} {a : Addr} {m : Lanes} {d : Word} {W : WindowIdx} (hc : s.canTake = true) (hm : m ≠ 0)
    (hh : GoesHeld s a W) (hs : s.canStore W a = true) :
    exec (.upstreamWrite a m d) s = .next (settle (storeWrite W a m d (Work.start s))) := by
  simp only [exec, execUpstreamWrite, hc, if_true, takeWrite, beq_iff_eq, hm, if_false, takeStrobedWrite]
  have : (Work.start s).st = s := rfl
  rw [this, classify_goesHeld hh, hs]
  rfl

/-- What storing a held write does to the record that takes it and to its window. -/
theorem storeHeld_of_target {s : State} {W : WindowIdx} {a : Addr} {m : Lanes} {d : Word} {r : RecordIdx}
    (h : s.storeTarget W = some r) :
    storeHeld W a m d s = (s.setRecord r (some (addHeld s.records[r] W (s.live[W].screenRow a) a m d))).setWindow W
      { s.windows[W] with openBatch := some r, idle := 0 } := by
  unfold storeHeld; rw [h]

/-- A store that has what a held write needs has a record for it (R11). -/
theorem target_of_canStore {s : State} {W : WindowIdx} {a : Addr} (h : s.canStore W a = true) :
    ∃ r, s.storeTarget W = some r := by
  unfold State.canStore at h
  unfold State.storeTarget
  cases ho : s.windows[W].openBatch with
  | some r => exact ⟨r, rfl⟩
  | none =>
    rw [ho] at h
    simp only [Bool.and_eq_true] at h
    exact Option.isSome_iff_exists.mp h.1

/-- R9, R10: the record that took a held write has an entry for the word with the written bytes. -/
theorem addHeld_entry (b : Option BatchRecord) (W : WindowIdx) (row : Nat) (a : Addr) (m : Lanes) (d : Word) :
    ∃ e ∈ (addHeld b W row a m d).entries, e.addr = a ∧ m &&& e.lanes = m ∧
      ∀ i : Fin 4, m.getLsbD i.val = true → laneByte e.data i = laneByte d i := by
  have base : ∃ e ∈ [(⟨a, d, m⟩ : Entry)], e.addr = a ∧ m &&& e.lanes = m ∧
      ∀ i : Fin 4, m.getLsbD i.val = true → laneByte e.data i = laneByte d i :=
    ⟨_, List.mem_singleton.mpr rfl, rfl, by simp, fun _ _ => rfl⟩
  cases b with
  | none => exact base
  | some b =>
    unfold addHeld BatchRecord.add
    dsimp only
    split
    · rename_i hf
      unfold BatchRecord.find at hf
      obtain ⟨e, he⟩ := Option.isSome_iff_exists.mp hf
      have hm := List.mem_of_find?_eq_some he
      have ha := List.find?_some he
      refine ⟨e.coalesce m d, List.mem_map.mpr ⟨e, hm, by rw [ha]; rfl⟩, (by simpa using ha : e.addr = a), ?_, ?_⟩
      · show m &&& (e.lanes ||| m) = m
        ext i hi
        simp
        tauto
      · intro i hi
        show laneByte (mergeLanes e.data d m) i = _
        rw [laneByte_mergeLanes, hi]; rfl
    · obtain ⟨e, he, h⟩ := base
      exact ⟨e, List.mem_append_right _ he, h⟩

/-- The lanes a lookup covers are those of the entries. -/
theorem coverage_lanes (es : List Entry) (i : Fin 4) : (coverage es).1.getLsbD i.val = true ↔ ∃ e ∈ es, e.lanes.getLsbD i.val = true := by
  induction es with
  | nil => simp [coverage]
  | cons e es ih =>
    rw [coverage, BitVec.getLsbD_or, Bool.or_eq_true, ih]
    simp

/-- In each lane a lookup gives the byte of the first entry that covers it (R27). -/
theorem coverage_byte (newer older : List Entry) (x : Entry) (i : Fin 4) (hx : x.lanes.getLsbD i.val = true)
    (hn : ∀ y ∈ newer, y.lanes.getLsbD i.val = false) : laneByte (coverage (newer ++ x :: older)).2 i = laneByte x.data i := by
  induction newer with
  | nil => simp only [List.nil_append, coverage, laneByte_mergeLanes, hx, if_true]
  | cons e es ih =>
    simp only [List.cons_append, coverage, laneByte_mergeLanes]
    rw [hn e (by simp)]
    exact ih fun y hy => hn y (List.mem_cons_of_mem _ hy)

/-- Newer entries hide older ones, lane by lane (R27). -/
theorem coverage_append (l k : List Entry) (i : Fin 4) :
    (coverage (l ++ k)).1.getLsbD i.val = ((coverage l).1.getLsbD i.val || (coverage k).1.getLsbD i.val) ∧
    laneByte (coverage (l ++ k)).2 i = if (coverage l).1.getLsbD i.val then laneByte (coverage l).2 i else laneByte (coverage k).2 i := by
  induction l with
  | nil => simp [coverage]
  | cons e l ih =>
    simp only [List.cons_append, coverage, BitVec.getLsbD_or, laneByte_mergeLanes, ih.1, ih.2]
    cases e.lanes.getLsbD i.val <;> simp

/-- The entries held for a word of a coherent window. -/
theorem mem_heldFor {s : State} {a : Addr} {W : WindowIdx} (hW : coherentWindow s.live a = some W) (x : RecordIdx × Entry) :
    x ∈ s.heldFor a ↔ x.1 ∈ s.batchesOf W ∧ ∃ b, s.records[x.1.val] = some b ∧ b.find a = some x.2 := by
  unfold State.heldFor
  rw [hW]
  dsimp only
  rw [List.mem_filterMap]
  constructor
  · rintro ⟨q, hq, h⟩
    simp only [Option.map_eq_some_iff, Option.bind_eq_some_iff] at h
    obtain ⟨e, ⟨b, hb, he⟩, rfl⟩ := h
    exact ⟨hq, b, hb, he⟩
  · rintro ⟨hq, b, hb, he⟩
    refine ⟨x.1, hq, ?_⟩
    simp only [Fin.getElem_fin, hb, Option.bind_some, he, Option.map_some]

/-- A departure changes no window's list of batches (R23). -/
theorem batchesOf_departure (s : State) (r : RecordIdx) (b b' : BatchRecord) (hb : s.records[r] = some b) (hw : b'.window = b.window)
   (u : State) (h1 : u.windows = s.windows) (h2 : u.records = (s.setRecord r (some b')).records) (h3 : u.engine.releasing = s.engine.releasing) (W) :
   u.batchesOf W = s.batchesOf W := by
  unfold State.batchesOf State.releasingOf
  rw [h1, h3]
  congr 2
  cases he : s.engine.releasing with
  | none => rfl
  | some q =>
    have : (u.records[q]).any (fun c => c.window == W) = (s.records[q]).any (fun c => c.window == W) := by
      simp only [Fin.getElem_fin, h2, setRecord_get]
      split
      · rename_i hq; subst hq
        simp only [Fin.getElem_fin] at hb
        rw [hb]; simp [hw]
      · rfl
    simp only [Option.filter, this]

end Sys2Proof.Machine
end

