-- ==== Sys2Proof/Laws/Events.lean ====
section
/-! SUPPORT. What the parts of an event leave: line events with their late check and idle seals, expiries, re-examinations, evaluations,
the completion of an apply and of a drain, and the timers. -/

namespace Sys2Proof.Machine

open Sys2Proof

theorem lineEvent_incidents (s : State) : (lineEvent s).st.incidents = (lateCheck s).incidents := by
  simp [lineEvent]

theorem frame_grows (s : State) : Grows (trackFrame s).incidents (settle (applyIfEmpty (lineEvent (trackFrame s)))).incidents := by
  refine Grows.trans ?_ (settle_grows _)
  refine Grows.trans ?_ (applyIfEmpty_grows _)
  rw [lineEvent_incidents]
  exact lateCheck_grows _

theorem line_grows (s : State) : Grows (trackLine s).incidents (settle (lineEvent (trackLine s))).incidents := by
  refine Grows.trans ?_ (settle_grows _)
  rw [lineEvent_incidents]
  exact lateCheck_grows _

theorem grows_flag {s t : State} (h : Grows s.incidents t.incidents) (f : Flag) (hf : s.flagSet f = true) : t.flagSet f = true :=
  h.2.2.2.2 f hf

theorem lineEvent_window_counts (s : State) (W : WindowIdx) :
    (lineEvent s).st.windows[W.val].idle = idleAfter s.windows[W].idle := by
  unfold lineEvent idleEvent
  rw [sealAll_proj (fun d => d.idle) (fun _ _ => rfl)]
  show (countIdle (lateCheck s)).windows[W.val].idle = _
  unfold countIdle State.mapWindows
  simp

theorem countIdle_openBatch (s : State) (W : WindowIdx) :
    (countIdle s).windows[W.val].openBatch = s.windows[W].openBatch ∧ (countIdle s).windows[W.val].lastSealed = s.windows[W].lastSealed := by
  unfold countIdle State.mapWindows
  simp

theorem mem_idleSeals (s : State) (W : WindowIdx) : W ∈ s.idleSeals ↔
    s.live[W].idleSeal ≠ 0 ∧ s.windows[W].idle < 255 ∧ s.windows[W].idle + 1 = s.live[W].idleSeal := by
  unfold State.idleSeals Config.stopCount
  simp [and_assoc]

theorem idleSeals_lateCheck (s : State) : (lateCheck s).idleSeals = s.idleSeals := by
  unfold State.idleSeals
  simp

theorem lateCheck_isSome (s : State) (q : RecordIdx) (h : s.records[q.val].isSome = true) : (lateCheck s).records[q.val].isSome = true := by
  unfold lateCheck
  split
  · split
    · split
      · exact h
      · unfold checkLate
        split
        · show (State.setRecord s _ _).records[q.val].isSome = true
          rw [setRecord_records, records_set_get]
          split
          · rfl
          · exact h
        · exact h
    · exact h
  · exact h

theorem lineEvent_seals (s : State) (W : WindowIdx) :
    (∀ (r : RecordIdx) (b : BatchRecord), s.windows[W].openBatch = some r → s.records[r] = some b →
        s.live[W].idleSeal ≠ 0 → s.windows[W].idle < 255 → s.windows[W].idle + 1 = s.live[W].idleSeal →
        (lineEvent s).st.windows[W.val].openBatch = none ∧ (lineEvent s).st.windows[W.val].lastSealed = s.windows[W].lastSealed + 1) ∧
      (s.windows[W].openBatch = none ∨ s.live[W].idleSeal = 0 ∨ 255 ≤ s.windows[W].idle ∨
          s.windows[W].idle + 1 ≠ s.live[W].idleSeal →
        (lineEvent s).st.windows[W.val].openBatch = s.windows[W].openBatch ∧ (lineEvent s).st.windows[W.val].lastSealed = s.windows[W].lastSealed) := by
  have hcw := countIdle_openBatch (lateCheck s) W
  simp only [Fin.getElem_fin, lateCheck_windows] at hcw
  refine ⟨fun r b ho hb h1 h2 h3 => ?_, fun h => ?_⟩
  · have := sealAll_window (lateCheck s).idleSeals W ((Work.start (lateCheck s)).tell.map countIdle) r
      (by unfold State.idleSeals; exact (List.nodup_finRange 8).filter _)
      (by rw [idleSeals_lateCheck, mem_idleSeals]; exact ⟨h1, h2, h3⟩)
      (by show (countIdle (lateCheck s)).windows[W.val].openBatch = _; rw [hcw.1]; exact ho)
      (by show (countIdle (lateCheck s)).records[r.val].isSome = true
          have : (countIdle (lateCheck s)).records = (lateCheck s).records := rfl
          rw [this]
          apply lateCheck_isSome
          simp only [Fin.getElem_fin] at hb
          rw [hb]; rfl)
    unfold lineEvent idleEvent
    have e : (Work.start (lateCheck s)).tell.st = lateCheck s := rfl
    rw [e, this]
    refine ⟨rfl, ?_⟩
    show (countIdle (lateCheck s)).windows[W.val].lastSealed + 1 = _
    rw [hcw.2]; rfl
  · unfold lineEvent idleEvent
    have e : (Work.start (lateCheck s)).tell.st = lateCheck s := rfl
    rw [e]
    by_cases hm : W ∈ (lateCheck s).idleSeals
    · have hm' := (mem_idleSeals _ _).mp (idleSeals_lateCheck s ▸ hm)
      have ho : s.windows[W].openBatch = none := by
        rcases h with h | h | h | h
        · exact h
        · exact absurd h hm'.1
        · omega
        · exact absurd hm'.2.2 h
      -- sealing W does nothing
      have key : ∀ (Ws : List WindowIdx) (w : Work), w.st.windows[W.val].openBatch = none →
          (sealAll Ws w).st.windows[W.val].openBatch = none ∧ (sealAll Ws w).st.windows[W.val].lastSealed = w.st.windows[W.val].lastSealed := by
        intro Ws
        induction Ws with
        | nil => intro w hw; exact ⟨hw, rfl⟩
        | cons V Ws ih =>
          intro w hw
          rw [sealAll_cons]
          by_cases hV : V = W
          · subst hV
            rw [sealOpen_none V w hw]
            exact ih w hw
          · have := sealOpen_window_other V W w hV
            have h2 := ih (sealOpen V w) (by rw [this]; exact hw)
            rw [this] at h2
            exact h2
      have := key (lateCheck s).idleSeals ((Work.start (lateCheck s)).tell.map countIdle)
        (by show (countIdle (lateCheck s)).windows[W.val].openBatch = none; rw [hcw.1]; exact ho)
      rw [this.1, this.2]
      exact ⟨ho.symm, hcw.2⟩
    · rw [sealAll_window_other _ _ _ hm]
      exact ⟨hcw.1, hcw.2⟩

theorem trackLine_same (s : State) : (trackLine s).windows = s.windows ∧ (trackLine s).live = s.live ∧ (trackLine s).records = s.records := by simp

theorem trackFrame_same (s : State) : (trackFrame s).windows = s.windows ∧ (trackFrame s).live = s.live ∧ (trackFrame s).records = s.records := by simp

theorem settle_frame (w : Work) (h : w.st.upstream.phase ≠ .wait ∨ w.reported = false) : settle w = w.st ∨ settle w = evaluate w.st := by
  rcases h with h | h
  · rw [settle_noWait w h]
    split
    · exact .inr rfl
    · exact .inl rfl
  · rw [settle_quiet w h]
    split
    · exact .inr rfl
    · exact .inl rfl

theorem apply_none (w : Work) (h : w.st.applyPending = false) : applyIfEmpty w = w := by
  unfold applyIfEmpty; simp [h]

theorem forceMark_grows (x) (W : WindowIdx) (r) (w : Work) : (forceMark x W r w).st.incidents = w.st.incidents := by simp

theorem exec_stallExpiry {s : State} (h : s.upstream.phase = .wait) (ht : s.upstream.stallTimer ≠ none) :
    exec .stallExpiry s = .next (settle ((expiryAction (Work.start (handIncident s.stallIncident s))).map restartTimer)) := by
  have := Option.isSome_iff_ne_none.mpr ht
  simp only [exec, execStallExpiry, h, this]
  rfl

theorem settle_expiry (w : Work) (h : w.reported = false) :
    settle (w.map restartTimer) = restartTimer w.st ∨ settle (w.map restartTimer) = evaluate (restartTimer w.st) := by
  have e := settle_quiet (w.map restartTimer) h
  rw [e]
  split
  · exact .inr rfl
  · exact .inl rfl

theorem expiry_record (w : Work) (h : w.reported = false) (q : RecordIdx) (d : BatchRecord) (hd : w.st.records[q.val] = some d) :
    ∃ d', (settle (w.map restartTimer)).records[q.val] = some d' ∧ d'.mark = d.mark ∧ d'.entries = d.entries ∧ d'.seq = d.seq ∧ d'.ordinal = d.ordinal := by
  have hr : (restartTimer w.st).records[q.val] = some d := hd
  rcases settle_expiry w h with k | k
  · exact ⟨d, by rw [k]; exact hr, rfl, rfl, rfl, rfl⟩
  · rw [k]
    rcases evaluate_record _ q d hr with e | ⟨⟨g, e⟩, _⟩
    · exact ⟨d, e, rfl, rfl, rfl, rfl⟩
    · exact ⟨_, e, rfl, rfl, rfl, rfl⟩

theorem expiry_window (w : Work) (h : w.reported = false) (V : WindowIdx) {α : Type} (f : WindowState → α) (hf : ∀ d r, f (startedWindow d r) = f d) :
    f (settle (w.map restartTimer)).windows[V.val] = f w.st.windows[V.val] := by
  rcases settle_expiry w h with k | k
  · rw [k]; rfl
  · rw [k, evaluate_proj f hf]; rfl

theorem mem_unmarkedSealed (s : State) (r : RecordIdx) : r ∈ s.unmarkedSealed ↔ (∃ W : WindowIdx, r ∈ s.windows[W].sealedQueue) ∧ ∃ d, s.records[r] = some d ∧ d.mark = none := by
  unfold State.unmarkedSealed State.sealedOf State.unmarked
  rw [List.mem_filter, List.mem_flatMap]
  simp [Option.any_eq_true_iff_get]
  intro x hx
  constructor
  · rintro ⟨h, h2⟩
    exact ⟨_, Option.some_get h |>.symm, h2⟩
  · rintro ⟨d, h, h2⟩
    have : s.records[r.val].isSome = true := by rw [h]; rfl
    refine ⟨this, ?_⟩
    simp only [h, Option.get_some]; exact h2

theorem pairwise_finRange8 : (List.finRange 8).Pairwise (· < ·) := by decide

theorem mem_idleSeals' (s : State) (W : WindowIdx) : W ∈ s.idleSeals ↔
    s.live[W.val].idleSeal ≠ 0 ∧ s.windows[W.val].idle < 255 ∧ s.windows[W.val].idle + 1 = s.live[W.val].idleSeal := by
  unfold State.idleSeals Config.stopCount
  simp [and_assoc]

theorem lateCheck_with (s : State) (r : RecordIdx) (b : BatchRecord) (hp : s.engine.phase = .entries) (hr : s.engine.releasing = some r)
    (hb : s.records[r.val] = some b) (hnl : s.tracker.state = .locked → s.tracker.line = none → True) :
    ((lateCheck s).records[r.val] = some { b with late := b.late || decide (s.tracker.state = .locked ∧ 1 ≤ b.written ∧ b.entries ≠ [] ∧
            ∃ line, s.tracker.line = some line ∧ s.timing.firstLine + b.firstRow ≤ line ∧
              line ≤ s.timing.firstLine + b.lastRow) }) ∧
    (b.late = false → (s.tracker.state = .locked ∧ 1 ≤ b.written ∧ b.entries ≠ [] ∧
            ∃ line, s.tracker.line = some line ∧ s.timing.firstLine + b.firstRow ≤ line ∧
              line ≤ s.timing.firstLine + b.lastRow) →
       Handed ⟨.late, some b.window, b.seq, s.tracker.line, s.tracker.frameCounter, none⟩ s (lateCheck s)) := by
  have hb' : s.records[r] = some b := hb
  by_cases hs : s.tracker.state = .locked
  · cases hl : s.tracker.line with
    | none =>
      have e : lateCheck s = s := by
        unfold lateCheck; simp [hs, hp, hr, hl]
      rw [e]
      refine ⟨by simpa using hb, fun _ h => ?_⟩
      obtain ⟨_, _, _, _, h, _⟩ := h
      exact absurd h (by simp)
    | some line =>
      have e : lateCheck s = checkLate r b line s := by
        unfold lateCheck; simp [hs, hp, hr, hl, hb]
      rw [e]
      have hf : s.foundLate b line = (!b.late && decide (s.tracker.state = .locked ∧ 1 ≤ b.written ∧ b.entries ≠ [] ∧
            ∃ l, some line = some l ∧ s.timing.firstLine + b.firstRow ≤ l ∧
              l ≤ s.timing.firstLine + b.lastRow)) := by
        unfold State.foundLate inBand State.firstLineOf State.lastLineOf
        rw [Bool.eq_iff_iff]
        simp [hs]
        tauto
      unfold checkLate
      rw [hf]
      by_cases hc : s.tracker.state = .locked ∧ 1 ≤ b.written ∧ b.entries ≠ [] ∧
            ∃ l, some line = some l ∧ s.timing.firstLine + b.firstRow ≤ l ∧
              l ≤ s.timing.firstLine + b.lastRow
      · cases hlate : b.late with
        | true => 
          simp only [Bool.not_true, Bool.false_and, Bool.false_eq_true, if_false, Bool.true_or]
          refine ⟨?_, fun h => absurd h (by simp)⟩
          rw [hb, ← hlate]
        | false =>
          rw [decide_eq_true hc]
          simp only [Bool.not_false, Bool.and_self, if_true, Bool.or_true]
          refine ⟨?_, fun _ _ => ?_⟩
          · show (s.setRecord r _).records[r.val] = _
            rw [setRecord_get, if_pos rfl]
          · have := handIncident_handed (s.lateIncident b line) (s.setRecord r (some { b with late := true }))
            exact this.congr rfl rfl
      · simp only [hc, decide_false, Bool.and_false, Bool.false_eq_true, if_false, Bool.or_false]
        exact ⟨hb, fun _ h => absurd h (by simpa using hc)⟩
  · have e : lateCheck s = s := by
      unfold lateCheck; simp [hs]
    rw [e]
    refine ⟨by simpa [hs] using hb, fun _ h => absurd h.1 hs⟩

theorem reexamine_late (w : Work) (q : RecordIdx) (b : BatchRecord) (h : w.st.records[q.val] = some b) :
    ∃ b', (reexamine w).st.records[q.val] = some b' ∧ b'.late = b.late ∧ b'.ground = b.ground := by
  have base : ∃ b', w.st.records[q.val] = some b' ∧ b'.late = b.late ∧ b'.ground = b.ground := ⟨b, h, rfl, rfl⟩
  unfold reexamine
  split
  · split
    · rename_i a m d _
      unfold reclassify
      split
      · show ∃ b', (sendDirect a m d w.st).records[q.val] = some b' ∧ _
        rw [sendDirect_records]; exact base
      · rename_i W _
        have h1 : ∃ b', (w.map fun s => completeUpstream none (storeHeld W a m d s)).st.records[q.val] = some b' ∧ b'.late = b.late ∧ b'.ground = b.ground := by
          show ∃ b', (storeHeld W a m d w.st).records[q.val] = some b' ∧ _
          unfold storeHeld
          split
          · exact base
          · rename_i r hr
            show ∃ b', (w.st.setRecord r _).records[q.val] = some b' ∧ _
            rw [setRecord_get]
            split
            · rename_i hrq
              subst hrq
              have h' : w.st.records[r] = some b := h
              refine ⟨_, rfl, ?_⟩
              rw [h']
              unfold addHeld BatchRecord.add
              dsimp only
              split <;> exact ⟨rfl, rfl⟩
            · exact base
        obtain ⟨b1, e1, e2, e3⟩ := h1
        unfold storeWrite commitSeal
        split
        · obtain ⟨b2, f0, _, _, f3, f4, _⟩ := sealOpen_record W _ q b1 e1
          exact ⟨b2, f0, f3.trans e2, f4.trans e3⟩
        · exact ⟨b1, e1, e2, e3⟩
      · exact base
    · exact base
    · exact base
  · exact base

theorem reexamine_engine (w : Work) (h : NoClaimWaitsInFree w.st) : (reexamine w).st.engine = w.st.engine := by
  unfold reexamine
  split
  · split
    · rename_i a m d _
      unfold reclassify
      split
      · show (sendDirect a m d w.st).engine = _
        unfold sendDirect
        rw [sendUpstream_eq _ _ _ _ h]; rfl
      · simp
      · rfl
    · rfl
    · rfl
  · rfl

theorem settle_busy (w : Work) (q : RecordIdx) (b : BatchRecord) (h : w.st.records[q.val] = some b) (hn : NoClaimWaitsInFree w.st)
    (hp : w.st.engine.phase ≠ .idle) :
    (∃ b', (settle w).records[q.val] = some b' ∧ b'.late = b.late ∧ b'.ground = b.ground) ∧ (settle w).engine = w.st.engine := by
  obtain ⟨v, hv, e⟩ := settle_ends w
  have h1 : (∃ b', v.st.records[q.val] = some b' ∧ b'.late = b.late ∧ b'.ground = b.ground) ∧ v.st.engine = w.st.engine := by
    rcases hv with rfl | rfl
    · exact ⟨⟨b, h, rfl, rfl⟩, rfl⟩
    · exact ⟨reexamine_late w q b h, reexamine_engine w hn⟩
  have e2 : settle w = v.st := by
    rcases e with e | e
    · exact e
    · rw [e, evaluate_busy _ (by rw [h1.2]; exact hp)]
  rw [e2]
  exact h1

theorem requestEntry_start (s : State) (e : Entry) (rest : List Entry) :
    (s.port.phase ≠ .free → (requestEntry (e :: rest) s).engine.write = .waiting ∧ (requestEntry (e :: rest) s).port.releaseClaim = some (.entryWrite e.addr e.lanes e.data)) ∧
    (s.port.phase = .free → s.port.upstreamClaim = none → (requestEntry (e :: rest) s).engine.write = .inFlight ∧ (requestEntry (e :: rest) s).port.phase = .busy ∧
       (requestEntry (e :: rest) s).port.transaction = some (.entryWrite e.addr e.lanes e.data)) := by
  unfold requestEntry
  dsimp only
  refine ⟨fun h => ?_, fun h hu => ?_⟩
  · rw [placeRelease_busy _ _ h]; exact ⟨rfl, rfl⟩
  · rw [placeRelease_free _ _ h hu]; exact ⟨rfl, rfl, rfl⟩

theorem choice_eq (s : State) (r : RecordIdx) (b : BatchRecord) (hb : s.records[r] = some b) (hc : r ∈ s.candidates) (he : s.eligible r = true)
    (h1 : b.mark = none → ∀ q ∈ s.candidates, s.eligible q = true → s.unmarked q = true)
    (h2 : ∀ q ∈ s.candidates, q ≠ r → s.eligible q = true → (b.mark ≠ none → s.unmarked q = false) →
       olderOrdinal (s.ordinalOf r) (s.ordinalOf q) = true) : s.choice = some r := by
  unfold State.choice
  dsimp only
  have hmem : r ∈ s.candidates.filter s.eligible := List.mem_filter.mpr ⟨hc, he⟩
  have hun : s.unmarked r = b.mark.isNone := by
    unfold State.unmarked
    rw [hb]; rfl
  cases hm : b.mark with
  | none =>
    have : (s.candidates.filter s.eligible).filter (fun r => !s.unmarked r) = [] := by
      rw [List.filter_eq_nil_iff]
      intro q hq
      rw [List.mem_filter] at hq
      rw [h1 hm q hq.1 hq.2]; simp
    rw [this]
    simp only [List.isEmpty_nil, if_true]
    apply oldest_eq _ _ _ hmem
    intro q hq hne
    rw [List.mem_filter] at hq
    exact h2 q hq.1 hne hq.2 (fun h => absurd hm h)
  | some x =>
    have hr : r ∈ (s.candidates.filter s.eligible).filter (fun r => !s.unmarked r) := by
      rw [List.mem_filter]
      exact ⟨hmem, by rw [hun, hm]; rfl⟩
    rw [if_neg]
    · apply oldest_eq _ _ _ hr
      intro q hq hne
      rw [List.mem_filter, List.mem_filter] at hq
      exact h2 q hq.1.1 hne hq.1.2 (fun _ => by simpa using hq.2)
    · rw [List.isEmpty_iff]
      intro h
      rw [h] at hr
      simp at hr

theorem reexamine_timer (w : Work) : (reexamine w).st.upstream.phase ≠ .wait ∨ (reexamine w).st.upstream.stallTimer = w.st.upstream.stallTimer := by
  unfold reexamine
  split
  · split
    · rename_i a m d _
      unfold reclassify
      split
      · left
        show (sendDirect a m d w.st).upstream.phase ≠ .wait
        rw [sendDirect_upstream]
        simp
      · left
        unfold storeWrite
        rw [commitSeal_upstream]
        simp [Work.map, completeUpstream]
      · exact .inr rfl
    · exact .inr rfl
    · exact .inr rfl
  · exact .inr rfl

theorem settle_timer (w : Work) (h : (settle w).upstream.phase = .wait) (_ : w.st.upstream.phase = .wait) : (settle w).upstream.stallTimer = w.st.upstream.stallTimer := by
  obtain ⟨v, hv, e⟩ := settle_ends w
  have hu : (settle w).upstream = v.st.upstream := by
    rcases e with e | e
    · rw [e]
    · rw [e, evaluate_upstream]
  rw [hu] at h ⊢
  rcases hv with rfl | rfl
  · rfl
  · rcases reexamine_timer w with k | k
    · exact absurd h k
    · exact k

theorem expire_pending (s : State) (h : s.upstream.phase = .wait) (ht : s.upstream.stallTimer = some 0) :
    stallDue (supervisionDue s) = (if (supervisionDue s).upstream.phase == .wait && (supervisionDue s).upstream.stallTimer.isSome then expireStall (supervisionDue s) else supervisionDue s) := by
  have key : (supervisionDue s).upstream.phase = .wait → (supervisionDue s).upstream.stallTimer = some 0 := by
    intro hp
    unfold supervisionDue at hp ⊢
    split
    · rename_i hr
      rw [if_pos hr] at hp
      unfold expireSupervision at hp ⊢
      have h1 := settle_timer _ hp (by simpa [Work.start, Work.tell] using h)
      rw [h1]
      simpa [Work.start, Work.tell] using ht
    · exact ht
  unfold stallDue runsOut
  by_cases hp : (supervisionDue s).upstream.phase = .wait
  · rw [key hp]; simp [hp]
  · simp [hp]

theorem ofFn_windows (s : State) (f : WindowIdx → WindowState → WindowState) (W : WindowIdx) :
    (s.mapWindows f).windows[W.val] = f W s.windows[W.val] := by
  unfold State.mapWindows
  simp

theorem classify_not_held_draining {s : State} (h : s.mode = .draining ∨ s.mode = .bypass) (a : Addr) (V : WindowIdx) : s.classify a ≠ .held V := by
  unfold State.classify
  rcases h with h | h <;> rw [h]
  · cases coherentWindow s.live a with
    | none => simp
    | some W => dsimp only; split <;> [skip; split] <;> simp
  · simp

theorem classify_not_held_closing {s : State} (V : WindowIdx) (h : s.windows[V.val].closing = true) (a : Addr) : s.classify a ≠ .held V := by
  unfold State.classify
  cases s.mode with
  | bypass => simp
  | active =>
    dsimp only
    cases coherentWindow s.live a with
    | none => simp
    | some W =>
      dsimp only
      by_cases hW : W = V
      · subst hW; simp [h]
      · split
        · simp
        · split
          · intro hc; exact hW (by injection hc)
          · simp
  | draining =>
    dsimp only
    cases coherentWindow s.live a with
    | none => simp
    | some W => dsimp only; split <;> [skip; split] <;> simp

theorem closingEmpty_iff (s : State) : s.closingEmpty = true ↔ ∀ W : WindowIdx, s.windows[W.val].closing = true → s.hasBatch W = false := by
  unfold State.closingEmpty
  rw [List.all_eq_true]
  simp only [Bool.or_eq_true, Bool.not_eq_true', Fin.getElem_fin]
  constructor
  · intro h W hW
    rcases h W (by simp) with h | h
    · rw [hW] at h; exact absurd h (by simp)
    · exact h
  · intro h W _
    cases hc : s.windows[W.val].closing with
    | false => exact .inl rfl
    | true => exact .inr (h W hc)

theorem installed (w : Work) (t : State) (ht : t = settle (completeApply w)) : AppliedIn w.st t := by
  subst ht
  refine ⟨?_, ?_, fun W => ?_, ?_⟩
  · rw [settle_live]; rfl
  · rw [settle_applyPending]; rfl
  · simp only [Fin.getElem_fin]
    rw [(settle_counters _ W).2.2]
    show (installStaged w.st).windows[W.val].closing = _
    rw [installStaged_window]
  · apply settle_flag
    exact handFlag_self _ _

theorem lateCheck_windowOf (s : State) (q : RecordIdx) :
    ((lateCheck s).records[q.val].map fun b => b.window) = s.records[q.val].map fun b => b.window := by
  unfold lateCheck
  split
  · split
    · rename_i r _ _ _
      split
      · rfl
      · rename_i b hb
        unfold checkLate
        split
        · show ((State.setRecord s r _).records[q.val].map _) = _
          rw [setRecord_get]
          split
          · rename_i hq
            subst hq
            simp only [Fin.getElem_fin] at hb
            rw [hb]; rfl
          · rfl
        · rfl
    · rfl
  · rfl

theorem lineEvent_hasBatch (s : State) (W : WindowIdx) : (lineEvent s).st.hasBatch W = s.hasBatch W := by
  unfold lineEvent idleEvent
  rw [sealAll_hasBatch, hasBatch_eq, hasBatch_eq]
  have e1 : ((Work.start (lateCheck s)).tell.map countIdle).st.windows[W.val] = { s.windows[W.val] with idle := idleAfter s.windows[W.val].idle } := by
    show ((lateCheck s).mapWindows fun _ d => { d with idle := idleAfter d.idle }).windows[W.val] = _
    rw [ofFn_windows]
    simp only [Fin.getElem_fin, lateCheck_windows]
  have e2 : ((Work.start (lateCheck s)).tell.map countIdle).st.releasingOf W = s.releasingOf W := by
    apply releasingOf_congr
    · show (lateCheck s).engine.releasing = _
      rw [lateCheck_engine]
    · intro q
      exact lateCheck_windowOf s q
  rw [e1, e2]

theorem sealAll_recordsInUse (Ws : List WindowIdx) (w : Work) : (∀ r : RecordIdx, w.st.records[r.val] = none) ↔ (∀ r : RecordIdx, (sealAll Ws w).st.records[r.val] = none) := by
  have h : ∀ r : RecordIdx, ((sealAll Ws w).st.records[r.val].map fun b => b.window) = w.st.records[r.val].map fun b => b.window := by
    intro r
    induction Ws generalizing w with
    | nil => rfl
    | cons V Ws ih => rw [sealAll_cons, ih, sealOpen_windowOf]
  constructor
  · intro h1 r
    have := h r
    rw [h1 r] at this
    simpa using this
  · intro h1 r
    have := h r
    rw [h1 r] at this
    simpa using this.symm

theorem completeDrain_installs (w : Work) (h : w.st.applyPending = true) :
    (completeDrain w).st.live = w.st.staged ∧ (completeDrain w).st.applyPending = false ∧
      (∀ W : WindowIdx, (completeDrain w).st.windows[W.val].closing = false) ∧ (completeDrain w).st.flagSet .applied = true := by
  have e : completeDrain w = (completeApply (changeMode .bypass w)).map (handFlag .drained) := by
    unfold completeDrain applyAtBypass
    have : (changeMode .bypass w).st.applyPending = true := h
    rw [if_pos this]
  rw [e]
  refine ⟨rfl, rfl, fun W => ?_, ?_⟩
  · show (installStaged (changeMode .bypass w).st).windows[W.val].closing = _
    rw [installStaged_window]
  · exact handFlag_keeps (installStaged (changeMode .bypass w).st) .applied .drained (handFlag_self _ _)

theorem completeDrain_keeps (w : Work) (h : w.st.applyPending = false) : (completeDrain w).st.live = w.st.live := by
  have e : completeDrain w = (changeMode .bypass w).map (handFlag .drained) := by
    unfold completeDrain applyAtBypass
    have : (changeMode .bypass w).st.applyPending = false := h
    rw [if_neg (by rw [this]; simp)]
  rw [e]
  rfl

theorem openNone (s : State) (ho : OpenInUse s) (h : ∀ r : RecordIdx, s.records[r.val] = none) (W : WindowIdx) : s.windows[W.val].openBatch = none := by
  cases hw : s.windows[W.val].openBatch with
  | none => rfl
  | some r => exact absurd (h r) (ho W r hw)

theorem sendDirect_noRelease (a : Addr) (m : Lanes) (d : Word) (s : State) (h : s.port.releaseClaim = none) :
    (sendDirect a m d s).engine = s.engine ∧ (sendDirect a m d s).port.releaseClaim = none ∧ (s.port.passedOver = 0 → (sendDirect a m d s).port.passedOver = 0) := by
  unfold sendDirect sendUpstream
  by_cases hp : s.port.phase = .free
  · rw [placeUpstream_free _ _ (by simpa using hp) (by simpa using h)]
    exact ⟨rfl, rfl, fun _ => rfl⟩
  · rw [placeUpstream_busy _ _ (by simpa using hp)]
    exact ⟨rfl, h, fun h => h⟩

theorem settle_bypass (w : Work) (hm : w.st.mode = .bypass) (hr : ∀ r : RecordIdx, w.st.records[r.val] = none) (hc : w.st.port.releaseClaim = none) :
    (settle w).engine = w.st.engine ∧ (settle w).port.releaseClaim = none ∧ (w.st.port.passedOver = 0 → (settle w).port.passedOver = 0) ∧
    (settle w).records = w.st.records ∧ (settle w).windows = w.st.windows ∧ (settle w).sealOrdinal = w.st.sealOrdinal ∧ (settle w).incidents = w.st.incidents ∧
    (w.st.upstream.phase ≠ .wait → (settle w) = w.st) := by
  obtain ⟨v, hv, e⟩ := settle_ends w
  have key : v.st.engine = w.st.engine ∧ v.st.port.releaseClaim = none ∧ (w.st.port.passedOver = 0 → v.st.port.passedOver = 0) ∧ v.st.records = w.st.records ∧ v.st.windows = w.st.windows ∧ v.st.sealOrdinal = w.st.sealOrdinal ∧ v.st.incidents = w.st.incidents ∧
    (w.st.upstream.phase ≠ .wait → v.st = w.st) := by
    rcases hv with rfl | rfl
    · exact ⟨rfl, hc, id, rfl, rfl, rfl, rfl, fun _ => rfl⟩
    · by_cases hw : w.st.upstream.phase = .wait
      · unfold reexamine
        rw [if_pos (by simpa using hw)]
        split
        · rename_i a m d _
          unfold reclassify
          rw [classify_bypass hm a]
          have h3 := sendDirect_noRelease a m d w.st hc
          exact ⟨h3.1, h3.2.1, h3.2.2, sendDirect_records .., sendDirect_windows .., sendDirect_sealOrdinal .., sendDirect_incidents .., fun h => absurd hw h⟩
        · exact ⟨rfl, hc, id, rfl, rfl, rfl, rfl, fun _ => rfl⟩
        · exact ⟨rfl, hc, id, rfl, rfl, rfl, rfl, fun _ => rfl⟩
      · rw [reexamine_idle w hw]
        exact ⟨rfl, hc, id, rfl, rfl, rfl, rfl, fun _ => rfl⟩
  have e2 : settle w = v.st := by
    rcases e with e | e
    · exact e
    · rw [e]; exact evaluate_empty _ (fun r => by rw [key.2.2.2.1]; exact hr r)
  rw [e2]
  exact key

theorem evaluate_seal (w : Work) (hr : w.reported = false) (V : WindowIdx) : (settle w).windows[V.val].openBatch = w.st.windows[V.val].openBatch ∧
      (settle w).windows[V.val].lastSealed = w.st.windows[V.val].lastSealed :=
  settle_seal w V (fun h => absurd (hr.symm.trans h) (by simp))

theorem sealNamed_windows (s : State) (Ws : List WindowIdx) (hn : Ws.Nodup) (ho : OpenInUse s) (W : WindowIdx) :
    (W ∈ Ws → (sealAll Ws (Work.start s)).st.windows[W.val].openBatch = none ∧ (sealAll Ws (Work.start s)).st.windows[W.val].lastSealed =
      (if s.windows[W.val].openBatch = none then s.windows[W.val].lastSealed else s.windows[W.val].lastSealed + 1)) ∧
    (W ∉ Ws → (sealAll Ws (Work.start s)).st.windows[W.val] = s.windows[W.val]) := by
  refine ⟨fun hW => ?_, fun hW => sealAll_window_other Ws W _ hW⟩
  apply sealAll_sealed Ws W (Work.start s) hn hW
  intro r hr
  have := ho W r hr
  simp only [Fin.getElem_fin] at this
  exact Option.isSome_iff_ne_none.mpr this

theorem sealOpen_mark (V : WindowIdx) (w : Work) (q : RecordIdx) (b : BatchRecord) (h : w.st.records[q.val] = some b) :
    ∃ b', (sealOpen V w).st.records[q.val] = some b' ∧ b'.entries = b.entries ∧ ∀ x, b.mark = some x → b'.mark = some x := by
  cases ho : w.st.windows[V].openBatch with
  | none => exact ⟨b, by rwa [sealOpen_none V w ho], rfl, fun _ h => h⟩
  | some r =>
    cases hb : w.st.records[r] with
    | none => exact ⟨b, by rwa [sealOpen_free V w r ho hb], rfl, fun _ h => h⟩
    | some c =>
      obtain ⟨m, hg⟩ := sealOpen_get V w r c ho hb
      by_cases hr : r = q
      · subst hr
        have : c = b := Option.some.inj (hb.symm.trans h)
        subst this
        refine ⟨_, by rw [hg r, if_pos rfl]; rfl, ?_⟩
        split
        · exact ⟨rfl, fun x hx => by simp [sealedBatch, hx]⟩
        · exact ⟨rfl, fun x hx => hx⟩
      · refine ⟨_, by rw [hg q, if_neg hr, h]; rfl, ?_⟩
        split
        · exact ⟨rfl, fun x hx => by simp [hx]⟩
        · exact ⟨rfl, fun x hx => hx⟩

theorem sealAll_mark (Ws : List WindowIdx) (w : Work) (q : RecordIdx) (b : BatchRecord) (h : w.st.records[q.val] = some b) :
    ∃ b', (sealAll Ws w).st.records[q.val] = some b' ∧ b'.entries = b.entries ∧ ∀ x, b.mark = some x → b'.mark = some x := by
  induction Ws generalizing w b with
  | nil => exact ⟨b, h, rfl, fun _ h => h⟩
  | cons V Ws ih =>
    obtain ⟨c, h1, h2, h3⟩ := sealOpen_mark V w q b h
    obtain ⟨d, k1, k2, k3⟩ := ih _ c h1
    exact ⟨d, by rw [sealAll_cons]; exact k1, k2.trans h2, fun x hx => k3 x (h3 x hx)⟩

theorem sealOpen_queue (V W : WindowIdx) (w : Work) (r : RecordIdx) (h : r ∈ w.st.windows[W.val].sealedQueue) : r ∈ (sealOpen V w).st.windows[W.val].sealedQueue := by
  cases ho : w.st.windows[V].openBatch with
  | none => rwa [sealOpen_none V w ho]
  | some q =>
    cases hb : w.st.records[q] with
    | none => rwa [sealOpen_free V w q ho hb]
    | some b =>
      rw [sealOpen_windows V w q b ho hb, windows_set_get]
      split
      · rename_i hV
        subst hV
        exact List.mem_append_left _ h
      · exact h

theorem sealAll_queue (Ws : List WindowIdx) (W : WindowIdx) (w : Work) (r : RecordIdx) (h : r ∈ w.st.windows[W.val].sealedQueue) : r ∈ (sealAll Ws w).st.windows[W.val].sealedQueue := by
  induction Ws generalizing w with
  | nil => exact h
  | cons V Ws ih => rw [sealAll_cons]; exact ih _ (sealOpen_queue V W w r h)

/-! ## The length of the incident queue -/

theorem handIncident_queue (i : Incident) (s : State) : (handIncident i s).incidents.queue.length ≤ s.incidents.queue.length + 1 := by
  show (queueIncident i s.incidents).queue.length ≤ _
  unfold queueIncident
  split <;> simp

theorem reportGeometry_queue (b : Bool) (k : Tracker) (s : State) :
    (reportGeometry b k s).incidents.queue.length ≤ s.incidents.queue.length + 1 := by
  unfold reportGeometry
  split
  · exact handIncident_queue _ _
  · exact Nat.le_succ _

theorem reportLock_queue (b : Bool) (s : State) : (reportLock b s).incidents.queue = s.incidents.queue := by
  unfold reportLock
  split <;> rfl

theorem trackLine_queue (s : State) : (trackLine s).incidents.queue.length ≤ s.incidents.queue.length + 1 := by
  unfold trackLine
  split
  · exact Nat.le_succ _
  · exact reportGeometry_queue _ _ _

theorem trackFrame_queue (s : State) : (trackFrame s).incidents.queue.length ≤ s.incidents.queue.length + 1 := by
  unfold trackFrame
  split
  · exact Nat.le_succ _
  · rw [reportLock_queue]
    exact reportGeometry_queue _ _ _

end Sys2Proof.Machine
end

