-- ==== Sys2Proof/Laws/KeepsStore.lean ====
section
/-! SUPPORT. The laws of the memory, of the store and of its batches: each is kept by every elementary change of `Change`. -/

namespace Sys2Proof.Machine

theorem change_memoryCanonical {s t : State} (hc : Change s t) (h : MemoryCanonical s) : MemoryCanonical t := by
  unfold MemoryCanonical at *
  cases hc
  case acknowledge c hc hk => exact Claim.store_wf _ _ _ h
  case completeSent c a hc hk => exact Claim.store_wf _ _ _ h
  case drained w hm he hw => subst hw; simpa using h
  case discard w hw => simp [hw, h]
  all_goals first | exact h | simpa using h

theorem reset_memoryCanonical {c : Instr} {s t : State} (hc : isReset c = true) (h : MemoryCanonical s) (hs : exec c s = .next t) :
    MemoryCanonical t := by
  cases c <;> simp [isReset] at hc
  · injection hs with hs; subst hs
    show (cutTransaction s).memory.wf = true
    unfold cutTransaction; split
    · exact h
    · exact Claim.store_wf _ _ _ h
  · injection hs with hs; subst hs; split <;> exact h

theorem addHeld_len (b : Option BatchRecord) (W row a m d) :
   (recordEntries (some (addHeld b W row a m d))).length ≤ (recordEntries b).length + 1 := by
  unfold addHeld; split
  · unfold BatchRecord.add; split <;> simp [recordEntries]
  · simp [recordEntries, openedBatch]

theorem storeHeld_records {W : WindowIdx} {a : Addr} {m : Lanes} {d : Word} {s : State} {r} (h : s.storeTarget W = some r) :
  (storeHeld W a m d s).records = s.records.set r.val (some (addHeld s.records[r.val] W (s.live[W].screenRow a) a m d)) r.isLt := by
  unfold storeHeld; rw [h]; rfl
theorem change_atMost1024Entries {s t : State} (hc : Change s t) (h : AtMost1024Entries s) : AtMost1024Entries t := by
  unfold AtMost1024Entries at *
  cases hc
  case store W a m d hm hu hW hcl hst =>
    cases hr : s.storeTarget W with
    | none => unfold storeHeld; rw [hr]; exact h
    | some r =>
      have key := occupancy_of_set (storeHeld_records (a := a) (m := m) (d := d) hr)
      have hl := addHeld_len s.records[r.val] W (s.live[W].screenRow a) a m d
      by_cases hs : s.occupancy < 1024
      · omega
      · unfold State.canStore at hst
        have hsf : s.slotFree = false := decide_eq_false (by unfold Config.slots; exact hs)
        rw [hsf] at hst
        unfold State.storeTarget at hr
        split at hst
        · rename_i r' hr'
          rw [hr'] at hr
          simp at hr; subst hr
          simp only [Bool.or_false] at hst
          cases hb : s.records[r'] with
          | none => rw [hb] at hst; simp at hst
          | some b =>
            rw [hb] at hst; simp only [Option.any_some] at hst
            have : (recordEntries (some (addHeld (some b) W (s.live[W].screenRow a) a m d))).length = (recordEntries (some b)).length := by
              simp [addHeld, BatchRecord.add, hst, recordEntries]
            have e : s.records[r'.val] = some b := hb
            rw [e] at key
            omega
        · simp at hst
  case sealBatch W r b ho hb =>
    have key := occupancy_of_set (s := s) (t := sealRecord W r b s) rfl
    have e : s.records[r.val] = some b := hb
    rw [e] at key
    simp only [recordEntries] at key
    omega
  case mark reason r =>
    have key := occupancy_of_set (s := s) (t := markRecord reason r s) rfl
    have e : (recordEntries (s.records[r].map fun b => b.force reason)).length = (recordEntries s.records[r.val]).length := by
      show _ = (recordEntries s.records[r]).length
      cases s.records[r] <;> rfl
    omega
  case start r b hi hc hb =>
    have key := occupancy_of_set (s := s) (t := takeBatch r b s) rfl
    have e : s.records[r.val] = some b := hb
    rw [e] at key
    simp only [recordEntries] at key
    omega
  case late r b hre hb =>
    have key := occupancy_of_set (s := s) (t := s.setRecord r (some { b with late := true })) rfl
    have e : s.records[r.val] = some b := hb
    rw [e] at key
    simp only [recordEntries] at key
    omega
  case removeEntry r b hp hw hr hb =>
    have key := occupancy_of_set (s := s) (t := removeEntry r b s) rfl
    have e : s.records[r.val] = some b := hb
    rw [e] at key
    simp only [recordEntries, List.length_tail] at key
    omega
  case retire r b hp hw hr hb =>
    have key := occupancy_of_set (s := s) (t := retireRecord r b s) rfl
    simp only [recordEntries, List.length_nil] at key
    omega
  case restart => rw [occupancy_eq_zero_of_free (by intro r; simp)]; omega
  case discard w hw => rw [occupancy_eq_zero_of_free (by intro r; simp [hw])]; omega
  case drained hm w he hw => subst hw; rw [occupancy_congr (s := he.st) (by simp)]; exact h
  all_goals first
    | exact h
    | (rw [occupancy_congr (s := s) (by simp)]; exact h)

theorem reset_atMost1024Entries {c : Instr} {s t : State} (hc : isReset c = true) (h : AtMost1024Entries s) (hs : exec c s = .next t) :
    AtMost1024Entries t := by
  cases c <;> simp [isReset] at hc
  · injection hs with hs; subst hs
    unfold AtMost1024Entries
    rw [occupancy_eq_zero_of_free (by intro r; simp [assertReset, State.reset])]; omega
  · injection hs with hs; subst hs; split <;> exact h

theorem addHeld_nodup (b : Option BatchRecord) (W row a m d) (h : ∀ b', b = some b' → (b'.entries.map Entry.addr).Nodup) :
   ((addHeld b W row a m d).entries.map Entry.addr).Nodup := by
  unfold addHeld; split
  · rename_i b
    have hn := h b rfl
    unfold BatchRecord.add; split
    · have : (List.map (fun e => if (e.addr == a) = true then Entry.coalesce e m d else e) b.entries).map Entry.addr = b.entries.map Entry.addr := by
        rw [List.map_map]; apply List.map_congr_left; intro e he
        simp only [Function.comp]; split <;> simp [Entry.coalesce]
      show (List.map Entry.addr (List.map (fun e => if (e.addr == a) = true then Entry.coalesce e m d else e) b.entries)).Nodup
      rw [this]; exact hn
    · rename_i hf
      simp only [List.map_append, List.map_cons, List.map_nil]
      rw [List.nodup_append]
      refine ⟨hn, by simp, ?_⟩
      intro x hx y hy
      simp at hy; subst hy
      rw [List.mem_map] at hx
      obtain ⟨e, he, rfl⟩ := hx
      intro hh
      apply hf
      unfold BatchRecord.find
      rw [List.find?_isSome]
      exact ⟨e, he, by simp [hh]⟩
  · simp [openedBatch]

theorem change_noWordTwice {s t : State} (hc : Change s t) (h : NoWordTwice s) : NoWordTwice t := by
  have set1 : ∀ {t : State} {r : RecordIdx} {b : Option BatchRecord}, t.records = s.records.set r.val b r.isLt →
      (∀ b', b = some b' → (b'.entries.map Entry.addr).Nodup) → NoWordTwice t := by
    intro t r b ht hb q b' hq
    have hq' : t.records[q.val] = some b' := hq
    simp only [ht, records_set_get] at hq'
    split at hq'
    · exact hb _ hq'
    · exact h q b' hq'
  cases hc
  case store W a m d hm hu hW hcl hst =>
    unfold storeHeld
    split
    · exact h
    · rename_i r hr
      refine set1 (r := r) rfl ?_
      intro b' hb'; injection hb' with hb'; subst hb'
      exact addHeld_nodup _ _ _ _ _ _ (fun b' hb => h r b' hb)
  case sealBatch W r b ho hb => exact set1 (sealRecord_records ..) (by intro b' hb'; injection hb' with hb'; subst hb'; exact h r b hb)
  case mark reason r =>
    refine set1 (markRecord_records ..) ?_
    intro b' hb'
    rw [Option.map_eq_some_iff] at hb'
    obtain ⟨b, hb, rfl⟩ := hb'
    exact h r b hb
  case start r b hi hc hb => exact set1 (takeBatch_records ..) (by intro b' hb'; injection hb' with hb'; subst hb'; exact h r b hb)
  case late r b hre hb => exact set1 (setRecord_records ..) (by intro b' hb'; injection hb' with hb'; subst hb'; exact h r b hb)
  case removeEntry r b hp hw hr hb => 
    exact set1 (removeEntry_records ..) (by
      intro b' hb'; injection hb' with hb'; subst hb'
      have := h r b hb
      simp only [List.map_tail]
      exact this.tail)
  case retire r b hp hw hr hb => exact set1 (retireRecord_records ..) (by intro b' hb'; exact absurd hb' (by simp))
  case restart => intro r b hb; simp at hb
  case discard w hw => intro r b hb; simp [hw] at hb
  case drained hm w he hw => subst hw; intro r b hb; simp at hb; exact h r b hb
  all_goals first
    | exact h
    | (intro r b hb; simp at hb; exact h r b hb)

theorem reset_noWordTwice {c : Instr} {s t : State} (hc : isReset c = true) (h : NoWordTwice s) (hs : exec c s = .next t) :
    NoWordTwice t := by
  cases c <;> simp [isReset] at hc
  · injection hs with hs; subst hs
    intro r b hb; simp [assertReset, State.reset] at hb
  · injection hs with hs; subst hs; split <;> exact h


def BH (s : State) : Prop := s.mode = .bypass → ∀ r : RecordIdx, s.records[r.val] = none
theorem BH_iff (s) : BypassHoldsNothing s ↔ BH s := by
  unfold BypassHoldsNothing BH
  constructor
  · intro h hm; exact recordsInUse_eq_zero.mp (h hm).2
  · intro h hm; exact ⟨occupancy_eq_zero_of_free (h hm), recordsInUse_eq_zero.mpr (h hm)⟩

theorem BH_change (s t : State) (hc : Change s t) (h : BH s) : BH t := by
  cases hc
  case store W a m d hm hu hW hcl hst => intro hm'; rw [storeHeld_mode, hm] at hm'; exact absurd hm' (by simp)
  case sealBatch W r b ho hb => intro hm; exact absurd (h hm r) (by intro e; rw [show s.records[r] = s.records[r.val] from rfl, e] at hb; simp at hb)
  case mark reason r =>
    intro hm q
    have hm : s.mode = .bypass := hm
    simp only [markRecord_records, records_set_get]
    split
    · have := h hm r
      simp [this]
    · exact h hm q
  case start r b hi hcc hb => intro hm; have := h hm r; rw [Fin.getElem_fin, this] at hb; simp at hb
  case late r b hre hb =>  intro hm; have := h hm r; rw [Fin.getElem_fin, this] at hb; simp at hb
  case removeEntry r b hp hw hr hb => intro hm; have := h hm r; rw [Fin.getElem_fin, this] at hb; simp at hb
  case retire r b hp hw hr hb => intro hm; have := h hm r; rw [Fin.getElem_fin, this] at hb; simp at hb
  case drained hm w he hw => subst hw; intro _ r; simpa using storeEmpty_iff.mp (by assumption) r
  case mode m hm _ => intro h'; exact absurd h' hm
  case discard w hw => intro _ r; simp [hw]
  case restart => intro _ r; simp
  all_goals first
    | exact h
    | (intro hm r; simp at hm ⊢; exact h hm r)

/-- BYPASS holds nothing, said of the records alone. -/
theorem change_bypassHoldsNothing {s t : State} (hc : Change s t) (h : BypassHoldsNothing s) : BypassHoldsNothing t :=
  (BH_iff t).mpr (BH_change s t hc ((BH_iff s).mp h))

theorem reset_bypassHoldsNothing {c : Instr} {s t : State} (hc : isReset c = true) (h : BypassHoldsNothing s)
    (hs : exec c s = .next t) : BypassHoldsNothing t := by
  rw [BH_iff] at *
  cases c <;> simp [isReset] at hc
  · injection hs with hs; subst hs; intro _ r; simp [assertReset, State.reset]
  · injection hs with hs; subst hs; split <;> exact h

theorem change_oneReleasing {s t : State} (hc : Change s t) (h : OneReleasing s) : OneReleasing t := by
  obtain ⟨h1, h2⟩ := h
  have set1 : ∀ {t : State} {r : RecordIdx} {b : Option BatchRecord}, t.records = s.records.set r.val b r.isLt → t.engine.releasing = s.engine.releasing →
      (∀ b', b = some b' → b'.state = .releasing → s.engine.releasing = some r) → ∀ (r : RecordIdx) (b : BatchRecord), t.records[r] = some b → b.state = .releasing → t.engine.releasing = some r := by
    intro t r b ht he hb q b' hq hst
    have hq' : t.records[q.val] = some b' := hq
    simp only [ht, records_set_get] at hq'
    rw [he]
    split at hq'
    · rename_i e; subst e; exact hb _ hq' hst
    · exact h1 q b' hq' hst
  have allNone : ∀ {t : State}, (∀ r : RecordIdx, t.records[r.val] = none) → ∀ (r : RecordIdx) (b : BatchRecord), t.records[r] = some b → b.state = .releasing → t.engine.releasing = some r := by
    intro t ht r b hb; rw [Fin.getElem_fin, ht r] at hb; simp at hb
  cases hc
  case store W a m d hm hu hW hcl hst =>
    refine ⟨?_, by simpa using h2⟩
    unfold storeHeld
    split
    · exact h1
    · rename_i r hr
      refine set1 (r := r) rfl rfl ?_
      intro b' hb' hs'; injection hb' with hb'; subst hb'
      unfold addHeld at hs'
      split at hs'
      · rename_i b hb
        refine h1 r b hb ?_
        unfold BatchRecord.add at hs'; split at hs' <;> exact hs'
      · simp [openedBatch] at hs'
  case sealBatch W r b ho hb =>
    exact ⟨set1 (sealRecord_records ..) (by simp) (by intro b' hb' hs'; injection hb' with hb'; subst hb'; simp at hs'), by simpa using h2⟩
  case mark reason r =>
    refine ⟨set1 (markRecord_records ..) (by simp) ?_, by simpa using h2⟩
    intro b' hb' hs'
    rw [Option.map_eq_some_iff] at hb'
    obtain ⟨b, hb, rfl⟩ := hb'
    exact h1 r b hb hs'
  case start r b hi hcc hb =>
    refine ⟨?_, by simp⟩
    intro q b' hq hst
    rw [Fin.getElem_fin] at hq
    simp only [takeBatch_records, records_set_get] at hq
    split at hq
    · rename_i e; subst e; simp
    · have := h1 q b' hq hst
      rw [h2 hi] at this; simp at this
  case late r b hre hb =>
    exact ⟨set1 (setRecord_records ..) (by simp) (by rintro b' ⟨⟩ hs'; exact h1 r b hb hs'), by simpa using h2⟩
  case removeEntry r b hp hw hr hb =>
    refine ⟨set1 (removeEntry_records ..) (by simp) ?_, fun e => absurd (hp.symm.trans e) (by simp)⟩
    intro b' hb' hs'
    cases hb'
    exact h1 r b hb hs'
  case retire r b hp hw hr hb =>
    refine ⟨?_, by simp [Engine.reset]⟩
    intro q b' hq hst
    rw [Fin.getElem_fin] at hq
    simp only [retireRecord_records, records_set_get] at hq
    split at hq
    · simp at hq
    · rename_i e
      have := h1 q b' hq hst
      rw [hr] at this; injection this with this; exact absurd this e
  case restart => exact ⟨allNone (by intro r; simp), by simp [Engine.reset]⟩
  case discard w hw =>
    refine ⟨allNone (by intro r; simp [hw]), ?_⟩
    simp [hw, Engine.reset]
  case drained hm w he hw => subst hw; exact ⟨by simpa using h1, by simpa using h2⟩
  case receiptPhase hp _ => exact ⟨h1, by simp⟩
  all_goals first
    | exact ⟨h1, h2⟩
    | exact ⟨by simpa using h1, by simpa using h2⟩

theorem reset_oneReleasing {c : Instr} {s t : State} (hc : isReset c = true) (h : OneReleasing s) (hs : exec c s = .next t) :
    OneReleasing t := by
  cases c <;> simp [isReset] at hc
  · injection hs with hs; subst hs
    exact ⟨by intro r b hb; simp [assertReset, State.reset] at hb, fun _ => rfl⟩
  · injection hs with hs; subst hs; split <;> exact h

theorem change_oneOpenBatch {s t : State} (hc : Change s t) (h : OneOpenBatch s) : OneOpenBatch t := by
  have h' : ∀ (r : RecordIdx) (b : BatchRecord), s.records[r.val] = some b → b.state = .opened → s.windows[b.window.val].openBatch = some r := h
  have allNone : ∀ {t : State}, (∀ r : RecordIdx, t.records[r.val] = none) → OneOpenBatch t := by
    intro t ht r b hb; rw [Fin.getElem_fin, ht r] at hb; simp at hb
  have winSame : ∀ {t : State}, t.records = s.records → (∀ W : WindowIdx, t.windows[W.val].openBatch = s.windows[W.val].openBatch) → OneOpenBatch t := by
    intro t h1 h2 r b hb ho
    simp only [Fin.getElem_fin, h1] at hb ⊢
    rw [h2]; exact h r b hb ho
  have set1 : ∀ {t : State} {r : RecordIdx} {b : Option BatchRecord}, t.records = s.records.set r.val b r.isLt →
      (∀ W : WindowIdx, t.windows[W.val].openBatch = s.windows[W.val].openBatch) →
      (∀ b', b = some b' → b'.state = .opened → s.windows[b'.window.val].openBatch = some r) → OneOpenBatch t := by
    intro t r b ht hw hb q b' hq hst
    rw [Fin.getElem_fin, ht, records_set_get] at hq
    rw [Fin.getElem_fin, hw]
    split at hq
    · rename_i e; subst e; exact hb _ hq hst
    · exact h q b' hq hst
  cases hc
  case store W a m d hm hu hW hcl hst =>
    unfold storeHeld
    split
    · exact h
    · rename_i r hr
      intro q b' hq hst'
      simp only [Fin.getElem_fin, setWindow_records, setRecord_get] at hq
      simp only [Fin.getElem_fin, setWindow_windows, setRecord_windows, windows_set_get]
      unfold State.storeTarget at hr
      by_cases hqr : r = q
      · subst hqr
        rw [if_pos rfl] at hq
        injection hq with hq
        unfold addHeld at hq
        split at hq
        · rename_i b hb
          have hst2 : b.state = .opened ∧ b.window = b'.window := by
            subst hq; unfold BatchRecord.add at hst' ⊢; split at hst' <;> simp_all
          have := h' r b hb hst2.1
          split
          · rfl
          · simpa only [← hst2.2] using this
        · subst hq; simp [openedBatch]
      · rw [if_neg hqr] at hq
        have := h' q b' hq hst'
        split
        · rename_i e
          subst e
          split at hr
          · rename_i r' hr'
            rw [Fin.getElem_fin, this] at hr'
            injection hr' with hr'; injection hr with hr; subst hr hr'; exact absurd rfl hqr
          · rename_i hn
            rw [Fin.getElem_fin, this] at hn; simp at hn
        · exact this
  case sealBatch W r b ho hb =>
    intro q b' hq hst'
    simp only [Fin.getElem_fin, sealRecord_records, records_set_get] at hq
    simp only [Fin.getElem_fin, sealRecord_windows, windows_set_get]
    split at hq
    · injection hq with hq; subst hq; simp at hst'
    · rename_i hne
      have := h' q b' hq hst'
      split
      · rename_i e
        subst e
        rw [Fin.getElem_fin, this] at ho
        injection ho with ho; exact absurd ho.symm hne
      · exact this
  case mark reason r =>
    refine set1 (markRecord_records ..) (by simp) ?_
    intro b' hb' hs'
    rw [Option.map_eq_some_iff] at hb'
    obtain ⟨b, hb, rfl⟩ := hb'
    exact h' r b hb hs'
  case start r b hi hcc hb =>
    refine set1 (takeBatch_records ..) ?_ ?_
    · intro W; simp only [takeBatch_windows, windows_set_get]; split
      · rename_i e; subst e; rfl
      · rfl
    · intro b' hb' hs'; injection hb' with hb'; subst hb'; simp at hs'
  case late r b hre hb =>
    exact set1 (setRecord_records ..) (by simp) (by intro b' hb' hs'; injection hb' with hb'; subst hb'; exact h' r b hb hs')
  case removeEntry r b hp hw hr hb =>
    exact set1 (removeEntry_records ..) (by simp) (by intro b' hb' hs'; injection hb' with hb'; subst hb'; exact h' r b hb hs')
  case retire r b hp hw hr hb =>
    refine set1 (retireRecord_records ..) ?_ (by intro b' hb'; exact absurd hb' (by simp))
    intro W; simp only [retireRecord_windows, windows_set_get]; split
    · rename_i e; subst e; rfl
    · rfl
  case restart => exact allNone (by intro r; simp)
  case discard w hw => exact allNone (by intro r; simp [hw])
  case install hp _ => exact winSame (by simp) (by intro W; simp)
  case drained hm w he hw =>
    subst hw; exact allNone (by intro r; simpa using storeEmpty_iff.mp (by assumption) r)
  case idle => exact winSame (by simp) (by intro W; simp)
  case markClosing hm hp hcc => exact winSame (by simp) (by intro W; simp)
  all_goals first
    | exact h
    | exact winSame (by simp) (by simp)

theorem reset_oneOpenBatch {c : Instr} {s t : State} (hc : isReset c = true) (h : OneOpenBatch s) (hs : exec c s = .next t) :
    OneOpenBatch t := by
  cases c <;> simp [isReset] at hc
  · injection hs with hs; subst hs
    intro r b hb; simp [assertReset, State.reset] at hb
  · injection hs with hs; subst hs; split <;> exact h


theorem tableSound_off : TableSound (Vector.replicate 8 offRecord) := by
  unfold TableSound
  decide

theorem change_lockedLineBelowT {s t : State} (hc : Change s t) (h : LockedLineBelowT s) : LockedLineBelowT t := by
  obtain ⟨h1, h2⟩ := h
  cases hc
  case afterLine T hT =>
    refine ⟨h1, ?_⟩
    intro hl
    have h8 := h1 T hT
    simp only [Tracker.afterLine] at hl ⊢
    cases hst : s.tracker.state <;> rw [hst] at hl <;> simp only at hl ⊢
    · exact absurd hl (by rw [hst]; simp)
    · unfold Tracker.countOn at hl; split at hl <;> simp [hst] at hl
    · split at hl
      · simp at hl
      · rename_i hn
        rw [if_neg hn]
        obtain ⟨T', l, hT', hl', hlt⟩ := h2 hst
        refine ⟨T, l + 1, hT, by simp [hl'], ?_⟩
        simp [Tracker.runsLong, hst, hl'] at hn
        omega
  case afterFrame T hT =>
    have h8 := h1 T hT
    exact ⟨h1, fun _ => ⟨T, 0, hT, rfl, by omega⟩⟩
  case lose => exact ⟨h1, by intro h; simp [Tracker.lose] at h⟩
  case timing v hm hr hf k hk hk' =>
    refine ⟨?_, by intro h; simp [hk] at h⟩
    intro T hT
    simp [timingOf] at hT
    subst hT
    unfold timingInRange at hr
    simp at hr
    omega
  case drained hm he w hw => subst hw; exact ⟨by simpa using h1, by simpa using h2⟩
  case discard w hw => exact ⟨by simpa [hw] using h1, by simpa [hw] using h2⟩
  case restart => exact ⟨by simpa using h1, by intro h; simp [Tracker.reset] at h⟩
  all_goals first
    | exact ⟨h1, h2⟩
    | exact ⟨by simpa using h1, by simpa using h2⟩

theorem reset_lockedLineBelowT {c : Instr} {s t : State} (hc : isReset c = true) (h : LockedLineBelowT s) (hs : exec c s = .next t) :
    LockedLineBelowT t := by
  cases c <;> simp [isReset] at hc
  · injection hs with hs; subst hs
    exact ⟨by intro T hT; simp [assertReset, State.reset, Timing.reset] at hT, by intro h; simp [assertReset, State.reset, Tracker.reset] at h⟩
  · injection hs with hs; subst hs; split <;> exact h

theorem check_sound (t : Vector WindowRecord 8) (k : Timing) (h : checkTable t k = none) : TableSound t := by
  unfold checkTable at h
  repeat' split at h
  all_goals first
    | (injection h; done)
    | skip
  rename_i h1 h2 h3 h4
  exact ⟨by simpa using h2, by simpa using h4⟩

theorem change_liveTableSound {s t : State} (hc : Change s t) (h : LiveTableSound s) : LiveTableSound t := by
  obtain ⟨h1, h2⟩ := h
  cases hc
  case install hp _ => exact ⟨by simpa using h2 hp, by simp⟩
  case drained hm he w hw =>
    subst hw
    unfold completeDrain applyAtBypass
    split
    · rename_i hp
      have hp : w.st.applyPending = true := by simpa using hp
      exact ⟨by simpa [completeApply] using h2 hp, by simp [completeApply]⟩
    · exact ⟨by simpa using h1, by simpa using h2⟩
  case discard w hw =>
    unfold applyAtBypass
    split
    · rename_i hp
      have hp : s.applyPending = true := by simpa [hw] using hp
      exact ⟨by simpa [completeApply, hw] using h2 hp, by simp [completeApply]⟩
    · exact ⟨by simpa [hw] using h1, by simpa [hw] using h2⟩
  case restart => exact ⟨by simpa using h1, by simp⟩
  case stage W r hp => exact ⟨h1, by intro h; rw [hp] at h; simp at h⟩
  case applyNow hm hp hcc => exact ⟨check_sound _ _ hcc, h2⟩
  case markClosing hm hp hcc => exact ⟨by simpa using h1, fun _ => check_sound _ _ hcc⟩
  all_goals first
    | exact ⟨h1, h2⟩
    | exact ⟨by simpa using h1, by simpa using h2⟩

theorem reset_liveTableSound {c : Instr} {s t : State} (hc : isReset c = true) (h : LiveTableSound s) (hs : exec c s = .next t) :
    LiveTableSound t := by
  cases c <;> simp [isReset] at hc
  · injection hs with hs; subst hs
    exact ⟨tableSound_off, by intro h; simp [assertReset, State.reset] at h⟩
  · injection hs with hs; subst hs; split <;> exact h

theorem change_closingOnlyWhilePending {s t : State} (hc : Change s t) (h : ClosingOnlyWhilePending s) : ClosingOnlyWhilePending t := by
  have h1 := h.1
  have h2 : ∀ W : WindowIdx, s.windows[W.val].closing = true → s.applyPending = true := h.2
  have same : ∀ {t : State}, t.applyPending = s.applyPending → t.mode = s.mode → (∀ W : WindowIdx, t.windows[W.val].closing = s.windows[W.val].closing) → ClosingOnlyWhilePending t := by
    intro t a b c
    refine ⟨by rw [a, b]; exact h1, fun W hW => ?_⟩
    rw [Fin.getElem_fin, c] at hW
    rw [a]; exact h2 W hW
  cases hc
  case store W a m d hm hu hW hcl hst =>
    unfold storeHeld
    split
    · exact h
    · refine same (by simp) (by simp) ?_
      intro V; simp only [setWindow_windows, setRecord_windows, windows_set_get]; split
      · rename_i e; subst e; rfl
      · rfl
  case sealBatch W r b ho hb =>
    refine same (by simp) (by simp) ?_
    intro V; simp only [sealRecord_windows, windows_set_get]; split
    · rename_i e; subst e; rfl
    · rfl
  case start r b hi hcc hb =>
    refine same (by simp) (by simp) ?_
    intro V; simp only [takeBatch_windows, windows_set_get]; split
    · rename_i e; subst e; rfl
    · rfl
  case retire r b hp hw hr hb =>
    refine same (by simp) (by simp) ?_
    intro V; simp only [retireRecord_windows, windows_set_get]; split
    · rename_i e; subst e; rfl
    · rfl
  case install hp _ => exact ⟨by simp, by intro W; simp⟩
  case idle => exact same (by simp) (by simp) (by intro V; simp)
  case mode m hm _ => exact ⟨fun _ => hm, h2⟩
  case markClosing hm hp hcc => exact ⟨fun _ => by simpa using hm, fun _ _ => by simp⟩
  case restart => exact ⟨by simp, by intro W; simp [WindowState.restart]⟩
  case drained hm he w hw =>
    subst hw
    unfold completeDrain applyAtBypass
    split
    · exact ⟨by simp [completeApply], by intro W; simp [completeApply]⟩
    · rename_i hp
      have hp : w.st.applyPending = false := by simpa using hp
      refine ⟨by simp [hp], ?_⟩
      intro W hW; have := h2 W (by simpa using hW); rw [hp] at this; simp at this
  case discard w hw =>
    unfold applyAtBypass
    split
    · exact ⟨by simp [completeApply], by intro W; simp [completeApply]⟩
    · rename_i hp
      have hp : s.applyPending = false := by simpa [hw] using hp
      refine ⟨by simp [hp, hw], ?_⟩
      intro W hW; have := h2 W (by simpa [hw] using hW); rw [hp] at this; simp at this
  all_goals first
    | exact h
    | exact same (by simp) (by simp) (by simp)

theorem reset_closingOnlyWhilePending {c : Instr} {s t : State} (hc : isReset c = true) (h : ClosingOnlyWhilePending s) (hs : exec c s = .next t) :
    ClosingOnlyWhilePending t := by
  cases c <;> simp [isReset] at hc
  · injection hs with hs; subst hs
    exact ⟨by intro h; simp [assertReset, State.reset] at h, by intro W; simp [assertReset, State.reset, WindowState.reset]⟩
  · injection hs with hs; subst hs; split <;> exact h

theorem change_queueWithinBounds {s t : State} (hc : Change s t) (h : QueueWithinBounds s) : QueueWithinBounds t := by
  obtain ⟨h1, h2⟩ := h
  cases hc
  case incident i =>
    unfold QueueWithinBounds
    simp only [handIncident_incidents, queueIncident]
    repeat' split
    all_goals simp [Config.incidentDepth, Config.stopCount] at *
    all_goals omega
  case takeIncident => exact ⟨by simp; omega, by simp⟩
  case restart => exact ⟨by simp [IncidentUnit.restart, IncidentUnit.reset], by simp [IncidentUnit.restart, IncidentUnit.reset]⟩
  case drained hm he w hw =>
    subst hw
    unfold completeDrain applyAtBypass
    split <;> exact ⟨by simpa [completeApply] using h1, by simpa [completeApply] using h2⟩
  case discard w hw =>
    unfold applyAtBypass
    split <;> exact ⟨by simpa [completeApply, hw] using h1, by simpa [completeApply, hw] using h2⟩
  all_goals first
    | exact ⟨h1, h2⟩
    | exact ⟨by simpa using h1, by simpa using h2⟩

theorem reset_queueWithinBounds {c : Instr} {s t : State} (hc : isReset c = true) (h : QueueWithinBounds s) (hs : exec c s = .next t) :
    QueueWithinBounds t := by
  cases c <;> simp [isReset] at hc
  · injection hs with hs; subst hs
    exact ⟨by simp [assertReset, State.reset, IncidentUnit.reset], by simp [assertReset, State.reset, IncidentUnit.reset]⟩
  · injection hs with hs; subst hs; split <;> exact h


theorem choice_candidate {s : State} {r : RecordIdx} (h : s.choice = some r) : r ∈ s.candidates := by
  unfold State.choice at h
  have := oldest_mem s _ _ h
  split at this
  · exact List.mem_of_mem_filter this
  · exact List.mem_of_mem_filter (List.mem_of_mem_filter this)

theorem candidate_queue {s : State} {r : RecordIdx} (h : r ∈ s.candidates) : ∃ W : WindowIdx, r ∈ s.windows[W.val].sealedQueue := by
  unfold State.candidates at h
  rw [List.mem_filterMap] at h
  obtain ⟨W, _, h⟩ := h
  exact ⟨W, List.mem_of_mem_head? h⟩

/-- What a held write makes of the record that takes it. -/
theorem addHeld_fields (b : Option BatchRecord) (W : WindowIdx) (row : Nat) (a : Addr) (m : Lanes) (d : Word) :
    (∀ c, b = some c → (addHeld b W row a m d).state = c.state ∧ (addHeld b W row a m d).window = c.window) ∧
      (b = none → addHeld b W row a m d = openedBatch W row a m d) := by
  refine ⟨?_, by rintro rfl; rfl⟩
  rintro c rfl
  simp only [addHeld, BatchRecord.add]
  split <;> exact ⟨rfl, rfl⟩

theorem storeTarget_cases {s : State} {W : WindowIdx} {r : RecordIdx} (h : s.storeTarget W = some r) :
    s.windows[W.val].openBatch = some r ∨ s.windows[W.val].openBatch = none ∧ s.records[r.val] = none := by
  unfold State.storeTarget at h
  simp only [Fin.getElem_fin] at h
  split at h
  · rename_i q hq
    left
    rw [hq, h]
  · rename_i hn
    exact Or.inr ⟨hn, freeRecord_some h⟩

theorem change_batchesStand {s t : State} (hc : Change s t) (h : BatchesStand s) : BatchesStand t := by
  obtain ⟨h1, h2, h3, h4, h5⟩ := h
  simp only [Fin.getElem_fin] at h1 h2 h3 h4 h5
  have h3' : ∀ (q : RecordIdx) (c : BatchRecord) (V : WindowIdx), s.records[q.val] = some c → c.state = .sealed → V = c.window →
      q ∈ s.windows[V.val].sealedQueue := by
    rintro q c V hc hs rfl
    exact h3 q c hc hs
  have same : ∀ {t : State}, t.records = s.records → (∀ W : WindowIdx, t.windows[W.val].openBatch = s.windows[W.val].openBatch) →
      (∀ W : WindowIdx, t.windows[W.val].sealedQueue = s.windows[W.val].sealedQueue) → t.engine.releasing = s.engine.releasing →
      BatchesStand t := by
    intro t a b c d
    unfold BatchesStand
    simp only [Fin.getElem_fin, a, b, c, d]
    exact ⟨h1, h2, h3, h4, h5⟩
  have empty : ∀ {t : State}, (∀ r : RecordIdx, t.records[r.val] = none) → (∀ W : WindowIdx, t.windows[W.val].openBatch = none) →
      (∀ W : WindowIdx, t.windows[W.val].sealedQueue = []) → t.engine.releasing = none → BatchesStand t := by
    intro t a b c d
    unfold BatchesStand
    simp only [Fin.getElem_fin, a, b, c, d]
    simp
  have upd : ∀ {t : State} {r : RecordIdx} {b b' : BatchRecord}, s.records[r.val] = some b → b'.state = b.state → b'.window = b.window →
      t.records = s.records.set r.val (some b') r.isLt → (∀ W : WindowIdx, t.windows[W.val].openBatch = s.windows[W.val].openBatch) →
      (∀ W : WindowIdx, t.windows[W.val].sealedQueue = s.windows[W.val].sealedQueue) → t.engine.releasing = s.engine.releasing →
      BatchesStand t := by
    intro t r b b' hb hs hw a k c d
    have e : ∀ (P : BatchState → WindowIdx → Prop) (q : RecordIdx), (∃ x, s.records[q.val] = some x ∧ P x.state x.window) →
        ∃ x, t.records[q.val] = some x ∧ P x.state x.window := by
      intro P q ⟨x, hx, hp⟩
      rw [a, records_set_get]
      split
      · rename_i e; subst e
        rw [hb] at hx; injection hx with hx; subst hx
        exact ⟨b', rfl, by rw [hs, hw]; exact hp⟩
      · exact ⟨x, hx, hp⟩
    unfold BatchesStand
    simp only [Fin.getElem_fin, k, c, d]
    refine ⟨fun W q hq => e (fun x V => x = .opened ∧ V = W) q (h1 W q hq), fun W q hq => e (fun x V => x = .sealed ∧ V = W) q (h2 W q hq), ?_, h4,
      fun q hq => e (fun x _ => x = .releasing) q (h5 q hq)⟩
    intro q x hx hst
    rw [a, records_set_get] at hx
    split at hx
    · rename_i e; subst e
      injection hx with hx; subst hx
      rw [hw]; exact h3 _ b hb (hs ▸ hst)
    · exact h3 q x hx hst
  cases hc
  case store W a m d hm hu hW hcl hst =>
    unfold storeHeld
    split
    · exact ⟨h1, h2, h3, h4, h5⟩
    · rename_i r hr
      have hf := addHeld_fields s.records[r.val] W (s.live[W].screenRow a) a m d
      rcases storeTarget_cases hr with ho | ⟨ho, hn⟩
      · obtain ⟨b, hb, hst, hw⟩ := h1 W r ho
        obtain ⟨f1, f2⟩ := hf.1 b hb
        refine upd hb f1 f2 rfl ?_ ?_ rfl
        · intro V; simp only [setWindow_windows, setRecord_windows, windows_set_get]; split
          · rename_i e; subst e; exact ho.symm
          · rfl
        · intro V; simp only [setWindow_windows, setRecord_windows, windows_set_get]; split
          · rename_i e; subst e; rfl
          · rfl
      · have e := hf.2 hn
        simp only [Fin.getElem_fin] at e
        unfold BatchesStand
        simp only [Fin.getElem_fin, setWindow_windows, setRecord_windows, windows_set_get, setWindow_records, setRecord_records, records_set_get]
        refine ⟨?_, ?_, ?_, ?_, ?_⟩
        · intro V q hq
          split at hq
          · rename_i e; subst e; injection hq with hq; subst hq
            exact ⟨openedBatch W (s.live[W.val].screenRow a) a m d, by rw [if_pos rfl, e], rfl, rfl⟩
          · obtain ⟨b, hb, k⟩ := h1 V q hq
            refine ⟨b, ?_, k⟩
            rw [if_neg]; exact hb
            rintro rfl; rw [hn] at hb; exact absurd hb (by simp)
        · intro V q hq
          have hq : q ∈ s.windows[V.val].sealedQueue := by
            split at hq
            · rename_i e; subst e; exact hq
            · exact hq
          obtain ⟨b, hb, k⟩ := h2 V q hq
          refine ⟨b, ?_, k⟩
          rw [if_neg]; exact hb
          rintro rfl; rw [hn] at hb; exact absurd hb (by simp)
        · intro q b hq hs
          split at hq
          · injection hq with hq; rw [← hq, e] at hs; exact absurd hs (by simp [openedBatch])
          · split
            · rename_i e'; exact h3' q b W hq hs e'
            · exact h3 q b hq hs
        · intro V; split
          · rename_i e; subst e; exact h4 _
          · exact h4 _
        · intro q hq
          obtain ⟨b, hb, k⟩ := h5 q hq
          refine ⟨b, ?_, k⟩
          rw [if_neg]; exact hb
          rintro rfl; rw [hn] at hb; exact absurd hb (by simp)
  case sealBatch W r b ho hb =>
    simp only [Fin.getElem_fin] at ho hb
    obtain ⟨b', hb', hso, hw⟩ := h1 W r ho
    rw [hb] at hb'; injection hb' with hb'; subst hb'
    have notq : ∀ V : WindowIdx, r ∉ s.windows[V.val].sealedQueue := by
      intro V hV; obtain ⟨c, hc, hs, _⟩ := h2 V r hV
      rw [hb] at hc; injection hc with hc; subst hc; rw [hso] at hs; exact absurd hs (by simp)
    unfold BatchesStand
    simp only [Fin.getElem_fin, sealRecord_windows, sealRecord_records, sealRecord_engine, windows_set_get, records_set_get]
    refine ⟨?_, ?_, ?_, ?_, ?_⟩
    · intro V q hq
      split at hq
      · exact absurd hq (by simp)
      · rename_i hne
        obtain ⟨c, hc, k1, k2⟩ := h1 V q hq
        refine ⟨c, ?_, k1, k2⟩
        rw [if_neg]; exact hc
        rintro rfl; rw [hb] at hc; injection hc with hc; subst hc; exact hne (hw.symm.trans k2)
    · intro V q hq
      by_cases hqr : r = q
      · subst hqr
        rw [if_pos rfl]
        split at hq
        · rename_i e; exact ⟨_, rfl, rfl, hw.trans e⟩
        · exact absurd hq (notq V)
      · rw [if_neg hqr]
        split at hq
        · rename_i e; subst e
          rw [List.mem_append] at hq
          rcases hq with hq | hq
          · exact h2 W q hq
          · exact absurd (List.mem_singleton.mp hq).symm hqr
        · exact h2 V q hq
    · intro q c hq hs
      split at hq
      · rename_i e; subst e; injection hq with hq; subst hq
        simp [hw]
      · split
        · rename_i e; exact List.mem_append_left _ (h3' q c W hq hs e)
        · exact h3 q c hq hs
    · intro V; split
      · rename_i e; subst e
        rw [List.nodup_append]
        exact ⟨h4 _, by simp, by intro x hx y hy; rw [List.mem_singleton] at hy; subst hy; rintro rfl; exact notq _ hx⟩
      · exact h4 _
    · intro q hq
      obtain ⟨c, hc, k⟩ := h5 q hq
      refine ⟨c, ?_, k⟩
      rw [if_neg]; exact hc
      rintro rfl; rw [hb] at hc; injection hc with hc; subst hc; rw [hso] at k; exact absurd k (by simp)
  case mark reason r =>
    cases hb : s.records[r.val] with
    | none =>
      refine same ?_ (by simp) (by simp) (by simp)
      simp only [markRecord_records, Fin.getElem_fin, hb, Option.map_none]
      rw [← hb]; exact Vector.set_getElem_self r.isLt
    | some b =>
      refine upd (b' := b.force reason) hb rfl rfl ?_ (by simp) (by simp) (by simp)
      simp only [markRecord_records, Fin.getElem_fin, hb, Option.map_some]
  case start r b hi hcc hb =>
    simp only [Fin.getElem_fin] at hb
    obtain ⟨W, hW⟩ := candidate_queue (choice_candidate hcc)
    obtain ⟨b', hb', hss, hw⟩ := h2 W r hW
    rw [hb] at hb'; injection hb' with hb'; subst hb'
    subst hw
    unfold BatchesStand
    simp only [Fin.getElem_fin, takeBatch_windows, takeBatch_records, takeBatch_engine, windows_set_get, records_set_get]
    refine ⟨?_, ?_, ?_, ?_, ?_⟩
    · intro V q hq
      have hq : s.windows[V.val].openBatch = some q := by
        split at hq
        · rename_i e; subst e; exact hq
        · exact hq
      obtain ⟨c, hc, k1, k2⟩ := h1 V q hq
      refine ⟨c, ?_, k1, k2⟩
      rw [if_neg]; exact hc
      rintro rfl; rw [hb] at hc; injection hc with hc; subst hc; rw [hss] at k1; exact absurd k1 (by simp)
    · intro V q hq
      have hq : q ∈ s.windows[V.val].sealedQueue ∧ q ≠ r := by
        split at hq
        · rename_i e; subst e
          rw [(h4 _).mem_erase_iff] at hq
          exact ⟨hq.2, hq.1⟩
        · rename_i hne
          refine ⟨hq, ?_⟩
          rintro rfl
          obtain ⟨c, hc, _, k⟩ := h2 V _ hq
          rw [hb] at hc; injection hc with hc; subst hc; exact hne k
      obtain ⟨c, hc, k⟩ := h2 V q hq.1
      exact ⟨c, by rw [if_neg (Ne.symm hq.2)]; exact hc, k⟩
    · intro q c hq hs
      split at hq
      · injection hq with hq; subst hq; simp at hs
      · rename_i hne
        split
        · rename_i e
          show q ∈ List.erase _ r
          rw [(h4 _).mem_erase_iff]
          exact ⟨Ne.symm hne, h3' q c _ hq hs e⟩
        · exact h3 q c hq hs
    · intro V; split
      · exact (h4 _).erase _
      · exact h4 _
    · intro q hq
      injection hq with hq; subst hq
      exact ⟨_, if_pos rfl, rfl⟩
  case late r b hre hb => exact upd (b' := { b with late := true }) hb rfl rfl rfl (by simp) (by simp) rfl
  case removeEntry r b hp hw hr hb =>
    exact upd (b' := { b with entries := b.entries.tail, written := b.written + 1 }) hb rfl rfl rfl (by simp) (by simp) rfl
  case retire r b hp hw hr hb =>
    simp only [Fin.getElem_fin] at hb
    obtain ⟨b', hb', hsr⟩ := h5 r hr
    rw [hb] at hb'; injection hb' with hb'; subst hb'
    have e1 : ∀ V : WindowIdx, (retireRecord r b s).windows[V.val].openBatch = s.windows[V.val].openBatch := by
      intro V; simp only [retireRecord_windows, windows_set_get]; split
      · rename_i e; subst e; rfl
      · rfl
    have e2 : ∀ V : WindowIdx, (retireRecord r b s).windows[V.val].sealedQueue = s.windows[V.val].sealedQueue := by
      intro V; simp only [retireRecord_windows, windows_set_get]; split
      · rename_i e; subst e; rfl
      · rfl
    unfold BatchesStand
    simp only [Fin.getElem_fin, e1, e2]
    simp only [retireRecord_records, retireRecord_engine, records_set_get]
    refine ⟨?_, ?_, ?_, h4, by simp [Engine.reset]⟩
    · intro V q hq
      obtain ⟨c, hc, k1, k2⟩ := h1 V q hq
      refine ⟨c, ?_, k1, k2⟩
      rw [if_neg]; exact hc
      rintro rfl; rw [hb] at hc; injection hc with hc; subst hc; rw [hsr] at k1; exact absurd k1 (by simp)
    · intro V q hq
      obtain ⟨c, hc, k1, k2⟩ := h2 V q hq
      refine ⟨c, ?_, k1, k2⟩
      rw [if_neg]; exact hc
      rintro rfl; rw [hb] at hc; injection hc with hc; subst hc; rw [hsr] at k1; exact absurd k1 (by simp)
    · intro q c hq hs
      split at hq
      · exact absurd hq (by simp)
      · exact h3 q c hq hs
  case restart => exact empty (by intro r; simp) (by intro W; simp [WindowState.restart]) (by intro W; simp [WindowState.restart]) (by simp [Engine.reset])
  case discard w hw =>
    unfold applyAtBypass
    split
    · exact empty (by intro r; simp [completeApply, hw]) (by intro W; simp [completeApply, hw])
        (by intro W; simp [completeApply, hw]) (by simp [completeApply, hw, Engine.reset])
    · exact empty (by intro r; simp [hw]) (by intro W; simp [hw]) (by intro W; simp [hw]) (by simp [hw, Engine.reset])
  case install hp _ => exact same (by simp) (by intro W; simp) (by intro W; simp) (by simp)
  case drained hm he w hw =>
    subst hw
    unfold completeDrain applyAtBypass
    split
    · exact same (by simp [completeApply]) (by intro W; simp [completeApply]) (by intro W; simp [completeApply])
        (by simp [completeApply])
    · exact same (by simp) (by intro W; simp) (by intro W; simp) (by simp)
  case idle => exact same (by simp) (by intro W; simp) (by intro W; simp) (by simp)
  case markClosing hm hp hcc => exact same (by simp) (by intro W; simp) (by intro W; simp) (by simp)
  all_goals first
    | exact ⟨h1, h2, h3, h4, h5⟩
    | exact same (by simp) (by simp) (by simp) (by simp)

/-! ## What a batch's fields say of its state -/

/-- The fields of one batch, as `BatchFieldsFollowItsState` has them. -/
def FieldsFollow (b : BatchRecord) : Prop :=
  (b.state ≠ .releasing → b.entries ≠ [] ∧ b.written = 0 ∧ b.late = false) ∧
    (b.seq = none ↔ b.state = .opened) ∧ (b.ordinal = none ↔ b.state = .opened) ∧ (b.ground ≠ none ↔ b.state = .releasing)

theorem FieldsFollow.add {b : BatchRecord} (h : FieldsFollow b) (row : Nat) (a : Addr) (m : Lanes) (d : Word) :
    FieldsFollow (b.add row a m d) := by
  obtain ⟨k1, k2, k3, k4⟩ := h
  unfold BatchRecord.add
  by_cases hf : (b.find a).isSome = true
  · rw [if_pos hf]
    exact ⟨fun e => ⟨by simpa using (k1 e).1, (k1 e).2⟩, k2, k3, k4⟩
  · rw [if_neg hf]
    exact ⟨fun e => ⟨by simp, (k1 e).2⟩, k2, k3, k4⟩

theorem change_batchFields {s t : State} (hc : Change s t) (hb : BatchesStand s) (h : BatchFieldsFollowItsState s) :
    BatchFieldsFollowItsState t := by
  obtain ⟨h1, h2, _, _, h5⟩ := hb
  simp only [Fin.getElem_fin] at h1 h2 h5
  have h' : ∀ (r : RecordIdx) (b : BatchRecord), s.records[r.val] = some b → FieldsFollow b := h
  have of : ∀ {t : State}, (∀ (r : RecordIdx) (b : BatchRecord), t.records[r.val] = some b → FieldsFollow b) →
      BatchFieldsFollowItsState t := fun k => k
  have same : ∀ {t : State}, t.records = s.records → BatchFieldsFollowItsState t := by
    intro t e
    apply of
    rw [e]
    exact h'
  have upd : ∀ {t : State} {r : RecordIdx} {x : Option BatchRecord}, t.records = s.records.set r.val x r.isLt →
      (∀ b, x = some b → FieldsFollow b) → BatchFieldsFollowItsState t := by
    intro t r x e hx
    apply of
    intro q b hq
    rw [e, records_set_get] at hq
    split at hq
    · exact hx b hq
    · exact h' q b hq
  have empty : ∀ {t : State}, (∀ r : RecordIdx, t.records[r.val] = none) → BatchFieldsFollowItsState t := by
    intro t e
    apply of
    intro r b hr
    rw [e] at hr
    exact absurd hr (by simp)
  cases hc
  case store W a m d hm hu hW hcl hst =>
    unfold storeHeld
    split
    · exact h
    · rename_i r hr
      refine upd (r := r) rfl ?_
      rintro c hc
      injection hc with hc
      subst hc
      cases hb : s.records[r] with
      | none => exact ⟨fun _ => ⟨by simp [addHeld, openedBatch], rfl, rfl⟩, by simp [addHeld, openedBatch], by simp [addHeld, openedBatch],
          by simp [addHeld, openedBatch]⟩
      | some b =>
        exact (h' r b hb).add _ _ _ _
  case sealBatch W r b ho hb =>
    obtain ⟨b', hb', hso, _⟩ := h1 W r ho
    cases hb.symm.trans hb'
    refine upd (sealRecord_records ..) ?_
    rintro c hc
    injection hc with hc
    subst hc
    obtain ⟨k1, k2, k3, k4⟩ := h' r b hb
    rw [hso] at k1 k4
    exact ⟨fun _ => k1 (by simp), by simp, by simp, by simpa using k4⟩
  case mark reason r =>
    refine upd (markRecord_records ..) ?_
    rintro c hc
    rw [Option.map_eq_some_iff] at hc
    obtain ⟨b, hb, rfl⟩ := hc
    exact h' r b hb
  case start r b hi hcc hb =>
    obtain ⟨W, hW⟩ := candidate_queue (choice_candidate hcc)
    obtain ⟨b', hb', hss, _⟩ := h2 W r hW
    cases hb.symm.trans hb'
    refine upd (takeBatch_records ..) ?_
    rintro c hc
    injection hc with hc
    subst hc
    obtain ⟨k1, k2, k3, k4⟩ := h' r b hb
    rw [hss] at k2 k3
    exact ⟨by simp, by simpa using k2, by simpa using k3, by simp⟩
  case late r b hre hb =>
    obtain ⟨b', hb', hsr⟩ := h5 r hre
    cases hb.symm.trans hb'
    refine upd (setRecord_records ..) ?_
    rintro c hc
    injection hc with hc
    subst hc
    obtain ⟨k1, k2, k3, k4⟩ := h' r b hb
    exact ⟨fun e => absurd hsr e, k2, k3, k4⟩
  case removeEntry r b hp hw hr hb =>
    obtain ⟨b', hb', hsr⟩ := h5 r hr
    cases hb.symm.trans hb'
    refine upd (removeEntry_records ..) ?_
    rintro c hc
    injection hc with hc
    subst hc
    obtain ⟨k1, k2, k3, k4⟩ := h' r b hb
    exact ⟨fun e => absurd hsr e, k2, k3, k4⟩
  case retire r b hp hw hr hb => exact upd (retireRecord_records ..) (by intro c hc; exact absurd hc (by simp))
  case restart => exact empty (by intro r; simp)
  case discard w hw => exact empty (by intro r; simp [hw])
  case drained hm w he hw => subst hw; exact same (by simp)
  all_goals first
    | exact h
    | exact same (by simp)

end Sys2Proof.Machine
end

