-- ==== Sys2Proof/Laws/KeepsTables.lean ====
section
/-! SUPPORT. The laws of the tables, and of the entries that lie in their windows: each is kept by every elementary change. -/

namespace Sys2Proof.Machine

/-! ## Tables and the batches of their windows -/

theorem coherentWindow_some {table : Vector WindowRecord 8} {a : Addr} {W : WindowIdx} (h : coherentWindow table a = some W) :
    table[W].covers a = true ∧ table[W].policy.isCoherent = true := by
  unfold coherentWindow lookupWindow at h
  rw [Option.filter_eq_some_iff] at h
  exact ⟨by simpa using List.find?_some h.1, h.2⟩

/-- In a sound table, a coherent window that covers a word is the one that is found. -/
theorem coherentWindow_of_covers {table : Vector WindowRecord 8} {a : Addr} {W : WindowIdx} (hs : tableOverlaps table = false)
    (hc : table[W].covers a = true) (hp : table[W].policy.isCoherent = true) : coherentWindow table a = some W := by
  unfold coherentWindow
  rw [Option.filter_eq_some_iff]
  refine ⟨?_, hp⟩
  unfold lookupWindow
  cases hf : (List.finRange 8).find? fun V => table[V].covers a with
  | none =>
    rw [List.find?_eq_none] at hf
    exact absurd hc (hf W (List.mem_finRange W))
  | some V =>
    have hV : table[V].covers a = true := by simpa using List.find?_some hf
    by_contra hne
    have hne : V ≠ W := fun e => hne (by rw [e])
    unfold tableOverlaps at hs
    rw [List.any_eq_false] at hs
    have h1 := hs V (List.mem_finRange V)
    rw [Bool.not_eq_true, List.any_eq_false] at h1
    have h2 := h1 W (List.mem_finRange W)
    apply h2
    unfold WindowRecord.covers at hc hV
    unfold WindowRecord.overlaps
    simp only [Bool.and_eq_true, decide_eq_true_eq, bne_iff_ne] at hc hV ⊢
    refine ⟨hne, ⟨⟨hV.1.1, hc.1.1⟩, ?_⟩, ?_⟩ <;> omega

/-- A window keeps the words it covered in a sound table that has its record unchanged. -/
theorem coherentWindow_congr {old new : Vector WindowRecord 8} {a : Addr} {W : WindowIdx} (hs : tableOverlaps new = false)
    (he : new[W] = old[W]) (h : coherentWindow old a = some W) : coherentWindow new a = some W := by
  obtain ⟨h1, h2⟩ := coherentWindow_some h
  exact coherentWindow_of_covers hs (by rw [he]; exact h1) (by rw [he]; exact h2)

/-- A covered word's row lies in its window. -/
theorem screenRow_lt {r : WindowRecord} {a : Addr} (h : r.covers a = true) :
    r.firstRow ≤ r.screenRow a ∧ r.screenRow a < r.firstRow + r.rows := by
  unfold WindowRecord.covers WindowRecord.size at h
  simp only [Bool.and_eq_true, decide_eq_true_eq] at h
  unfold WindowRecord.screenRow WindowRecord.offset
  refine ⟨Nat.le_add_right _ _, ?_⟩
  have : (a.toNat - r.base.toNat) / r.pitch < r.rows := Nat.div_lt_of_lt_mul (by omega)
  omega

/-- A batch in use gives its window a batch. -/
theorem hasBatch_of_record {s : State} {r : RecordIdx} {b : BatchRecord} (h : s.records[r.val] = some b) (ho : OneOpenBatch s)
    (hr : OneReleasing s) (hb : BatchesStand s) : s.hasBatch b.window = true := by
  rw [hasBatch_eq]
  cases hs : b.state with
  | opened =>
    have := ho r b h hs
    simp only [Fin.getElem_fin] at this
    simp [this]
  | sealed =>
    have := hb.2.2.1 r b h hs
    simp only [Fin.getElem_fin] at this
    cases hq : s.windows[b.window.val].sealedQueue with
    | nil => rw [hq] at this; simp at this
    | cons x y => simp
  | releasing =>
    have := hr.1 r b h hs
    simp [State.releasingOf, this, h]

/-- One batch, as `EntriesLieInTheirWindow` has it. -/
def LiesIn (table : Vector WindowRecord 8) (b : BatchRecord) : Prop :=
  table[b.window].policy.isCoherent = true ∧ b.firstRow ≤ b.lastRow ∧
    b.lastRow < table[b.window].firstRow + table[b.window].rows ∧
    ∀ e ∈ b.entries, coherentWindow table e.addr = some b.window ∧
      b.firstRow ≤ table[b.window].screenRow e.addr ∧ table[b.window].screenRow e.addr ≤ b.lastRow

theorem LiesIn.congr {old new : Vector WindowRecord 8} {b : BatchRecord} (h : LiesIn old b) (hs : tableOverlaps new = false)
    (he : new[b.window] = old[b.window]) : LiesIn new b := by
  obtain ⟨h1, h2, h3, h4⟩ := h
  unfold LiesIn
  rw [he]
  exact ⟨h1, h2, h3, fun e hm => ⟨coherentWindow_congr hs he (h4 e hm).1, (h4 e hm).2⟩⟩

theorem LiesIn.add {table : Vector WindowRecord 8} {b : BatchRecord} {a : Addr} (h : LiesIn table b)
    (ha : coherentWindow table a = some b.window) (m : Lanes) (d : Word) :
    LiesIn table (b.add (table[b.window].screenRow a) a m d) := by
  obtain ⟨h1, h2, h3, h4⟩ := h
  obtain ⟨hc, _⟩ := coherentWindow_some ha
  obtain ⟨r1, r2⟩ := screenRow_lt hc
  unfold BatchRecord.add
  by_cases hf : (b.find a).isSome = true
  · rw [if_pos hf]
    refine ⟨h1, h2, h3, ?_⟩
    intro e he
    rw [List.mem_map] at he
    obtain ⟨x, hx, rfl⟩ := he
    have : (if (x.addr == a) = true then x.coalesce m d else x).addr = x.addr := by split <;> rfl
    rw [this]
    exact h4 x hx
  · rw [if_neg hf]
    refine ⟨h1, ?_, ?_, ?_⟩
    · show min _ _ ≤ max _ _
      omega
    · show max _ _ < _
      simp only [Fin.getElem_fin] at *
      omega
    · intro e he
      rw [List.mem_append] at he
      rcases he with he | he
      · obtain ⟨k1, k2, k3⟩ := h4 e he
        exact ⟨k1, (Nat.min_le_left _ _).trans k2, k3.trans (Nat.le_max_left _ _)⟩
      · rw [List.mem_singleton] at he
        subst he
        exact ⟨ha, Nat.min_le_right _ _, Nat.le_max_right _ _⟩

theorem LiesIn.opened {table : Vector WindowRecord 8} {W : WindowIdx} {a : Addr} (ha : coherentWindow table a = some W)
    (m : Lanes) (d : Word) : LiesIn table (openedBatch W (table[W].screenRow a) a m d) := by
  obtain ⟨hc, hp⟩ := coherentWindow_some ha
  obtain ⟨r1, r2⟩ := screenRow_lt hc
  refine ⟨hp, Nat.le_refl _, r2, ?_⟩
  intro e he
  have : e = ⟨a, d, m⟩ := by simpa [openedBatch] using he
  subst this
  exact ⟨ha, Nat.le_refl _, Nat.le_refl _⟩

/-- The laws that together keep every entry in its window's range: each rests on the others. -/
def WindowLaws (s : State) : Prop :=
  OneReleasing s ∧ OneOpenBatch s ∧ BatchesStand s ∧ LiveTableSound s ∧ BypassHoldsNothing s ∧ DifferingWindowsClose s ∧
    EntriesLieInTheirWindow s

theorem change_differingWindowsClose {s t : State} (hc : Change s t) (h : DifferingWindowsClose s) :
    DifferingWindowsClose t := by
  have h' : s.applyPending = true → ∀ W : WindowIdx, s.staged[W.val] ≠ s.live[W.val] → s.windows[W.val].closing = true := h
  have same : ∀ {t : State}, t.applyPending = s.applyPending → t.staged = s.staged → t.live = s.live →
      (∀ W : WindowIdx, t.windows[W.val].closing = s.windows[W.val].closing) → DifferingWindowsClose t := by
    intro t a b c d hp W hd
    simp only [Fin.getElem_fin, b, c, d] at hd ⊢
    exact h' (a ▸ hp) W hd
  have none : ∀ {t : State}, t.applyPending = false → DifferingWindowsClose t := by
    intro t e hp
    rw [e] at hp
    exact absurd hp (by simp)
  cases hc
  case store W a m d hm hu hW hcl hst =>
    unfold storeHeld
    split
    · exact h
    · refine same rfl rfl rfl ?_
      intro V
      simp only [setWindow_windows, setRecord_windows, windows_set_get]
      split
      · rename_i e
        subst e
        rfl
      · rfl
  case sealBatch W r b ho hb =>
    refine same rfl rfl rfl ?_
    intro V
    simp only [sealRecord_windows, windows_set_get]
    split
    · rename_i e
      subst e
      rfl
    · rfl
  case start r b hi hcc hb =>
    refine same rfl rfl rfl ?_
    intro V
    simp only [takeBatch_windows, windows_set_get]
    split
    · rename_i e
      subst e
      rfl
    · rfl
  case retire r b hp hw hr hb =>
    refine same rfl rfl rfl ?_
    intro V
    simp only [retireRecord_windows, windows_set_get]
    split
    · rename_i e
      subst e
      rfl
    · rfl
  case install hp _ => exact none (by simp)
  case idle => exact same (by simp) (by simp) (by simp) (by intro W; simp)
  case restart => exact none (by simp)
  case stage W r hp => exact none hp
  case applyNow hm hp hcc => exact none hp
  case markClosing hm hp hcc =>
    intro _ W hd
    simp only [Fin.getElem_fin, markClosing_staged, markClosing_live] at hd
    simp [State.differs, hd]
  case drained hm he w hw =>
    subst hw
    unfold completeDrain applyAtBypass
    split
    · exact none (by simp [completeApply])
    · rename_i hp
      exact none (by simpa using hp)
  case discard w hw =>
    unfold applyAtBypass
    split
    · exact none (by simp [completeApply])
    · rename_i hp
      exact none (by simpa [hw] using hp)
  all_goals first
    | exact h
    | exact same (by simp) (by simp) (by simp) (by simp)

theorem change_entriesLie {s t : State} (hc : Change s t) (h : WindowLaws s) : EntriesLieInTheirWindow t := by
  obtain ⟨hr, ho, hb, hl, hn, hd, h⟩ := h
  have h' : ∀ (r : RecordIdx) (b : BatchRecord), s.records[r.val] = some b → LiesIn s.live b := h
  have of : ∀ {t : State}, (∀ (r : RecordIdx) (b : BatchRecord), t.records[r.val] = some b → LiesIn t.live b) →
      EntriesLieInTheirWindow t := fun k => k
  have same : ∀ {t : State}, t.records = s.records → t.live = s.live → EntriesLieInTheirWindow t := by
    intro t e k
    apply of
    rw [e, k]
    exact h'
  have upd : ∀ {t : State} {r : RecordIdx} {x : Option BatchRecord}, t.records = s.records.set r.val x r.isLt → t.live = s.live →
      (∀ b, x = some b → LiesIn s.live b) → EntriesLieInTheirWindow t := by
    intro t r x e k hx
    apply of
    intro q b hq
    rw [e, records_set_get] at hq
    rw [k]
    split at hq
    · exact hx b hq
    · exact h' q b hq
  have empty : ∀ {t : State}, (∀ r : RecordIdx, t.records[r.val] = none) → EntriesLieInTheirWindow t := by
    intro t e
    apply of
    intro r b hr
    rw [e] at hr
    exact absurd hr (by simp)
  cases hc
  case store W a m d hm hu hW hcl hst =>
    unfold storeHeld
    split
    · exact h
    · rename_i r hr
      refine upd (r := r) rfl rfl ?_
      rintro c hc
      injection hc with hc
      subst hc
      rcases storeTarget_cases hr with ht | ⟨_, hn⟩
      · obtain ⟨b, hb, _, hw⟩ := hb.1 W r ht
        rw [hb]
        subst hw
        exact (h' r b hb).add hW m d
      · simp only [Fin.getElem_fin, hn]
        exact LiesIn.opened hW m d
  case sealBatch W r b ho hb =>
    refine upd (sealRecord_records ..) rfl ?_
    rintro c ⟨⟩
    exact h' r b hb
  case mark reason r =>
    refine upd (markRecord_records ..) (by simp) ?_
    rintro c hc
    rw [Option.map_eq_some_iff] at hc
    obtain ⟨b, hb, rfl⟩ := hc
    exact h' r b hb
  case start r b hi hcc hb =>
    refine upd (takeBatch_records ..) rfl ?_
    rintro c ⟨⟩
    exact h' r b hb
  case late r b hre hb =>
    refine upd (setRecord_records ..) rfl ?_
    rintro c ⟨⟩
    exact h' r b hb
  case removeEntry r b hp hw hr hb =>
    refine upd (removeEntry_records ..) rfl ?_
    rintro c ⟨⟩
    obtain ⟨k1, k2, k3, k4⟩ := h' r b hb
    exact ⟨k1, k2, k3, fun e he => k4 e (List.mem_of_mem_tail he)⟩
  case retire r b hp hw hr hb => exact upd (retireRecord_records ..) rfl (by intro c hc; exact absurd hc (by simp))
  case restart => exact empty (by intro r; simp)
  case discard w hw => exact empty (by intro r; simp [hw])
  case drained hm he w hw => subst hw; exact empty (by intro r; simpa using storeEmpty_iff.mp (by assumption) r)
  case applyNow hm hp hcc =>
    have := (BH_iff s).mp hn hm
    exact empty this
  case install hp he =>
    apply of
    intro r b hq
    simp only [installStaged_records] at hq
    have hB := hasBatch_of_record hq ho hr hb
    have hcl : s.windows[b.window.val].closing = false := by
      unfold State.closingEmpty at he
      rw [List.all_eq_true] at he
      have := he b.window (List.mem_finRange _)
      rw [hB] at this
      simpa using this
    have he : s.staged[b.window] = s.live[b.window] := by
      by_contra hne
      have := hd hp b.window hne
      rw [Fin.getElem_fin, hcl] at this
      exact absurd this (by simp)
    simp only [installStaged_live]
    exact (h' r b hq).congr (hl.2 hp).1 he
  all_goals first
    | exact h
    | exact same (by simp) (by simp)

end Sys2Proof.Machine
end

