-- ==== Sys2Proof/Laws/KeepsPorts.lean ====
section
/-! SUPPORT. The laws of the release share, of what the engine writes, of the timing, of the link and of the upstream port: each is kept by
every elementary change. -/

namespace Sys2Proof.Machine

/-! ## The share, and what the engine claims -/

/-- the numeric part over grant -/
theorem grant_share (s : State) (hp : s.port.passedOver ≤ s.timing.share) (h0 : s.port.releaseClaim = none → s.port.passedOver = 0)
   (hw : s.engine.write = .waiting ↔ s.port.releaseClaim.isSome) :
   (grant s).port.passedOver ≤ s.timing.share ∧ ((grant s).port.releaseClaim = none → (grant s).port.passedOver = 0) ∧ ((grant s).engine.write = .waiting ↔ (grant s).port.releaseClaim.isSome)
   ∧ ((grant s).engine.write = .none → s.engine.write = .none) ∧ (s.engine.write = .none → (grant s).engine.write = .none) := by
  unfold grant
  split
  · unfold arbitrate
    cases hu : s.port.upstreamClaim <;> cases hr : s.port.releaseClaim <;> simp only
    · exact ⟨hp, h0, hw, id, id⟩
    · simp [grantRelease]
      rw [hr] at hw; simp at hw; simp [hw]
    · simp [grantUpstream, hr]
      rw [hr] at hw; simpa using hw
    · split
      · simp [grantUpstream, hr]; rw [hr] at hw; simp at hw; simp [hw]; omega
      · simp [grantRelease]
        rw [hr] at hw; simp at hw; simp [hw]
  · exact ⟨hp, h0, hw, id, id⟩

theorem change_releaseShareBound {s t : State} (hc : Change s t) (hbh : BypassHoldsNothing s) (h : ReleaseShareBound s) :
    ReleaseShareBound t := by
  have hb := (BH_iff s).mp hbh
  obtain ⟨h1, h2, h3, h4, h5, h6⟩ := h
  -- setter: records set with some
  have setR : ∀ {t : State} {r : RecordIdx} {x : Option BatchRecord}, t.records = s.records.set r.val x r.isLt → (s.records[r].isSome → x.isSome) →
      t.timing = s.timing → t.port = s.port → t.engine = s.engine → t.mode = s.mode → ReleaseShareBound t := by
    intro t r x hr hx a b c d
    refine ⟨by rw [a, b]; exact h1, by rw [b]; exact h2, by rw [b, c]; exact h3, by rw [c]; exact h4, ?_, by rw [c, d]; exact h6⟩
    rw [c]; intro hp
    obtain ⟨q, bq, hq, hbq⟩ := h5 hp
    refine ⟨q, ?_⟩
    by_cases e : r = q
    · subst e
      have := hx (by rw [hbq]; rfl)
      obtain ⟨y, hy⟩ := Option.isSome_iff_exists.mp this
      exact ⟨y, hq, by rw [Fin.getElem_fin, hr, records_set_get, if_pos rfl, hy]⟩
    · exact ⟨bq, hq, by rw [Fin.getElem_fin, hr, records_set_get, if_neg e]; exact hbq⟩
  have grantR : ∀ {u : State}, u.port.passedOver ≤ u.timing.share → (u.port.releaseClaim = none → u.port.passedOver = 0) → (u.engine.write = .waiting ↔ u.port.releaseClaim.isSome) →
      (u.engine.phase = .idle → u.engine.write = .none ∧ u.engine.releasing = none) → (u.engine.phase ≠ .idle → ∃ r b, u.engine.releasing = some r ∧ u.records[r] = some b) →
      (u.mode = .bypass → u.engine.phase = .idle) → ReleaseShareBound (grant u) := by
    intro u a b c d e f
    obtain ⟨g1, g2, g3, g4, g5⟩ := grant_share u a b c
    refine ⟨by simpa using g1, g2, g3, ?_, by simpa using e, by simpa using f⟩
    intro hp
    have := d (by simpa using hp)
    exact ⟨g5 this.1, by simpa using this.2⟩
  cases hc
  case sendWrite a m d hu hcl => exact grantR h1 h2 h3 h4 h5 h6
  case sendRead a m hu => exact grantR h1 h2 h3 h4 h5 h6
  case placeRelease c hp hcc =>
    exact grantR h1 (by simp) (by simp) (by intro e; exact absurd e hp) h5 h6
  case release hr hd =>
    unfold releaseDrdy; rw [if_neg (by simp [hr])]
    exact grantR h1 h2 h3 h4 h5 h6
  case store W a m d hm hu hW hcl hst =>
    unfold storeHeld
    split
    · exact ⟨h1,h2,h3,h4,h5,h6⟩
    · rename_i r hr; exact setR (r := r) rfl (by simp) rfl rfl rfl rfl
  case sealBatch W r b ho hb => exact setR (sealRecord_records ..) (by simp) (by simp) (by simp) (by simp) (by simp)
  case mark reason r => exact setR (markRecord_records ..) (by simp) (by simp) (by simp) (by simp) (by simp)
  case late r b hre hb =>  exact setR (setRecord_records ..) (by simp) (by simp) (by simp) (by simp) (by simp)
  case start r b hi hcc hbb =>
    have hw := (h4 hi).1
    rw [hw] at h3
    refine ⟨by simpa using h1, by simpa using h2, by simpa using h3, by simp, ?_, ?_⟩
    · intro _
      exact ⟨r, _, by simp, by rw [Fin.getElem_fin, takeBatch_records, records_set_get, if_pos rfl]⟩
    · intro hm; have := hb (by simpa using hm) r
      rw [Fin.getElem_fin, this] at hbb; simp at hbb
  case removeEntry r b hp hw hr hbb =>
    rw [hw] at h3
    refine ⟨by simpa using h1, by simpa using h2, by simpa using h3, ?_, ?_, ?_⟩
    · intro e; exact absurd (hp.symm.trans e) (by simp)
    · intro _
      exact ⟨r, _, by simpa using hr, by rw [Fin.getElem_fin, removeEntry_records, records_set_get, if_pos rfl]⟩
    · intro hm; have := h6 (by simpa using hm); rw [hp] at this; simp at this
  case receiptPhase hp hw => exact ⟨h1, h2, h3, by simp, fun _ => h5 hp, fun hm => absurd (h6 hm) hp⟩
  case retire r b hp hw hr hbb =>
    have : s.port.releaseClaim = none := by
      cases hc : s.port.releaseClaim with
      | none => rfl
      | some c => rw [hc] at h3; exact absurd (h3.mpr rfl) hw
    refine ⟨by simpa using h1, by simpa using h2, ?_, by simp [Engine.reset], by simp [Engine.reset], by simp [Engine.reset]⟩
    simp [Engine.reset, this]
  case restart => 
    refine ⟨by simp [DownstreamPort.restart], by simp [DownstreamPort.restart], by simp [Engine.reset, DownstreamPort.restart], by simp [Engine.reset], by simp [Engine.reset], by simp [Engine.reset]⟩
  case discard w hw =>
    have hpass : (endRelease (dropAll s)).port.passedOver = 0 := by
      unfold endRelease withdrawRelease
      split
      · rfl
      · rename_i hc
        exact h2 (by simpa using hc)
    have e1 : (applyAtBypass (changeMode .bypass w)).st.port = (endRelease (dropAll s)).port := by simp [hw]
    have e2 : (applyAtBypass (changeMode .bypass w)).st.engine = Engine.reset := by simp [hw]
    refine ⟨by rw [e1, hpass]; omega, by rw [e1]; intro _; exact hpass, by rw [e1, e2]; simp [Engine.reset], by rw [e2]; simp [Engine.reset], by rw [e2]; simp [Engine.reset], by rw [e2]; simp [Engine.reset]⟩
  case drained hm he w hw =>
    subst hw
    have hi : w.st.engine.phase = .idle := by
      by_contra hp
      obtain ⟨r, b, _, hbb⟩ := h5 hp
      rw [Fin.getElem_fin, storeEmpty_iff.mp he r] at hbb; simp at hbb
    refine ⟨by simpa using h1, by simpa using h2, by simpa using h3, by simpa using h4, by simpa using h5, by simpa using fun _ => hi⟩
  case timing v hm hr hf k hk hk' =>
    have hi := h6 hm
    have hw := (h4 hi).1
    rw [hw] at h3
    have : s.port.releaseClaim = none := by
      cases hc : s.port.releaseClaim with
      | none => rfl
      | some c => rw [hc] at h3; simp at h3
    exact ⟨by rw [h2 this]; omega, h2, by simpa [hw] using h3, h4, h5, h6⟩
  case mode m hm _ => exact ⟨h1,h2,h3,h4,h5, fun e => absurd e hm⟩
  all_goals exact ⟨by simpa using h1, by simpa using h2, by simpa using h3, by simpa using h4, by simpa using h5, by simpa using h6⟩

/-- A claim carries the releasing batch's first entry. -/
def CarriesFirst (s : State) (c : Claim) : Prop :=
  ∃ r b e rest, s.engine.releasing = some r ∧ s.records[r] = some b ∧ b.entries = e :: rest ∧
    c = .entryWrite e.addr e.lanes e.data

/-- `ReleaseWritesTheFirstEntry` in terms of `CarriesFirst`. -/
theorem releaseWritesTheFirstEntry_iff (s : State) : ReleaseWritesTheFirstEntry s ↔
    (∀ c, s.port.upstreamClaim = some c → c.ofUpstream = true) ∧
      (s.engine.phase = .entries → ∀ c, s.port.releaseClaim = some c → CarriesFirst s c) ∧
      (s.engine.phase = .entries → s.engine.write = .inFlight → ∀ a m d, s.port.transaction = some (.entryWrite a m d) →
        CarriesFirst s (.entryWrite a m d)) := by
  unfold ReleaseWritesTheFirstEntry
  have hk : ∀ c : Claim, ((∃ a m d, c = .directWrite a m d) ∨ ∃ a, c = .memoryRead a) ↔ c.ofUpstream = true := by
    intro c
    cases c <;> simp [Claim.ofUpstream]
  simp only [hk]
  refine and_congr_right fun _ => and_congr_right fun _ => ?_
  refine forall_congr' fun _ => forall_congr' fun _ => forall_congr' fun a => forall_congr' fun m => forall_congr' fun d =>
    forall_congr' fun _ => ?_
  unfold CarriesFirst
  simp only [Claim.entryWrite.injEq]

theorem CarriesFirst.congr {s t : State} {c : Claim} (h : CarriesFirst s c) (he : t.engine.releasing = s.engine.releasing)
    (hr : ∀ (r : RecordIdx) (b : BatchRecord), s.engine.releasing = some r → s.records[r.val] = some b →
      ∃ b', t.records[r.val] = some b' ∧ b'.entries = b.entries) : CarriesFirst t c := by
  obtain ⟨r, b, e, rest, h1, h2, h3, h4⟩ := h
  obtain ⟨b', k1, k2⟩ := hr r b h1 h2
  exact ⟨r, b', e, rest, he.trans h1, k1, k2.trans h3, h4⟩

theorem grant_first {u : State} (h : ReleaseWritesTheFirstEntry u) : ReleaseWritesTheFirstEntry (grant u) := by
  rw [releaseWritesTheFirstEntry_iff] at *
  obtain ⟨h1, h2, h3⟩ := h
  have same : ∀ {t : State} {c : Claim}, t.records = u.records → t.engine.releasing = u.engine.releasing → CarriesFirst u c →
      CarriesFirst t c := by
    intro t c a b k
    exact k.congr b fun r x _ hx => ⟨x, by rw [a]; exact hx, rfl⟩
  have up : ∀ (c : Claim) (n : Nat), u.port.upstreamClaim = some c →
      (∀ c, (grantUpstream c n u).port.upstreamClaim = some c → c.ofUpstream = true) ∧
        ((grantUpstream c n u).engine.phase = .entries → ∀ x, (grantUpstream c n u).port.releaseClaim = some x →
          CarriesFirst (grantUpstream c n u) x) ∧
        ((grantUpstream c n u).engine.phase = .entries → (grantUpstream c n u).engine.write = .inFlight →
          ∀ a m d, (grantUpstream c n u).port.transaction = some (.entryWrite a m d) →
            CarriesFirst (grantUpstream c n u) (.entryWrite a m d)) := by
    intro c n hc
    refine ⟨by intro x hx; exact absurd hx (by simp), fun hp x hx => same rfl rfl (h2 hp x hx), ?_⟩
    intro _ _ a m d ht
    injection ht with ht
    subst ht
    exact absurd (h1 _ hc) (by simp [Claim.ofUpstream])
  have rel : ∀ c : Claim, u.port.releaseClaim = some c →
      (∀ c', (grantRelease c u).port.upstreamClaim = some c' → c'.ofUpstream = true) ∧
        ((grantRelease c u).engine.phase = .entries → ∀ x, (grantRelease c u).port.releaseClaim = some x →
          CarriesFirst (grantRelease c u) x) ∧
        ((grantRelease c u).engine.phase = .entries → (grantRelease c u).engine.write = .inFlight →
          ∀ a m d, (grantRelease c u).port.transaction = some (.entryWrite a m d) →
            CarriesFirst (grantRelease c u) (.entryWrite a m d)) := by
    intro c hc
    refine ⟨h1, by intro _ x hx; exact absurd hx (by simp), ?_⟩
    intro hp _ a m d ht
    injection ht with ht
    subst ht
    exact same rfl rfl (h2 hp _ hc)
  unfold grant
  split
  · unfold arbitrate
    split
    · exact ⟨h1, h2, h3⟩
    · rename_i c hc _
      exact up c 0 hc
    · rename_i c _ hc
      exact rel c hc
    · rename_i c r hc hr
      split
      · exact up c _ hc
      · exact rel r hr
  · exact ⟨h1, h2, h3⟩

theorem change_releaseWritesTheFirstEntry {s t : State} (hc : Change s t) (hb : BatchesStand s) (hs : ReleaseShareBound s)
    (h : ReleaseWritesTheFirstEntry s) : ReleaseWritesTheFirstEntry t := by
  obtain ⟨b1, b2, _, _, b5⟩ := hb
  simp only [Fin.getElem_fin] at b1 b2 b5
  obtain ⟨_, _, s3, s4, _, _⟩ := hs
  have h0 := h
  rw [releaseWritesTheFirstEntry_iff] at h
  obtain ⟨h1, h2, h3⟩ := h
  have noClaim : s.engine.write ≠ .waiting → s.port.releaseClaim = none := by
    intro hw
    cases hc : s.port.releaseClaim with
    | none => rfl
    | some c => exact absurd (s3.mpr (by rw [hc]; rfl)) hw
  have keep : ∀ {t : State}, t.port.upstreamClaim = s.port.upstreamClaim →
      (∀ c, t.port.releaseClaim = some c → s.port.releaseClaim = some c) →
      (∀ c, t.port.transaction = some c → s.port.transaction = some c) →
      t.engine.phase = s.engine.phase → t.engine.write = s.engine.write → t.engine.releasing = s.engine.releasing →
      (∀ (r : RecordIdx) (b : BatchRecord), s.engine.releasing = some r → s.records[r.val] = some b →
        ∃ b', t.records[r.val] = some b' ∧ b'.entries = b.entries) → ReleaseWritesTheFirstEntry t := by
    intro t k1 k2 k3 k4 k5 k6 k7
    rw [releaseWritesTheFirstEntry_iff, k1, k4, k5]
    exact ⟨h1, fun hp c hc => (h2 hp c (k2 c hc)).congr k6 k7, fun hp hw a m d ht => (h3 hp hw a m d (k3 _ ht)).congr k6 k7⟩
  have same : ∀ {t : State}, t.port.upstreamClaim = s.port.upstreamClaim →
      (∀ c, t.port.releaseClaim = some c → s.port.releaseClaim = some c) →
      (∀ c, t.port.transaction = some c → s.port.transaction = some c) → t.engine = s.engine → t.records = s.records →
      ReleaseWritesTheFirstEntry t := by
    intro t k1 k2 k3 k4 k5
    exact keep k1 k2 k3 (by rw [k4]) (by rw [k4]) (by rw [k4]) fun r b _ hb => ⟨b, by rw [k5]; exact hb, rfl⟩
  have upd : ∀ {t : State} {r : RecordIdx} {x : Option BatchRecord}, t.records = s.records.set r.val x r.isLt →
      t.port = s.port → t.engine = s.engine →
      (∀ b, s.engine.releasing = some r → s.records[r.val] = some b → ∃ b', x = some b' ∧ b'.entries = b.entries) →
      ReleaseWritesTheFirstEntry t := by
    intro t r x k1 k2 k3 k4
    refine keep (by rw [k2]) (by rw [k2]; exact fun _ h => h) (by rw [k2]; exact fun _ h => h) (by rw [k3]) (by rw [k3])
      (by rw [k3]) ?_
    intro q b hq hb
    rw [k1, records_set_get]
    split
    · rename_i e
      subst e
      exact k4 b hq hb
    · exact ⟨b, hb, rfl⟩
  have idle : ∀ {t : State}, t.port.upstreamClaim = s.port.upstreamClaim → t.engine.phase ≠ .entries →
      ReleaseWritesTheFirstEntry t := by
    intro t k1 k2
    rw [releaseWritesTheFirstEntry_iff, k1]
    exact ⟨h1, fun hp => absurd hp k2, fun hp => absurd hp k2⟩
  have none : ∀ {t : State}, t.port.upstreamClaim = s.port.upstreamClaim → t.port.releaseClaim = none →
      t.engine.write ≠ .inFlight → ReleaseWritesTheFirstEntry t := by
    intro t k1 k2 k3
    rw [releaseWritesTheFirstEntry_iff, k1, k2]
    exact ⟨h1, fun _ _ hc => absurd hc (by simp), fun _ hw => absurd hw k3⟩
  -- a record that the engine does not name
  have other : ∀ (r : RecordIdx) (b : BatchRecord), s.records[r.val] = some b → b.state ≠ .releasing →
      s.engine.releasing ≠ some r := by
    intro r b hb hs hr
    obtain ⟨b', hb', hr'⟩ := b5 r hr
    rw [hb] at hb'
    injection hb' with hb'
    subst hb'
    exact hs hr'
  cases hc
  case sendWrite a m d hu hcl =>
    refine grant_first ?_
    rw [releaseWritesTheFirstEntry_iff]
    refine ⟨?_, h2, h3⟩
    intro x hx
    injection hx with hx
    subst hx
    rfl
  case sendRead a m hu =>
    refine grant_first ?_
    rw [releaseWritesTheFirstEntry_iff]
    refine ⟨?_, h2, h3⟩
    intro x hx
    injection hx with hx
    subst hx
    rfl
  case placeRelease c hp hcc =>
    refine grant_first ?_
    rw [releaseWritesTheFirstEntry_iff]
    refine ⟨h1, ?_, by intro _ hw; exact absurd hw (by simp)⟩
    intro hph x hx
    injection hx with hx
    subst hx
    obtain ⟨r, b, k1, k2, k3, _⟩ := hcc
    obtain ⟨e, rest, k4, k5⟩ := k3 hph
    exact ⟨r, b, e, rest, k1, k2, k4, k5⟩
  case release hr hd =>
    unfold releaseDrdy
    rw [if_neg (by simp [hr])]
    exact grant_first h0
  case store W a m d hm hu hW hcl hst =>
    unfold storeHeld
    split
    · exact h0
    · rename_i r hr
      refine upd (r := r) rfl rfl rfl ?_
      intro b hre hb
      rcases storeTarget_cases hr with ht | ⟨_, hn⟩
      · obtain ⟨c, hc, hso, _⟩ := b1 W r ht
        exact absurd hre (other r c hc (by rw [hso]; simp))
      · rw [hn] at hb
        exact absurd hb (by simp)
  case sealBatch W r b ho hb =>
    refine upd (sealRecord_records ..) rfl rfl ?_
    intro c hre hc
    obtain ⟨x, hx, hso, _⟩ := b1 W r ho
    exact absurd hre (other r x hx (by rw [hso]; simp))
  case mark reason r =>
    refine upd (markRecord_records ..) (by simp) (by simp) ?_
    intro b _ hb
    exact ⟨b.force reason, by rw [Fin.getElem_fin, hb]; rfl, rfl⟩
  case start r b hi hcc hb =>
    have hw := (s4 hi).1
    exact none rfl (noClaim (by rw [hw]; simp)) (by simp)
  case late r b hre hb =>
    refine upd (setRecord_records ..) rfl rfl ?_
    intro c _ hc
    simp only [Fin.getElem_fin] at hb
    rw [hb] at hc
    injection hc with hc
    subst hc
    exact ⟨_, rfl, rfl⟩
  case removeEntry r b hp hw hr hb => exact none rfl (noClaim (by rw [hw]; simp)) (by simp)
  case retire r b hp hw hr hb => exact idle rfl (by simp [Engine.reset])
  case receiptPhase hp hw => exact idle rfl (by simp)
  case completeSent c a hc hk => exact same rfl (fun _ h => h) (fun _ h => absurd h (by simp)) rfl rfl
  case acknowledge c hc hk => exact same rfl (fun _ h => h) (fun _ h => absurd h (by simp)) rfl rfl
  case restart => exact idle (by simp [DownstreamPort.restart]) (by simp [Engine.reset])
  case discard w hw =>
    refine idle ?_ (by simp [hw, Engine.reset])
    simp only [applyAtBypass_port, changeMode_port, hw]
    unfold endRelease withdrawRelease
    split <;> rfl
  case drained hm he w hw =>
    subst hw
    exact same (by simp) (fun _ h => by simpa using h) (fun _ h => by simpa using h) (by simp) (by simp)
  case capture =>
    exact keep rfl (fun _ h => h) (fun _ h => h) rfl rfl rfl fun _ b _ hb => ⟨b, hb, rfl⟩
  all_goals exact same (by simp) (fun _ h => by simpa using h) (fun _ h => by simpa using h) (by simp) (by simp)

/-! ## The timing and the fit of the tables -/

theorem change_timingWithinRanges {s t : State} (hc : Change s t) (h : TimingWithinRanges s) :
    TimingWithinRanges t := by
  have h0 := h
  obtain ⟨h7, h1, h2, h3, h4, h5, h6⟩ := h
  have line : ∀ {t : State}, t.timing = s.timing → (∀ l, t.tracker.line = some l → l ≤ 4095) → TimingWithinRanges t := by
    intro t e k
    unfold TimingWithinRanges
    rw [e]
    exact ⟨h7, h1, h2, h3, h4, h5, k⟩
  cases hc
  case afterLine T hT =>
    refine line rfl ?_
    intro l hl'
    obtain ⟨_, hT2, _⟩ := h1 T hT
    have count : ∀ l, s.tracker.countOn.line = some l → l ≤ 4095 := by
      intro l hl
      unfold Tracker.countOn at hl
      split at hl
      · rename_i hlt
        injection hl with hl
        have : s.tracker.line.getD 0 < 4095 := hlt
        omega
      · exact h6 l hl
    unfold Tracker.afterLine at hl'
    split at hl'
    · exact h6 l hl'
    · exact count l hl'
    · rename_i hst
      split at hl'
      · exact count l hl'
      · rename_i hn
        injection hl' with hl'
        simp [Tracker.runsLong, hst] at hn
        omega
  case afterFrame T hT =>
    refine line rfl ?_
    intro l hl'
    injection hl' with hl'
    omega
  case lose => exact line rfl (by intro l hl'; exact absurd hl' (by simp [Tracker.lose]))
  case restart => exact line rfl (by intro l hl'; exact absurd hl' (by simp [Tracker.reset]))
  case timing v hm hr hf k hk hk' =>
    unfold timingInRange at hr
    simp only [Bool.and_eq_true, decide_eq_true_eq] at hr
    have r1 := v.rate.isLt
    have r2 := v.stallLimit.isLt
    have r3 := v.supervision.isLt
    have r4 := v.share.isLt
    refine ⟨fun e => absurd e (by simp [timingOf]), ?_, ?_, ?_, ?_, ?_, ?_⟩
    · intro T hT
      injection hT with hT
      subst hT
      simp only [timingOf]
      omega
    · simp only [timingOf]
      omega
    · simp only [timingOf]
      omega
    · simp only [timingOf]
      omega
    · simp only [timingOf]
      omega
    · intro l hl'
      rcases hk' with e | e
      · exact h6 l (e.symm.trans hl')
      · exact absurd (e.symm.trans hl') (by simp)
  case drained hm he w hw => subst hw; exact line (by simp) (by simpa using h6)
  case discard w hw => exact line (by simp [hw]) (by simpa [hw] using h6)
  all_goals first
    | exact h0
    | exact line (by simp) (by simpa using h6)

theorem change_liveTableFits {s t : State} (hc : Change s t) (hp : ClosingOnlyWhilePending s) (h : LiveTableFits s) :
    LiveTableFits t := by
  have h0 := h
  obtain ⟨h1, h2, h3⟩ := h
  have fits : ∀ {table : Vector WindowRecord 8} {n : Nat}, tableFits table n = true → FitsActive table n := by
    intro table n h W hW
    unfold tableFits at h
    rw [List.all_eq_true] at h
    have := h W (List.mem_finRange W)
    rw [Bool.or_eq_true, beq_iff_eq, decide_eq_true_eq] at this
    exact this.resolve_left hW
  have checked : checkTable s.staged s.timing = none → s.timing.lines ≠ none ∧ FitsActive s.staged s.timing.active := by
    intro h
    unfold checkTable at h
    split at h
    · exact absurd h (by simp)
    · rename_i h1
      split at h
      · exact absurd h (by simp)
      · split at h
        · exact absurd h (by simp)
        · rename_i h3
          exact ⟨by simpa using h1, fits (by simpa using h3)⟩
  have same : ∀ {t : State}, t.timing = s.timing → t.live = s.live → t.staged = s.staged →
      (t.applyPending = true → s.applyPending = true) → (s.timing.lines = none → s.mode = .bypass → t.mode = .bypass) →
      LiveTableFits t := by
    intro t a b c d e
    unfold LiveTableFits
    rw [a, b, c]
    exact ⟨h1, fun hl => ⟨e hl (h2 hl).1, (h2 hl).2⟩, fun hp => h3 (d hp)⟩
  -- the staged table becomes live
  have installs : ∀ {t : State}, t.timing = s.timing → t.live = s.staged → t.applyPending = false →
      s.applyPending = true → LiveTableFits t := by
    intro t a b c d
    unfold LiveTableFits
    rw [a, b, c]
    refine ⟨fun _ => h3 d, ?_, fun e => absurd e (by simp)⟩
    intro hl
    exact absurd (h2 hl).1 (hp.1 d)
  cases hc
  case install hp' _ => exact installs (by simp) (by simp) (by simp) hp'
  case mode m hm hT =>
    refine same rfl rfl rfl (fun h => h) ?_
    intro hl hb
    rcases hT with hT | hT
    · exact absurd hb hT
    · rw [hl] at hT
      exact absurd hT (by simp)
  case drained hm he w hw =>
    subst hw
    unfold completeDrain applyAtBypass
    split
    · rename_i hp'
      exact installs (by simp [completeApply]) (by simp [completeApply]) (by simp [completeApply]) (by simpa using hp')
    · exact same (by simp) (by simp) (by simp) (by simp) (fun _ _ => rfl)
  case discard w hw =>
    unfold applyAtBypass
    split
    · rename_i hp'
      exact installs (by simp [completeApply, hw]) (by simp [completeApply, hw]) (by simp [completeApply])
        (by simpa [hw] using hp')
    · exact same (by simp [hw]) (by simp [hw]) (by simp [hw]) (by simp [hw]) (fun _ _ => rfl)
  case restart => exact same (by simp) (by simp) (by simp) (by simp) (by simp)
  case timing v hm hr hf k hk hk' =>
    refine ⟨fun _ => fits hf, fun hl => absurd hl (by simp [timingOf]), ?_⟩
    intro hp'
    exact absurd hm (hp.1 hp')
  case stage W r hp' =>
    exact ⟨h1, h2, fun h => absurd (hp'.symm.trans h) (by simp)⟩
  case applyNow hm hp' hcc =>
    exact ⟨fun _ => (checked hcc).2, fun hl => absurd hl (checked hcc).1, h3⟩
  case markClosing hm hp' hcc =>
    exact ⟨by simpa using h1, by simpa using h2, fun _ => by simpa using (checked hcc).2⟩
  all_goals first
    | exact h0
    | exact same (by simp) (by simp) (by simp) (by simp) (by simp)

/-! ## The link and the upstream port -/

theorem change_linkWithinBounds {s t : State} (hc : Change s t) (h : LinkWithinBounds s) : LinkWithinBounds t := by
  have same : ∀ {t : State}, t.link = s.link → LinkWithinBounds t := by
    intro t e
    unfold LinkWithinBounds
    rw [e]
    exact h
  cases hc
  case link l hl => exact hl h
  case drained hm he w hw => subst hw; exact same (by simp)
  case discard w hw => exact same (by simp [hw])
  all_goals exact same (by simp)

theorem change_upstreamPortSound {s t : State} (hc : Change s t) (h : UpstreamPortSound s) : UpstreamPortSound t := by
  have same : ∀ {t : State}, t.upstream = s.upstream → UpstreamPortSound t := by
    intro t e
    unfold UpstreamPortSound
    rw [e]
    exact h
  cases hc
  case urdy =>
    obtain ⟨h1, h2, h3, h4, h5, h6, h7⟩ := h
    exact ⟨h1, h2, h3, h4, h5, by simp, by simp⟩
  case complete a hu => exact ⟨by simp, by simp, by simp, by simp, by simp, by simp, by simp⟩
  case completeSent c a hc hk => exact ⟨by simp, by simp, by simp, by simp, by simp, by simp, by simp⟩
  case sendWrite a m d hu hcl => exact ⟨by simp, by simp, by simp, by simp, by simp, by simp, by simp⟩
  case sendRead a m hu => exact ⟨by simp, by simp, by simp, by simp, by simp, by simp, by simp⟩
  case wait a m d why W hu hcl => exact ⟨by simp, by simp, by simp, by simp, by simp, by simp, by simp⟩
  case cause a m d why W hp ht hcl =>
    obtain ⟨h1, h2, h3, h4, h5, h6, h7⟩ := h
    exact ⟨h1, h2, h3, by simp, by simp [hp], h6, h7⟩
  case restartTimer hp =>
    obtain ⟨h1, h2, h3, h4, h5, h6, h7⟩ := h
    exact ⟨h1, h2, h3, h4, fun e => absurd hp e, h6, h7⟩
  case time n =>
    obtain ⟨h1, h2, h3, h4, h5, h6, h7⟩ := h
    refine ⟨h1, h2, h3, h4, ?_, h6, h7⟩
    intro e
    obtain ⟨k1, k2, k3⟩ := h5 e
    exact ⟨k1, k2, by show countDown s.upstream.stallTimer = none; rw [k3]; rfl⟩
  case drained hm he w hw => subst hw; exact same (by simp)
  case discard w hw => exact same (by simp [hw])
  all_goals exact same (by simp)

/-- A write that Table 6-2 sends direct has no entry in the store. -/
theorem noEntry_of_direct {s : State} (h : WindowLaws s) {a : Addr} (hc : s.classify a = .direct) (r : RecordIdx)
    (b : BatchRecord) (hb : s.records[r.val] = some b) (e : Entry) (he : e ∈ b.entries) : e.addr ≠ a := by
  obtain ⟨hr, ho, hs, _, hn, _, hl⟩ := h
  rintro rfl
  obtain ⟨_, _, _, hcov⟩ := hl r b hb
  have hW := (hcov e he).1
  have hmode : s.mode ≠ .bypass := by
    intro hm
    have := (BH_iff s).mp hn hm r
    rw [hb] at this
    exact absurd this (by simp)
  -- the batch is among its window's
  have hmem : r ∈ s.batchesOf b.window := by
    unfold State.batchesOf
    simp only [Fin.getElem_fin, List.mem_append, Option.mem_toList, List.mem_reverse]
    cases hst : b.state with
    | opened => exact Or.inl (Or.inl (by simpa using ho r b hb hst))
    | sealed => exact Or.inl (Or.inr (by simpa using hs.2.2.1 r b hb hst))
    | releasing =>
      right
      unfold State.releasingOf
      rw [hr.1 r b hb hst]
      simp [hb]
  have hheld : s.heldFor e.addr ≠ [] := by
    unfold State.heldFor
    rw [hW]
    have hf : (b.find e.addr).isSome = true := by
      unfold BatchRecord.find
      rw [List.find?_isSome]
      exact ⟨e, he, by simp⟩
    obtain ⟨x, hx⟩ := Option.isSome_iff_exists.mp hf
    intro hnil
    rw [List.filterMap_eq_nil_iff] at hnil
    have := hnil r hmem
    simp [hb, hx] at this
  unfold State.classify at hc
  rw [hW] at hc
  cases hm : s.mode with
  | bypass => exact hmode hm
  | active =>
    rw [hm] at hc
    dsimp only at hc
    split at hc
    · exact absurd hc (by simp)
    · split at hc <;> exact absurd hc (by simp)
  | draining =>
    rw [hm] at hc
    dsimp only at hc
    split at hc
    · exact absurd hc (by simp)
    · split at hc
      · rename_i hemp
        exact hheld (List.isEmpty_iff.mp hemp)
      · exact absurd hc (by simp)

theorem change_directWriteMeetsNoEntry {s t : State} (hc : Change s t) (hw : WindowLaws s) (h : DirectWriteMeetsNoEntry s) :
    DirectWriteMeetsNoEntry t := by
  have keep : ∀ {t : State}, (t.upstream.phase = .direct → t.upstream.phase = s.upstream.phase ∧
        t.upstream.transaction = s.upstream.transaction) →
      (∀ (r : RecordIdx) (b : BatchRecord), t.records[r.val] = some b →
        ∃ q : RecordIdx, ∃ c, s.records[q.val] = some c ∧ ∀ e ∈ b.entries, ∃ f ∈ c.entries, f.addr = e.addr) →
      DirectWriteMeetsNoEntry t := by
    intro t k1 k2 hp a m d ht r b hb e he
    obtain ⟨u1, u2⟩ := k1 hp
    obtain ⟨q, c, hc, hs⟩ := k2 r b hb
    obtain ⟨f, hf, hfe⟩ := hs e he
    rw [← hfe]
    exact h (u1 ▸ hp) a m d (u2 ▸ ht) q c hc f hf
  have other : ∀ {t : State}, t.upstream.phase ≠ .direct → DirectWriteMeetsNoEntry t := fun k hp => absurd hp k
  have same : ∀ {t : State}, t.upstream.phase = s.upstream.phase → t.upstream.transaction = s.upstream.transaction →
      t.records = s.records → DirectWriteMeetsNoEntry t := by
    intro t k1 k2 k3
    refine keep (fun _ => ⟨k1, k2⟩) ?_
    intro r b hb
    exact ⟨r, b, by rw [← k3]; exact hb, fun e he => ⟨e, he, rfl⟩⟩
  have upd : ∀ {t : State} {r : RecordIdx} {x : Option BatchRecord}, t.records = s.records.set r.val x r.isLt →
      t.upstream = s.upstream →
      (∀ b, x = some b → ∃ c, s.records[r.val] = some c ∧ ∀ e ∈ b.entries, e ∈ c.entries) → DirectWriteMeetsNoEntry t := by
    intro t r x k1 k2 k3
    refine keep (fun _ => by rw [k2]; exact ⟨rfl, rfl⟩) ?_
    intro q b hb
    rw [k1, records_set_get] at hb
    split at hb
    · obtain ⟨c, hc, hs⟩ := k3 b hb
      exact ⟨r, c, hc, fun e he => ⟨e, hs e he, rfl⟩⟩
    · exact ⟨q, b, hb, fun e he => ⟨e, he, rfl⟩⟩
  have empty : ∀ {t : State}, (∀ r : RecordIdx, t.records[r.val] = none) → DirectWriteMeetsNoEntry t := by
    intro t k _ a m d _ r b hb
    rw [Fin.getElem_fin, k] at hb
    exact absurd hb (by simp)
  cases hc
  case complete a hu => exact other (by simp)
  case completeSent c a hc hk => exact other (by simp)
  case sendWrite a m d hu hcl =>
    intro _ a' m' d' ht r b hb e he
    simp only [sendDirect_upstream, sendDirect_records] at ht hb
    injection ht with ht
    injection ht with h1 _ _
    subst h1
    exact noEntry_of_direct hw hcl r b hb e he
  case sendRead a m hu => exact other (by simp)
  case wait a m d why W hu hcl => exact other (by simp)
  case store W a m d hm hu hW hcl hst =>
    refine other ?_
    rcases hu with e | e <;> simp [e]
  case sealBatch W r b ho hb => exact upd (sealRecord_records ..) rfl (by rintro c ⟨⟩; exact ⟨b, hb, fun e he => he⟩)
  case mark reason r =>
    refine upd (markRecord_records ..) (by simp) ?_
    intro c hc
    rw [Option.map_eq_some_iff] at hc
    obtain ⟨b, hb, rfl⟩ := hc
    exact ⟨b, hb, fun e he => he⟩
  case start r b hi hcc hb => exact upd (takeBatch_records ..) rfl (by rintro c ⟨⟩; exact ⟨b, hb, fun e he => he⟩)
  case late r b hre hb => exact upd (setRecord_records ..) rfl (by rintro c ⟨⟩; exact ⟨b, hb, fun e he => he⟩)
  case removeEntry r b hp hw hr hb =>
    exact upd (removeEntry_records ..) rfl (by rintro c ⟨⟩; exact ⟨b, hb, fun e he => List.mem_of_mem_tail he⟩)
  case retire r b hp hw hr hb => exact upd (retireRecord_records ..) rfl (by intro c hc; exact absurd hc (by simp))
  case restart => exact empty (by intro r; simp)
  case discard w hw => exact empty (by intro r; simp [hw])
  case drained hm he w hw => subst hw; exact same (by simp) (by simp) (by simp)
  all_goals exact same (by simp) (by simp) (by simp)

end Sys2Proof.Machine
end

