-- ==== Sys2Proof/Laws/KeepsReset.lean ====
section
/-! SUPPORT. The part while RSTn is asserted: no command but RESET_LINE_END changes more than the level of DRDY; and the downstream
handshake while RSTn is withdrawn (R119, R125, R145). -/

namespace Sys2Proof.Machine

def resetForm (d : Bool) (m : Memory) (n : Nat) (q : List Instr) : State :=
  { State.reset with port := DownstreamPort.reset d, resetAsserted := true, memory := m, freeIndex := n, pending := q }

theorem held_form {s : State} (h : HeldInReset s) (hr : s.resetAsserted = true) : s = resetForm s.port.drdy s.memory s.freeIndex s.pending := h hr

theorem resetForm_held (d m n q) : HeldInReset (resetForm d m n q) := fun _ => rfl

theorem chain_reset {s t : State} (h : Chain s t) : t.resetAsserted = s.resetAsserted := by
  induction h with
  | refl => rfl
  | tail _ hc ih => rw [← ih]; cases hc <;> first | rfl | (simp; done) | (rename_i hw; simp [hw])

theorem onRequest_reset (c p run) (d m n q) : onRequest c p run (resetForm d m n q) = resetForm d m n q := by
  unfold onRequest State.requestEnds
  rw [frameCanBe_of_reset _ _ _ rfl]; rfl

theorem exec_resetForm (c : Instr) (d m n q) (t : State) (h : exec c (resetForm d m n q) = .next t) (hc : c ≠ .resetLineEnd) :
   ∃ d', t = resetForm d' m n q := by
  cases c
  case resetLineEnd => exact absurd rfl hc
  case directWriteComplete => cases h; exact ⟨d, rfl⟩
  case memoryReadComplete => cases h; exact ⟨d, rfl⟩
  case entryWriteComplete => cases h; exact ⟨d, rfl⟩
  case receiptWriteComplete => cases h; exact ⟨d, rfl⟩
  case readBack bs k => injection h with h; subst h; rw [frameCanBe_of_reset _ _ _ rfl]; exact ⟨d, rfl⟩
  case noBitReceived => injection h with h; subst h; rw [frameCanBe_of_reset _ _ _ rfl]; exact ⟨d, rfl⟩
  case malformedFrame bs k => injection h with h; subst h; rw [frameCanBe_of_reset _ _ _ rfl]; refine ⟨d, ?_⟩; split <;> rfl
  case drdyRelease => injection h with h; subst h; cases d; exact ⟨false, rfl⟩; exact ⟨false, rfl⟩
  case strayDrdy => injection h with h; subst h; exact ⟨true, rfl⟩
  case disableDrain x => injection h with h; subst h; simp only [onRequest_reset, ite_self]; exact ⟨d, rfl⟩
  case disableDiscard x => injection h with h; subst h; simp only [onRequest_reset, ite_self]; exact ⟨d, rfl⟩
  all_goals
    injection h with h
    subst h
    exact ⟨d, rfl⟩

/-- The reset line's two commands keep what holds of the part with RSTn asserted and outlasts its withdrawal. -/
theorem reset_keeps {P : State → Prop} (hr : ∀ s, P (assertReset s)) (he : ∀ s, P s → P (endReset s)) {c : Instr} {s t : State}
    (hc : isReset c = true) (h : P s) (hs : exec c s = .next t) : P t := by
  cases c <;> simp [isReset] at hc
  · injection hs with hs
    subst hs
    exact hr _
  · injection hs with hs
    subst hs
    split
    · exact he s h
    · exact h

theorem grant_shape (s : State) (h1 : s.port.phase = .busy ↔ s.port.transaction.isSome) (h2 : s.port.drdy = true ↔ s.port.phase = .recovering)
   : ((grant s).port.phase = .busy ↔ (grant s).port.transaction.isSome) ∧ ((grant s).port.drdy = true ↔ (grant s).port.phase = .recovering) ∧
    ((grant s).port.phase = .free → (grant s).port.upstreamClaim = none ∧ (grant s).port.releaseClaim = none) := by
  unfold grant
  split
  · rename_i hf
    have hf : s.port.phase = .free := by simpa using hf
    unfold arbitrate
    have hd : s.port.drdy = false := by cases hd : s.port.drdy; rfl; rw [hf] at h2; simp [hd] at h2
    cases hu : s.port.upstreamClaim <;> cases hr : s.port.releaseClaim <;> simp only
    · exact ⟨h1, h2, fun _ => ⟨hu, hr⟩⟩
    · simp [grantRelease, hd]
    · simp [grantUpstream, hd]
    · split <;> simp [grantRelease, grantUpstream, hd]
  · rename_i hf
    exact ⟨h1, h2, fun e => absurd e (by simpa using hf)⟩

/-- With RSTn withdrawn, every elementary change keeps the handshake. -/
theorem change_handshakeSound {s t : State} (hc : Change s t) (hr : s.resetAsserted = false) (h : HandshakeSound s) :
    HandshakeSound t := by
  obtain ⟨h1, h2, h3⟩ := h
  have h2' := h2 hr
  have gr : ∀ {u : State}, (u.port.phase = .busy ↔ u.port.transaction.isSome) → (u.port.drdy = true ↔ u.port.phase = .recovering) → HandshakeSound (grant u) := by
    intro u a b; obtain ⟨x, y, z⟩ := grant_shape u a b; exact ⟨x, fun _ => y, z⟩
  cases hc
  case sendWrite a m d hu hcl => exact gr h1 h2'
  case sendRead a m hu => exact gr h1 h2'
  case placeRelease c hp hcc => exact gr h1 h2'
  case release hrr hd =>
    unfold releaseDrdy; rw [if_neg (by simp [hr])]
    have hp := h2'.mp hd
    rw [hp] at h1; simp at h1
    exact gr (by simp [h1]) (by simp)
  case acknowledge c hcc hk => exact ⟨by simp, by simp, by simp⟩
  case completeSent c a hcc hk => exact ⟨by simp, by simp, by simp⟩
  case stray hrr hp =>
    rw [hp] at h1; simp at h1
    exact ⟨by simp [h1], by simp, by simp⟩
  case drdy d hd => rw [hr] at hd; simp at hd
  case restart => exact ⟨by simpa [DownstreamPort.restart] using h1, by simpa [DownstreamPort.restart, hr] using h2', by simpa [DownstreamPort.restart] using fun e => (h3 e).1⟩
  case drained hm he w hw => subst hw; exact ⟨by simpa using h1, by simpa using h2, by simpa using h3⟩
  case discard w hw =>
    have : (applyAtBypass (changeMode .bypass w)).st.port = (withdrawRelease s).port := by
      simp [hw, endRelease]; unfold withdrawRelease; simp
      split <;> rfl
    unfold HandshakeSound
    rw [this]
    unfold withdrawRelease
    split
    · exact ⟨h1, fun _ => h2', by simpa using fun e => (h3 e).1⟩
    · exact ⟨h1, fun _ => h2', h3⟩
  all_goals first
    | exact ⟨h1, h2, h3⟩
    | exact ⟨by simpa using h1, by simpa using h2, by simpa using h3⟩

/-! ## The upstream port's own transaction (R92, R94, R121) -/

/-- The upstream port's transaction is this claim. -/
def Sent (s : State) (c : Claim) : Prop :=
  (∃ a m d, c = .directWrite a m d ∧ s.upstream.phase = .direct ∧ s.upstream.transaction = some (.write a m d)) ∨
    ∃ a m, c = .memoryRead a ∧ s.upstream.phase = .read ∧ s.upstream.transaction = some (.read a m)

/-- `UpstreamClaimIsItsOwn` in terms of `Sent`. -/
def OwnClaims (s : State) : Prop :=
  (∀ c, s.port.upstreamClaim = some c → Sent s c ∧ ∀ x, s.port.transaction = some x → x.ofUpstream = false) ∧
    (∀ c, s.port.transaction = some c → c.ofUpstream = true → Sent s c) ∧
    (s.upstream.phase = .direct ∨ s.upstream.phase = .read →
      ∃ c, (s.port.upstreamClaim = some c ∨ s.port.transaction = some c) ∧ c.ofUpstream = true) ∧
    ∀ c, s.port.releaseClaim = some c → c.ofUpstream = false

theorem Sent.ofUpstream {s : State} {c : Claim} (h : Sent s c) : c.ofUpstream = true := by
  rcases h with ⟨_, _, _, rfl, _⟩ | ⟨_, _, rfl, _⟩ <;> rfl

theorem Sent.phase {s : State} {c : Claim} (h : Sent s c) : ¬NothingSent s := by
  unfold NothingSent
  rcases h with ⟨_, _, _, _, h, _⟩ | ⟨_, _, _, h, _⟩ <;> simp [h]

theorem ownClaims_iff (s : State) : UpstreamClaimIsItsOwn s ↔ OwnClaims s := by
  have hk : ∀ c : Claim, ((∃ a m d, c = .directWrite a m d) ∨ ∃ a, c = .memoryRead a) ↔ c.ofUpstream = true := by
    intro c
    cases c <;> simp [Claim.ofUpstream]
  have hn : ∀ c : Claim, ((∃ a m d, c = .entryWrite a m d) ∨ ∃ a d, c = .receiptWrite a d) ↔ c.ofUpstream = false := by
    intro c
    cases c <;> simp [Claim.ofUpstream]
  unfold UpstreamClaimIsItsOwn OwnClaims
  simp only [hk, hn]
  constructor
  · rintro ⟨h1, h2, h3, h4, h5⟩
    have sent : ∀ c, s.port.upstreamClaim = some c ∨ s.port.transaction = some c → c.ofUpstream = true → Sent s c := by
      intro c hc hu
      cases c with
      | directWrite a m d => exact Or.inl ⟨a, m, d, rfl, h1 a m d hc⟩
      | memoryRead a =>
        obtain ⟨k1, m, k2⟩ := h2 a hc
        exact Or.inr ⟨a, m, rfl, k1, k2⟩
      | entryWrite a m d => exact absurd hu (by simp [Claim.ofUpstream])
      | receiptWrite a d => exact absurd hu (by simp [Claim.ofUpstream])
    exact ⟨fun c hc => ⟨sent c (Or.inl hc) (h3 c hc).1, (h3 c hc).2⟩, fun c hc hu => sent c (Or.inr hc) hu, h4, h5⟩
  · rintro ⟨h1, h2, h3, h4⟩
    have sent : ∀ c, s.port.upstreamClaim = some c ∨ s.port.transaction = some c → c.ofUpstream = true → Sent s c := by
      intro c hc hu
      rcases hc with hc | hc
      · exact (h1 c hc).1
      · exact h2 c hc hu
    refine ⟨?_, ?_, fun c hc => ⟨(h1 c hc).1.ofUpstream, (h1 c hc).2⟩, h3, h4⟩
    · intro a m d hc
      rcases sent _ hc rfl with ⟨a', m', d', e, k1, k2⟩ | ⟨a', m', e, _⟩
      · cases e
        exact ⟨k1, k2⟩
      · exact absurd e (by simp)
    · intro a hc
      rcases sent _ hc rfl with ⟨a', m', d', e, _⟩ | ⟨a', m', e, k1, k2⟩
      · exact absurd e (by simp)
      · cases e
        exact ⟨k1, m', k2⟩

theorem grant_own {u : State} (h : OwnClaims u) (hb : u.port.phase = .busy ↔ u.port.transaction.isSome) :
    OwnClaims (grant u) := by
  have up : ∀ (c : Claim) (n : Nat), u.port.upstreamClaim = some c → OwnClaims (grantUpstream c n u) := by
    intro c n hc
    obtain ⟨h1, h2, h3, h4⟩ := h
    refine ⟨by intro x hx; exact absurd hx (by simp), ?_, ?_, h4⟩
    · intro x hx _
      injection hx with hx
      subst hx
      exact (h1 _ hc).1
    · intro _
      exact ⟨c, Or.inr rfl, (h1 c hc).1.ofUpstream⟩
  have rel : ∀ c : Claim, u.port.releaseClaim = some c →
      (∀ x, u.port.transaction = some x → x.ofUpstream = false) → OwnClaims (grantRelease c u) := by
    intro c hc hx
    obtain ⟨h1, h2, h3, h4⟩ := h
    refine ⟨?_, ?_, ?_, by intro x hx; exact absurd hx (by simp)⟩
    · intro x hu
      refine ⟨(h1 x hu).1, ?_⟩
      intro y hy
      injection hy with hy
      subst hy
      exact h4 _ hc
    · intro x hy hk
      injection hy with hy
      subst hy
      exact absurd (h4 _ hc) (by simp [hk])
    · intro hp
      obtain ⟨x, hx', hk⟩ := h3 hp
      rcases hx' with hx' | hx'
      · exact ⟨x, Or.inl hx', hk⟩
      · exact absurd (hx x hx') (by simp [hk])
  unfold grant
  split
  · rename_i hf
    have hx : ∀ x, u.port.transaction = some x → x.ofUpstream = false := by
      intro x hx
      have : u.port.phase = .busy := hb.mpr (by rw [hx]; rfl)
      rw [beq_iff_eq] at hf
      exact absurd (hf.symm.trans this) (by simp)
    unfold arbitrate
    split
    · exact h
    · rename_i c hc _
      exact up c 0 hc
    · rename_i c _ hc
      exact rel c hc hx
    · rename_i c r hc hr
      split
      · exact up c _ hc
      · exact rel r hr hx
  · exact h

/-- With RSTn withdrawn, every elementary change keeps the upstream port's claim its own. -/
theorem change_upstreamClaimIsItsOwn {s t : State} (hc : Change s t) (hr : s.resetAsserted = false) (hh : HandshakeSound s)
    (h : UpstreamClaimIsItsOwn s) : UpstreamClaimIsItsOwn t := by
  rw [ownClaims_iff] at *
  have h0 := h
  obtain ⟨h1, h2, h3, h4⟩ := h
  have none : NothingSent s → s.port.upstreamClaim = none ∧ ∀ x, s.port.transaction = some x → x.ofUpstream = false := by
    intro hn
    constructor
    · cases hc : s.port.upstreamClaim with
      | none => rfl
      | some c => exact absurd hn (h1 c hc).1.phase
    · intro x hx
      cases hk : x.ofUpstream with
      | false => rfl
      | true => exact absurd hn (h2 x hx hk).phase
  have same : ∀ {t : State}, t.upstream.phase = s.upstream.phase → t.upstream.transaction = s.upstream.transaction →
      t.port.upstreamClaim = s.port.upstreamClaim → t.port.transaction = s.port.transaction →
      (∀ c, t.port.releaseClaim = some c → c.ofUpstream = false) → OwnClaims t := by
    intro t k1 k2 k3 k4 k5
    unfold OwnClaims Sent
    rw [k1, k2, k3, k4]
    exact ⟨h1, h2, h3, k5⟩
  -- an upstream port that has sent nothing
  have quiet : ∀ {t : State}, NothingSent t → t.port.upstreamClaim = Option.none →
      (∀ x, t.port.transaction = some x → x.ofUpstream = false) →
      (∀ c, t.port.releaseClaim = some c → c.ofUpstream = false) → OwnClaims t := by
    intro t k1 k2 k3 k4
    refine ⟨by rw [k2]; simp, fun c hc hk => absurd (k3 c hc) (by simp [hk]), ?_, k4⟩
    intro hp
    unfold NothingSent at k1
    rcases k1 with k1 | k1 <;> rcases hp with hp | hp <;> rw [k1] at hp <;> exact absurd hp (by simp)
  have placed : ∀ {t : State} {c : Claim}, Sent t c → t.port.upstreamClaim = some c →
      (∀ x, t.port.transaction = some x → x.ofUpstream = false) →
      (∀ c, t.port.releaseClaim = some c → c.ofUpstream = false) → OwnClaims t := by
    intro t c k1 k2 k3 k4
    refine ⟨?_, fun x hx hk => absurd (k3 x hx) (by simp [hk]), fun _ => ⟨c, Or.inl k2, k1.ofUpstream⟩, k4⟩
    intro x hx
    rw [k2] at hx
    injection hx with hx
    subst hx
    exact ⟨k1, k3⟩
  cases hc
  case urdy => exact same rfl rfl rfl rfl h4
  case complete a hu =>
    obtain ⟨n1, n2⟩ := none hu
    exact quiet (Or.inl rfl) n1 n2 h4
  case completeSent c a hc hk =>
    have n1 : s.port.upstreamClaim = Option.none := by
      cases hu : s.port.upstreamClaim with
      | none => rfl
      | some x => exact absurd ((h1 x hu).2 c hc) (by simp [hk])
    exact quiet (Or.inl rfl) n1 (fun x hx => absurd hx (by simp)) h4
  case sendWrite a m d hu hcl =>
    obtain ⟨n1, n2⟩ := none hu
    exact grant_own (placed (c := .directWrite a m d) (Or.inl ⟨a, m, d, rfl, rfl, rfl⟩) rfl n2 h4) hh.1
  case sendRead a m hu =>
    obtain ⟨n1, n2⟩ := none hu
    exact grant_own (placed (c := .memoryRead a) (Or.inr ⟨a, m, rfl, rfl, rfl⟩) rfl n2 h4) hh.1
  case wait a m d why W hu hcl =>
    obtain ⟨n1, n2⟩ := none hu
    exact quiet (Or.inr rfl) n1 n2 h4
  case cause a m d why W hp ht hcl => exact same rfl rfl rfl rfl h4
  case restartTimer hp => exact same rfl rfl rfl rfl h4
  case time n => exact same rfl rfl rfl rfl h4
  case placeRelease c hp hcc =>
    refine grant_own (same rfl rfl rfl rfl ?_) hh.1
    intro x hx
    injection hx with hx
    subst hx
    obtain ⟨r, b, _, _, k3, k4⟩ := hcc
    cases hph : s.engine.phase with
    | idle => exact absurd hph hp
    | entries =>
      obtain ⟨e, rest, _, rfl⟩ := k3 hph
      rfl
    | receipt =>
      obtain ⟨a, d, rfl⟩ := k4 hph
      rfl
  case release hrr hd =>
    unfold releaseDrdy
    rw [if_neg (by simp [hr])]
    refine grant_own (same rfl rfl rfl rfl h4) ?_
    have hp := (hh.2.1 hr).mp hd
    have := hh.1
    rw [hp] at this
    simpa using this
  case acknowledge c hc hk =>
    refine ⟨fun x hx => ⟨(h1 x hx).1, fun y hy => absurd hy (by simp)⟩, fun x hx => absurd hx (by simp), ?_, h4⟩
    intro hp
    obtain ⟨x, hx, hkx⟩ := h3 hp
    rcases hx with hx | hx
    · exact ⟨x, Or.inl hx, hkx⟩
    · rw [hc] at hx
      injection hx with hx
      subst hx
      exact absurd hk (by simp [hkx])
  case restart =>
    exact same rfl rfl rfl rfl (by intro c hc; exact absurd hc (by simp [DownstreamPort.restart]))
  case discard w hw =>
    have hp : (applyAtBypass (changeMode .bypass w)).st.port = (withdrawRelease s).port := by
      simp [hw, endRelease]
      unfold withdrawRelease
      simp
      split <;> rfl
    have hu : (applyAtBypass (changeMode .bypass w)).st.upstream = s.upstream := by simp [hw]
    refine same (by rw [hu]) (by rw [hu]) ?_ ?_ ?_
    · rw [hp]
      unfold withdrawRelease
      split <;> rfl
    · rw [hp]
      unfold withdrawRelease
      split <;> rfl
    · rw [hp]
      unfold withdrawRelease
      split
      · intro c hc
        exact absurd hc (by simp)
      · exact h4
  case drained hm he w hw => subst hw; exact same (by simp) (by simp) (by simp) (by simp) (by simpa using h4)
  all_goals exact same (by simp) (by simp) (by simp) (by simp) (by simpa using h4)

/-! ## Steps -/

/-- A law that every elementary change keeps, that holds with RSTn asserted and outlasts its withdrawal, and that does not speak
of the queue of commands, is kept by every step. -/
theorem keptByEveryStep_of_change {P : State → Prop} (hq : ∀ s q, P s → P { s with pending := q })
    (hP : ∀ s t, Change s t → P s → P t) (h0 : ∀ s, P (assertReset s)) (he : ∀ s, P s → P (endReset s)) :
    KeptByEveryStep P :=
  fun _ _ h hs => step_keeps hq hP (fun _ _ _ hc hp hx => reset_keeps h0 he hc hp hx) h hs

/-- The same for a law that the changes keep only with RSTn withdrawn, where RSTn holds the part at its values after the reset
line. -/
theorem step_keeps_awake {P : State → Prop} (hq : ∀ s q, P s → P { s with pending := q })
    (hP : ∀ s t, Change s t → s.resetAsserted = false → P s → P t) (h0 : ∀ d m n q, P (resetForm d m n q))
    (h1 : ∀ d m n q, P (endReset (resetForm d m n q))) {s t : State} (hh : HeldInReset s) (h : P s)
    (hs : step s = .next t) : P t := by
  have key : ∀ s t, Change s t → (s.resetAsserted = false ∧ P s) → (t.resetAsserted = false ∧ P t) := by
    rintro s t hc ⟨hr, h⟩
    exact ⟨by rw [chain_reset (Chain.of hc)]; exact hr, hP s t hc hr h⟩
  by_cases hr : s.resetAsserted = true
  · have hf := held_form hh hr
    rw [hf] at hs
    generalize s.port.drdy = d at hs
    generalize s.memory = m at hs
    generalize s.freeIndex = n at hs
    generalize s.pending = q at hs
    unfold step at hs
    split at hs
    · injection hs with hs
      subst hs
      exact h0 d m n q
    · rename_i i rest hp
      by_cases hc : i = .resetLineEnd
      · subst hc
        injection hs with hs
        subst hs
        exact h1 d m n rest
      · obtain ⟨d', rfl⟩ := exec_resetForm i d m n rest t hs hc
        exact h0 _ _ _ _
  · have hr : s.resetAsserted = false := by simpa using hr
    unfold step at hs
    split at hs
    · injection hs with hs
      subst hs
      exact ((tick_chain s).keeps key ⟨hr, h⟩).2
    · rename_i i rest hp
      cases hc : isReset i
      · exact ((exec_chain hc hs).keeps key (s := { s with pending := rest }) ⟨hr, hq s rest h⟩).2
      · cases i <;> simp [isReset] at hc
        · injection hs with hs
          subst hs
          exact h0 _ _ _ _
        · injection hs with hs
          subst hs
          rw [if_neg (by simpa using hr)]
          exact hq s rest h

end Sys2Proof.Machine
end

