-- ==== Sys2Proof/Laws/KeepsWait.lean ====
section
/-! SUPPORT. The waiting write: what waits is a write, and a change of mode to BYPASS is always reported, so that the re-examination at
the end of the event ends a wait there (R99, R130). -/

namespace Sys2Proof.Machine

def W0 (s : State) : Prop := s.upstream.phase = .wait → ∃ a m d, s.upstream.transaction = some (.write a m d)
def WQ (w : Work) : Prop := W0 w.st ∧ (w.st.mode = .bypass → w.st.upstream.phase = .wait → w.reported = true)

theorem classify_wait_mode {s : State} {a why W} (h : s.classify a = .wait why W) : s.mode ≠ .bypass := by
  intro hm; rw [classify_bypass hm] at h; simp at h

theorem W0_change (s t) (hc : Change s t) (h : W0 s) : W0 t := by
  cases hc
  case complete => intro e; simp at e
  case completeSent => intro e; simp at e
  case sendWrite a m d hu hcl => intro e; simp at e
  case sendRead a m hu => intro e; simp at e
  case wait a m d why W hu hcl => intro _; exact ⟨a, m, d, rfl⟩
  case drained hm he w hw => subst hw; simpa [W0] using h
  case discard w hw => simpa [W0, hw] using h
  all_goals first | exact h | simpa [W0] using h

theorem settle_WQ (w : Work) (h : WQ w) : NoWaitInBypass (settle w) := by
  refine ⟨(settle_chain w).keeps W0_change h.1, ?_⟩
  intro hm
  have hm : w.st.mode = .bypass := by simpa using hm
  by_cases hp : w.st.upstream.phase = .wait
  · have hr := h.2 hm hp
    obtain ⟨a, m, d, ht⟩ := h.1 hp
    have hs : (settle w).upstream = (reexamine w).st.upstream := by
      simp only [settle, hr, if_true]
      split <;> simp
    rw [hs]
    unfold reexamine
    rw [if_pos (by simp [hp]), ht]
    simp only [reclassify, classify_bypass hm]
    simp
  · rw [settle_upstream_noWait w hp]; exact hp

theorem sealAll_WQ (Ws w) (h : WQ w) : WQ (sealAll Ws w) := by simpa [WQ, W0] using h
theorem mono (w w' : Work) (h : WQ w) (hu : w'.st.upstream = w.st.upstream) (hm : w'.st.mode = w.st.mode) (hr : w.reported = true → w'.reported = true) : WQ w' := by
  refine ⟨by unfold W0; rw [hu]; exact h.1, ?_⟩
  rw [hu, hm]; intro a b; exact hr (h.2 a b)
theorem applyIfEmpty_rep (w) (h : w.reported = true) : (applyIfEmpty w).reported = true := by unfold applyIfEmpty; split; rfl; exact h
theorem applyIfLost_rep (w) (h : w.reported = true) : (applyIfLost w).reported = true := by unfold applyIfLost; split; exact applyIfEmpty_rep w h; exact h
theorem applyIfLost_WQ (w) (h : WQ w) : WQ (applyIfLost w) := mono w _ h (by simp) (by simp) (applyIfLost_rep w)
theorem applyIfEmpty_WQ (w) (h : WQ w) : WQ (applyIfEmpty w) := mono w _ h (by simp) (by simp) (applyIfEmpty_rep w)
theorem applyAtBypass_rep (w) (h : w.reported = true) : (applyAtBypass w).reported = true := by unfold applyAtBypass; split; rfl; exact h
theorem drainIfEmpty_WQ (w) (h : WQ w) : WQ (drainIfEmpty w) := by
  unfold drainIfEmpty; split
  · refine ⟨by simpa [W0] using h.1, ?_⟩
    intro _ _
    exact applyAtBypass_rep _ rfl
  · exact h

theorem retire_WQ (r b) (w) (h : WQ w) : WQ (retire r b w) := by
  unfold retire
  apply drainIfEmpty_WQ; apply applyIfLost_WQ
  exact mono w _ h (by simp) (by simp) (by simp)

theorem start_WQ {s : State} (h : NoWaitInBypass s) : WQ (Work.start s) := ⟨h.1, fun a b => absurd b (h.2 a)⟩

theorem expireSupervision_NW (s) (h : NoWaitInBypass s) : NoWaitInBypass (expireSupervision s) := by
  unfold expireSupervision; apply settle_WQ; apply applyIfLost_WQ
  exact mono (Work.start s) _ (start_WQ h) (by simp) (by simp) (by simp)
theorem expireStall_NW (s) (h : NoWaitInBypass s) : NoWaitInBypass (expireStall s) := by
  unfold expireStall; apply settle_WQ
  refine ⟨by simpa [W0] using h.1, ?_⟩
  intro a b; simp at a b; exact absurd b (h.2 a)

theorem of_eq {s t : State} (h : NoWaitInBypass s) (hu : t.upstream = s.upstream) (hm : t.mode = s.mode) : NoWaitInBypass t := by
  unfold NoWaitInBypass; rw [hu, hm]; exact h

theorem onReq {c p run} {s : State} (h : NoWaitInBypass s) (hr : NoWaitInBypass (run s)) : NoWaitInBypass (onRequest c p run s) := by
  rcases onRequest_cases c p run s with e | e <;> rw [e] <;> assumption

theorem exec_NW (c s t) (h : NoWaitInBypass s) (hs : exec c s = .next t) : NoWaitInBypass t := by
  have qs := start_WQ h
  cases c
  case upstreamWrite a m d =>
    injection hs with hs; subst hs
    split
    · unfold takeWrite; split
      · apply settle_WQ
        unfold zeroStrobeSeal
        refine mono (Work.start (completeUpstream none s)) _ ⟨by intro e; simp at e, by intro _ e; simp at e⟩ ?_ ?_ ?_
        · repeat' split
          all_goals simp
        · repeat' split
          all_goals simp
        · simp
      · apply settle_WQ
        unfold takeStrobedWrite; split
        · exact ⟨by intro e; simp at e, by intro _ e; simp at e⟩
        · exact ⟨by intro e; simp [storeWrite] at e, by intro _ e; simp [storeWrite] at e⟩
        · rename_i why W hw
          exact ⟨fun _ => ⟨a, m, d, rfl⟩, fun e _ => absurd e (classify_wait_mode hw)⟩
    · exact h
  case upstreamRead a m =>
    injection hs with hs; subst hs
    split
    · unfold takeRead; split
      · exact ⟨by intro e; simp at e, by intro _ e; simp at e⟩
      · exact ⟨by intro e; simp at e, by intro _ e; simp at e⟩
    · exact h
  case ureqWithdrawn => injection hs with hs; subst hs; exact h
  case directWriteComplete =>
    unfold exec execDirectWriteComplete at hs; dsimp only at hs
    split at hs <;> injection hs with hs <;> subst hs
    · exact ⟨by intro e; simp at e, by intro _ e; simp at e⟩
    · exact h
  case memoryReadComplete =>
    unfold exec execMemoryReadComplete at hs; dsimp only at hs
    split at hs <;> injection hs with hs <;> subst hs
    · exact ⟨by intro e; simp at e, by intro _ e; simp at e⟩
    · exact h
  case entryWriteComplete =>
    unfold exec execEntryWriteComplete at hs; dsimp only at hs
    split at hs <;> injection hs with hs <;> subst hs
    · apply settle_WQ
      rename_i a m d _
      have q1 : WQ (Work.start (acknowledge (.entryWrite a m d) s)) := mono _ _ qs (by simp) (by simp) (by simp)
      unfold ownEntryCompletion; split
      · unfold finishEntry
        rename_i r b _
        have q2 : WQ ((Work.start (acknowledge (.entryWrite a m d) s)).map (removeEntry r b)).report := mono _ _ q1 (by simp) (by simp) (by simp)
        unfold continueRelease; split
        · unfold endEntries; split
          · exact mono _ _ q2 (by simp) (by simp) (by simp)
          · apply retire_WQ; exact mono _ _ q2 (by simp) (by simp) (by simp)
        · exact mono _ _ q2 (by simp) (by simp) (by simp)
      · exact q1
    · exact h
  case receiptWriteComplete =>
    unfold exec execReceiptWriteComplete at hs; dsimp only at hs
    split at hs <;> injection hs with hs <;> subst hs
    · apply settle_WQ
      rename_i a d _
      have q1 : WQ (Work.start (acknowledge (.receiptWrite a d) s)) := mono _ _ qs (by simp) (by simp) (by simp)
      unfold ownReceiptCompletion; split
      · exact retire_WQ _ _ _ q1
      · exact q1
    · exact h
  case frameStart =>
    injection hs with hs; subst hs; split
    · exact h
    · apply settle_WQ; apply applyIfEmpty_WQ
      exact mono _ _ qs (by simp) (by simp) (by simp)
  case lineStart =>
    injection hs with hs; subst hs; split
    · exact h
    · apply settle_WQ
      exact mono _ _ qs (by simp) (by simp) (by simp)
  case supervisionExpiry => injection hs with hs; subst hs; split; exact expireSupervision_NW _ h; exact h
  case stallExpiry => injection hs with hs; subst hs; split; exact expireStall_NW _ h; exact h
  case resetLine => injection hs with hs; subst hs; exact ⟨by intro e; simp [assertReset, State.reset, UpstreamPort.reset] at e, by intro _ e; simp [assertReset, State.reset, UpstreamPort.reset] at e⟩
  case resetLineEnd => injection hs with hs; subst hs; split <;> exact h
  case setTiming v =>
    injection hs with hs; subst hs; apply onReq h
    unfold setTiming; split
    · refine of_eq (s := acceptTiming v s) ?_ (by simp) (by simp)
      unfold acceptTiming; apply settle_WQ
      unfold loseTracker; split
      · exact mono _ _ qs (by simp) (by simp) (by simp)
      · apply applyIfLost_WQ; exact mono _ _ qs (by simp) (by simp) (by simp)
    · exact of_eq h (by simp) (by simp)
  case apply =>
    injection hs with hs; subst hs; apply onReq h
    unfold applyStaged; split
    · refine of_eq (s := acceptApply s) ?_ (by simp) (by simp)
      unfold acceptApply; apply settle_WQ; split
      · exact mono _ _ qs (by simp [applyNow]) (by simp [applyNow]) (by simp)
      · unfold applyLater; apply applyIfLost_WQ; exact mono _ _ qs (by simp) (by simp) (by simp)
    · exact of_eq h (by simp) (by simp)
  case enable =>
    injection hs with hs; subst hs; apply onReq h
    unfold enable; split
    · split
      · refine of_eq (s := settle (changeMode .active (Work.start s))) ?_ (by simp) (by simp)
        apply settle_WQ
        exact ⟨by simpa [W0] using h.1, by intro e; simp [changeMode] at e⟩
      · exact of_eq h (by simp) (by simp)
    · exact of_eq h (by simp) (by simp)
    · exact of_eq h (by simp) (by simp)
  case disableDrain x =>
    injection hs with hs; subst hs; repeat' split
    · apply onReq h
      unfold disableDrain; split
      · refine of_eq (s := beginDrain s) ?_ (by simp) (by simp)
        unfold beginDrain; apply settle_WQ; apply drainIfEmpty_WQ; apply sealAll_WQ
        exact ⟨by simpa [W0] using h.1, fun _ _ => rfl⟩
      · exact of_eq h (by simp) (by simp)
    · exact h
    · apply onReq h; exact of_eq h (by simp) (by simp)
  case disableDiscard x =>
    injection hs with hs; subst hs; repeat' split
    · apply onReq h
      unfold disableDiscard; split
      · exact of_eq h (by simp) (by simp)
      · refine of_eq (s := discard s) ?_ (by simp) (by simp)
        unfold discard; apply settle_WQ
        exact ⟨by simpa [W0] using h.1, fun _ _ => applyAtBypass_rep _ rfl⟩
    · exact h
    · apply onReq h; exact of_eq h (by simp) (by simp)
  case sealWindows x =>
    injection hs with hs; subst hs; apply onReq h
    refine of_eq (s := sealNamed (windowsOf x) s) ?_ (by simp) (by simp)
    exact settle_WQ _ (sealAll_WQ _ _ qs)
  case flush x =>
    injection hs with hs; subst hs; apply onReq h
    refine of_eq (s := flushNamed (windowsOf x) s) ?_ (by simp) (by simp)
    exact settle_WQ _ (mono _ _ (sealAll_WQ _ _ qs) (by simp) (by simp) (fun e => e))
  case restart =>
    injection hs with hs; subst hs; apply onReq h
    refine of_eq (s := restartPart s) ?_ (by simp) (by simp)
    exact settle_WQ _ ⟨by simpa [W0] using h.1, fun _ _ => rfl⟩
  case malformedFrame => injection hs with hs; subst hs; repeat' split
                         all_goals exact of_eq h (by simp) (by simp)
  case drdyRelease => injection hs with hs; subst hs; repeat' split
                      all_goals exact of_eq h (by simp) (by simp)
  case strayDrdy => injection hs with hs; subst hs; repeat' split
                    all_goals exact of_eq h (by simp) (by simp)
  all_goals
    injection hs with hs; subst hs
    first
    | (apply onReq h; exact of_eq h (by simp) (by simp))
    | (split <;> exact of_eq h (by simp) (by simp))

end Sys2Proof.Machine
end

