-- ==== Sys2Proof/Laws/Oversize.lean ====
section
/-! SUPPORT. The oversize check (R66): when it finds a batch too large, and which batches of the window it marks with it at a
seal (R12, R21). -/

namespace Sys2Proof.Machine

/-- The check finds exactly the batches of R66's three cases. -/
theorem oversize_iff (s : State) (b : BatchRecord) : s.oversize b = true ↔ TooLarge s b := by
  unfold State.oversize TooLarge State.firstLineOf State.lastLineOf Timing.total
  cases s.live[b.window].policy <;> simp
  by_cases hb : 0 < s.timing.firstLine ∨ s.timing.active < s.timing.lines.getD 0
  · simp [hb]
    omega
  · simp [hb]
    omega

/-- A record is a window's open batch, or stands in its sealed queue. -/
abbrev State.standsIn (s : State) (W : WindowIdx) (q : RecordIdx) : Prop :=
  s.windows[W].openBatch = some q ∨ q ∈ s.windows[W].sealedQueue

/-- A batch stands in no window but its own. -/
theorem standsIn_window {s : State} (h : BatchesStand s) {W : WindowIdx} {q : RecordIdx} {d : BatchRecord}
    (hd : s.records[q] = some d) (hq : s.standsIn W q) : d.window = W := by
  rcases hq with hq | hq
  · obtain ⟨b, hb, _, hw⟩ := h.1 W q hq
    rw [← hw, Option.some.inj (hd.symm.trans hb)]
  · obtain ⟨b, hb, _, hw⟩ := h.2.1 W q hq
    rw [← hw, Option.some.inj (hd.symm.trans hb)]

/-- R21: at its seal a batch is the youngest of its window, so every batch in the sealed queue is older. -/
theorem olderThan_sealed (W : WindowIdx) (r : RecordIdx) (b : BatchRecord) (s : State)
    (hr : r ∉ s.windows[W].sealedQueue) : (sealRecord W r b s).olderThan W r = s.windows[W].sealedQueue := by
  have hq : (sealRecord W r b s).windows[W].sealedQueue = s.windows[W].sealedQueue ++ [r] := by
    simp only [Fin.getElem_fin, sealRecord_windows, windows_set_get, if_true]
  unfold State.olderThan
  rw [hq, if_pos (by simp), List.takeWhile_append_of_pos]
  · simp
  · intro x hx
    simp only [bne_iff_ne, ne_eq]
    rintro rfl
    exact hr hx

/-- A seal leaves every record that does not stand in its window. -/
theorem sealOpen_untouched (W : WindowIdx) (w : Work) (q : RecordIdx) (hq : ¬w.st.standsIn W q) :
    (sealOpen W w).st.records[q.val] = w.st.records[q.val] := by
  unfold sealOpen
  cases ho : w.st.windows[W].openBatch with
  | none => rfl
  | some r =>
    dsimp only
    cases hb : w.st.records[r] with
    | none => rfl
    | some b =>
      dsimp only
      have hne : r ≠ q := fun h => hq (.inl (h ▸ ho))
      have hs : (sealRecord W r b w.st).records[q.val] = w.st.records[q.val] := by
        rw [sealRecord_records, records_set_get, if_neg hne]
      have hwin : (sealRecord W r b w.st).windows[W].sealedQueue = w.st.windows[W].sealedQueue ++ [r] := by
        simp only [Fin.getElem_fin, sealRecord_windows, windows_set_get, if_true]
      unfold oversizeCheck
      split
      · rw [forceMark_get, if_neg]
        · exact hs
        · show q ∉ (sealRecord W r b w.st).olderThan W r ++ [r]
          have : ∀ x ∈ (sealRecord W r b w.st).olderThan W r, x ∈ w.st.windows[W].sealedQueue ++ [r] := by
            intro x hx
            unfold State.olderThan at hx
            rw [hwin] at hx
            split at hx
            · exact (List.takeWhile_sublist _).subset hx
            · simp at hx
          intro hm
          rcases List.mem_append.mp hm with hm | hm
          · rcases List.mem_append.mp (this q hm) with h1 | h1
            · exact hq (.inr h1)
            · exact hne (List.mem_singleton.mp h1).symm
          · exact hne (List.mem_singleton.mp hm).symm
      · exact hs

/-- R66, R20, R21: what a seal makes of the marks of its window's batches. -/
theorem sealOpen_standing (W : WindowIdx) (w : Work) (r q : RecordIdx) (b d : BatchRecord)
    (ho : w.st.windows[W].openBatch = some r) (hb : w.st.records[r] = some b) (hr : r ∉ w.st.windows[W].sealedQueue)
    (hd : w.st.records[q] = some d) (hq : w.st.standsIn W q) :
    ∃ d', (sealOpen W w).st.records[q.val] = some d' ∧ d'.entries = d.entries ∧
      d'.mark = if w.st.oversize b then (d.mark <|> some .oversize) else d.mark := by
  have hs : ∃ c, (sealRecord W r b w.st).records[q.val] = some c ∧ c.entries = d.entries ∧ c.mark = d.mark := by
    rw [sealRecord_records, records_set_get]
    split
    · rename_i h
      subst h
      have := Option.some.inj (hd.symm.trans hb)
      subst this
      exact ⟨_, rfl, rfl, rfl⟩
    · exact ⟨d, hd, rfl, rfl⟩
  obtain ⟨c, hc, c1, c2⟩ := hs
  unfold sealOpen
  rw [ho]
  dsimp only
  rw [hb]
  dsimp only
  have hov : ((w.map (sealRecord W r b)).tell).st.oversize b = w.st.oversize b := rfl
  unfold oversizeCheck
  rw [hov]
  split
  · rw [forceMark_get, if_pos]
    · have hc' : ((w.map (sealRecord W r b)).tell).st.records[q.val] = some c := hc
      exact ⟨c.force .oversize, by rw [hc']; rfl, c1, by rw [force_mark, c2]⟩
    · show q ∈ (sealRecord W r b w.st).olderThan W r ++ [r]
      rw [olderThan_sealed W r b w.st hr]
      rcases hq with h | h
      · have := Option.some.inj (ho.symm.trans h)
        simp [this]
      · exact List.mem_append_left _ h
  · exact ⟨c, hc, c1, c2⟩

/-- Whether a record stands in a window passes the seals of other windows. -/
theorem sealOpen_standsIn {V W : WindowIdx} (h : V ≠ W) (w : Work) (q : RecordIdx) :
    (sealOpen V w).st.standsIn W q ↔ w.st.standsIn W q := by
  have e : (sealOpen V w).st.windows[W.val] = w.st.windows[W.val] := sealOpen_window_other V W w h
  unfold State.standsIn
  simp only [Fin.getElem_fin, e]

theorem sealAll_untouched (Ws : List WindowIdx) (w : Work) (q : RecordIdx) (hn : Ws.Nodup)
    (hq : ∀ W ∈ Ws, ¬w.st.standsIn W q) : (sealAll Ws w).st.records[q.val] = w.st.records[q.val] := by
  induction Ws generalizing w with
  | nil => rfl
  | cons V Ws ih =>
    rw [List.nodup_cons] at hn
    rw [sealAll_cons, ih _ hn.2, sealOpen_untouched V w q (hq V (by simp))]
    intro W hW
    rw [sealOpen_standsIn (by rintro rfl; exact hn.1 hW)]
    exact hq W (List.mem_cons_of_mem _ hW)

/-- Seals leave the batches of a window that has none open. -/
theorem sealAll_unsealed (Ws : List WindowIdx) (V : WindowIdx) (w : Work) (q : RecordIdx) (hn : Ws.Nodup)
    (ho : w.st.windows[V].openBatch = none) (hother : ∀ W ∈ Ws, W ≠ V → ¬w.st.standsIn W q) :
    (sealAll Ws w).st.records[q.val] = w.st.records[q.val] := by
  induction Ws generalizing w with
  | nil => rfl
  | cons W Ws ih =>
    rw [List.nodup_cons] at hn
    rw [sealAll_cons]
    by_cases h : W = V
    · rw [sealOpen_none W w (by rw [h]; exact ho)]
      exact ih w hn.2 ho (fun U hU => hother U (List.mem_cons_of_mem _ hU))
    · have hwin : (sealOpen W w).st.windows[V.val] = w.st.windows[V.val] := sealOpen_window_other W V w h
      rw [ih (sealOpen W w) hn.2 (by simpa only [Fin.getElem_fin, hwin] using ho),
        sealOpen_untouched W w q (hother W (by simp) h)]
      intro U hU hUV
      rw [sealOpen_standsIn (by rintro rfl; exact hn.1 hU)]
      exact hother U (List.mem_cons_of_mem _ hU) hUV

/-- The same as `sealOpen_standing` for the seals of several windows, of which one is the batches' own. -/
theorem sealAll_standing (Ws : List WindowIdx) (V : WindowIdx) (w : Work) (r q : RecordIdx) (b d : BatchRecord)
    (hn : Ws.Nodup) (hV : V ∈ Ws) (ho : w.st.windows[V].openBatch = some r) (hb : w.st.records[r] = some b)
    (hr : r ∉ w.st.windows[V].sealedQueue) (hd : w.st.records[q] = some d) (hq : w.st.standsIn V q)
    (hother : ∀ W ∈ Ws, W ≠ V → ¬w.st.standsIn W r ∧ ¬w.st.standsIn W q) :
    ∃ d', (sealAll Ws w).st.records[q.val] = some d' ∧ d'.entries = d.entries ∧
      d'.mark = if w.st.oversize b then (d.mark <|> some .oversize) else d.mark := by
  induction Ws generalizing w with
  | nil => simp at hV
  | cons W Ws ih =>
    rw [List.nodup_cons] at hn
    rw [sealAll_cons]
    by_cases hWV : W = V
    · subst hWV
      have hrest : ∀ U ∈ Ws, ¬(sealOpen W w).st.standsIn U q := by
        intro U hU
        have hne : W ≠ U := by
          rintro rfl
          exact hn.1 hU
        rw [sealOpen_standsIn hne]
        exact (hother U (List.mem_cons_of_mem _ hU) (Ne.symm hne)).2
      rw [sealAll_untouched Ws _ q hn.2 hrest]
      exact sealOpen_standing W w r q b d ho hb hr hd hq
    · have hW := hother W (by simp) hWV
      have hwin : (sealOpen W w).st.windows[V.val] = w.st.windows[V.val] := sealOpen_window_other W V w hWV
      have hov : (sealOpen W w).st.oversize b = w.st.oversize b := by
        unfold State.oversize State.firstLineOf State.lastLineOf
        simp only [sealOpen_live, sealOpen_timing]
      rw [← hov]
      refine ih (sealOpen W w) hn.2 ((List.mem_cons.mp hV).resolve_left (Ne.symm hWV)) ?_ ?_ ?_ ?_
        ((sealOpen_standsIn hWV w q).mpr hq) ?_
      · simpa only [Fin.getElem_fin, hwin] using ho
      · simpa only [Fin.getElem_fin, sealOpen_untouched W w r hW.1] using hb
      · simpa only [Fin.getElem_fin, hwin] using hr
      · simpa only [Fin.getElem_fin, sealOpen_untouched W w q hW.2] using hd
      · intro U hU hUV
        have hne : W ≠ U := by
          rintro rfl
          exact hn.1 hU
        rw [sealOpen_standsIn hne, sealOpen_standsIn hne]
        exact hother U (List.mem_cons_of_mem _ hU) hUV

end Sys2Proof.Machine
end

