-- ==== Sys2Proof/Laws/Seen.lean ====
section
/-! SUPPORT. What a read of a lane sees (R27, R95, R96): it rests on the memory, on the live table and, for each window, on the
entry lists of its batches from the newest to the oldest. A seal and the start of a release leave these as they are; the
storing of a held write puts the write's byte in front. -/

namespace Sys2Proof.Machine

/-- The entries a lookup finds, newest first. -/
def State.found (s : State) (w : Addr) : List Entry :=
  match coherentWindow s.live w with
  | none => []
  | some W => (s.batchesOf W).filterMap fun r => s.records[r].bind fun b => b.find w

theorem lookup_found (s : State) (w : Addr) : s.lookup w = coverage (s.found w) := by
  unfold State.lookup State.heldFor State.found
  cases coherentWindow s.live w with
  | none => rfl
  | some W =>
    dsimp only
    rw [List.map_filterMap]
    congr 1
    apply List.filterMap_congr
    intro r _
    cases (s.records[r].bind fun b => b.find w) <;> rfl

/-- Only the entries found and the memory decide what a read sees. -/
theorem seen_congr {s t : State} {w : Addr} (h : t.found w = s.found w) (hm : t.memory = s.memory) (i : Fin 4) :
    t.seen w i = s.seen w i := by
  unfold State.seen
  rw [lookup_found, lookup_found, h, hm]

/-- What the lookups find in a batch. -/
theorem found_congr {s t : State} (w : Addr) (hl : t.live = s.live) (hb : ∀ W, t.batchesOf W = s.batchesOf W)
    (hr : ∀ r : RecordIdx, (t.records[r.val].bind fun b => b.find w) = s.records[r.val].bind fun b => b.find w) :
    t.found w = s.found w := by
  unfold State.found
  rw [hl]
  split
  · rfl
  · rw [hb]
    apply List.filterMap_congr
    intro r _
    exact hr r

theorem filterMap_toList {α β : Type} (f : α → Option β) (x : α) : (some x).toList.filterMap f = (f x).toList := by
  cases h : f x <;> simp [h]

theorem find_of_entries {b c : BatchRecord} (w : Addr) (h : b.entries = c.entries) : b.find w = c.find w := by
  unfold BatchRecord.find
  rw [h]

/-! ## Seals and marks -/

theorem sealOpen_found (V : WindowIdx) (w : Work) (a : Addr) : (sealOpen V w).st.found a = w.st.found a := by
  cases ho : w.st.windows[V].openBatch with
  | none => rw [sealOpen_none V w ho]
  | some r =>
    cases hb : w.st.records[r] with
    | none => rw [sealOpen_free V w r ho hb]
    | some b =>
      refine found_congr a (by simp) ?_ ?_
      · intro W
        unfold State.batchesOf
        rw [releasingOf_congr W (by simp) (sealOpen_windowOf V w)]
        simp only [Fin.getElem_fin]
        rw [sealOpen_windows V w r b ho hb, windows_set_get]
        split
        · rename_i e
          subst e
          simp only [Fin.getElem_fin] at ho
          simp [sealedWindow, ho]
        · rfl
      · intro q
        cases hq : w.st.records[q.val] with
        | some c =>
          obtain ⟨c', h1, h2, _⟩ := sealOpen_record V w q c hq
          rw [h1]
          exact find_of_entries a h2
        | none =>
          have := sealOpen_windowOf V w q
          rw [hq] at this
          cases h' : (sealOpen V w).st.records[q.val] with
          | none => rfl
          | some c => rw [h'] at this; exact absurd this (by simp)

/-! ## The start of a release -/

theorem takeBatch_found {s : State} {r : RecordIdx} {b : BatchRecord} (hs : BatchesStand s) (hi : s.engine.releasing = none)
    (hc : r ∈ s.candidates) (hb : s.records[r] = some b) (a : Addr) : (takeBatch r b s).found a = s.found a := by
  unfold State.candidates at hc
  rw [List.mem_filterMap] at hc
  obtain ⟨W, _, hW⟩ := hc
  obtain ⟨b', hb', _, hw⟩ := hs.2.1 W r (List.mem_of_mem_head? hW)
  rw [hb] at hb'
  injection hb' with hb'
  subst hb'
  subst hw
  have hq : ∃ rest, s.windows[b.window.val].sealedQueue = r :: rest := by
    simp only [Fin.getElem_fin] at hW
    cases h : s.windows[b.window.val].sealedQueue with
    | nil => rw [h] at hW; exact absurd hW (by simp)
    | cons x rest =>
      rw [h] at hW
      injection hW with hW
      exact ⟨rest, by rw [hW]⟩
  obtain ⟨rest, hq⟩ := hq
  refine found_congr a rfl ?_ ?_
  · intro V
    unfold State.batchesOf State.releasingOf
    simp only [takeBatch_windows, takeBatch_engine, takeBatch_records, hi, Option.filter_none, Option.toList_none,
      List.append_nil, Fin.getElem_fin, windows_set_get]
    by_cases hV : b.window = V
    · subst hV
      rw [if_pos rfl]
      simp [Option.filter, hq]
    · rw [if_neg hV]
      simp [Option.filter, hV]
  · intro q
    simp only [takeBatch_records, records_set_get]
    split
    · rename_i e
      subst e
      simp only [Fin.getElem_fin] at hb
      rw [hb]
      rfl
    · rfl

theorem evaluate_found {s : State} (hs : BatchesStand s) (hi : s.engine.phase = .idle → s.engine.releasing = none) (a : Addr) :
    (evaluate s).found a = s.found a := by
  unfold evaluate
  split
  · rename_i hp
    split
    · rfl
    · rename_i r hr
      unfold startBatch
      split
      · rfl
      · rename_i b hb
        have h1 := takeBatch_found hs (hi (by simpa using hp)) (choice_candidate hr) hb a
        rw [← h1]
        refine found_congr a (by simp) ?_ (by intro q; simp)
        intro W
        unfold State.batchesOf State.releasingOf
        simp
  · rfl

/-! ## The storing of a held write -/

theorem add_find (b : BatchRecord) (row : Nat) (a w : Addr) (m : Lanes) (d : Word) :
    (b.add row a m d).find w =
      if w = a then some (match b.find a with | some e => e.coalesce m d | none => ⟨a, d, m⟩) else b.find w := by
  have hmap : ∀ l : List Entry, (l.map fun e => if e.addr == a then e.coalesce m d else e).find? (fun e => e.addr == w) =
      (l.find? fun e => e.addr == w).map fun e => if e.addr == a then e.coalesce m d else e := by
    intro l
    rw [List.find?_map]
    congr 1
    have : ((fun e : Entry => e.addr == w) ∘ fun e => if e.addr == a then e.coalesce m d else e) = fun e => e.addr == w := by
      funext e
      simp only [Function.comp]
      split <;> rfl
    rw [this]
  unfold BatchRecord.add
  by_cases hf : (b.find a).isSome = true
  · rw [if_pos hf]
    unfold BatchRecord.find at hf ⊢
    rw [hmap]
    by_cases hw : w = a
    · subst hw
      rw [if_pos rfl]
      obtain ⟨e, he⟩ := Option.isSome_iff_exists.mp hf
      have ha : (e.addr == w) = true := by simpa using List.find?_some he
      rw [he, Option.map_some, if_pos ha]
    · rw [if_neg hw]
      cases hx : b.entries.find? fun e => e.addr == w with
      | none => rfl
      | some e =>
        have ha : e.addr = w := by simpa using List.find?_some hx
        have : (e.addr == a) = false := by rw [ha]; simpa using hw
        rw [Option.map_some, if_neg (by rw [this]; simp)]
  · rw [if_neg hf]
    have hn : b.find a = none := by simpa using hf
    unfold BatchRecord.find at hn ⊢
    rw [List.find?_append, hn]
    by_cases hw : w = a
    · subst hw
      rw [if_pos rfl, hn]
      simp
    · rw [if_neg hw]
      have : (a == w) = false := by simpa using Ne.symm hw
      simp [this]

theorem addHeld_find (b : Option BatchRecord) (W : WindowIdx) (row : Nat) (a w : Addr) (m : Lanes) (d : Word) :
    (addHeld b W row a m d).find w =
      if w = a then some (match b.bind fun b => b.find a with | some e => e.coalesce m d | none => ⟨a, d, m⟩)
      else b.bind fun b => b.find w := by
  cases b with
  | some b => exact add_find b row a w m d
  | none =>
    unfold addHeld openedBatch BatchRecord.find
    by_cases hw : w = a
    · subst hw
      simp
    · have : (a == w) = false := by simpa using Ne.symm hw
      simp [this, hw]

/-- A held write is what a read of its lanes then sees, and no other lane's byte changes (R8 to R10, R96). -/
theorem storeHeld_seen {s : State} {a : Addr} {m : Lanes} {d : Word} {W : WindowIdx} (hs : BatchesStand s)
    (hW : coherentWindow s.live a = some W) (hc : s.canStore W a = true) (w : Addr) (i : Fin 4) :
    (storeHeld W a m d s).seen w i =
      if w = a ∧ m.getLsbD i.val = true then some (laneByte d i) else s.seen w i := by
  obtain ⟨r, hr⟩ := target_of_canStore hc
  have hmem : (storeHeld W a m d s).memory = s.memory := by simp
  have hlive : (storeHeld W a m d s).live = s.live := by simp
  set t := storeHeld W a m d s with ht
  have hte : t = (s.setRecord r (some (addHeld s.records[r] W (s.live[W].screenRow a) a m d))).setWindow W
      { s.windows[W] with openBatch := some r, idle := 0 } := storeHeld_of_target hr
  have hrec : ∀ q : RecordIdx, t.records[q.val] =
      if r = q then some (addHeld s.records[r] W (s.live[W].screenRow a) a m d) else s.records[q.val] := by
    intro q
    rw [hte, setWindow_records, setRecord_get]
  have hwin : ∀ V : WindowIdx, t.windows[V.val] =
      if W = V then { s.windows[W] with openBatch := some r, idle := 0 } else s.windows[V.val] := by
    intro V
    rw [hte, setWindow_windows, setRecord_windows, windows_set_get]
  have heng : t.engine = s.engine := by rw [hte]; rfl
  -- the record is this window's open batch, or free
  have htarget : s.windows[W.val].openBatch = some r ∨ s.windows[W.val].openBatch = none ∧ s.records[r.val] = none :=
    storeTarget_cases hr
  have hopen : ∀ b, s.records[r.val] = some b → b.state = .opened ∧ b.window = W := by
    intro b hb
    rcases htarget with h | ⟨_, h⟩
    · obtain ⟨c, hc, k⟩ := hs.1 W r h
      simp only [Fin.getElem_fin] at hc
      rw [hb] at hc
      injection hc with hc
      subst hc
      exact k
    · rw [hb] at h
      exact absurd h (by simp)
  have notSealed : ∀ V : WindowIdx, r ∉ s.windows[V.val].sealedQueue := by
    intro V hV
    obtain ⟨b, hb, hst, _⟩ := hs.2.1 V r hV
    rw [(hopen b hb).1] at hst
    exact absurd hst (by simp)
  have notReleasing : s.engine.releasing ≠ some r := by
    intro h
    obtain ⟨b, hb, hst⟩ := hs.2.2.2.2 r h
    rw [(hopen b hb).1] at hst
    exact absurd hst (by simp)
  have hrel : ∀ V, t.releasingOf V = s.releasingOf V := by
    intro V
    unfold State.releasingOf
    rw [heng]
    cases hq : s.engine.releasing with
    | none => rfl
    | some q =>
      have hne : r ≠ q := by
        rintro rfl
        exact notReleasing hq
      simp only [Option.filter, Fin.getElem_fin, hrec q, if_neg hne]
  -- the entries found in each batch but the one stored to
  have hfind : ∀ q : RecordIdx, q ≠ r → (t.records[q].bind fun b => b.find w) = s.records[q].bind fun b => b.find w := by
    intro q hq
    simp only [Fin.getElem_fin, hrec q, if_neg (Ne.symm hq)]
  have tailEq : ∀ V : WindowIdx,
      (s.windows[V.val].sealedQueue.reverse ++ (s.releasingOf V).toList).filterMap
          (fun q => t.records[q].bind fun b => b.find w) =
        (s.windows[V.val].sealedQueue.reverse ++ (s.releasingOf V).toList).filterMap
          fun q => s.records[q].bind fun b => b.find w := by
    intro V
    apply List.filterMap_congr
    intro q hq
    apply hfind
    rintro rfl
    rw [List.mem_append, List.mem_reverse, Option.mem_toList] at hq
    rcases hq with hq | hq
    · exact notSealed V hq
    · unfold State.releasingOf at hq
      rw [Option.filter_eq_some_iff] at hq
      exact notReleasing hq.1
  have hrfind : (t.records[r].bind fun b => b.find w) =
      if w = a then some (match s.records[r.val].bind fun b => b.find a with | some e => e.coalesce m d | none => ⟨a, d, m⟩)
      else s.records[r.val].bind fun b => b.find w := by
    simp only [Fin.getElem_fin, hrec r, if_pos, Option.bind_some]
    exact addHeld_find _ _ _ _ _ _ _
  cases hcw : coherentWindow s.live w with
  | none =>
    have hne : w ≠ a := by
      rintro rfl
      rw [hW] at hcw
      exact absurd hcw (by simp)
    rw [if_neg (fun h => hne h.1)]
    refine seen_congr ?_ hmem i
    unfold State.found
    rw [hlive, hcw]
  | some V =>
    by_cases hV : W = V
    · subst hV
      -- the window stored to: the batch stored to stands in front
      set tail := (s.windows[W.val].sealedQueue.reverse ++ (s.releasingOf W).toList).filterMap
        fun q => s.records[q].bind fun b => b.find w with htail
      have hft : t.found w = (t.records[r].bind fun b => b.find w).toList ++ tail := by
        unfold State.found
        rw [hlive, hcw]
        unfold State.batchesOf
        simp only [Fin.getElem_fin]
        rw [hwin W, if_pos rfl, hrel]
        rw [List.append_assoc, List.filterMap_append, filterMap_toList]
        exact congrArg _ (tailEq W)
      have hfs : s.found w = (s.records[r.val].bind fun b => b.find w).toList ++ tail := by
        unfold State.found
        rw [hcw]
        unfold State.batchesOf
        simp only [Fin.getElem_fin]
        rw [List.append_assoc, List.filterMap_append]
        congr 1
        rcases htarget with h | ⟨h, hn⟩
        · rw [h, filterMap_toList]
        · rw [h, hn]
          rfl
      unfold State.seen
      rw [lookup_found, lookup_found, hft, hfs, hmem, hrfind]
      by_cases hwa : w = a
      · subst hwa
        rw [if_pos rfl]
        cases hx : s.records[r.val].bind fun b => b.find w with
        | none =>
          simp only [Option.toList_some, Option.toList_none, List.nil_append, List.cons_append, coverage, BitVec.getLsbD_or,
            laneByte_mergeLanes]
          cases hmi : m.getLsbD i.val <;> simp
        | some e =>
          simp only [Option.toList_some, List.nil_append, List.cons_append, coverage, BitVec.getLsbD_or,
            laneByte_mergeLanes, Entry.coalesce]
          cases hmi : m.getLsbD i.val <;> cases hei : e.lanes.getLsbD i.val <;> simp
      · rw [if_neg hwa]
        simp [hwa]
    · have hne : w ≠ a := by
        rintro rfl
        rw [hW] at hcw
        injection hcw with hcw
        exact hV hcw
      rw [if_neg (fun h => hne h.1)]
      refine seen_congr ?_ hmem i
      unfold State.found
      rw [hlive, hcw]
      unfold State.batchesOf
      simp only [Fin.getElem_fin]
      rw [hwin V, if_neg hV, hrel, List.append_assoc]
      refine List.filterMap_append.trans (Eq.trans ?_ List.filterMap_append.symm)
      congr 1
      · apply List.filterMap_congr
        intro q hq
        apply hfind
        rintro rfl
        rw [Option.mem_toList] at hq
        rcases htarget with h | ⟨_, hn⟩
        · obtain ⟨b, hb, _, k⟩ := hs.1 V q hq
          exact hV ((hopen b hb).2.symm.trans k)
        · obtain ⟨b, hb, _⟩ := hs.1 V q hq
          simp only [Fin.getElem_fin] at hb
          rw [hn] at hb
          exact absurd hb (by simp)
      · exact tailEq V

end Sys2Proof.Machine
end

