-- ==== Sys2Proof/WellFormed.lean ====
section
/-! DEFINITION. Which commands name an event their row can be. The part takes nothing for the others (log 1). -/

namespace Sys2Proof

/-- Whether a frame's first whole byte makes it a read-back: 00h or FFh (R160, R162 case 2). -/
def readBackStart (bytes : List Byte) : Bool :=
  match bytes with
  | [] => false
  | b :: _ => b == 0x00 || b == 0xFF

/-- `Instr.wf i`: the operands are ones the row's event can come with. The leftover bits of a frame are fewer than a
byte; a read-back frame begins with 00h or FFh and a malformed one has at least a bit and does not; a DISABLE with
the other row's selector is the other row. Every other operand may hold any value its width allows. -/
def Instr.wf : Instr → Bool
  | .readBack bytes extra => readBackStart bytes && decide (extra < 8)
  | .malformedFrame bytes extra =>
      !readBackStart bytes && (!bytes.isEmpty || decide (0 < extra)) && decide (extra < 8)
  | .disableDrain selector => selector != 0x01
  | .disableDiscard selector => selector != 0x00
  | .upstreamWrite _ _ _ | .upstreamRead _ _ | .ureqWithdrawn | .directWriteComplete | .memoryReadComplete _
  | .entryWriteComplete | .receiptWriteComplete | .drdyRelease | .strayDrdy | .frameStart | .lineStart
  | .supervisionExpiry | .stallExpiry | .resetLine | .frameBegin | .ident | .status | .clearFlags _ | .setMask _
  | .setTiming _ | .getTiming | .stageWindow _ _ | .getWindow _ _ | .apply | .enable | .sealWindows _ | .flush _
  | .windowStatus _ | .takeIncident | .restart | .resetLineEnd | .sckRisingEdge _ | .sckFallingEdge
  | .noBitReceived => true

end Sys2Proof
end

