-- ==== Sys2Proof/Tests/Slice0.lean ====
section
/-! SUPPORT. The model's own tests: ill-formed commands, the manual's worked examples, one step each, and for every statement
that has hypotheses a state that meets them. -/

namespace Sys2Proof.Tests

open Sys2Proof Sys2Proof.Machine

set_option Elab.async false

/-! ## Ill-formed commands are refused -/

theorem test_readBack_needs_a_first_byte : (Instr.readBack [] 0).wf = false := by decide +kernel
theorem test_readBack_begins_00_or_FF : (Instr.readBack [0x42, 0x00, 0xD1] 0).wf = false := by decide +kernel
theorem test_readBack_leaves_less_than_a_byte : (Instr.readBack [0x00] 8).wf = false := by decide +kernel
theorem test_malformedFrame_is_no_readBack : (Instr.malformedFrame [0xFF, 0x00] 0).wf = false := by decide +kernel
theorem test_malformedFrame_has_a_bit : (Instr.malformedFrame [] 0).wf = false := by decide +kernel
theorem test_malformedFrame_leaves_less_than_a_byte : (Instr.malformedFrame [0x42] 8).wf = false := by decide +kernel
theorem test_disableDrain_is_not_discard : (Instr.disableDrain 0x01).wf = false := by decide +kernel
theorem test_disableDiscard_is_not_drain : (Instr.disableDiscard 0x00).wf = false := by decide +kernel
theorem test_wellFormed_frames : (Instr.readBack [0x00, 0x00] 7).wf = true ∧ (Instr.malformedFrame [] 1).wf = true ∧
    (Instr.disableDrain 0x02).wf = true ∧ (Instr.disableDiscard 0x02).wf = true := by decide +kernel

/-! ## The states of the tests: the worked examples' parameters (sections 2.8, 3.8, 5.11) -/

/-- The part after a command. -/
def after (i : Instr) (s : State) : State :=
  match exec i s with
  | .next t => t
  | .fault _ | .refused _ => s

/-- Window 0 of the examples. -/
def chase : WindowRecord := ⟨.chase, 0x010000, 64, 10, 20, 639, some 0x00FF00, 0⟩

/-- Window 1 of the examples. -/
def frame : WindowRecord := ⟨.frame, 0x010280, 64, 20, 30, 1279, some 0x00FF01, 0⟩

/-- Window 2 of the examples. -/
def plain : WindowRecord := ⟨.direct, 0x010780, 64, 4, 80, 255, none, 0⟩

/-- Window 3 of section 12.9, without a receipt address; its idle seal value is 3. -/
def bare : WindowRecord := ⟨.chase, 0x020000, 64, 8, 60, 511, none, 3⟩

/-- The table of the examples. -/
def table : Vector WindowRecord 8 := #v[chase, frame, plain, bare, offRecord, offRecord, offRecord, offRecord]

/-- The same table with window 0 DIRECT, as section 6.8 stages it. -/
def otherTable : Vector WindowRecord 8 :=
  #v[{ chase with policy := .direct }, frame, plain, bare, offRecord, offRecord, offRecord, offRecord]

/-- T = 100, F = 4, A = 90, K = 8, P = 4. -/
def timing : Timing := ⟨some 100, 4, 90, 8, 4, 1000, 50000⟩

/-- A LOCKED tracker at a line, with the frame counter of section 12.8. -/
def lockedAt (line : Nat) : Tracker := ⟨.locked, some line, false, 0x0123, some 50000⟩

/-- An ACQUIRE tracker at a line. -/
def acquireAt (line : Nat) : Tracker := ⟨.acquire, some line, false, 3, some 50000⟩

/-- The part, ACTIVE and LOCKED at line 20, holding nothing. -/
def part : State :=
  { State.reset with live := table, staged := table, timing := timing, tracker := lockedAt 20, mode := .active }

/-- `n` entries of window 0 from word 010000h + `k` on, with all lanes. -/
def wordsFrom (k n : Nat) : List Entry :=
  (List.range n).map fun i => ⟨BitVec.ofNat 24 (0x010000 + k + i), BitVec.ofNat 32 i, 0xF⟩

/-- An open batch. -/
def opened (W : WindowIdx) (entries : List Entry) (first last : Nat) : BatchRecord :=
  ⟨.opened, W, entries, 0, first, last, none, none, none, none, false⟩

/-- A SEALED batch with this seq and ordinal. -/
def sealedAs (W : WindowIdx) (entries : List Entry) (first last n : Nat) : BatchRecord :=
  ⟨.sealed, W, entries, 0, first, last, some (BitVec.ofNat 16 n), some (BitVec.ofNat 32 n), none, none, false⟩

/-- The releasing form of a batch of which `written` entries have left. -/
def releasingAs (b : BatchRecord) (written : Nat) : BatchRecord :=
  { b with state := .releasing, written := written, ground := some .scheduled }

/-- The part with a batch open in record r. -/
def withOpen (r : RecordIdx) (b : BatchRecord) (s : State) : State :=
  (s.setRecord r (some b)).setWindow b.window { s.windows[b.window] with openBatch := some r }

/-- The part with a batch at the end of its window's sealed queue, in record r. -/
def withSealed (r : RecordIdx) (b : BatchRecord) (s : State) : State :=
  (s.setRecord r (some b)).setWindow b.window
    { s.windows[b.window] with
      sealedQueue := s.windows[b.window].sealedQueue ++ [r], lastSealed := b.seq.getD 0 }

/-- The part with a batch releasing in record r, the given write of it in flight. -/
def withRelease (r : RecordIdx) (b : BatchRecord) (phase : EnginePhase) (c : Claim) (s : State) : State :=
  { s.setRecord r (some b) with
    engine := ⟨phase, some r, .inFlight, if phase = .receipt then some 0x23 else none⟩
    port := { s.port with phase := .busy, transaction := some c } }

/-- The part with a write waiting. -/
def withWait (a : Addr) (why : Cause) (W : WindowIdx) (s : State) : State :=
  { s with upstream := ⟨some (.write a 0xF 0xAABBCCDD), .wait, some why, some W, some 1000, false, none⟩ }

/-- The part with a transaction of the upstream port in flight. -/
def withFlight (t : UpTransaction) (p : UpPhase) (c : Claim) (s : State) : State :=
  { s with
    upstream := ⟨some t, p, none, none, none, false, none⟩
    port := { s.port with phase := .busy, transaction := some c } }

/-- The batch of section 12.8 at its seal: 40 words of rows 20 to 25. -/
def indicator : List Entry :=
  wordsFrom 0x008 4 ++ wordsFrom 0x048 8 ++ wordsFrom 0x088 8 ++ wordsFrom 0x0C8 8 ++ wordsFrom 0x108 8 ++ wordsFrom 0x148 4

/-- A store with all 1024 slots taken, in window 1's sealed batch of record 5. -/
def full (s : State) : State :=
  withSealed 5 (sealedAs 1 (wordsFrom 0x280 1024) 30 45 1) s

/-- A window's dynamic state marked closing. -/
def withClosing (W : WindowIdx) (s : State) : State :=
  { s.setWindow W { s.windows[W] with closing := true } with applyPending := true, staged := otherTable }

/-- An incident to report. -/
def geometryIncident : Incident := ⟨.geometry, none, none, some 57, 4, none⟩

/-! ## The manual's worked examples -/

/-- Table 11-2. -/
theorem test_checkBytes_of_table_11_2 :
    checkByte [0x42, 0x00] = 0xD1 ∧ checkByte [0x4A, 0x00] = 0x54 ∧ checkByte [0x5A, 0x00] = 0x71 ∧
      checkByte [0x00, 0x00] = 0xB8 ∧ checkByte [0x01, 0x00] = 0x51 ∧ checkByte [0x04, 0x00] = 0x6D ∧
      checkByte [0x10, 0x00] = 0x9D := by decide +kernel

/-- Section 11.7: the receipt words 00012300h, 00054020h and 9Bh. -/
theorem test_receiptWords_of_the_manual :
    receiptWord { sealedAs 0 [] 20 25 1 with ground := some .scheduled } 0x23 = 0x00012300 ∧
      receiptWord { sealedAs 0 [] 20 25 5 with ground := some .scheduled, late := true } 0x40 = 0x00054020 ∧
      (receiptWord { sealedAs 3 [] 60 60 0 with ground := some .forced, mark := some .flush } 0).extractLsb' 0 8 = 0x9B := by
  decide +kernel

/-- Table 11-5, frame 1. -/
theorem test_status_after_reset : (after .status State.reset).link.response =
    ⟨.ok, [0, 0, 0xFF, 0xFF, 0, 0, 0, 0, 0, 0, 0, 0, 0, 0, 0]⟩ := by decide +kernel

/-- Table 11-5, frame 2. -/
theorem test_enable_with_timing_unset : (after .enable State.reset).link.response = ⟨.state, []⟩ := by decide +kernel

theorem test_enable_makes_active : (after .enable { part with mode := .bypass }).mode = .active := by decide +kernel

/-- Table 11-5, frame 3: the response 04h 00h 6Dh is kept. -/
theorem test_readBack_keeps_the_response :
    responseBytes (after (.readBack [0, 0, 0] 0) (after .enable State.reset)).link.response = [0x04, 0x00, 0x6D] := by decide +kernel

/-- Table 11-5, frame 4. -/
theorem test_malformedFrame_with_wrong_check :
    responseBytes (after (.malformedFrame [0x42, 0x00, 0xD2] 0) State.reset).link.response = [0x10, 0x00, 0x9D] := by decide +kernel

/-- Section 11.6: a frame cut after two bytes. -/
theorem test_malformedFrame_cut :
    (after (.malformedFrame [0x42, 0x00] 0) State.reset).link.response = ⟨.length, []⟩ := by decide +kernel

theorem test_frameBegin_shifts_out_fresh :
    let s := after .frameBegin State.reset
    s.sdo = some false ∧ (after .sckFallingEdge s).link.outBits = 1 := by decide +kernel

theorem test_sckFallingEdge_advances :
    let s := { State.reset with link := ⟨true, 0, 0, 0, [], freshResponse, 0, 7⟩ }
    (after .sckFallingEdge s).link.outPosition = 1 ∧ (after .sckFallingEdge s).link.outBits = 0 := by decide +kernel

theorem test_sckRisingEdge_completes_a_byte :
    let s := { State.reset with link := ⟨true, 7, 0x21, 0, [], freshResponse, 0, 7⟩ }
    (after (.sckRisingEdge false) s).link.stored = [0x42] ∧ (after (.sckRisingEdge false) s).link.byteCount = 1 := by decide +kernel

theorem test_sckRisingEdge_counts_no_byte_past_68 :
    let s := { State.reset with link := ⟨true, 7, 0, 68, List.replicate 67 0, freshResponse, 0, 7⟩ }
    (after (.sckRisingEdge true) s).link.byteCount = 68 ∧ (after (.sckRisingEdge true) s).link.stored.length = 67 := by decide +kernel

theorem test_noBitReceived_ends_the_frame :
    (after .noBitReceived (after .frameBegin State.reset)).link = idleLink freshResponse := by decide +kernel

theorem test_ident : (after .ident State.reset).link.response.payload =
    [0x55, 0x57, 0x06, 0x28, 0x01, 0x08, 0x04, 0x00, 0x10, 0x08] := by decide +kernel

/-- Table 4-5, step 2. -/
theorem test_frameStart_begins_acquisition :
    (after .frameStart { part with tracker := Tracker.reset }).tracker = ⟨.acquire, some 0, false, 1, some 50000⟩ := by decide +kernel

/-- Table 4-5, step 6: a short frame. -/
theorem test_frameStart_finds_a_short_frame :
    let t := after .frameStart { part with timing := { timing with lines := some 8 }, tracker := ⟨.locked, some 5, false, 2, some 9⟩ }
    t.tracker = ⟨.acquire, some 0, false, 3, some 50000⟩ ∧ t.incidents.queue = [⟨.geometry, none, none, some 5, 2, none⟩] ∧
      t.flagSet .incident = true := by decide +kernel

/-- Section 4.8: the same frame, run long. -/
theorem test_lineStart_finds_a_long_frame :
    let t := after .lineStart { part with timing := { timing with lines := some 8 }, tracker := ⟨.locked, some 7, false, 2, some 9⟩ }
    t.tracker = ⟨.acquire, some 8, false, 2, some 50000⟩ ∧ t.incidents.queue = [⟨.geometry, none, none, some 7, 2, none⟩] := by
  decide +kernel

/-- Table 4-5, step 10. -/
theorem test_supervisionExpiry_loses_the_scan :
    let t := after .supervisionExpiry { part with tracker := ⟨.locked, some 3, false, 4, some 0⟩ }
    t.tracker = ⟨.lost, none, false, 4, none⟩ ∧ t.incidents.queue = [⟨.syncLost, none, none, some 3, 4, none⟩] ∧
      t.flagSet .lost = true := by decide +kernel

/-- A SET_TIMING request with these values of T, F, A and S. -/
def request (T F A S : Nat) : TimingFields :=
  ⟨BitVec.ofNat 16 T, BitVec.ofNat 16 F, BitVec.ofNat 16 A, 8, 4, 1000, BitVec.ofNat 16 S⟩

/-- Table 4-6, the refusals. -/
theorem test_setTiming_refusals_of_table_4_6 :
    let s := { part with mode := .bypass }
    (after (.setTiming (request 100 4 90 50000)) part).link.response = ⟨.state, []⟩ ∧
      [request 100 4 97 50000, request 7 0 7 50000, request 100 4 80 0, request 100 10 83 50000].map
          (fun v => (after (.setTiming v) s).link.response) = List.replicate 4 ⟨.range, []⟩ := by decide +kernel

/-- Table 4-6, the last line. -/
theorem test_setTiming_accepted :
    let t := after (.setTiming (request 100 10 84 50000)) { part with mode := .bypass }
    t.link.response = ⟨.ok, []⟩ ∧ t.timing = ⟨some 100, 10, 84, 8, 4, 1000, 50000⟩ ∧ t.tracker.state = .lost := by decide +kernel

theorem test_getTiming : (after .getTiming part).link.response =
    ⟨.ok, [1, 0, 100, 0, 4, 0, 90, 8, 4, 0x03, 0xE8, 0xC3, 0x50]⟩ := by decide +kernel

theorem test_getTiming_unset : (after .getTiming State.reset).link.response =
    ⟨.ok, [0, 0, 0, 0, 0, 0, 0, 1, 4, 0x03, 0xE8, 0xC3, 0x50]⟩ := by decide +kernel

/-- Table 5-5: the lines at which a 40-entry CHASE batch is eligible. -/
theorem test_eligibility_of_table_5_5 :
    [0, 19, 20, 23, 24, 29, 30, 50, 99].map (fun line =>
        { part with tracker := lockedAt line }.batchEligible (sealedAs 0 indicator 20 25 1)) =
      [true, true, false, false, false, false, true, true, true] := by decide +kernel

/-- Table 5-6: the lines at which a 300-entry FRAME batch is eligible. -/
theorem test_eligibility_of_table_5_6 :
    [0, 3, 10, 93, 94, 96, 97, 99].map (fun line =>
        { part with tracker := lockedAt line }.batchEligible (sealedAs 1 (wordsFrom 0x280 300) 30 49 1)) =
      [false, false, false, false, true, true, false, false] := by decide +kernel

/-- Table 12-2, steps 1 and 3: a batch opens, and a merged entry keeps its place. -/
theorem test_upstreamWrite_opens_and_coalesces :
    let t := after (.upstreamWrite 0x010008 0x1 0x11) part
    let u := after (.upstreamWrite 0x010008 0xE 0x44332200) (withOpen 0 (opened 0 [⟨0x010008, 0x11, 0x1⟩] 20 20) part)
    t.records[(0 : Fin 16)] = some (opened 0 [⟨0x010008, 0x11, 0x1⟩] 20 20) ∧ t.upstream.urdy = true ∧
      u.records[(0 : Fin 16)] = some (opened 0 [⟨0x010008, 0x44332211, 0xF⟩] 20 20) := by decide +kernel

/-- Table 12-2, step 4: the zero-strobe commit seals, and the batch is not eligible at line 20. -/
theorem test_zeroStrobe_commit_seals :
    let t := after (.upstreamWrite 0x01027F 0x0 0) (withOpen 0 (opened 0 indicator 20 25) part)
    t.records[(0 : Fin 16)] = some (sealedAs 0 indicator 20 25 1) ∧ t.windows[(0 : Fin 8)].sealedQueue = [0] ∧
      t.engine.phase = .idle := by decide +kernel

/-- Table 12-2, step 6: the line event that leaves line 30 starts the batch. -/
theorem test_lineStart_starts_the_batch :
    let t := after .lineStart { withSealed 0 (sealedAs 0 indicator 20 25 1) part with tracker := lockedAt 29 }
    t.engine = ⟨.entries, some 0, .inFlight, none⟩ ∧ t.windows[(0 : Fin 8)].sealedQueue = [] ∧
      t.port.transaction = some (.entryWrite 0x010008 0xF 0) ∧ t.incidents.queue = [] := by decide +kernel

/-- Table 12-2, step 8: the last entry's completion requests the receipt 00012300h of step 9. -/
theorem test_entryWriteComplete_requests_the_receipt :
    let b := releasingAs (sealedAs 0 (wordsFrom 0x14B 1) 20 25 1) 39
    let t := after .entryWriteComplete (withRelease 0 b .entries (.entryWrite 0x01014B 0xF 7) part)
    t.engine = ⟨.receipt, some 0, .waiting, some 0x23⟩ ∧
      t.port.releaseClaim = some (.receiptWrite 0x00FF00 0x00012300) ∧
      t.memory.read (laneKey 0x01014B 0) = some 7 := by decide +kernel

/-- Table 12-2, step 9: the receipt's completion retires the batch. -/
theorem test_receiptWriteComplete_retires :
    let b := releasingAs (sealedAs 0 [] 20 25 1) 40
    let t := after .receiptWriteComplete (withRelease 0 b .receipt (.receiptWrite 0x00FF00 0x00012300) part)
    t.records[(0 : Fin 16)] = none ∧ t.windows[(0 : Fin 8)].lastRetired = 1 ∧ t.windows[(0 : Fin 8)].retired = 1 ∧
      t.flagSet (.retire 0) = true ∧ t.engine = Engine.reset := by decide +kernel

/-- Table 6-5, step 2: a read answered from two batches. -/
theorem test_upstreamRead_answers_from_two_batches :
    let s := withOpen 1 (opened 0 [⟨0x010040, 0x0000BB00, 0x2⟩] 21 21)
      (withSealed 0 (sealedAs 0 [⟨0x010040, 0x44332211, 0xD⟩] 21 21 1) part)
    (after (.upstreamRead 0x010040 0x0) s).upstream = UpstreamPort.done (some 0x4433BB11) := by decide +kernel

/-- Table 6-5, step 3: a read that nothing covers goes to memory. -/
theorem test_upstreamRead_goes_to_memory :
    (after (.upstreamRead 0x010041 0x0) part).port.transaction = some (.memoryRead 0x010041) := by decide +kernel

theorem test_memoryReadComplete_merges :
    let s := withFlight (.read 0x010040 0xF) .read (.memoryRead 0x010040)
      (withOpen 1 (opened 0 [⟨0x010040, 0x0000BB00, 0x2⟩] 21 21) part)
    (after (.memoryReadComplete 0x44332211) s).upstream = UpstreamPort.done (some 0x4433BB11) := by decide +kernel

theorem test_ureqWithdrawn_withdraws_urdy :
    (after .ureqWithdrawn { part with upstream := UpstreamPort.done none }).upstream = UpstreamPort.reset := by decide +kernel

theorem test_directWriteComplete_writes_memory :
    let s := withFlight (.write 0x000400 0x1 0x5A) .direct (.directWrite 0x000400 0x1 0x5A) part
    (after .directWriteComplete s).memory = [(0x1000, 0x5A)] ∧
      (after .directWriteComplete s).upstream = UpstreamPort.done none := by decide +kernel

/-- Table 8-2, step 9: with the count at P the release write goes ahead. -/
theorem test_drdyRelease_grants_the_release_at_P :
    let s := { part with
      timing := { timing with share := 2 }
      engine := ⟨.entries, some 0, .waiting, none⟩
      port := ⟨.recovering, none, some (.memoryRead 3), some (.entryWrite 0x010000 0xF 2), 2, true⟩ }
    (after .drdyRelease s).port = ⟨.busy, some (.entryWrite 0x010000 0xF 2), some (.memoryRead 3), none, 0, false⟩ := by decide +kernel

/-- Table 8-2, step 4: below P the upstream claim goes first. -/
theorem test_drdyRelease_grants_the_upstream_below_P :
    let s := { part with
      timing := { timing with share := 2 }
      port := ⟨.recovering, none, some (.memoryRead 1), some (.entryWrite 0x010000 0xF 2), 0, true⟩ }
    (after .drdyRelease s).port = ⟨.busy, some (.memoryRead 1), none, some (.entryWrite 0x010000 0xF 2), 1, false⟩ := by decide +kernel

theorem test_strayDrdy_recovers : (after .strayDrdy part).port = ⟨.recovering, none, none, none, 0, true⟩ := by decide +kernel

/-- Table 12-4, steps 1, 3 and 4: a write waits, and its expiry marks and starts the oldest batch. -/
theorem test_stallExpiry_starts_the_oldest :
    let s := { withWait 0x020010 .a 3 (full part) with tracker := lockedAt 15 }
    let t := after .stallExpiry s
    t.incidents.queue =
        [⟨.stallExpired, some 3, none, some 15, 0x0123, some (.cause .a)⟩,
          ⟨.forced, some 1, some 1, some 15, 0x0123, some (.force .stall)⟩] ∧
      t.engine.releasing = some 5 ∧ t.upstream.stallTimer = some 1000 := by decide +kernel

theorem test_resetLine_clears : (after .resetLine part) = { State.reset with resetAsserted := true } := by decide +kernel

theorem test_resetLineEnd_recovers :
    (after .resetLineEnd { State.reset with resetAsserted := true, port := DownstreamPort.reset true }).port.phase = .recovering := by
  decide +kernel

theorem test_clearFlags_clears_the_named :
    (after (.clearFlags 0x0100) { part with incidents := ⟨0x0301, 0, [], 0⟩ }).incidents.flags = 0x0201 := by decide +kernel

theorem test_setMask_replaces_the_mask :
    (after (.setMask 0x2100) { part with incidents := ⟨0x0100, 0x00FF, [], 0⟩ }).incidents.mask = 0x2100 ∧
      (after (.setMask 0x2100) { part with incidents := ⟨0x0100, 0x00FF, [], 0⟩ }).attn = true := by decide +kernel

/-- The fields of a window record as STAGE_WINDOW carries them. -/
def fields (policy : BitVec 8) (base : BitVec 24) (pitch rows first : BitVec 16) (commit : BitVec 24) : RecordFields :=
  ⟨policy, base, pitch, rows, first, commit, 0x01, 0x00FF00, 0x00⟩

theorem test_stageWindow_stages :
    (after (.stageWindow 0 (fields 2 0x010000 64 10 20 639)) { part with staged := Vector.replicate 8 offRecord }).staged[(0 : Fin 8)] =
      chase := by decide +kernel

theorem test_stageWindow_refuses_a_range_past_FFFFFF :
    (after (.stageWindow 0 (fields 2 0xFFFD81 64 10 20 639)) part).link.response = ⟨.range, []⟩ ∧
      (after (.stageWindow 0 (fields 2 0xFFFD80 64 10 20 639)) part).link.response = ⟨.ok, []⟩ := by decide +kernel

theorem test_getWindow : (after (.getWindow 0 0) part).link.response =
    ⟨.ok, [2, 1, 0, 0, 0, 64, 0, 10, 0, 20, 0, 2, 0x7F, 1, 0, 0xFF, 0, 0]⟩ := by decide +kernel

theorem test_apply_in_bypass_takes_effect :
    let t := after .apply { part with mode := .bypass, staged := otherTable }
    t.live = otherTable ∧ t.flagSet .applied = true ∧ t.link.response = ⟨.ok, []⟩ := by decide +kernel

theorem test_apply_in_active_closes :
    let t := after .apply { part with staged := otherTable }
    t.live = table ∧ t.applyPending = true ∧ t.windows[(0 : Fin 8)].closing = true ∧
      t.windows[(1 : Fin 8)].closing = false := by decide +kernel

/-- Table 12-6, step 1. -/
theorem test_disableDrain_seals :
    let t := after (.disableDrain 0) (withOpen 1 (opened 0 (wordsFrom 0x100 6) 23 24) { part with tracker := lockedAt 27 })
    t.mode = .draining ∧ t.windows[(0 : Fin 8)].sealedQueue = [1] ∧ t.link.response = ⟨.ok, []⟩ := by decide +kernel

theorem test_disableDiscard_drops :
    let t := after (.disableDiscard 1) (withOpen 1 (opened 0 (wordsFrom 0x100 6) 23 24) part)
    t.mode = .bypass ∧ t.records[(1 : Fin 16)] = none ∧
      t.incidents.queue = [⟨.discard, none, none, some 20, 0x0123, some (.dropped 6)⟩] := by decide +kernel

theorem test_seal_leaves_other_windows :
    let s := withOpen 1 (opened 0 (wordsFrom 0x100 6) 23 24) part
    (after (.sealWindows 0x02) s).windows[(0 : Fin 8)].openBatch = some 1 ∧
      (after (.sealWindows 0x01) s).windows[(0 : Fin 8)].openBatch = none := by decide +kernel

theorem test_flush_marks_and_starts :
    let t := after (.flush 0x01) (withOpen 1 (opened 0 (wordsFrom 0x100 6) 20 24) { part with tracker := lockedAt 25 })
    t.engine.releasing = some 1 ∧
      t.incidents.queue = [⟨.forced, some 0, some 1, some 25, 0x0123, some (.force .flush)⟩] := by decide +kernel

theorem test_windowStatus :
    (after (.windowStatus 0) (withOpen 1 (opened 0 (wordsFrom 0x100 6) 23 24) part)).link.response =
      ⟨.ok, [0, 1, 0, 6, 0, 0, 0, 0, 0, 0, 0, 0, 0]⟩ := by decide +kernel

/-- Table 10-5, step 7. -/
theorem test_takeIncident :
    let t := after .takeIncident { part with incidents := ⟨0, 0, [geometryIncident], 2⟩ }
    t.link.response = ⟨.ok, [2, 4, 4, 0, 0, 0, 0, 57, 0, 4, 0, 0]⟩ ∧ t.incidents.queue = [] ∧ t.incidents.dropped = 0 := by
  decide +kernel

theorem test_takeIncident_empty : (after .takeIncident part).link.response = ⟨.empty, [0]⟩ := by decide +kernel

theorem test_restart_keeps_the_tables :
    let t := after .restart (withOpen 1 (opened 0 (wordsFrom 0x100 6) 23 24) part)
    t.link.response = ⟨.fresh, []⟩ ∧ t.mode = .bypass ∧ t.live = table ∧ t.tracker = Tracker.reset ∧ t.occupancy = 0 := by
  decide +kernel

/-- One microsecond with no command waiting. -/
theorem test_step_counts_a_microsecond :
    (match step { part with pending := [] } with
      | .next t => t.tracker.supervision
      | .fault _ | .refused _ => none) = some 49999 := by decide +kernel

/-! ## States that meet the hypotheses of the statements -/

/-- Both timers, one at a time, and neither. -/
theorem witness_EmptyQueueIsOneMicrosecond :
    let u (supervision stall : Option Nat) : State :=
      { withWait 0x020010 .a 3 (full part) with
        tracker := { lockedAt 20 with supervision := supervision }
        upstream := { (withWait 0x020010 .a 3 part).upstream with stallTimer := stall } }
    [u (some 2) none, u (some 1) (some 2), u (some 2) (some 1), u (some 1) (some 1)].all fun s =>
      s.pending == [] && s.upstream.phase == .wait := by decide +kernel

theorem witness_DirectWriteIsClaimed :
    let ok (s : State) (a : Addr) : Prop :=
      s.canTake = true ∧ (1 : Lanes) ≠ 0 ∧ GoesDirect s a ∧ NoClaimWaitsInFree s
    ok { part with mode := .bypass } 0x010008 ∧ ok part 0x000400 ∧ ok part 0x010780 ∧
      ok { part with mode := .draining } 0x010008 ∧
      ok { part with port := ⟨.recovering, none, none, none, 0, true⟩ } 0x000400 := by
  delta GoesDirect NoClaimWaitsInFree
  refine ⟨?_, ?_, ?_, ?_, ?_⟩ <;> (dsimp only; decide +kernel)

theorem witness_HeldWriteOpensABatch :
    part.canTake = true ∧ (1 : Lanes) ≠ 0 ∧ GoesHeld part 0x010008 0 ∧
      part.live[(0 : Fin 8)].isCommit 0x010008 = false ∧ part.windows[(0 : Fin 8)].openBatch = none ∧ part.occupancy < 1024 ∧
      part.records[(0 : Fin 16)] = none ∧ ∀ q : RecordIdx, q < 0 → part.records[q].isSome = true := by
  delta GoesHeld; decide +kernel

/-- The part with one open batch of window 0. -/
def drawing : State := withOpen 2 (opened 0 (wordsFrom 0x008 3) 20 20) part

theorem witness_HeldWriteCoalesces :
    drawing.canTake = true ∧ GoesHeld drawing 0x010009 0 ∧ drawing.live[(0 : Fin 8)].isCommit 0x010009 = false ∧
      drawing.windows[(0 : Fin 8)].openBatch = some 2 ∧
      drawing.records[(2 : Fin 16)] = some (opened 0 (wordsFrom 0x008 1 ++ ⟨0x010009, 1, 0xF⟩ :: [⟨0x01000A, 2, 0xF⟩]) 20 20) ∧
      ∀ x ∈ wordsFrom 0x008 1 ++ [⟨0x01000A, 2, 0xF⟩], x.addr ≠ 0x010009 := by
  delta GoesHeld; decide +kernel

/-- The part with 1023 entries held, one of them in window 0's open batch. -/
def almostFull : State :=
  withOpen 2 (opened 0 (wordsFrom 0x008 1) 20 20) (withSealed 5 (sealedAs 1 (wordsFrom 0x280 1022) 30 45 1) part)

theorem witness_HeldWriteAppends :
    almostFull.canTake = true ∧ GoesHeld almostFull 0x010009 0 ∧ almostFull.live[(0 : Fin 8)].isCommit 0x010009 = false ∧
      almostFull.windows[(0 : Fin 8)].openBatch = some 2 ∧
      almostFull.records[(2 : Fin 16)] = some (opened 0 (wordsFrom 0x008 1) 20 20) ∧
      (∀ x ∈ wordsFrom 0x008 1, x.addr ≠ 0x010009) ∧ almostFull.occupancy = 1023 := by
  delta GoesHeld; decide +kernel

theorem witness_CommitWriteSealsItsBatch :
    let ok (s : State) : Prop :=
      s.canTake = true ∧ GoesHeld s 0x01027F 0 ∧ s.live[(0 : Fin 8)].isCommit 0x01027F = true ∧ s.canStore 0 0x01027F = true
    ok part ∧ ok drawing ∧ ok almostFull := by
  delta GoesHeld; dsimp only; decide +kernel

theorem witness_ZeroStrobeWriteCompletes :
    (part.canTake = true ∧ coherentWindow part.live 0x000400 = none) ∧
      (drawing.canTake = true ∧ coherentWindow drawing.live 0x010041 = some 0 ∧
        drawing.live[(0 : Fin 8)].isCommit 0x010041 = false) ∧
      (part.canTake = true ∧ coherentWindow part.live 0x01027F = some 0 ∧ part.windows[(0 : Fin 8)].openBatch = none) ∧
      GoesHeld drawing 0x01027F 0 ∧ drawing.live[(0 : Fin 8)].isCommit 0x01027F = true ∧
      drawing.windows[(0 : Fin 8)].openBatch = some 2 ∧
      drawing.records[(2 : Fin 16)] = some (opened 0 (wordsFrom 0x008 3) 20 20) := by
  delta GoesHeld; decide +kernel

/-- Every record in use, one slot each: no record is free. -/
def crowded : State :=
  { part with records := Vector.ofFn fun r => some (sealedAs 1 (wordsFrom (0x280 + r.val) 1) 30 30 r.val) }

theorem witness_BlockedWriteWaits :
    Blocked (full part) 0x020010 3 .a ∧ Blocked (full drawing) 0x010041 0 .a ∧ Blocked crowded 0x010008 0 .a ∧
      Blocked { drawing with mode := .draining } 0x010009 0 .b ∧ Blocked (withClosing 0 part) 0x010009 0 .c ∧
      (full part).canTake = true ∧ crowded.canTake = true ∧ drawing.canTake = true ∧
      (withClosing 0 { part with mode := .draining }).canTake = true ∧
      Blocked (withClosing 0 { part with mode := .draining }) 0x010009 0 .c := by
  delta Blocked GoesHeld; decide +kernel

theorem witness_OneUpstreamTransactionAtATime :
    { part with resetAsserted := true }.resetAsserted = true ∧
      (withWait 0x020010 .a 3 part).upstream.phase ≠ .idle ∧
      { part with upstream := UpstreamPort.done none }.upstream.urdy = true := by decide +kernel

theorem witness_ReadIsAnsweredOrClaimed :
    (drawing.canTake = true ∧ (drawing.lookup 0x010009).1 = 0xF) ∧
      (part.canTake = true ∧ (part.lookup 0x010009).1 ≠ 0xF ∧ NoClaimWaitsInFree part) := by
  delta NoClaimWaitsInFree; decide +kernel

/-- Two batches of window 0 that hold word 010040h, as section 2.8 leaves them. -/
def layered : State :=
  withOpen 1 (opened 0 [⟨0x010040, 0x0000BB00, 0x2⟩] 21 21) (withSealed 0 (sealedAs 0 [⟨0x010040, 0x44332211, 0xD⟩] 21 21 1) part)

theorem witness_LookupTakesTheNewestByte :
    coherentWindow layered.live 0x010040 = some 0 ∧
      layered.heldFor 0x010040 = [(1, ⟨0x010040, 0x0000BB00, 0x2⟩)] ++ (0, ⟨0x010040, 0x44332211, 0xD⟩) :: [] ∧
      (0xD : Lanes).getLsbD 0 = true ∧
      ∀ y ∈ ([(1, ⟨0x010040, 0x0000BB00, 0x2⟩)] : List (RecordIdx × Entry)), y.2.lanes.getLsbD 0 = false := by
  decide +kernel

theorem witness_MemoryReadMergesHeldLanes :
    (withFlight (.read 0x010040 0xF) .read (.memoryRead 0x010040) layered).port.transaction =
      some (.memoryRead 0x010040) := by decide +kernel

theorem witness_DirectWriteCompletes :
    (withFlight (.write 0x000400 0x1 0x5A) .direct (.directWrite 0x000400 0x1 0x5A) part).port.transaction =
      some (.directWrite 0x000400 0x1 0x5A) := by decide +kernel

/-- Window 0's releasing batch with `n` entries left, the first one's write in flight. -/
def writing (n : Nat) (s : State) : State :=
  withRelease 0 (releasingAs (sealedAs 0 (wordsFrom 0x008 n) 20 20 1) 2) .entries (.entryWrite 0x010008 0xF 0) s

theorem writing_inFlight (n : Nat) (s : State) :
    WriteInFlight (writing n s) .entries 0 (releasingAs (sealedAs 0 (wordsFrom 0x008 n) 20 20 1) 2) :=
  ⟨rfl, rfl, rfl, by simp [writing, withRelease, State.setRecord]⟩

theorem witness_EntryWriteAsksForTheNext :
    WriteInFlight (writing 2 part) .entries 0 (releasingAs (sealedAs 0 (wordsFrom 0x008 2) 20 20 1) 2) ∧
      wordsFrom 0x008 2 = ⟨0x010008, 0, 0xF⟩ :: ⟨0x010009, 1, 0xF⟩ :: [] ∧
      (writing 2 part).port.transaction = some (.entryWrite 0x010008 0xF 0) ∧ (writing 2 part).upstream.phase ≠ .wait :=
  ⟨writing_inFlight 2 part, by decide +kernel, rfl, by decide +kernel⟩

theorem witness_LastEntryAsksForTheReceipt :
    WriteInFlight (writing 1 part) .entries 0 (releasingAs (sealedAs 0 (wordsFrom 0x008 1) 20 20 1) 2) ∧
      wordsFrom 0x008 1 = [⟨0x010008, 0, 0xF⟩] ∧ (writing 1 part).live[(0 : Fin 8)].receipt = some 0x00FF00 ∧
      (writing 1 part).port.transaction = some (.entryWrite 0x010008 0xF 0) ∧ (writing 1 part).upstream.phase ≠ .wait :=
  ⟨writing_inFlight 1 part, by decide +kernel, by decide +kernel, rfl, by decide +kernel⟩

/-- Window 0's batch of record 0 with its receipt's write in flight. -/
def receiving (s : State) : State :=
  withRelease 0 (releasingAs (sealedAs 0 [] 20 25 1) 40) .receipt (.receiptWrite 0x00FF00 0x00012300) s

/-- Window 3's last entry in flight: it has no receipt address. -/
def finishing (s : State) : State :=
  withRelease 0 (releasingAs (sealedAs 3 [⟨0x020010, 7, 0x3⟩] 60 60 1) 1) .entries (.entryWrite 0x020010 0x3 7) s

theorem receiving_retires (s : State) :
    RetiresAt .receiptWriteComplete (receiving s) 0 (releasingAs (sealedAs 0 [] 20 25 1) 40) 0x00FF00 0xF 0x00012300 :=
  .inl ⟨rfl, ⟨rfl, rfl, rfl, by simp [receiving, withRelease, State.setRecord]⟩, rfl, rfl⟩

theorem finishing_retires (s : State) (h : s.live = table) :
    RetiresAt .entryWriteComplete (finishing s) 0 (releasingAs (sealedAs 3 [⟨0x020010, 7, 0x3⟩] 60 60 1) 1) 0x020010 0x3 7 :=
  .inr ⟨rfl, ⟨rfl, rfl, rfl, by simp [finishing, withRelease, State.setRecord]⟩, rfl,
    by show s.live[(3 : Fin 8)].receipt = none; rw [h]; decide +kernel, rfl⟩

theorem witness_RetirementFreesTheRecord :
    RetiresAt .receiptWriteComplete (receiving part) 0 (releasingAs (sealedAs 0 [] 20 25 1) 40) 0x00FF00 0xF 0x00012300 ∧
      RetiresAt .entryWriteComplete (finishing part) 0 (releasingAs (sealedAs 3 [⟨0x020010, 7, 0x3⟩] 60 60 1) 1) 0x020010 0x3 7 ∧
      (releasingAs (sealedAs 0 [] 20 25 1) 40).seq = some 1 ∧ (receiving part).upstream.phase ≠ .wait :=
  ⟨receiving_retires part, finishing_retires part rfl, rfl, by decide +kernel⟩

/-- A drain's last retirement, with an apply pending and a write waiting under cause C. -/
def drained : State :=
  receiving (withClosing 0 (withWait 0x010009 .c 0 { part with mode := .draining }))

theorem witness_LastRetirementCompletesTheDrain :
    RetiresAt .receiptWriteComplete drained 0 (releasingAs (sealedAs 0 [] 20 25 1) 40) 0x00FF00 0xF 0x00012300 ∧
      (drained.mode = .draining ∧ drained.applyPending = true ∧ drained.upstream.phase = .wait ∧
        drained.upstream.transaction = some (.write 0x010009 0xF 0xAABBCCDD) ∧
        ∀ q : RecordIdx, q ≠ 0 → drained.records[q] = none) ∧
      (receiving { drawing with mode := .draining }).records[(2 : Fin 16)].isSome = true :=
  ⟨receiving_retires _, by decide +kernel, by decide +kernel⟩

theorem witness_CompletionWithoutOwnerChangesMemoryAlone :
    let s (c : Claim) : State := { part with port := { part.port with phase := .busy, transaction := some c } }
    (s (.entryWrite 0x010008 0x3 7)).engine.phase = .idle ∧ (s (.receiptWrite 0x00FF00 1)).engine.write ≠ .inFlight := by
  decide +kernel

/-- A store of 1024 entries, two of them releasing: record 0 of window 0. -/
def fullWriting (s : State) : State :=
  writing 2 (withSealed 5 (sealedAs 1 (wordsFrom 0x280 1021) 30 45 1) s)

theorem witness_DepartureReexaminesTheWaitingWrite :
    (let s := fullWriting (withOpen 2 (opened 3 [⟨0x020000, 1, 0xF⟩] 60 60) (withWait 0x020001 .a 3 part));
      s.upstream.phase = .wait ∧ s.upstream.transaction = some (.write 0x020001 0xF 0xAABBCCDD) ∧ GoesHeld s 0x020001 3 ∧
        s.live[(3 : Fin 8)].isCommit 0x020001 = false ∧ s.windows[(3 : Fin 8)].openBatch = some 2 ∧
        s.records[(2 : Fin 16)] = some (opened 3 [⟨0x020000, 1, 0xF⟩] 60 60) ∧
        (∀ f ∈ [(⟨0x020000, 1, 0xF⟩ : Entry)], f.addr ≠ 0x020001) ∧ s.occupancy = 1024) ∧
      (let s := writing 2 (withWait 0x010008 .b 0 { part with mode := .draining });
        s.upstream.transaction = some (.write 0x010008 0xF 0xAABBCCDD) ∧ s.mode = .draining ∧
          coherentWindow s.live 0x010008 = some 0 ∧ s.windows[(0 : Fin 8)].closing = false ∧
          s.heldFor 0x010008 = [(0, ⟨0x010008, 0, 0xF⟩)] ∧ ∀ f ∈ [(⟨0x010009, 1, 0xF⟩ : Entry)], f.addr ≠ 0x010008) ∧
      (let s := writing 2 (withSealed 1 (sealedAs 0 (wordsFrom 0x008 1) 20 20 2)
          (withWait 0x010008 .b 0 { part with mode := .draining }));
        s.mode = .draining ∧ s.windows[(0 : Fin 8)].closing = false ∧
          ((1, ⟨0x010008, 0, 0xF⟩) : RecordIdx × Entry) ∈ s.heldFor 0x010008) := by
  delta GoesHeld; decide +kernel

theorem witness_DrdyReleaseGrantsByTheShare :
    let s (u v : Option Claim) (n : Nat) : State := { part with port := ⟨.recovering, none, u, v, n, true⟩ }
    let u : Claim := .memoryRead 3
    let v : Claim := .entryWrite 0x010008 0xF 0
    ∀ n : Fin 5,
      (s (some u) (some v) n.val).port.drdy = true ∧ (s none (some v) n.val).resetAsserted = false ∧
        (n.val < part.timing.share ∨ n.val = part.timing.share) := by decide +kernel

theorem witness_StrayDrdyCompletesNothing : part.resetAsserted = false ∧ part.port.phase = .free := by decide +kernel

theorem witness_FrameStartMovesTheTracker :
    let s (k : Tracker) : State := { part with tracker := k, timing := { timing with lines := some 8 } }
    (s Tracker.reset).tracker.state = .lost ∧
      ((s (acquireAt 7)).tracker.line = some (8 - 1) ∧ (after .frameStart (s (acquireAt 7))).tracker.state = .locked) ∧
      (after .frameStart (s (acquireAt 8))).tracker.state = .acquire ∧
      (after .frameStart (s { acquireAt 7 with overrun := true })).tracker.state = .acquire ∧
      (after .frameStart (s (lockedAt 6))).tracker.state = .acquire ∧
      (after .frameStart (s (lockedAt 7))).tracker.state = .locked := by decide +kernel

theorem witness_LineStartMovesTheTracker :
    let s (k : Tracker) : State := { part with tracker := k }
    (after .lineStart (s Tracker.reset)).tracker = Tracker.reset ∧
      (after .lineStart (s (acquireAt 4094))).tracker = { acquireAt 4095 with supervision := some 50000 } ∧
      (after .lineStart (s (acquireAt 4095))).tracker = { acquireAt 4095 with overrun := true, supervision := some 50000 } ∧
      (after .lineStart (s (lockedAt 98))).tracker.state = .locked ∧ 98 < 100 - 1 ∧
      (after .lineStart (s (lockedAt 99))).tracker.state = .acquire := by decide +kernel

theorem witness_UnsetTimingIgnoresTheScan :
    { part with resetAsserted := true }.resetAsserted = true ∧ State.reset.timing.lines = none := by decide +kernel

theorem witness_SupervisionExpiryLosesTheScan :
    State.reset.tracker.supervision = none ∧ part.tracker.supervision ≠ none ∧
      { part with tracker := acquireAt 3 }.tracker.supervision ≠ none := by decide +kernel

/-- Window 3 with an open batch, its idle count one below its idle seal value. -/
def pausing : State :=
  let s := withOpen 2 (opened 3 [⟨0x020000, 1, 0xF⟩] 60 60) part
  s.setWindow 3 { s.windows[(3 : Fin 8)] with idle := 2 }

theorem witness_LineEventsCountAndSealIdleWindows :
    (pausing.resetAsserted = false ∧ pausing.upstream.phase ≠ .wait ∧ pausing.windows[(3 : Fin 8)].openBatch = some 2 ∧
        pausing.records[(2 : Fin 16)] = some (opened 3 [⟨0x020000, 1, 0xF⟩] 60 60) ∧ pausing.live[(3 : Fin 8)].idleSeal ≠ 0 ∧
        pausing.windows[(3 : Fin 8)].idle < 255 ∧
        pausing.windows[(3 : Fin 8)].idle + 1 = pausing.live[(3 : Fin 8)].idleSeal) ∧
      (part.windows[(3 : Fin 8)].openBatch = none ∧ drawing.live[(0 : Fin 8)].idleSeal = 0) ∧
      (withWait 0x010009 .a 0 part).applyPending = false ∧
      255 ≤ (pausing.setWindow 3 { pausing.windows[(3 : Fin 8)] with idle := 255 }).windows[(3 : Fin 8)].idle := by
  decide +kernel

theorem witness_LateCheckMarksATornBatch :
    let s (line : Nat) : State := { writing 2 part with tracker := lockedAt line }
    NoClaimWaitsInFree (s 23) ∧ (s 23).engine.phase = .entries ∧ (s 23).engine.releasing = some 0 ∧
      (s 23).records[(0 : Fin 16)] = some (releasingAs (sealedAs 0 (wordsFrom 0x008 2) 20 20 1) 2) ∧
      ((after .lineStart (s 23)).records[(0 : Fin 16)].map BatchRecord.late) = some true ∧
      ((after .lineStart (s 22)).records[(0 : Fin 16)].map BatchRecord.late) = some false ∧
      ((after .lineStart (s 24)).records[(0 : Fin 16)].map BatchRecord.late) = some false := by
  delta NoClaimWaitsInFree; decide +kernel

theorem witness_StallExpiryReportsAndRestarts :
    (withWait 0x020010 .a 3 part).upstream.phase = .wait ∧ (withWait 0x020010 .a 3 part).upstream.stallTimer ≠ none := by
  decide +kernel

/-- A write waiting under cause A with two SEALED batches, of windows 1 and 0. -/
def twoSealed : State :=
  withWait 0x020010 .a 3
    (withSealed 6 (sealedAs 0 (wordsFrom 0x008 2) 20 20 2) (withSealed 5 (sealedAs 1 (wordsFrom 0x280 1022) 30 45 1) part))

/-- A write waiting under cause A with two open batches, of windows 0 and 1. -/
def twoOpen : State :=
  withWait 0x020010 .a 3
    (withOpen 6 (opened 0 (wordsFrom 0x008 2) 20 20) (withOpen 5 (opened 1 (wordsFrom 0x280 1022) 30 45) part))

theorem witness_ExpiryUnderAMarksTheOldestOrSealsTheLargest :
    (twoSealed.upstream.cause = some .a ∧ (5 : RecordIdx) ∈ twoSealed.windows[(1 : Fin 8)].sealedQueue ∧
        ∀ (U : WindowIdx) (q : RecordIdx), q ∈ twoSealed.windows[U].sealedQueue → ∀ d ∈ twoSealed.records[q], d.mark = none →
          q ≠ 5 → olderOrdinal (twoSealed.ordinalOf 5) (twoSealed.ordinalOf q) = true) ∧
      (twoOpen.upstream.cause = some .a ∧
        (∀ (U : WindowIdx) (q : RecordIdx), q ∈ twoOpen.windows[U].sealedQueue → ∀ d ∈ twoOpen.records[q], d.mark ≠ none) ∧
        twoOpen.windows[(1 : Fin 8)].openBatch = some 5 ∧
        ∀ V : WindowIdx, twoOpen.windows[V].openBatch ≠ none → V ≠ 1 →
          twoOpen.openCount V < twoOpen.openCount 1 ∨ twoOpen.openCount V = twoOpen.openCount 1 ∧ 1 < V) := by
  decide +kernel

theorem witness_ExpiryUnderBAndC :
    (let s := withWait 0x010040 .b 0 { layered with mode := .draining };
      s.upstream.phase = .wait ∧ s.upstream.stallTimer ≠ none ∧ s.upstream.cause = some .b ∧
        s.upstream.transaction = some (.write 0x010040 0xF 0xAABBCCDD) ∧
        s.heldFor 0x010040 = (1, ⟨0x010040, 0x0000BB00, 0x2⟩) :: [(0, ⟨0x010040, 0x44332211, 0xD⟩)] ∧
        s.records[(1 : Fin 16)] = some (opened 0 [⟨0x010040, 0x0000BB00, 0x2⟩] 21 21)) ∧
      (let s := withWait 0x010008 .c 0 (withClosing 0 twoSealed);
        s.upstream.cause = some .c ∧ s.windows[(0 : Fin 8)].closing = true ∧ (6 : RecordIdx) ∈ s.windows[(0 : Fin 8)].sealedQueue ∧
          ∀ W : WindowIdx, s.windows[W].closing = true → (5 : RecordIdx) ∉ s.windows[W].sealedQueue) := by
  decide +kernel

theorem witness_EligibilityFollowsTheScan :
    twoSealed.records[(6 : Fin 16)] = some (sealedAs 0 (wordsFrom 0x008 2) 20 20 2) ∧
      (sealedAs 0 (wordsFrom 0x008 2) 20 20 2).firstRow ≤ (sealedAs 0 (wordsFrom 0x008 2) 20 20 2).lastRow ∧
      twoSealed.timing.lines = some 100 := by decide +kernel

/-- A batch of window 0 that ends on the last active row of a table that reaches it. -/
def lastRow (active line : Nat) : State :=
  withSealed 6 (sealedAs 0 (wordsFrom 0x008 2) 20 29 2)
    { part with timing := { timing with lines := some 34, active := active }, tracker := lockedAt line }

/-- The record is in use, with what a check on it says. -/
theorem record_of_any {o : Option BatchRecord} {p : BatchRecord → Bool} (h : o.any p = true) : ∃ b, o = some b ∧ p b = true := by
  cases o with
  | none => cases h
  | some b => exact ⟨b, rfl, h⟩

/-- The batches of a part stand as the law says, by checks on its records. -/
theorem stands_of_checks {s : State}
    (h : (∀ (W : WindowIdx) (r : RecordIdx), s.windows[W].openBatch = some r →
          (s.records[r].any fun b => b.state == .opened && b.window == W) = true) ∧
        (∀ (W : WindowIdx) (r : RecordIdx), r ∈ s.windows[W].sealedQueue →
          (s.records[r].any fun b => b.state == .sealed && b.window == W) = true) ∧
        (∀ r : RecordIdx, ∀ b ∈ s.records[r], b.state = .sealed → r ∈ s.windows[b.window].sealedQueue) ∧
        ∀ W : WindowIdx, (s.windows[W].sealedQueue).Nodup)
    (he : s.engine.releasing = none ∨
      ∃ r, s.engine.releasing = some r ∧ ∃ b, s.records[r] = some b ∧ b.state = .releasing) : BatchesStand s := by
  refine ⟨fun W r k => ?_, fun W r k => ?_, fun r b k => h.2.2.1 r b k, h.2.2.2, fun r k => ?_⟩
  · obtain ⟨b, hb, hp⟩ := record_of_any (h.1 W r k)
    exact ⟨b, hb, by simpa using hp⟩
  · obtain ⟨b, hb, hp⟩ := record_of_any (h.2.1 W r k)
    exact ⟨b, hb, by simpa using hp⟩
  · rcases he with e | ⟨q, e, hq⟩
    · cases e.symm.trans k
    · cases e.symm.trans k
      exact hq

/-- K = 1: window 0's open batch has `n` entries and rows 20 to 29, behind a SEALED one of two; window 3 has a SEALED one. -/
def behindSmall (n : Nat) : State :=
  withOpen 2 (opened 0 (wordsFrom 0x008 n) 20 29)
    (withSealed 7 (sealedAs 3 [⟨0x020000, 1, 0xF⟩] 60 60 2)
      (withSealed 1 (sealedAs 0 (wordsFrom 0x008 2) 20 20 1) { part with timing := { timing with rate := 1 } }))

theorem behindSmall_stands : BatchesStand (behindSmall 90) ∧ BatchesStand (behindSmall 91) :=
  ⟨stands_of_checks (by decide +kernel) (.inl rfl), stands_of_checks (by decide +kernel) (.inl rfl)⟩

/-- R66 at the bounds, K = 1 and T = 100: a CHASE batch of ten lines fits 90 entries; a FRAME batch from line 34 on fits 40
before six blanking lines; in a frame without blanking no FRAME batch fits, and with one line of it one does. -/
theorem test_too_large_at_the_bounds :
    let chased (n : Nat) := opened 0 (wordsFrom 0x008 n) 20 29
    let framed (n : Nat) := opened 1 (wordsFrom 0x280 n) 30 49
    let slow := (behindSmall 90)
    let unblanked (first active : Nat) : State := { part with timing := { timing with firstLine := first, active := active } }
    (¬TooLarge slow (chased 90) ∧ TooLarge slow (chased 91)) ∧ (¬TooLarge slow (framed 40) ∧ TooLarge slow (framed 41)) ∧
      (TooLarge (unblanked 0 100) (framed 1) ∧ ¬TooLarge (unblanked 1 99) (framed 1) ∧ ¬TooLarge (unblanked 0 99) (framed 1)) ∧
      ¬TooLarge (unblanked 0 100) (chased 90) := by
  refine ⟨⟨?_, ?_⟩, ⟨?_, ?_⟩, ⟨?_, ?_, ?_⟩, ?_⟩ <;> (delta TooLarge; dsimp only; decide +kernel)

theorem behindSmall_too_large : OpenBatchTooLarge (behindSmall 91) 0 ∧ ¬OpenBatchTooLarge (behindSmall 90) 0 := by
  have h := test_too_large_at_the_bounds.1
  have h90 : (behindSmall 90).windows[(0 : Fin 8)].openBatch = some 2 ∧
      (behindSmall 90).records[(2 : Fin 16)] = some (opened 0 (wordsFrom 0x008 90) 20 29) := by decide +kernel
  refine ⟨⟨2, _, rfl, rfl, ?_⟩, ?_⟩
  · delta TooLarge; dsimp only; decide +kernel
  · rintro ⟨r, b, hr, hb, hl⟩
    obtain rfl := Option.some.inj (h90.1.symm.trans hr)
    obtain rfl := Option.some.inj (h90.2.symm.trans hb)
    exact h.1 hl

theorem witness_NotOversizeIsEligibleOnceAFrame :
    ((BatchesStand (behindSmall 91) ∧ OpenBatchTooLarge (behindSmall 91) 0) ∧
        (BatchesStand (behindSmall 90) ∧ ¬OpenBatchTooLarge (behindSmall 90) 0) ∧
        (∀ n, n = 90 ∨ n = 91 → Ends (behindSmall n) .sealWindows [0x01] ∧
          (1 : RecordIdx) ∈ (behindSmall n).windows[(0 : Fin 8)].sealedQueue ∧
          (7 : RecordIdx) ∉ (behindSmall n).windows[(0 : Fin 8)].sealedQueue) ∧
        ((after (.sealWindows 0x01) (behindSmall 91)).records.map (Option.map BatchRecord.mark)) =
          (Vector.replicate 16 none |>.set 1 (some (some .oversize)) |>.set 2 (some (some .oversize)) |>.set 7 (some none)) ∧
        ((after (.sealWindows 0x01) (behindSmall 90)).records.map (Option.map BatchRecord.mark)) =
          (Vector.replicate 16 none |>.set 1 (some none) |>.set 2 (some none) |>.set 7 (some none))) ∧
      let b := sealedAs 0 (wordsFrom 0x008 2) 20 29 2
      let c := sealedAs 1 (wordsFrom 0x280 300) 30 49 1
      ((lastRow 30 0).records[(6 : Fin 16)] = some b ∧ b.lastRow < 30 ∧ 4 + 30 ≤ 34 ∧ ¬TooLarge (lastRow 30 0) b ∧
          0 = (if 4 + b.lastRow = 34 - 1 then 0 else 4 + b.lastRow + 1)) ∧
        (¬TooLarge part b ∧ 34 = (if 4 + b.lastRow = 100 - 1 then 0 else 4 + b.lastRow + 1)) ∧
        (¬TooLarge part c ∧ 94 = (if 4 + 90 = 100 then 0 else 4 + 90)) := by
  refine ⟨⟨⟨behindSmall_stands.2, behindSmall_too_large.1⟩, ⟨behindSmall_stands.1, behindSmall_too_large.2⟩, ?_, ?_, ?_⟩, ?_⟩
  · rintro n (rfl | rfl) <;> (delta Ends; decide +kernel)
  · decide +kernel
  · decide +kernel
  · refine ⟨⟨?_, ?_, ?_, ?_, ?_⟩, ⟨?_, ?_⟩, ?_, ?_⟩ <;>
      first | decide +kernel | (delta TooLarge; dsimp only; decide +kernel)

/-- Three heads, of windows 0, 1 and 3, seen from line 94, as section 5.12 puts them. -/
def threeHeads : State :=
  { withSealed 7 (sealedAs 3 [⟨0x020000, 1, 0xF⟩] 60 60 3)
      (withSealed 6 (sealedAs 0 (wordsFrom 0x008 2) 20 20 2) (withSealed 5 (sealedAs 1 (wordsFrom 0x280 300) 30 49 1) part)) with
    tracker := lockedAt 94 }

theorem witness_LineEventStartsTheOldestEligibleHead :
    (threeHeads.engine.phase = .idle ∧
        (∀ W : WindowIdx, threeHeads.windows[W].openBatch = none ∨ threeHeads.live[W].idleSeal = 0 ∨
          threeHeads.windows[W].idle + 1 ≠ threeHeads.live[W].idleSeal) ∧
        (5 : RecordIdx) ∈ threeHeads.candidates ∧
        (∀ q ∈ threeHeads.candidates, threeHeads.unmarked q = true) ∧
        ∀ q ∈ threeHeads.candidates, q ≠ 5 → olderOrdinal (threeHeads.ordinalOf 5) (threeHeads.ordinalOf q) = true) ∧
      (after .lineStart threeHeads).engine.releasing = some 5 ∧
      (after .lineStart { threeHeads with tracker := acquireAt 94 }).engine = threeHeads.engine ∧
      (after .frameStart { threeHeads with tracker := lockedAt 99 }).engine.releasing = some 6 ∧
      (after .frameStart { threeHeads with tracker := acquireAt 94 }).engine = threeHeads.engine ∧
      (let s : State := { threeHeads with tracker := lockedAt 99, staged := table.set 2 { plain with policy := .chase } };
        let pending := { s.setWindow 2 { s.windows[2] with closing := true } with applyPending := true };
        pending.upstream.phase ≠ .wait ∧ (after .frameStart pending).live = pending.staged ∧
          (after .frameStart pending).engine.releasing = some 6) := by decide +kernel

theorem witness_ResetLineClearsThePart :
    { part with resetAsserted := true }.resetAsserted = true ∧ part.resetAsserted = false := by decide +kernel

theorem witness_LinkClocksBytesInAndOut :
    let s := after .frameBegin State.reset
    (State.reset.resetAsserted = false ∧ State.reset.link.inProgress = false) ∧
      (s.link.inProgress = true ∧ s.link.bits = 0 ∧ s.link.stored.length = min s.link.byteCount 67) ∧
      s.link.outPosition = 0 ∧ s.link.outBits = 0 ∧
      ({ s with link := { s.link with byteCount := 68, stored := List.replicate 67 0 } } : State).link.stored.length =
        min 68 67 := by decide +kernel

theorem witness_FramesThatAreNoCommand :
    State.reset.frameCanBe [] 0 = true ∧ State.reset.frameCanBe [0x00, 0x00] 3 = true ∧
      State.reset.frameCanBe [0x42, 0x00] 0 = true ∧ State.reset.frameCanBe [] 5 = true ∧
      (State.reset.frameCanBe [0x42, 0x00, 0xD2] 0 = true ∧ ([0x42, 0x00, 0xD2] : List Byte).getD (0 + 2) 0 ≠ checkByte [0x42, 0x00]) ∧
      (State.reset.frameCanBe [0x40, 0x00, checkByte [0x40, 0x00]] 0 = true ∧ ∀ c ∈ commandList, commandByte c ≠ 0x40) ∧
      State.reset.frameCanBe [0x42, 0x01, 0x00, checkByte [0x42, 0x01, 0x00]] 0 = true ∧
      payloadLength .status ≠ 1 ∧
      State.reset.frameCanBe ([0x42, 64] ++ List.replicate 64 0 ++ [checkByte ([0x42, 64] ++ List.replicate 64 0)]) 0 = true := by
  decide +kernel

/-- A frame with each request can end in the part with no frame in progress, and in one that has received its first byte. -/
theorem witness_Ends :
    let begun (b : Byte) : State := { part with link := ⟨true, 0, 0, 1, [b], freshResponse, 1, 0⟩ }
    let ok (c : Command) (payload : List Byte) : Prop := Ends part c payload ∧ Ends (begun (commandByte c)) c payload
    ok .ident [] ∧ ok .status [] ∧ ok .getTiming [] ∧ ok .getWindow [7, 1] ∧ ok .getWindow [8, 0] ∧ ok .getWindow [0, 2] ∧
      ok .windowStatus [7] ∧ ok .windowStatus [8] ∧ ok .clearFlags (be16 0x3FFF) ∧ ok .clearFlags (be16 0x4000) ∧
      ok .setMask (be16 0x8000) ∧ ok .takeIncident [] ∧ ok .setTiming (timingPayload (request 8 0 8 1)) ∧
      ok .stageWindow (7 :: recordPayload (fields 2 0x010000 64 10 20 639)) ∧ ok .apply [] ∧ ok .enable [] ∧
      ok .disable [0] ∧ ok .disable [1] ∧ ok .disable [2] ∧ ok .sealWindows [0xFF] ∧ ok .flush [0xFF] ∧ ok .restart [] := by
  delta Ends; dsimp only; decide +kernel

/-- Reports: each premise beside the frame's end. -/
theorem witness_ReportsAreSnapshots :
    (7 : BitVec 8).toNat = (7 : WindowIdx).val ∧ part.live[(7 : Fin 8)] = offRecord ∧ 8 ≤ (8 : BitVec 8).toNat ∧
      2 ≤ (2 : BitVec 8).toNat := by decide +kernel

theorem witness_FlagsAreClearedAndMasked :
    ((0x3FFF : BitVec 16).getLsbD 15 = false ∧ (0x3FFF : BitVec 16).getLsbD 14 = false) ∧
      (0x4000 : BitVec 16).getLsbD 14 = true ∧ (0x8000 : BitVec 16).getLsbD 15 = true := by decide +kernel

theorem witness_TakeIncidentTakesTheOldest :
    { part with incidents := ⟨0, 0, [geometryIncident], 2⟩ }.incidents.queue = geometryIncident :: [] ∧
      part.incidents.queue = [] ∧ Ends part .takeIncident [] := by
  delta Ends; decide +kernel

theorem witness_SetTimingIsJudgedInOrder :
    let s : State := { part with mode := .bypass }
    part.mode ≠ .bypass ∧ s.mode = .bypass ∧ TimingInRange (request 8 0 8 1) ∧ TimingInRange (request 4096 4095 1 65535) ∧
      TimingInRange (request 100 10 84 50000) ∧ ¬TimingInRange (request 4097 0 1 1) ∧ ¬TimingInRange (request 7 0 7 1) ∧
      FitsActive s.live 84 ∧ ¬FitsActive s.live 83 ∧ BypassHoldsNothing s ∧ ClosingOnlyWhilePending s := by
  delta TimingInRange FitsActive BypassHoldsNothing ClosingOnlyWhilePending
  refine ⟨?_, ?_, ?_, ?_, ?_, ?_, ?_, ?_, ?_, ?_, ?_⟩ <;> decide +kernel

theorem witness_StageWindowIsJudgedInOrder :
    (withClosing 0 part).applyPending = true ∧ part.applyPending = false ∧ 8 ≤ (8 : BitVec 8).toNat ∧
      RecordInRange (fields 2 0xFFFD80 64 10 20 639) ∧ ¬RecordInRange (fields 2 0xFFFD81 64 10 20 639) ∧
      RecordInRange (fields 1 0 4096 4096 4095 0xFFFFFF) ∧ ¬RecordInRange (fields 1 0 4096 4096 4096 0) ∧
      (7 : BitVec 8).toNat = (7 : WindowIdx).val ∧ 4 ≤ (4 : BitVec 8).toNat := by
  delta RecordInRange; decide +kernel

/-- A staged table whose window 2 meets the last word of window 1. -/
def overlapping : Vector WindowRecord 8 :=
  #v[chase, frame, { plain with base := 0x01077F }, bare, offRecord, offRecord, offRecord, offRecord]

/-- A staged table whose window 3 has its receipt address in window 0. -/
def misplaced : Vector WindowRecord 8 :=
  #v[chase, frame, plain, { bare with receipt := some 0x01027F }, offRecord, offRecord, offRecord, offRecord]

theorem witness_ApplyIsJudgedInOrder :
    let s (staged : Vector WindowRecord 8) : State := { part with mode := .bypass, staged := staged }
    (withClosing 0 part).applyPending = true ∧ (s table).staged = (s table).live ∧
      (State.reset.timing.lines = none ∧ (s otherTable).staged ≠ (s otherTable).live ∧ (s otherTable).timing.lines ≠ none) ∧
      tableOverlaps overlapping = true ∧ (tableOverlaps otherTable = false ∧ tableFits otherTable 83 = false) ∧
      (tableOverlaps misplaced = false ∧ tableFits misplaced 90 = true ∧ receiptMisplaced misplaced = true) ∧
      (tableFits otherTable 90 = true ∧ receiptMisplaced otherTable = false ∧ (s otherTable).upstream.phase ≠ .wait) := by
  decide +kernel

/-- The same, in the terms of the statement. -/
theorem witness_ApplyIsJudgedInOrder_terms :
    Overlapping overlapping ∧ ¬FitsActive otherTable 83 ∧ FitsActive otherTable 84 ∧ ReceiptInside misplaced ∧ ¬Overlapping otherTable :=
  ⟨⟨1, 2, by decide +kernel⟩, by delta FitsActive; decide +kernel, by delta FitsActive; decide +kernel,
    ⟨3, 0, 0x01027F, by decide +kernel⟩, by delta Overlapping; decide +kernel⟩

theorem witness_ApplyClosesTheWindowsThatDiffer :
    (let s : State := { drawing with staged := otherTable };
      Ends s .apply [] ∧ s.applyStatus = .ok ∧ s.mode ≠ .bypass ∧ OpenInUse s ∧ ¬s.tracker.state = .lost) ∧
      (let s : State := { part with staged := otherTable, tracker := Tracker.reset };
        Ends s .apply [] ∧ s.applyStatus = .ok ∧ s.mode ≠ .bypass ∧ OpenInUse s ∧ s.tracker.state = .lost ∧
          ∀ W : WindowIdx, s.windows[W].closing = true ∨ s.staged[W] ≠ s.live[W] → s.hasBatch W = false) := by
  delta Ends OpenInUse; decide +kernel

theorem witness_FrameStartCompletesAPendingApply :
    (let s := withClosing 0 (withWait 0x010009 .c 0 part);
      s.resetAsserted = false ∧ s.applyPending = true ∧
        (∀ W : WindowIdx, s.windows[W].closing = true → s.hasBatch W = false) ∧ s.upstream.phase = .wait ∧
        s.upstream.transaction = some (.write 0x010009 0xF 0xAABBCCDD) ∧ coherentWindow s.staged 0x010009 = none) ∧
      (let s := withClosing 0 drawing;
        s.applyPending = true ∧ ¬∀ W : WindowIdx, s.windows[W].closing = true → s.hasBatch W = false) := by decide +kernel

theorem witness_EnableIsAnsweredByModeAndTiming :
    (let s : State := { part with mode := .bypass };
      s.timing.lines ≠ none ∧ BypassHoldsNothing s ∧ s.upstream.phase ≠ .wait ∧ Ends s .enable []) ∧
      (State.reset.mode = .bypass ∧ State.reset.timing.lines = none ∧ Ends State.reset .enable []) ∧
      Ends { part with mode := .draining } .enable [] := by
  delta BypassHoldsNothing Ends; decide +kernel

theorem witness_DisableDrainSealsEverything :
    (Ends drawing .disable [0] ∧ drawing.mode = .active ∧ OpenInUse drawing ∧ drawing.recordsInUse ≠ 0) ∧
      (Ends part .disable [0] ∧ OpenInUse part ∧ part.recordsInUse = 0 ∧ part.applyPending = false) ∧
      (let s := withClosing 0 part; Ends s .disable [0] ∧ OpenInUse s ∧ s.recordsInUse = 0 ∧ s.applyPending = true) ∧
      (Ends drawing .disable [2] ∧ (2 : BitVec 8) ≠ 0 ∧ (2 : BitVec 8) ≠ 1) ∧ State.reset.mode ≠ .active := by
  delta Ends OpenInUse; decide +kernel

theorem witness_DisableDiscardDropsEverything :
    (Ends drawing .disable [1] ∧ drawing.mode ≠ .bypass ∧ 1 ≤ drawing.occupancy ∧ drawing.applyPending = false) ∧
      (Ends part .disable [1] ∧ part.occupancy = 0 ∧ part.upstream.phase ≠ .wait) ∧
      (withClosing 0 drawing).applyPending = true ∧ (withWait 0x010009 .c 0 drawing).upstream.phase = .wait ∧
      State.reset.mode = .bypass := by
  delta Ends; decide +kernel

theorem witness_SealAndFlushActOnTheNamedWindows :
    OpenInUse drawing ∧ Ends drawing .sealWindows [0x01] ∧ Ends drawing .flush [0x01] ∧ (0x01 : BitVec 8).getLsbD 0 = true ∧
      (0x80 : BitVec 8).getLsbD 7 = true ∧ (0x01 : BitVec 8).getLsbD 7 = false ∧
      (drawing.windows[(0 : Fin 8)].openBatch = some 2 ∧ (6 : RecordIdx) ∈ twoSealed.windows[(0 : Fin 8)].sealedQueue ∧
        (∀ V : WindowIdx, twoSealed.windows[V].openBatch = none) ∧
        twoSealed.records[(6 : Fin 16)] = some (sealedAs 0 (wordsFrom 0x008 2) 20 20 2)) := by
  delta OpenInUse Ends; decide +kernel

theorem witness_RestartClearsTheRunTimeState :
    Ends drawing .restart [] ∧ drawing.upstream.phase ≠ .wait ∧ Ends (withWait 0x010009 .c 0 drawing) .restart [] := by
  delta Ends; decide +kernel

theorem witness_BlocksChangeOnlyByTheirCommands :
    exec .lineStart part = .next (after .lineStart part) ∧ changesUpstream .lineStart = false ∧ changesLive .lineStart = false ∧
      changesMode .lineStart = false ∧ changesEngine .getTiming = false ∧ changesWindows .getTiming = false ∧
      changesPort .getTiming = false ∧ changesIncidents .getTiming = false ∧ changesRecords .getTiming = false ∧
      changesSealOrdinal .getTiming = false ∧ changesLink .lineStart = false :=
  ⟨rfl, by decide +kernel⟩

/-! ## A state that meets every law, with work in every block -/

/-- Window 0 has a releasing, a SEALED and an open batch, window 1 an open one; an entry write is in flight and a direct
write waits for the downstream port. -/
def busy : State :=
  let s := withOpen 3 (opened 1 (wordsFrom 0x280 2) 30 30)
    (withOpen 2 (opened 0 (wordsFrom 0x00A 2) 20 20)
      (withSealed 1 (sealedAs 0 (wordsFrom 0x009 2) 20 20 2) (writing 2 part)))
  { s with
    upstream := ⟨some (.write 0x000400 0x1 0x5A), .direct, none, none, none, false, none⟩
    port := { s.port with upstreamClaim := some (.directWrite 0x000400 0x1 0x5A) }
    memory := [(0x1000, 0x11), (0x1001, 0x22)] }

theorem busy_records : ∀ r : RecordIdx, ∀ b ∈ busy.records[r],
    r.val < 4 ∧ (b.entries.map Entry.addr).Nodup ∧ (b.state = .releasing → busy.engine.releasing = some r) ∧
      (b.state = .opened → busy.windows[b.window].openBatch = some r) ∧
      (b.state = .sealed → r ∈ busy.windows[b.window].sealedQueue) ∧
      ((b.state ≠ .releasing → b.entries ≠ [] ∧ b.written = 0 ∧ b.late = false) ∧
        (b.seq = none ↔ b.state = .opened) ∧ (b.ordinal = none ↔ b.state = .opened) ∧
        (b.ground ≠ none ↔ b.state = .releasing)) ∧
      (busy.live[b.window].policy.isCoherent = true ∧ b.firstRow ≤ b.lastRow ∧
        b.lastRow < busy.live[b.window].firstRow + busy.live[b.window].rows ∧
        ∀ e ∈ b.entries, coherentWindow busy.live e.addr = some b.window ∧
          b.firstRow ≤ busy.live[b.window].screenRow e.addr ∧ busy.live[b.window].screenRow e.addr ≤ b.lastRow) ∧
      ∀ e ∈ b.entries, e.addr ≠ 0x000400 := by decide +kernel

/-- What `busy` keeps of each record, for any record that is in use. -/
theorem busy_store : AtMost1024Entries busy ∧ NoWordTwice busy ∧ BypassHoldsNothing busy ∧ OneReleasing busy ∧
    OneOpenBatch busy ∧ BatchFieldsFollowItsState busy ∧ EntriesLieInTheirWindow busy ∧ DirectWriteMeetsNoEntry busy := by
  refine ⟨?_, fun r b h => (busy_records r b h).2.1, ?_, ⟨fun r b h => (busy_records r b h).2.2.1, ?_⟩,
    fun r b h => (busy_records r b h).2.2.2.1, fun r b h => (busy_records r b h).2.2.2.2.2.1,
    fun r b h => (busy_records r b h).2.2.2.2.2.2.1, ?_⟩
  · delta AtMost1024Entries; decide +kernel
  · delta BypassHoldsNothing; decide +kernel
  · decide +kernel
  · rintro - a m d h r b hb e he
    cases h
    exact (busy_records r b hb).2.2.2.2.2.2.2 e he

theorem busy_stands : BatchesStand busy :=
  stands_of_checks (by decide +kernel) (.inr ⟨0, rfl, _, rfl, rfl⟩)

theorem busy_tables : LiveTableSound busy ∧ LiveTableFits busy ∧ DifferingWindowsClose busy ∧ ClosingOnlyWhilePending busy := by
  delta LiveTableSound LiveTableFits TableSound FitsActive DifferingWindowsClose ClosingOnlyWhilePending
  refine ⟨?_, ?_, ?_, ?_⟩ <;> decide +kernel

theorem busy_timing : TimingWithinRanges busy ∧ LockedLineBelowT busy := by
  refine ⟨⟨?_, ?_, ?_⟩, ?_, ?_⟩
  · decide +kernel
  · rintro T ⟨⟩; decide +kernel
  · refine ⟨by decide +kernel, by decide +kernel, by decide +kernel, by decide +kernel, ?_⟩
    rintro line ⟨⟩; decide +kernel
  · rintro T ⟨⟩; decide +kernel
  · exact fun _ => ⟨100, 20, rfl, rfl, by decide⟩

theorem busy_ports : UpstreamPortSound busy ∧ UpstreamClaimIsItsOwn busy ∧ NoWaitInBypass busy ∧ HeldInReset busy ∧
    HandshakeSound busy ∧ ReleaseShareBound busy ∧ ReleaseWritesTheFirstEntry busy := by
  refine ⟨⟨?_, ?_, ?_, ?_, ?_, ?_, ?_⟩, ⟨?_, ?_, ?_, ?_, ?_⟩, ⟨?_, ?_⟩, ?_, ⟨?_, ?_, ?_⟩, ⟨?_, ?_, ?_, ?_, ?_, ?_⟩, ?_, ?_, ?_⟩
  · decide +kernel
  · exact fun _ => ⟨_, _, _, rfl⟩
  · intro h; cases h
  · decide +kernel
  · decide +kernel
  · decide +kernel
  · decide +kernel
  · rintro a m d (h | h)
    · cases h; exact ⟨rfl, rfl⟩
    · cases h
  · rintro a (h | h) <;> cases h
  · rintro c ⟨⟩
    exact ⟨.inl ⟨_, _, _, rfl⟩, by rintro x ⟨⟩; exact .inl ⟨_, _, _, rfl⟩⟩
  · exact fun _ => ⟨_, .inl rfl, .inl ⟨_, _, _, rfl⟩⟩
  · intro c h; cases h
  · intro h; cases h
  · decide +kernel
  · intro h; cases h
  · decide +kernel
  · decide +kernel
  · decide +kernel
  · decide +kernel
  · decide +kernel
  · decide +kernel
  · decide +kernel
  · exact fun _ => ⟨_, _, rfl, rfl⟩
  · decide +kernel
  · rintro c ⟨⟩; exact .inl ⟨_, _, _, rfl⟩
  · rintro - c h; cases h
  · rintro - - a m d h
    cases h
    exact ⟨0, _, ⟨0x010008, 0, 0xF⟩, [⟨0x010009, 1, 0xF⟩], rfl, rfl, rfl, rfl, rfl, rfl⟩

theorem busy_bounds : MemoryCanonical busy ∧ QueueWithinBounds busy ∧ LinkWithinBounds busy := by
  delta MemoryCanonical QueueWithinBounds LinkWithinBounds; decide +kernel

/-- The premises of the laws' statements: `busy` meets every law, and a step from it answers a next state. -/
theorem witness_laws :
    (MemoryCanonical busy ∧ QueueWithinBounds busy ∧ LinkWithinBounds busy) ∧
      (AtMost1024Entries busy ∧ NoWordTwice busy ∧ BypassHoldsNothing busy ∧ OneReleasing busy ∧ OneOpenBatch busy ∧
        BatchFieldsFollowItsState busy ∧ EntriesLieInTheirWindow busy ∧ DirectWriteMeetsNoEntry busy) ∧
      BatchesStand busy ∧
      (LiveTableSound busy ∧ LiveTableFits busy ∧ DifferingWindowsClose busy ∧ ClosingOnlyWhilePending busy) ∧
      (TimingWithinRanges busy ∧ LockedLineBelowT busy) ∧
      (UpstreamPortSound busy ∧ UpstreamClaimIsItsOwn busy ∧ NoWaitInBypass busy ∧ HeldInReset busy ∧ HandshakeSound busy ∧
        ReleaseShareBound busy ∧ ReleaseWritesTheFirstEntry busy) ∧
      ∃ t, step { busy with pending := [.entryWriteComplete] } = .next t :=
  ⟨busy_bounds, busy_store, busy_stands, busy_tables, busy_timing, busy_ports, ⟨_, rfl⟩⟩

/-- The premises of R96's clauses: a held write, a direct write in flight, an entry that leaves, a read answered from the
store, and a memory read whose word is what the part's writes have left. -/
theorem witness_ReadsSeeTheLatestWrite :
    (BatchesStand busy ∧ OneReleasing busy) ∧ (NoWordTwice busy ∧ EntriesLieInTheirWindow busy ∧ ReleaseWritesTheFirstEntry busy) ∧
      (part.canTake = true ∧ GoesHeld part 0x010008 0 ∧ part.canStore 0 0x010008 = true) ∧
      WriteInFlight busy .entries 0 (releasingAs (sealedAs 0 (wordsFrom 0x008 2) 20 20 1) 2) ∧
      (busy.port.transaction = some (.entryWrite 0x010008 0xF 0) ∧ busy.upstream.phase ≠ .wait) ∧
      (let s := withFlight (.write 0x000400 0x1 0x5A) .direct (.directWrite 0x000400 0x1 0x5A) part;
        DirectWriteMeetsNoEntry s ∧ UpstreamClaimIsItsOwn s) ∧
      (drawing.lookup 0x010009).1 = 0xF ∧
      (let s := { withFlight (.read 0x000400 0xF) .read (.memoryRead 0x000400) part with memory := [(0x1000, 0x5A)] };
        s.port.transaction = some (.memoryRead 0x000400) ∧
          ∀ (i : Fin 4) (b : Byte), s.memory.read (laneKey 0x000400 i.val) = some b → laneByte (0x5A : Word) i = b) := by
  refine ⟨⟨busy_stands, busy_store.2.2.2.1⟩, ⟨busy_store.2.1, busy_store.2.2.2.2.2.2.1, busy_ports.2.2.2.2.2.2⟩, ?_,
    ⟨rfl, rfl, rfl, rfl⟩, by decide +kernel, ⟨?_, ?_⟩, by decide +kernel, rfl, ?_⟩
  · delta GoesHeld; decide +kernel
  · rintro - a m d ⟨⟩ r b h
    have hn : ∀ r : RecordIdx, part.records[r] = none := by decide +kernel
    exact absurd ((hn r).symm.trans h) (by simp)
  · refine ⟨?_, ?_, ?_, ?_, ?_⟩
    · rintro a m d (h | h) <;> cases h
      exact ⟨rfl, rfl⟩
    · rintro a (h | h) <;> cases h
    · intro c h; cases h
    · exact fun _ => ⟨_, .inr rfl, .inl ⟨_, _, _, rfl⟩⟩
    · intro c h; cases h
  · have hk : ∀ i : Fin 4, ∀ b ∈ Memory.read [(0x1000, 0x5A)] (laneKey 0x000400 i.val), laneByte (0x5A : Word) i = b := by
      decide +kernel
    exact fun i b h => hk i b h

/-- Ordinals on the two sides of the wrap. -/
theorem test_ordinals_across_the_wrap :
    olderOrdinal 0xFFFFFFFF 0x00000000 = true ∧ olderOrdinal 0x00000000 0xFFFFFFFF = false ∧
      olderOrdinal 0 0x7FFFFFFF = true ∧ olderOrdinal 0 0x80000000 = false := by decide

end Sys2Proof.Tests
end

section
/-! PROOFS. The hold store and its batches: the laws every step keeps (O57), and what a lookup answers (O13). -/

namespace Sys2Proof.Machine

/-! ## The store with RSTn asserted (R145) -/

@[simp] theorem assertReset_records_get (s : State) (r : RecordIdx) : (assertReset s).records[r.val] = none := by
  simp [assertReset, State.reset]

@[simp] theorem assertReset_windows_get (s : State) (W : WindowIdx) :
    (assertReset s).windows[W.val] = WindowState.reset := by
  simp [assertReset, State.reset]

theorem assertReset_no_batch {s : State} {r : RecordIdx} {b : BatchRecord} : (assertReset s).records[r] ≠ some b := by
  simp

theorem assertReset_batchesStand (s : State) : BatchesStand (assertReset s) := by
  have hengine : (assertReset s).engine.releasing = none := rfl
  refine ⟨?openBatch, ?queued, ?sealed, ?nodup, ?releasing⟩
  case sealed => exact fun _ _ hb => absurd hb assertReset_no_batch
  case releasing => simp [hengine]
  all_goals simp [WindowState.reset]

theorem assertReset_batchFields (s : State) : BatchFieldsFollowItsState (assertReset s) :=
  fun _ _ hb => absurd hb assertReset_no_batch

/-! ## Every step keeps the laws of the store -/

theorem atMost1024Entries_kept : KeptByEveryStep AtMost1024Entries := fun _ _ =>
  step_keeps (fun _ _ h => h) (fun _ _ => change_atMost1024Entries) fun _ _ _ => reset_atMost1024Entries

theorem noWordTwice_kept : KeptByEveryStep NoWordTwice := fun _ _ =>
  step_keeps (fun _ _ h => h) (fun _ _ => change_noWordTwice) fun _ _ _ => reset_noWordTwice

theorem oneReleasing_kept : KeptByEveryStep OneReleasing := fun _ _ =>
  step_keeps (fun _ _ h => h) (fun _ _ => change_oneReleasing) fun _ _ _ => reset_oneReleasing

theorem oneOpenBatch_kept : KeptByEveryStep OneOpenBatch := fun _ _ =>
  step_keeps (fun _ _ h => h) (fun _ _ => change_oneOpenBatch) fun _ _ _ => reset_oneOpenBatch

theorem bypassHoldsNothing_kept : KeptByEveryStep BypassHoldsNothing := fun _ _ =>
  step_keeps (fun _ _ h => h) (fun _ _ => change_bypassHoldsNothing) fun _ _ _ => reset_bypassHoldsNothing

theorem batchesStand_kept : KeptByEveryStep BatchesStand :=
  keptByEveryStep_of_change (fun _ _ h => h) (fun _ _ => change_batchesStand) assertReset_batchesStand fun _ h => h

/-- The fields of a batch rest on the agreement of queues, open batches and records: it says in which state the batch is
that a seal, a start, a late check or a departure acts on. -/
theorem batchesStand_and_batchFields_kept : KeptByEveryStep fun s => BatchesStand s ∧ BatchFieldsFollowItsState s :=
  keptByEveryStep_of_change (fun _ _ h => h)
    (fun _ _ hc ⟨hstand, hfields⟩ => ⟨change_batchesStand hc hstand, change_batchFields hc hstand hfields⟩)
    (fun s => ⟨assertReset_batchesStand s, assertReset_batchFields s⟩) fun _ h => h

/-! ## What a lookup finds (R27) -/

theorem recordEntries_find? (b : Option BatchRecord) (w : Addr) :
    (recordEntries b).find? (fun e => e.addr == w) = b.bind fun b => b.find w := by
  cases b <;> rfl

theorem releasingOf_toList (s : State) (W : WindowIdx) :
    (s.releasingOf W).toList = s.engine.releasing.toList.filter fun r => s.records[r].any fun b => b.window == W := by
  unfold State.releasingOf
  exact Option.toList_filter

/-- A word that no coherent window covers has no entries, so an entry found names its window, its record and itself. -/
theorem heldFor_sound {s : State} {w : Addr} {x : RecordIdx × Entry} (hx : x ∈ s.heldFor w) :
    ∃ W b, coherentWindow s.live w = some W ∧ s.records[x.1] = some b ∧ x.2 ∈ b.entries ∧ x.2.addr = w := by
  cases hW : coherentWindow s.live w with
  | none => simp [State.heldFor, hW] at hx
  | some W =>
    obtain ⟨-, b, hb, hfind⟩ := (mem_heldFor hW x).mp hx
    exact ⟨W, b, rfl, hb, List.mem_of_find?_eq_some hfind, by simpa using List.find?_some hfind⟩

/-- The order of R27: the open batch, the sealed ones from the youngest, the releasing one. -/
theorem heldFor_of_coherent {s : State} {w : Addr} {W : WindowIdx} (hW : coherentWindow s.live w = some W) :
    s.heldFor w =
      (s.windows[W].openBatch.toList ++ s.windows[W].sealedQueue.reverse ++
          s.engine.releasing.toList.filter fun r => s.records[r].any fun b => b.window == W).filterMap fun r =>
        ((recordEntries s.records[r]).find? fun e => e.addr == w).map fun e => (r, e) := by
  unfold State.heldFor
  rw [hW]
  simp only [State.batchesOf, releasingOf_toList, recordEntries_find?]

theorem lookup_covers_iff (s : State) (w : Addr) (i : Fin 4) :
    (s.lookup w).1.getLsbD i.val = true ↔ ∃ x ∈ s.heldFor w, x.2.lanes.getLsbD i.val = true := by
  unfold State.lookup
  rw [coverage_lanes]
  simp only [List.mem_map, exists_exists_and_eq_and]

theorem lookup_newest_byte {s : State} {w : Addr} {i : Fin 4} {newer older : List (RecordIdx × Entry)}
    {x : RecordIdx × Entry} (hheld : s.heldFor w = newer ++ x :: older) (hx : x.2.lanes.getLsbD i.val = true)
    (hnewer : ∀ y ∈ newer, y.2.lanes.getLsbD i.val = false) :
    laneByte (s.lookup w).2 i = laneByte x.2.data i := by
  unfold State.lookup
  rw [hheld, List.map_append, List.map_cons]
  exact coverage_byte _ _ _ i hx (List.forall_mem_map.mpr hnewer)

/-! ## The obligations -/

/-- Settles O57: every step is a chain of elementary changes or moves RSTn, each law is kept by every elementary change,
and the reset line leaves no batch. -/
theorem storeAndBatchesKeepTheirLaws : Obligations.StoreAndBatchesKeepTheirLaws :=
  ⟨atMost1024Entries_kept, noWordTwice_kept, oneReleasing_kept, oneOpenBatch_kept, bypassHoldsNothing_kept,
    batchesStand_kept, batchesStand_and_batchFields_kept⟩

/-- Settles O13: a lookup folds the entries found, newest first, and each entry overlays the older ones in its lanes. -/
theorem lookupTakesTheNewestByte : Obligations.LookupTakesTheNewestByte := fun s w i =>
  ⟨lookup_covers_iff s w i, fun _ _ _ => lookup_newest_byte, fun _ => heldFor_sound, fun _ => heldFor_of_coherent⟩

end Sys2Proof.Machine
end

section
/-! PROOFS. Windows and policies: the laws every step keeps that hold the live table sound, each entry in the range of its
batch's window, and direct writes off held words (O58). -/

namespace Sys2Proof.Machine

/-! ## The tables with RSTn asserted (R145) -/

theorem assertReset_liveTableSound (s : State) : LiveTableSound (assertReset s) := by
  have hpending : (assertReset s).applyPending = false := rfl
  exact ⟨tableSound_off, by simp [hpending]⟩

theorem assertReset_bypassHoldsNothing (s : State) : BypassHoldsNothing (assertReset s) :=
  (BH_iff _).mpr fun _ => assertReset_records_get s

/-- The reset line leaves no batch and no pending apply, of which alone these laws speak beside the live table. -/
theorem assertReset_windowLaws (s : State) : WindowLaws (assertReset s) := by
  have hpending : (assertReset s).applyPending = false := rfl
  refine ⟨⟨?oneReleasing, fun _ => rfl⟩, ?oneOpen, assertReset_batchesStand s, assertReset_liveTableSound s,
    assertReset_bypassHoldsNothing s, ?differing, ?entries⟩
  case differing => exact fun hp => absurd (hpending.symm.trans hp) Bool.false_ne_true
  all_goals exact fun _ _ hb => absurd hb assertReset_no_batch

theorem assertReset_directWriteMeetsNoEntry (s : State) : DirectWriteMeetsNoEntry (assertReset s) :=
  fun _ _ _ _ _ _ _ hb => absurd hb assertReset_no_batch

/-! ## Every step keeps the laws of the windows -/

theorem change_windowLaws {s t : State} (hc : Change s t) (h : WindowLaws s) : WindowLaws t := by
  have hlie : EntriesLieInTheirWindow t := change_entriesLie hc h
  obtain ⟨hreleasing, hopen, hstand, hsound, hbypass, hdiffer, -⟩ := h
  exact ⟨change_oneReleasing hc hreleasing, change_oneOpenBatch hc hopen, change_batchesStand hc hstand,
    change_liveTableSound hc hsound, change_bypassHoldsNothing hc hbypass, change_differingWindowsClose hc hdiffer, hlie⟩

theorem liveTableSound_kept : KeptByEveryStep LiveTableSound :=
  keptByEveryStep_of_change (fun _ _ h => h) (fun _ _ => change_liveTableSound) assertReset_liveTableSound fun _ h => h

/-- R93 rests on the laws of the windows: a write is sent direct when a lookup of its word finds no entry, and it is they that
make every entry of the word one that the lookup finds. -/
theorem windowLaws_and_directWriteMeetsNoEntry_kept :
    KeptByEveryStep fun s => WindowLaws s ∧ DirectWriteMeetsNoEntry s :=
  keptByEveryStep_of_change (fun _ _ h => h)
    (fun _ _ hc ⟨hlaws, hdirect⟩ => ⟨change_windowLaws hc hlaws, change_directWriteMeetsNoEntry hc hlaws hdirect⟩)
    (fun s => ⟨assertReset_windowLaws s, assertReset_directWriteMeetsNoEntry s⟩) fun _ h => h

/-! ## The obligation -/

/-- Settles O58: every elementary change keeps the laws of the windows together and, resting on them, R93; the reset line
leaves every window OFF and no batch. -/
theorem entriesStayInTheirWindows : Obligations.EntriesStayInTheirWindows := by
  unfold Obligations.EntriesStayInTheirWindows
  refine ⟨liveTableSound_kept, ?_⟩
  simpa only [WindowLaws, and_assoc] using windowLaws_and_directWriteMeetsNoEntry_kept

end Sys2Proof.Machine
end

section
/-! PROOFS. Scan tracking: the laws every step keeps that hold the timing and the line in their ranges, the LOCKED line
below T, and the live table in the active area (O59). -/

namespace Sys2Proof.Machine

/-! ## The timing, the closing marks and the fit with RSTn asserted (R145) -/

@[simp] theorem assertReset_timing (s : State) : (assertReset s).timing = Timing.reset := rfl
@[simp] theorem assertReset_tracker (s : State) : (assertReset s).tracker = Tracker.reset := rfl
@[simp] theorem assertReset_applyPending (s : State) : (assertReset s).applyPending = false := rfl

theorem assertReset_live_get (s : State) (W : WindowIdx) : (assertReset s).live[W] = offRecord := by
  simp [assertReset, State.reset]

/-- The reset line leaves the timing unset, with rate, share, stall limit and supervision in their ranges, and no line. -/
theorem assertReset_timingWithinRanges (s : State) : TimingWithinRanges (assertReset s) := by
  refine ⟨fun _ => rfl, ?set, ?rate, ?share, ?stallLimit, ?supervision, ?line⟩
  case set => simp [Timing.reset]
  case line => simp [Tracker.reset]
  all_goals rw [assertReset_timing]; decide

theorem assertReset_closingOnlyWhilePending (s : State) : ClosingOnlyWhilePending (assertReset s) := by
  refine ⟨?pending, ?closing⟩
  case pending => simp
  case closing => simp [WindowState.reset]

/-- With the timing unset the fit asks for BYPASS and OFF windows alone, which the reset line leaves. -/
theorem assertReset_liveTableFits (s : State) : LiveTableFits (assertReset s) := by
  have hlines : (assertReset s).timing.lines = none := rfl
  refine ⟨fun hset => absurd hlines hset, fun _ => ⟨rfl, fun W => ?off⟩, ?staged⟩
  case off => rw [assertReset_live_get]; rfl
  case staged => simp

/-! ## Every step keeps the laws of the timing, the scan and the tables -/

theorem timingWithinRanges_kept : KeptByEveryStep TimingWithinRanges :=
  keptByEveryStep_of_change (fun _ _ h => h) (fun _ _ => change_timingWithinRanges) assertReset_timingWithinRanges fun _ h => h

theorem lockedLineBelowT_kept : KeptByEveryStep LockedLineBelowT := fun _ _ =>
  step_keeps (fun _ _ h => h) (fun _ _ => change_lockedLineBelowT) fun _ _ _ => reset_lockedLineBelowT

theorem closingOnlyWhilePending_kept : KeptByEveryStep ClosingOnlyWhilePending :=
  keptByEveryStep_of_change (fun _ _ h => h) (fun _ _ => change_closingOnlyWhilePending) assertReset_closingOnlyWhilePending
    fun _ h => h

/-- The fit rests on R128, that an apply is pending only outside BYPASS: so SET_TIMING, taken in BYPASS alone, meets no
pending apply whose staged table was judged against the old active area, and none completes with the timing unset. -/
theorem closingOnlyWhilePending_and_liveTableFits_kept :
    KeptByEveryStep fun s => ClosingOnlyWhilePending s ∧ LiveTableFits s :=
  keptByEveryStep_of_change (fun _ _ h => h)
    (fun _ _ hc ⟨hclosing, hfits⟩ => ⟨change_closingOnlyWhilePending hc hclosing, change_liveTableFits hc hclosing hfits⟩)
    (fun s => ⟨assertReset_closingOnlyWhilePending s, assertReset_liveTableFits s⟩) fun _ h => h

/-! ## The obligation -/

/-- Settles O59: every elementary change keeps each law, the fit of the tables together with R128, and the reset line
leaves the timing unset, the tracker LOST, no apply pending and every window OFF. -/
theorem timingScanAndTablesStayWithinBounds : Obligations.TimingScanAndTablesStayWithinBounds :=
  ⟨timingWithinRanges_kept, lockedLineBelowT_kept, closingOnlyWhilePending_kept,
    closingOnlyWhilePending_and_liveTableFits_kept⟩

end Sys2Proof.Machine
end

section
/-! PROOFS. Modes: what ENABLE answers in each mode, with the timing set and unset (O49). -/

namespace Sys2Proof.Machine

/-! ## The end of an event that finds nothing to do -/

/-- With no write waiting and no record in use, the end of an event re-examines nothing and finds no batch to start. -/
theorem settle_of_nothing_held {w : Work} (hwait : w.st.upstream.phase ≠ .wait)
    (hfree : ∀ r : RecordIdx, w.st.records[r.val] = none) : settle w = w.st := by
  rw [settle_noWait w hwait, evaluate_empty w.st hfree, ite_self]

/-! ## ENABLE, mode by mode (R132) -/

theorem exec_enable_of_ends {s : State} (hends : Ends s .enable []) : exec .enable s = .next (enable s) :=
  calc
    exec .enable s = .next (onRequest .enable [] enable s) := rfl
    _ = .next (enable s) := by rw [ends_run hends enable]

theorem enable_of_timing_unset {s : State} (hmode : s.mode = .bypass) (hlines : s.timing.lines = none) :
    enable s = s.answered .state [] := by
  simp [enable, hmode, hlines, answerStatus, answered_eq]

/-- Whatever the store and the upstream port hold, an accepted ENABLE ends as an event that changed the mode. -/
theorem enable_of_timing_set {s : State} (hmode : s.mode = .bypass) (hlines : s.timing.lines ≠ none) :
    enable s = answerStatus .ok (settle (changeMode .active (Work.start s))) := by
  simp [enable, hmode, Option.isSome_iff_ne_none.mpr hlines]

theorem enable_of_active {s : State} (hmode : s.mode = .active) : enable s = s.answered .already [] := by
  simp [enable, hmode, answerStatus, answered_eq]

theorem enable_of_draining {s : State} (hmode : s.mode = .draining) : enable s = s.answered .busy [] := by
  simp [enable, hmode, answerStatus, answered_eq]

/-- The change of the mode tells the release engine and is reported to the upstream port, but with the store empty and no
write waiting neither acts on it. -/
theorem settle_changeMode_of_nothing_held {s : State} (m : Mode) (hwait : s.upstream.phase ≠ .wait)
    (hfree : ∀ r : RecordIdx, s.records[r.val] = none) :
    settle (changeMode m (Work.start s)) = { s with mode := m } :=
  settle_of_nothing_held (w := changeMode m (Work.start s)) hwait hfree

theorem enable_accepted {s : State} (hmode : s.mode = .bypass) (hlines : s.timing.lines ≠ none)
    (hholds : BypassHoldsNothing s) (hwait : s.upstream.phase ≠ .wait) :
    enable s = ({ s with mode := .active } : State).answered .ok [] := by
  have hfree : ∀ r : RecordIdx, s.records[r.val] = none := (BH_iff s).mp hholds hmode
  rw [enable_of_timing_set hmode hlines, settle_changeMode_of_nothing_held .active hwait hfree]
  rfl

/-! ## The obligation -/

/-- Settles O49: the row's frame ends, so ENABLE runs, and each mode has its answer; accepted, the end of the event finds no
write waiting and no batch to start. -/
theorem enableIsAnsweredByModeAndTiming : Obligations.EnableIsAnsweredByModeAndTiming := by
  intro s hends
  rw [exec_enable_of_ends hends]
  refine ⟨fun hmode hlines => ?unset, fun hmode hlines hholds hwait => ?accepted, fun hmode => ?active,
    fun hmode => ?draining⟩
  case unset => rw [enable_of_timing_unset hmode hlines]
  case accepted => rw [enable_accepted hmode hlines hholds hwait]
  case active => rw [enable_of_active hmode]
  case draining => rw [enable_of_draining hmode]

end Sys2Proof.Machine
end

section
/-! PROOFS. Incidents and attention: the flags, their mask and ATTN (O42), and the taking of the oldest incident (O43). -/

namespace Sys2Proof.Machine

/-! ## The flag sets of requests, and ATTN (R149, R168) -/

theorem flagSetInRange_iff (set : BitVec 16) :
    flagSetInRange set = true ↔ set.getLsbD 15 = false ∧ set.getLsbD 14 = false := by
  simp [flagSetInRange]

theorem not_flagSetInRange_iff (set : BitVec 16) :
    ¬flagSetInRange set = true ↔ set.getLsbD 15 = true ∨ set.getLsbD 14 = true := by
  simp only [flagSetInRange_iff, not_and_or, Bool.not_eq_false]

/-- A flag stands at the same bit in a request's sixteen-bit set and in the unit. -/
@[simp] theorem getLsbD_flagsOf (set : BitVec 16) (f : Flag) :
    (flagsOf set).getLsbD (flagBit f) = set.getLsbD (flagBit f) := by
  simp [flagsOf, flagBit_lt f]

theorem getLsbD_clear_flagsOf (flags : BitVec 14) (set : BitVec 16) (f : Flag) :
    (flags &&& ~~~flagsOf set).getLsbD (flagBit f) = (flags.getLsbD (flagBit f) && !set.getLsbD (flagBit f)) := by
  simp only [BitVec.getLsbD_and, BitVec.getLsbD_not, getLsbD_flagsOf, flagBit_lt f, decide_true, Bool.true_and]

theorem attn_iff (s : State) :
    s.attn = true ↔ ∃ f : Flag, s.flagSet f = true ∧ s.incidents.mask.getLsbD (flagBit f) = true :=
  calc
    s.attn = true ↔ ∃ f : Flag, (s.incidents.flags &&& s.incidents.mask).getLsbD (flagBit f) = true := flag_exists _
    _ ↔ ∃ f : Flag, s.flagSet f = true ∧ s.incidents.mask.getLsbD (flagBit f) = true := by
      simp only [BitVec.getLsbD_and, Bool.and_eq_true, State.flagSet]

/-! ## CLEAR_FLAGS and SET_MASK (R150, R151) -/

theorem exec_clearFlags_of_ends {s : State} {set : BitVec 16} (hends : Ends s .clearFlags (be16 set)) :
    exec (.clearFlags set) s = .next (clearFlags set s) :=
  congrArg Host.Outcome.next (ends_run hends (clearFlags set))

theorem exec_setMask_of_ends {s : State} {set : BitVec 16} (hends : Ends s .setMask (be16 set)) :
    exec (.setMask set) s = .next (setMask set s) :=
  congrArg Host.Outcome.next (ends_run hends (setMask set))

theorem clearFlags_of_inRange {set : BitVec 16} (s : State) (hset : flagSetInRange set = true) :
    clearFlags set s =
      ({ s with incidents := { s.incidents with flags := s.incidents.flags &&& ~~~flagsOf set } } : State).answered .ok [] :=
  if_pos hset

theorem clearFlags_of_outOfRange {set : BitVec 16} (s : State) (hset : ¬flagSetInRange set = true) :
    clearFlags set s = s.answered .range [] :=
  if_neg hset

theorem setMask_of_inRange {set : BitVec 16} (s : State) (hset : flagSetInRange set = true) :
    setMask set s = ({ s with incidents := { s.incidents with mask := flagsOf set } } : State).answered .ok [] :=
  if_pos hset

theorem setMask_of_outOfRange {set : BitVec 16} (s : State) (hset : ¬flagSetInRange set = true) :
    setMask set s = s.answered .range [] :=
  if_neg hset

/-- Settles O42: the row's frame ends, so the request runs; a set in range is applied bit by bit, one that names bit 15 or
14 is refused, and ATTN is some bit common to the flags and the mask, each bit of which is a flag's. -/
theorem flagsAreClearedAndMasked : Obligations.FlagsAreClearedAndMasked := by
  intro s set
  refine ⟨attn_iff s, fun h15 h14 => ?inRange, fun hnamed => ?outOfRange⟩
  case inRange =>
    have hset : flagSetInRange set = true := (flagSetInRange_iff set).mpr ⟨h15, h14⟩
    refine ⟨fun hends => ?clear, fun hends => ?mask⟩
    case clear =>
      rw [exec_clearFlags_of_ends hends, clearFlags_of_inRange s hset]
      exact ⟨_, rfl, rfl, getLsbD_clear_flagsOf s.incidents.flags set⟩
    case mask =>
      rw [exec_setMask_of_ends hends, setMask_of_inRange s hset]
      exact ⟨_, rfl, rfl, getLsbD_flagsOf set⟩
  case outOfRange =>
    have hset : ¬flagSetInRange set = true := (not_flagSetInRange_iff set).mpr hnamed
    refine ⟨fun hends => ?clear, fun hends => ?mask⟩
    case clear => rw [exec_clearFlags_of_ends hends, clearFlags_of_outOfRange s hset]
    case mask => rw [exec_setMask_of_ends hends, setMask_of_outOfRange s hset]

/-! ## The bytes of an incident record (Table 11-14, R174) -/

/-- The presence bits are distinct, so their sum is their union. -/
theorem presenceBits_sum (window seq line detail : Bool) :
    byteOf ((if window then 1 else 0) + (if seq then 2 else 0) + (if line then 4 else 0) + (if detail then 8 else 0)) =
      (if window then 1 else 0) ||| (if seq then 2 else 0) ||| (if line then 4 else 0) ||| (if detail then 8 else 0) := by
  revert window seq line detail
  decide

theorem presenceByte_eq (i : Incident) :
    presenceByte i =
      (if i.window = none then 0 else 1) ||| (if i.seq = none then 0 else 2) ||| (if i.line = none then 0 else 4) |||
        (if i.detail = none then 0 else 8) := by
  rw [presenceByte, presenceBits_sum]
  simp only [Option.isSome_iff_ne_none, ne_eq, ite_not]

theorem incidentRecord_congr {kind kind' presence presence' window window' : Byte} {detail detail' : BitVec 16}
    (seq line frame : BitVec 16) (hkind : kind = kind') (hpresence : presence = presence') (hwindow : window = window')
    (hdetail : detail = detail') :
    [kind, presence, window] ++ be16 seq ++ be16 line ++ be16 frame ++ be16 detail =
      [kind', presence', window'] ++ be16 seq ++ be16 line ++ be16 frame ++ be16 detail' := by
  rw [hkind, hpresence, hwindow, hdetail]

/-- The model's bytes are those of the table, field by field. -/
theorem incidentPayload_eq_incidentBytes (i : Incident) : incidentPayload i = incidentBytes i := by
  unfold incidentPayload incidentBytes
  refine incidentRecord_congr _ _ _ ?kind (presenceByte_eq i) ?window ?detail
  case kind => cases i.kind <;> rfl
  case window => cases i.window <;> rfl
  case detail =>
    rcases i.detail with _ | (reason | cause | count)
    case none => rfl
    case some.force => cases reason <;> rfl
    case some.cause => cases cause <;> rfl
    case some.dropped => rfl

/-! ## TAKE_INCIDENT (R155) -/

theorem exec_takeIncident_of_ends {s : State} (hends : Ends s .takeIncident []) :
    exec .takeIncident s = .next (takeIncident s) :=
  congrArg Host.Outcome.next (ends_run hends takeIncident)

theorem takeIncident_of_cons {s : State} {i : Incident} {rest : List Incident} (hqueue : s.incidents.queue = i :: rest) :
    takeIncident s =
      ({ s with incidents := { s.incidents with queue := rest, dropped := 0 } } : State).answered .ok
        (BitVec.ofNat 8 s.incidents.dropped :: incidentBytes i) := by
  simp only [takeIncident, hqueue, incidentPayload_eq_incidentBytes, byteOf, answered_eq]

theorem takeIncident_of_empty {s : State} (hqueue : s.incidents.queue = []) :
    takeIncident s =
      ({ s with incidents := { s.incidents with dropped := 0 } } : State).answered .empty
        [BitVec.ofNat 8 s.incidents.dropped] := by
  simp only [takeIncident, hqueue, byteOf, answered_eq]

/-- Settles O43: the row's frame ends, so TAKE_INCIDENT runs, and the queue has a head or is empty. -/
theorem takeIncidentTakesTheOldest : Obligations.TakeIncidentTakesTheOldest := by
  intro s hends
  rw [exec_takeIncident_of_ends hends]
  refine ⟨fun i rest hqueue => ?head, fun hqueue => ?empty⟩
  case head => rw [takeIncident_of_cons hqueue]
  case empty => rw [takeIncident_of_empty hqueue]

end Sys2Proof.Machine
end

section
/-! PROOFS. The laws every step keeps of the memory, the incident queue and the service link (O56), and of the two ports, the
arbiter and the release engine (O60). -/

namespace Sys2Proof.Machine

/-! ## The memory, the incident queue and the link (R153, R154, R158) -/

theorem memoryCanonical_kept : KeptByEveryStep MemoryCanonical := fun _ _ =>
  step_keeps (fun _ _ h => h) (fun _ _ => change_memoryCanonical) fun _ _ _ => reset_memoryCanonical

theorem queueWithinBounds_kept : KeptByEveryStep QueueWithinBounds := fun _ _ =>
  step_keeps (fun _ _ h => h) (fun _ _ => change_queueWithinBounds) fun _ _ _ => reset_queueWithinBounds

theorem assertReset_linkWithinBounds (s : State) : LinkWithinBounds (assertReset s) :=
  idleLink_bounds freshResponse

theorem linkWithinBounds_kept : KeptByEveryStep LinkWithinBounds :=
  keptByEveryStep_of_change (fun _ _ h => h) (fun _ _ => change_linkWithinBounds) assertReset_linkWithinBounds fun _ h => h

/-- Settles O56: every elementary change keeps each of the three laws; the reset line empties the queue and the link, and
what it cuts leaves the memory in its form. -/
theorem memoryQueueAndLinkStayWithinBounds : Obligations.MemoryQueueAndLinkStayWithinBounds :=
  ⟨memoryCanonical_kept, queueWithinBounds_kept, linkWithinBounds_kept⟩

/-! ## The laws of the ports with RSTn asserted, and at its end (R125, R145) -/

@[simp] theorem assertReset_upstream (s : State) : (assertReset s).upstream = UpstreamPort.reset := rfl

theorem upstreamPortSound_of_reset {s : State} (h : s.upstream = UpstreamPort.reset) : UpstreamPortSound s := by
  unfold UpstreamPortSound
  rw [h]
  simp [UpstreamPort.reset]

theorem upstreamPortSound_kept : KeptByEveryStep UpstreamPortSound :=
  keptByEveryStep_of_change (fun _ _ h => h) (fun _ _ => change_upstreamPortSound)
    (fun s => upstreamPortSound_of_reset (assertReset_upstream s)) fun _ h => h

/-! ## No write waits in BYPASS (R101, R104, R130) -/

theorem countTimers_noWaitInBypass {s : State} (n : Nat) (h : NoWaitInBypass s) :
    NoWaitInBypass { countTimers s with freeIndex := n } := h

theorem supervisionDue_noWaitInBypass {s : State} (h : NoWaitInBypass s) : NoWaitInBypass (supervisionDue s) := by
  unfold supervisionDue
  split
  · exact expireSupervision_NW s h
  · exact h

theorem stallDue_noWaitInBypass {s : State} (h : NoWaitInBypass s) : NoWaitInBypass (stallDue s) := by
  unfold stallDue
  split
  · exact expireStall_NW s h
  · exact h

theorem expireBoth_noWaitInBypass {s : State} (first : Bool) (h : NoWaitInBypass s) :
    NoWaitInBypass (expireBoth first s) := by
  cases first with
  | true => exact stallDue_noWaitInBypass (supervisionDue_noWaitInBypass h)
  | false => exact supervisionDue_noWaitInBypass (stallDue_noWaitInBypass h)

/-- A microsecond is two events at most, each of which ends with no write waiting in BYPASS. -/
theorem tick_noWaitInBypass {s : State} (h : NoWaitInBypass s) : NoWaitInBypass (tick s) := by
  unfold tick expireDue
  split
  · exact expireBoth_noWaitInBypass _ (countTimers_noWaitInBypass (s.freeIndex + 1) h)
  · exact expireBoth_noWaitInBypass _ (countTimers_noWaitInBypass s.freeIndex h)

theorem noWaitInBypass_kept : KeptByEveryStep NoWaitInBypass := by
  intro s t h hs
  unfold step at hs
  split at hs
  · injection hs with hs
    exact hs ▸ tick_noWaitInBypass h
  · next i rest _ => exact exec_NW i { s with pending := rest } t h hs

/-! ## RSTn holds every block (R145) -/

/-- With RSTn withdrawn no elementary change asserts it, so the law says nothing of what the change leaves. -/
theorem change_heldInReset {s t : State} (hc : Change s t) (hawake : s.resetAsserted = false) : HeldInReset t := by
  have hkept : t.resetAsserted = s.resetAsserted := chain_reset (Chain.of hc)
  exact fun hasserted => absurd (hasserted.symm.trans (hkept.trans hawake)) Bool.noConfusion

theorem heldInReset_pending {s : State} (q : List Instr) (h : HeldInReset s) : HeldInReset { s with pending := q } := by
  intro hasserted
  have hs : s = resetForm s.port.drdy s.memory s.freeIndex s.pending := held_form h hasserted
  rw [hs]
  rfl

theorem endReset_heldInReset (s : State) : HeldInReset (endReset s) :=
  fun hasserted => absurd hasserted Bool.noConfusion

theorem heldInReset_kept : KeptByEveryStep HeldInReset := fun _ _ h =>
  step_keeps_awake (fun _ q => heldInReset_pending q) (fun _ _ hc hawake _ => change_heldInReset hc hawake)
    resetForm_held (fun _ _ _ _ => endReset_heldInReset _) h h

/-! ## The handshake and the upstream port's own claim (R92, R94, R118 to R121) -/

theorem resetForm_handshakeSound (d : Bool) (m : Memory) (n : Nat) (q : List Instr) :
    HandshakeSound (resetForm d m n q) := by
  simp [HandshakeSound, resetForm, DownstreamPort.reset]

/-- At its end the port's phase follows the level of DRDY (R125). -/
theorem endReset_handshakeSound (d : Bool) (m : Memory) (n : Nat) (q : List Instr) :
    HandshakeSound (endReset (resetForm d m n q)) := by
  cases d <;> simp [HandshakeSound, endReset, resetForm, DownstreamPort.reset]

/-- With no transaction and no claim anywhere, the law asks only that the upstream port sends none. -/
theorem upstreamClaimIsItsOwn_of_empty {s : State} (hup : s.upstream = UpstreamPort.reset)
    (htransaction : s.port.transaction = none) (hupstream : s.port.upstreamClaim = none)
    (hrelease : s.port.releaseClaim = none) : UpstreamClaimIsItsOwn s := by
  unfold UpstreamClaimIsItsOwn
  rw [hup, htransaction, hupstream, hrelease]
  simp [UpstreamPort.reset]

theorem handshake_and_ownClaim_kept {s t : State} (hheld : HeldInReset s)
    (h : HandshakeSound s ∧ UpstreamClaimIsItsOwn s) (hs : step s = .next t) :
    HandshakeSound t ∧ UpstreamClaimIsItsOwn t :=
  step_keeps_awake (P := fun s => HandshakeSound s ∧ UpstreamClaimIsItsOwn s) (fun _ _ h => h)
    (fun _ _ hc hawake ⟨hshake, hown⟩ =>
      ⟨change_handshakeSound hc hawake hshake, change_upstreamClaimIsItsOwn hc hawake hshake hown⟩)
    (fun d m n q => ⟨resetForm_handshakeSound d m n q, upstreamClaimIsItsOwn_of_empty rfl rfl rfl rfl⟩)
    (fun d m n q => ⟨endReset_handshakeSound d m n q, upstreamClaimIsItsOwn_of_empty rfl rfl rfl rfl⟩) hheld h hs

theorem handshake_ownClaim_and_reset_kept :
    KeptByEveryStep fun s => HandshakeSound s ∧ UpstreamClaimIsItsOwn s ∧ HeldInReset s := by
  rintro s t ⟨hshake, hown, hheld⟩ hs
  obtain ⟨hshake', hown'⟩ := handshake_and_ownClaim_kept hheld ⟨hshake, hown⟩ hs
  exact ⟨hshake', hown', heldInReset_kept s t hheld hs⟩

/-! ## The release share, and what the engine writes (R61, R71, R122) -/

@[simp] theorem assertReset_engine (s : State) : (assertReset s).engine = Engine.reset := rfl
@[simp] theorem assertReset_port (s : State) : (assertReset s).port = DownstreamPort.reset s.port.drdy := rfl

theorem assertReset_releaseShareBound (s : State) : ReleaseShareBound (assertReset s) := by
  simp [ReleaseShareBound, DownstreamPort.reset, Engine.reset]

theorem assertReset_releaseWritesTheFirstEntry (s : State) : ReleaseWritesTheFirstEntry (assertReset s) := by
  simp [ReleaseWritesTheFirstEntry, DownstreamPort.reset, Engine.reset]

/-- The share rests on the empty store in BYPASS, where a busy engine has no batch. -/
theorem releaseShare_and_bypass_kept : KeptByEveryStep fun s => ReleaseShareBound s ∧ BypassHoldsNothing s :=
  keptByEveryStep_of_change (fun _ _ h => h)
    (fun _ _ hc ⟨hshare, hbypass⟩ => ⟨change_releaseShareBound hc hbypass hshare, change_bypassHoldsNothing hc hbypass⟩)
    (fun s => ⟨assertReset_releaseShareBound s, assertReset_bypassHoldsNothing s⟩) fun _ h => h

theorem releaseWrites_and_laws_kept :
    KeptByEveryStep fun s => ReleaseWritesTheFirstEntry s ∧ ReleaseShareBound s ∧ BypassHoldsNothing s ∧ BatchesStand s :=
  keptByEveryStep_of_change (fun _ _ h => h)
    (fun _ _ hc ⟨hfirst, hshare, hbypass, hstand⟩ =>
      ⟨change_releaseWritesTheFirstEntry hc hstand hshare hfirst, change_releaseShareBound hc hbypass hshare,
        change_bypassHoldsNothing hc hbypass, change_batchesStand hc hstand⟩)
    (fun s => ⟨assertReset_releaseWritesTheFirstEntry s, assertReset_releaseShareBound s,
      assertReset_bypassHoldsNothing s, assertReset_batchesStand s⟩)
    fun _ h => h

/-- Settles O60: every elementary change keeps each law, those of the handshake with RSTn withdrawn, and RSTn holds the part
at its values after the reset line; that no write waits in BYPASS holds at the end of each event. -/
theorem portsKeepTheirLaws : Obligations.PortsKeepTheirLaws :=
  ⟨upstreamPortSound_kept, noWaitInBypass_kept, heldInReset_kept, handshake_ownClaim_and_reset_kept,
    releaseShare_and_bypass_kept, releaseWrites_and_laws_kept⟩

end Sys2Proof.Machine
end

section
/-! PROOFS. Steps and the reset state: the front of the queue (O1), one microsecond with none waiting (O2), and the laws of the
part right after the reset line (O3). -/

namespace Sys2Proof.Machine

/-! ## A step with a command waiting -/

/-- Settles O1: the queue with the command in front is matched, and its rest is the queue that the part had. -/
theorem stepTakesTheFrontCommand : Obligations.StepTakesTheFrontCommand := fun _ _ => rfl

/-! ## One microsecond (logs 4 and 6) -/

theorem runsOut_iff (t : Option Nat) : runsOut t = true ↔ t = some 0 := by
  simp [runsOut]

theorem supervisionDue_eq_self {s : State} (h : s.tracker.supervision ≠ some 0) : supervisionDue s = s :=
  if_neg (mt (runsOut_iff _).mp h)

theorem supervisionDue_eq_expire {s : State} (h : s.tracker.supervision = some 0) :
    supervisionDue s = expireSupervision s :=
  if_pos ((runsOut_iff _).mpr h)

/-- The stall timer has run out while a write waits. -/
def StallIsDue (s : State) : Prop :=
  s.upstream.phase = .wait ∧ s.upstream.stallTimer = some 0

theorem stallIsDue_iff (s : State) :
    (s.upstream.phase == .wait && runsOut s.upstream.stallTimer) = true ↔ StallIsDue s := by
  simp [StallIsDue, runsOut]

theorem stallDue_eq_self {s : State} (h : ¬StallIsDue s) : stallDue s = s :=
  if_neg (mt (stallIsDue_iff s).mp h)

theorem stallDue_eq_expire {s : State} (h : StallIsDue s) : stallDue s = expireStall s :=
  if_pos ((stallIsDue_iff s).mpr h)

/-- The supervision expiry can end a wait (R99, R142 point 2), but it begins none and leaves the timer of one that goes on. -/
theorem stallIsDue_of_expireSupervision {s : State} (h : StallIsDue (expireSupervision s)) : StallIsDue s := by
  obtain ⟨hphase, htimer⟩ := h
  unfold expireSupervision at hphase htimer
  generalize hw : applyIfLost _ = w at hphase htimer
  have hup : w.st.upstream = s.upstream := by rw [← hw, applyIfLost_upstream]; rfl
  by_cases hwait : w.st.upstream.phase = .wait
  · rw [settle_timer w hphase hwait] at htimer
    exact ⟨hup ▸ hwait, hup ▸ htimer⟩
  · rw [settle_upstream_noWait w hwait] at hphase
    exact absurd hphase hwait

theorem exec_supervisionExpiry_of_running {s : State} (h : s.tracker.supervision = some 0) :
    exec .supervisionExpiry s = .next (expireSupervision s) := by
  simp [exec, execSupervisionExpiry, h]

theorem exec_stallExpiry_of_due {s : State} (h : StallIsDue s) : exec .stallExpiry s = .next (expireStall s) := by
  simp [exec, execStallExpiry, h.1, h.2]

/-- After a supervision expiry that met a due stall expiry, the command STALL_EXPIRY does what the microsecond does: a wait
that goes on has its timer still at 0. -/
theorem exec_stallExpiry_after {s : State} (hscan : s.tracker.supervision = some 0) (hstall : StallIsDue s) :
    exec .stallExpiry (expireSupervision s) = .next (stallDue (expireSupervision s)) := by
  have h := expire_pending s hstall.1 hstall.2
  rw [supervisionDue_eq_expire hscan] at h
  rw [h]
  rfl

theorem expireBoth_true_eq {s : State} (hscan : s.tracker.supervision = some 0) (hstall : StallIsDue s) :
    execAll [.supervisionExpiry, .stallExpiry] s = .next (expireBoth true s) := by
  simp only [execAll, exec_supervisionExpiry_of_running hscan, exec_stallExpiry_after hscan hstall, expireBoth, if_true,
    supervisionDue_eq_expire hscan]

theorem expireBoth_false_eq {s : State} (hscan : s.tracker.supervision = some 0) (hstall : StallIsDue s) :
    execAll [.stallExpiry, .supervisionExpiry] s = .next (expireBoth false s) := by
  have hscan' : (expireStall s).tracker.supervision = some 0 := by rw [expireStall_tracker, hscan]
  simp only [execAll, exec_stallExpiry_of_due hstall, exec_supervisionExpiry_of_running hscan', expireBoth,
    stallDue_eq_expire hstall, supervisionDue_eq_expire hscan', if_neg Bool.false_ne_true]

theorem bothDue_iff (s : State) : s.bothDue = true ↔ s.tracker.supervision = some 0 ∧ StallIsDue s := by
  simp [State.bothDue, StallIsDue, runsOut, and_assoc]

theorem expireDue_of_both {s : State} (h : s.bothDue = true) :
    expireDue s = expireBoth (Config.supervisionFirst s.freeIndex) { s with freeIndex := s.freeIndex + 1 } :=
  if_pos h

theorem expireDue_of_not_both {s : State} (h : ¬s.bothDue = true) : expireDue s = stallDue (supervisionDue s) :=
  if_neg h

/-! The four cases of what runs out in one microsecond, for the part `u` with its timers counted down. -/

section

variable {u : State}

theorem expireDue_of_neither (hscan : u.tracker.supervision ≠ some 0) (hstall : ¬StallIsDue u) : expireDue u = u := by
  rw [expireDue_of_not_both fun h => hscan ((bothDue_iff u).mp h).1, supervisionDue_eq_self hscan,
    stallDue_eq_self hstall]

theorem expireDue_of_scan (hscan : u.tracker.supervision = some 0) (hstall : ¬StallIsDue u) :
    .next (expireDue u) = exec .supervisionExpiry u := by
  rw [expireDue_of_not_both fun h => hstall ((bothDue_iff u).mp h).2, supervisionDue_eq_expire hscan,
    stallDue_eq_self (mt stallIsDue_of_expireSupervision hstall), exec_supervisionExpiry_of_running hscan]

theorem expireDue_of_stall (hscan : u.tracker.supervision ≠ some 0) (hstall : StallIsDue u) :
    .next (expireDue u) = exec .stallExpiry u := by
  rw [expireDue_of_not_both fun h => hscan ((bothDue_iff u).mp h).1, supervisionDue_eq_self hscan,
    stallDue_eq_expire hstall, exec_stallExpiry_of_due hstall]

theorem expireDue_of_scan_and_stall (hscan : u.tracker.supervision = some 0) (hstall : StallIsDue u) :
    .next (expireDue u) = execAll [.supervisionExpiry, .stallExpiry] { u with freeIndex := u.freeIndex + 1 } ∨
      .next (expireDue u) = execAll [.stallExpiry, .supervisionExpiry] { u with freeIndex := u.freeIndex + 1 } := by
  rw [expireDue_of_both ((bothDue_iff u).mpr ⟨hscan, hstall⟩)]
  cases Config.supervisionFirst u.freeIndex with
  | true => exact .inl (expireBoth_true_eq (s := { u with freeIndex := u.freeIndex + 1 }) hscan hstall).symm
  | false => exact .inr (expireBoth_false_eq (s := { u with freeIndex := u.freeIndex + 1 }) hscan hstall).symm

end

theorem step_of_no_command {s : State} (h : s.pending = []) : step s = .next (expireDue (countTimers s)) := by
  unfold step
  rw [h]
  rfl

/-- Settles O2: the timers are counted down, and of the four cases of what runs out, both at once takes either order. -/
theorem emptyQueueIsOneMicrosecond : Obligations.EmptyQueueIsOneMicrosecond := by
  intro s hpending
  rw [step_of_no_command hpending]
  exact ⟨fun hscan hstall => congrArg Host.Outcome.next (expireDue_of_neither (u := countTimers s) hscan hstall),
    expireDue_of_scan (u := countTimers s), expireDue_of_stall (u := countTimers s),
    expireDue_of_scan_and_stall (u := countTimers s)⟩

/-! ## The part right after the reset line -/

theorem reset_records_get (r : RecordIdx) : State.reset.records[r.val] = none :=
  assertReset_records_get State.reset r

theorem reset_atMost1024 : AtMost1024Entries State.reset := by
  unfold AtMost1024Entries
  rw [occupancy_eq_zero_of_free reset_records_get]
  exact Nat.zero_le _

theorem reset_no_batch {r : RecordIdx} {b : BatchRecord} : State.reset.records[r] ≠ some b :=
  assertReset_no_batch (s := State.reset)

theorem reset_lockedLine : LockedLineBelowT State.reset := by
  simp [LockedLineBelowT, State.reset, Timing.reset, Tracker.reset]

/-- Settles O3: what RSTn holds obeys each law, and withdrawing it changes the level of RSTn and the phase of the port alone. -/
theorem resetMeetsEveryLaw : Obligations.ResetMeetsEveryLaw := by
  obtain ⟨hreleasing, hopen, hstand, hsound, hbypass, hdiffer, hlie⟩ := assertReset_windowLaws State.reset
  refine ⟨reset_memory_wf, ⟨Nat.zero_le _, Nat.zero_le _⟩, assertReset_linkWithinBounds State.reset, reset_atMost1024,
    fun _ _ h => absurd h reset_no_batch, hbypass, hreleasing, hopen, hstand, assertReset_batchFields State.reset, hlie,
    hsound, assertReset_liveTableFits State.reset, hdiffer, assertReset_closingOnlyWhilePending State.reset,
    assertReset_timingWithinRanges State.reset, reset_lockedLine, upstreamPortSound_of_reset rfl,
    upstreamClaimIsItsOwn_of_empty rfl rfl rfl rfl, assertReset_directWriteMeetsNoEntry State.reset, ?noWait,
    endReset_heldInReset (assertReset State.reset), endReset_handshakeSound false [] 0 [],
    assertReset_releaseShareBound State.reset, assertReset_releaseWritesTheFirstEntry State.reset⟩
  case noWait => simp [NoWaitInBypass, State.reset, UpstreamPort.reset]

end Sys2Proof.Machine
end

section
/-! PROOFS. Upstream traffic: what becomes of a write at its taking (O4 to O10), when a request is taken at all (O11), and how a
read is answered (O12, O14). -/

namespace Sys2Proof.Machine

section

variable {s : State} {a : Addr} {m : Lanes} {d : Word} {W : WindowIdx}

/-! ## The taking of a write (R86, R88 to R92) -/

theorem exec_upstreamWrite_of_canTake (h : s.canTake = true) :
    exec (.upstreamWrite a m d) s = .next (takeWrite a m d s) := by
  simp only [exec, execUpstreamWrite, h, if_true]

theorem exec_upstreamRead_of_canTake (h : s.canTake = true) : exec (.upstreamRead a m) s = .next (takeRead a m s) := by
  simp only [exec, execUpstreamRead, h, if_true]

theorem takeWrite_of_strobed (hm : m ≠ 0) :
    takeWrite a m d s = settle (takeStrobedWrite a m d (Work.start s)) :=
  if_neg (by simpa using hm)

theorem takeWrite_of_no_strobe : takeWrite a 0 d s = settle (zeroStrobeSeal a (Work.start (completeUpstream none s))) :=
  if_pos (by simp)

theorem takeWrite_of_direct (hm : m ≠ 0) (h : s.classify a = .direct) : takeWrite a m d s = sendDirect a m d s := by
  have hstart : (Work.start s).st.classify a = .direct := h
  rw [takeWrite_of_strobed hm, takeStrobedWrite, hstart]
  rfl

theorem takeWrite_of_wait {why : Cause} (hm : m ≠ 0) (h : s.classify a = .wait why W) :
    takeWrite a m d s = beginWait (.write a m d) why W s := by
  have hstart : (Work.start s).st.classify a = .wait why W := h
  rw [takeWrite_of_strobed hm, takeStrobedWrite, hstart]
  rfl

/-- Settles O4: Table 6-2 sends the write direct, and a transaction sent to memory is claimed there. -/
theorem directWriteIsClaimed : Obligations.DirectWriteIsClaimed := by
  intro s a m d hcan hm hdirect hfree
  rw [exec_upstreamWrite_of_canTake hcan, takeWrite_of_direct hm (classify_direct hdirect)]
  exact congrArg Host.Outcome.next (sendUpstream_eq s _ _ _ hfree)

theorem startedTimer_eq (limit : Nat) : startedTimer limit = if limit = 0 then none else some limit := by
  simp [startedTimer]

/-- Settles O10: Table 6-2 has the write wait, and a wait begins with its cause, its window, the timer and STALL. -/
theorem blockedWriteWaits : Obligations.BlockedWriteWaits := by
  intro s a m d why W hcan hm hblocked
  rw [exec_upstreamWrite_of_canTake hcan, takeWrite_of_wait hm (classify_blocked hblocked), ← startedTimer_eq]
  rfl

/-! ## Held writes off the commit word (R8 to R11, R91) -/

theorem exec_held_of_not_commit {r : RecordIdx} (hcan : s.canTake = true) (hm : m ≠ 0) (hheld : GoesHeld s a W)
    (hcommit : s.live[W].isCommit a = false) (hroom : s.canStore W a = true) (htarget : s.storeTarget W = some r) :
    exec (.upstreamWrite a m d) s =
      .next
        { (s.setRecord r (some (addHeld s.records[r] W (s.live[W].screenRow a) a m d))).setWindow W
            { s.windows[W] with openBatch := some r, idle := 0 } with
          upstream := UpstreamPort.done none } := by
  rw [exec_held hcan hm hheld hroom, storeWrite_nocommit hcommit, storeHeld_of_target htarget]
  rfl

theorem slotFree_iff (s : State) : s.slotFree = true ↔ s.occupancy < 1024 :=
  decide_eq_true_iff

theorem storeTarget_of_open {r : RecordIdx} (h : s.windows[W].openBatch = some r) : s.storeTarget W = some r := by
  unfold State.storeTarget
  rw [h]

theorem storeTarget_of_closed (h : s.windows[W].openBatch = none) : s.storeTarget W = s.freeRecord := by
  unfold State.storeTarget
  rw [h]

/-- R11: to open a batch the store needs a record and a slot. -/
theorem canStore_of_closed {r : RecordIdx} (hopen : s.windows[W].openBatch = none) (hfree : s.freeRecord = some r)
    (hslot : s.occupancy < 1024) : s.canStore W a = true := by
  unfold State.canStore
  rw [hopen]
  simp [hfree, (slotFree_iff s).mpr hslot]

/-- R11: to append, the store needs a slot. -/
theorem canStore_of_slot {r : RecordIdx} (hopen : s.windows[W].openBatch = some r) (hslot : s.occupancy < 1024) :
    s.canStore W a = true := by
  unfold State.canStore
  rw [hopen]
  simp [(slotFree_iff s).mpr hslot]

/-- R11: to coalesce, the store needs nothing. -/
theorem canStore_of_entry {r : RecordIdx} {b : BatchRecord} (hopen : s.windows[W].openBatch = some r)
    (hb : s.records[r] = some b) (hfind : (b.find a).isSome = true) : s.canStore W a = true := by
  unfold State.canStore
  rw [hopen]
  dsimp only
  rw [hb]
  simp [hfind]

theorem find_eq_none_iff (b : BatchRecord) (a : Addr) : b.find a = none ↔ ∀ e ∈ b.entries, e.addr ≠ a := by
  simp [BatchRecord.find]

/-- R10: the entry joins the end of the list, and the row span takes in its row. -/
theorem add_of_new_word {b : BatchRecord} (row : Nat) (hnew : ∀ e ∈ b.entries, e.addr ≠ a) :
    b.add row a m d =
      { b with entries := b.entries ++ [⟨a, d, m⟩], firstRow := min b.firstRow row, lastRow := max b.lastRow row } := by
  unfold BatchRecord.add
  rw [(find_eq_none_iff b a).mpr hnew]
  rfl

theorem map_coalesce_of_other {es : List Entry} (h : ∀ e ∈ es, e.addr ≠ a) :
    es.map (fun e => if e.addr == a then e.coalesce m d else e) = es :=
  (List.map_congr_left fun e he => if_neg (by simpa using h e he)).trans (List.map_id' es)

/-- R9: the entry of the word keeps its place and takes the lanes, and no other entry changes. -/
theorem add_of_held_word {b : BatchRecord} {e : Entry} {before after : List Entry} (row : Nat)
    (hentries : b.entries = before ++ e :: after) (he : e.addr = a) (hother : ∀ x ∈ before ++ after, x.addr ≠ a) :
    b.add row a m d =
      { b with entries := before ++ ⟨a, mergeLanes e.data d m, e.lanes ||| m⟩ :: after } := by
  have hfind : (b.find a).isSome = true := by
    rw [Option.isSome_iff_ne_none, ne_eq, find_eq_none_iff, hentries]
    exact fun h => h e (by simp) he
  unfold BatchRecord.add
  rw [if_pos hfind, hentries, List.map_append, List.map_cons,
    map_coalesce_of_other fun x hx => hother x (List.mem_append_left _ hx),
    map_coalesce_of_other fun x hx => hother x (List.mem_append_right _ hx)]
  simp [he, Entry.coalesce]

end

/-- Settles O5: with no open batch the lowest free record takes the write, as an OPEN batch of one entry. -/
theorem heldWriteOpensABatch : Obligations.HeldWriteOpensABatch := by
  intro s a m d W r hcan hm hheld hcommit hopen hslot hr hlower
  have hfree : s.freeRecord = some r := freeRecord_eq hr hlower
  rw [exec_held_of_not_commit hcan hm hheld hcommit (canStore_of_closed hopen hfree hslot)
    ((storeTarget_of_closed hopen).trans hfree), hr]
  rfl

/-- Settles O6: the open batch has the word, so it takes the lanes whatever slots are free. -/
theorem heldWriteCoalesces : Obligations.HeldWriteCoalesces := by
  intro s a m d W r b e before after hcan hm hheld hcommit hopen hb hentries he hother
  have hadd := add_of_held_word (m := m) (d := d) (s.live[W].screenRow a) hentries he hother
  have hfind : (b.find a).isSome = true := by
    rw [Option.isSome_iff_ne_none, ne_eq, find_eq_none_iff, hentries]
    exact fun h => h e (by simp) he
  refine ⟨mergeLanes e.data d m, ?_, laneByte_mergeLanes e.data d m⟩
  rw [exec_held_of_not_commit hcan hm hheld hcommit (canStore_of_entry hopen hb hfind) (storeTarget_of_open hopen), hb]
  dsimp only [addHeld]
  rw [hadd]

/-- Settles O7: the open batch has not the word and a slot is free, so the entry is appended. -/
theorem heldWriteAppends : Obligations.HeldWriteAppends := by
  intro s a m d W r b hcan hm hheld hcommit hopen hb hnew hslot
  rw [exec_held_of_not_commit hcan hm hheld hcommit (canStore_of_slot hopen hslot) (storeTarget_of_open hopen), hb]
  dsimp only [addHeld]
  rw [add_of_new_word _ hnew]

/-! ## Seals at the commit word (R12, R14, R90) -/

/-- The start of another batch leaves the last of a queue where it is. -/
theorem getLast?_erase_of_ne {α : Type} [DecidableEq α] {queue : List α} {q r : α} (h : q ≠ r) :
    ((queue ++ [r]).erase q).getLast? = some r := by
  by_cases hmem : q ∈ queue
  · rw [List.erase_append_left _ hmem, List.getLast?_append_of_ne_nil _ (List.cons_ne_nil r [])]
    rfl
  · rw [List.erase_append_right _ hmem, List.erase_of_not_mem (by simpa using h)]
    simp

/-- The batch that a seal has put last in its queue stands there after the evaluation, or is the one that it starts. -/
theorem evaluate_last_sealed {s : State} {W : WindowIdx} {r : RecordIdx} {b : BatchRecord} {queue : List RecordIdx}
    (hb : s.records[r.val] = some b) (hstate : b.state = .sealed) (hqueue : s.windows[W.val].sealedQueue = queue ++ [r]) :
    ∃ c, (evaluate s).records[r.val] = some c ∧ c.entries = b.entries ∧ c.seq = b.seq ∧ c.ordinal = b.ordinal ∧
      (c.state = .sealed ∧ (evaluate s).windows[W.val].sealedQueue.getLast? = some r ∨
        c.state = .releasing ∧ (evaluate s).engine.releasing = some r) := by
  rcases evaluate_cases s with ⟨h, -⟩ | ⟨q, c, -, -, hc, h⟩
  · rw [h]
    exact ⟨b, hb, rfl, rfl, rfl, .inl ⟨hstate, by rw [hqueue]; simp⟩⟩
  · rw [h, startBatch_records q s c hc, startBatch_windows q s c hc, startBatch_releasing q s c hc, records_set_get,
      windows_set_get]
    by_cases hq : q = r
    · subst hq
      obtain rfl : c = b := Option.some.inj (hc.symm.trans hb)
      exact ⟨_, if_pos rfl, rfl, rfl, rfl, .inr ⟨rfl, rfl⟩⟩
    · refine ⟨b, (if_neg hq).trans hb, rfl, rfl, rfl, .inl ⟨hstate, ?_⟩⟩
      split
      next hW =>
        subst hW
        exact (congrArg (fun l => (l.erase q).getLast?) hqueue).trans (getLast?_erase_of_ne hq)
      next => rw [hqueue]; simp

section

variable {W : WindowIdx} {w : Work} {r : RecordIdx} {b : BatchRecord}

theorem settle_sealOpen (hquiet : w.reported = false) (hopen : w.st.windows[W].openBatch = some r)
    (hb : w.st.records[r] = some b) : settle (sealOpen W w) = evaluate (sealOpen W w).st := by
  rw [settle_quiet _ ((sealOpen_reported W w).trans hquiet), if_pos (sealOpen_told W w r b hopen hb)]

theorem sealOpen_window_self (hopen : w.st.windows[W].openBatch = some r) (hb : w.st.records[r] = some b) :
    (sealOpen W w).st.windows[W.val] = sealedWindow w.st.windows[W] r := by
  rw [sealOpen_windows W w r b hopen hb, windows_set_get, if_pos rfl]

/-- R12: the sealed record has its numbers and its entries, whatever mark the oversize check leaves it. -/
theorem sealOpen_record_self (hopen : w.st.windows[W].openBatch = some r) (hb : w.st.records[r] = some b) :
    ∃ c, (sealOpen W w).st.records[r.val] = some c ∧ c.state = .sealed ∧ c.entries = b.entries ∧
      c.seq = some (w.st.windows[W].lastSealed + 1) ∧ c.ordinal = some (w.st.sealOrdinal + 1) := by
  obtain ⟨marked, hget⟩ := sealOpen_get W w r b hopen hb
  rw [hget r, if_pos rfl, Option.map_some]
  refine ⟨_, rfl, ?_⟩
  split <;> exact ⟨rfl, rfl, rfl, rfl⟩

/-- R12: an event that ends with the seal of window W's open batch leaves the window and the batch so. -/
theorem settle_sealOpen_leaves (hquiet : w.reported = false) (hopen : w.st.windows[W].openBatch = some r)
    (hb : w.st.records[r] = some b) :
    ∃ c, (settle (sealOpen W w)).windows[W].openBatch = none ∧
      (settle (sealOpen W w)).windows[W].idle = w.st.windows[W].idle ∧
      (settle (sealOpen W w)).windows[W].lastSealed = w.st.windows[W].lastSealed + 1 ∧
      (settle (sealOpen W w)).sealOrdinal = w.st.sealOrdinal + 1 ∧
      (settle (sealOpen W w)).records[r] = some c ∧ c.entries = b.entries ∧
      c.seq = some (w.st.windows[W].lastSealed + 1) ∧ c.ordinal = some (w.st.sealOrdinal + 1) ∧
      (c.state = .sealed ∧ (settle (sealOpen W w)).windows[W].sealedQueue.getLast? = some r ∨
        c.state = .releasing ∧ (settle (sealOpen W w)).engine.releasing = some r) := by
  have hwindow := sealOpen_window_self hopen hb
  obtain ⟨b', hb', hstate, hentries, hseq, hordinal⟩ := sealOpen_record_self hopen hb
  have hqueue : (sealOpen W w).st.windows[W.val].sealedQueue = w.st.windows[W].sealedQueue ++ [r] := by
    rw [hwindow]
    rfl
  obtain ⟨c, hc, hcentries, hcseq, hcordinal, hstands⟩ := evaluate_last_sealed hb' hstate hqueue
  rw [settle_sealOpen hquiet hopen hb]
  refine ⟨c, ?openBatch, ?idle, ?lastSealed, ?sealOrdinal, hc, hcentries.trans hentries, hcseq.trans hseq,
    hcordinal.trans hordinal, hstands⟩
  case openBatch => exact (evaluate_proj WindowState.openBatch (fun _ _ => rfl) _ W).trans (by rw [hwindow]; rfl)
  case idle => exact (evaluate_proj WindowState.idle (fun _ _ => rfl) _ W).trans (by rw [hwindow]; rfl)
  case lastSealed => exact (evaluate_proj WindowState.lastSealed (fun _ _ => rfl) _ W).trans (by rw [hwindow]; rfl)
  case sealOrdinal => rw [evaluate_sealOrdinal, sealOpen_sealOrdinal W w r b hopen hb]

end

/-- The part with a held write stored and completed, before any seal. -/
def State.withHeld (s : State) (W : WindowIdx) (a : Addr) (m : Lanes) (d : Word) : State :=
  completeUpstream none (storeHeld W a m d s)

theorem withHeld_upstream (s : State) (W : WindowIdx) (a : Addr) (m : Lanes) (d : Word) :
    (s.withHeld W a m d).upstream = UpstreamPort.done none := rfl

theorem withHeld_sealOrdinal (s : State) (W : WindowIdx) (a : Addr) (m : Lanes) (d : Word) :
    (s.withHeld W a m d).sealOrdinal = s.sealOrdinal :=
  storeHeld_sealOrdinal W a m d s

section

variable {s : State} {W : WindowIdx} {r : RecordIdx} {a : Addr} {m : Lanes} {d : Word}

theorem withHeld_window (htarget : s.storeTarget W = some r) :
    (s.withHeld W a m d).windows[W] = { s.windows[W] with openBatch := some r, idle := 0 } := by
  unfold State.withHeld
  rw [storeHeld_of_target htarget]
  exact (windows_set_get _ W W _).trans (if_pos rfl)

theorem withHeld_record (htarget : s.storeTarget W = some r) :
    (s.withHeld W a m d).records[r] = some (addHeld s.records[r] W (s.live[W].screenRow a) a m d) := by
  unfold State.withHeld
  rw [storeHeld_of_target htarget]
  exact (records_set_get _ r r _).trans (if_pos rfl)

/-- R14: in ACTIVE a held write to the commit word is followed by the seal of its batch. -/
theorem storeWrite_commit (hmode : s.mode = .active) (hcommit : s.live[W].isCommit a = true) :
    storeWrite W a m d (Work.start s) = sealOpen W (Work.start (s.withHeld W a m d)) := by
  have hmode' : (storeHeld W a m d s).mode = .active := (storeHeld_mode W a m d s).trans hmode
  have hcommit' : (storeHeld W a m d s).live[W].isCommit a = true := by rw [storeHeld_live]; exact hcommit
  exact if_pos (Bool.and_eq_true_iff.mpr ⟨beq_iff_eq.mpr hmode', hcommit'⟩)

end

/-- Settles O8: the write is stored in the window's open batch, and its seal, and the evaluation that follows it, leave the
entry there. -/
theorem commitWriteSealsItsBatch : Obligations.CommitWriteSealsItsBatch := by
  intro s a m d W hcan hm hheld hcommit hroom
  obtain ⟨r, htarget⟩ := target_of_canStore hroom
  have hwindow := withHeld_window (a := a) (m := m) (d := d) htarget
  have hopen : (s.withHeld W a m d).windows[W].openBatch = some r := by rw [hwindow]
  have hrecord := withHeld_record (a := a) (m := m) (d := d) htarget
  obtain ⟨c, hclosed, hidle, hlast, hordinal, hc, hentries, hseq, hcordinal, hstands⟩ :=
    settle_sealOpen_leaves (w := Work.start (s.withHeld W a m d)) rfl hopen hrecord
  obtain ⟨e, he, haddr, hlanes, hbytes⟩ := addHeld_entry s.records[r] W (s.live[W].screenRow a) a m d
  have hstart : (Work.start (s.withHeld W a m d)).st = s.withHeld W a m d := rfl
  rw [hstart, withHeld_sealOrdinal] at hordinal hcordinal
  rw [hstart, hwindow] at hidle hlast hseq
  refine ⟨_, r, c, e, exec_held hcan hm hheld hroom, ?_⟩
  rw [storeWrite_commit hheld.1 hcommit]
  refine ⟨?upstream, hclosed, hidle, hlast, hordinal, htarget, hc, hseq, hcordinal, hentries ▸ he, haddr, hlanes, hbytes,
    hstands⟩
  case upstream =>
    rw [quiet_upstream _ (sealOpen_reported W _), sealOpen_upstream]
    rfl

/-! ## Writes without a strobe (R90) -/

theorem zeroStrobeSeal_cases (a : Addr) (w : Work) :
    zeroStrobeSeal a w = w ∨ ∃ W : WindowIdx, zeroStrobeSeal a w = sealOpen W w := by
  unfold zeroStrobeSeal
  split
  · split
    · exact .inl rfl
    · split
      · exact .inr ⟨_, rfl⟩
      · exact .inl rfl
  · exact .inl rfl

theorem settle_zeroStrobeSeal_upstream (a : Addr) (s : State) :
    (settle (zeroStrobeSeal a (Work.start s))).upstream = s.upstream := by
  rcases zeroStrobeSeal_cases a (Work.start s) with h | ⟨W, h⟩
  · rw [h]
    rfl
  · rw [h, quiet_upstream _ (sealOpen_reported W _), sealOpen_upstream]
    rfl

/-- Outside ACTIVE, or where the word is no commit word of a coherent window that is not closing, or no batch is open there,
there is nothing to seal. -/
theorem zeroStrobeSeal_of_nothing {w : Work} {a : Addr}
    (h : w.st.mode ≠ .active ∨ coherentWindow w.st.live a = none ∨
      ∃ W, coherentWindow w.st.live a = some W ∧
        (w.st.live[W].isCommit a = false ∨ w.st.windows[W].closing = true ∨ w.st.windows[W].openBatch = none)) :
    zeroStrobeSeal a w = w := by
  unfold zeroStrobeSeal
  by_cases hmode : w.st.mode = .active
  · rw [if_pos (beq_iff_eq.mpr hmode)]
    rcases h with h | h | ⟨W, hW, h⟩
    · exact absurd hmode h
    · rw [h]
    · rw [hW]
      dsimp only
      rcases h with h | h | h
      · rw [h, Bool.and_false, if_neg Bool.false_ne_true]
      · rw [h, Bool.not_true, Bool.false_and, if_neg Bool.false_ne_true]
      · rw [sealOpen_none W w h, ite_self]
  · exact if_neg (by simpa using hmode)

theorem zeroStrobeSeal_of_commit {w : Work} {a : Addr} {W : WindowIdx} (hheld : GoesHeld w.st a W)
    (hcommit : w.st.live[W].isCommit a = true) : zeroStrobeSeal a w = sealOpen W w := by
  obtain ⟨hmode, hW, hclosing⟩ := hheld
  unfold zeroStrobeSeal
  rw [if_pos (beq_iff_eq.mpr hmode), hW]
  dsimp only
  rw [hclosing, hcommit]
  rfl

/-- Settles O9: the write completes before anything else, and what can follow is one seal. -/
theorem zeroStrobeWriteCompletes : Obligations.ZeroStrobeWriteCompletes := by
  intro s a d hcan
  rw [exec_upstreamWrite_of_canTake hcan, takeWrite_of_no_strobe]
  refine ⟨⟨_, rfl, settle_zeroStrobeSeal_upstream a _⟩, fun hnothing => ?nothing, fun W r b hheld hcommit hopen hb => ?sealed⟩
  case nothing => rw [zeroStrobeSeal_of_nothing (w := Work.start (completeUpstream none s)) hnothing]; rfl
  case sealed =>
    rw [zeroStrobeSeal_of_commit (w := Work.start (completeUpstream none s)) hheld hcommit]
    obtain ⟨c, hclosed, hidle, hlast, hordinal, hc, hentries, hseq, hcordinal, -⟩ :=
      settle_sealOpen_leaves (w := Work.start (completeUpstream none s)) rfl hopen hb
    exact ⟨_, c, rfl, hclosed, hidle, hlast, hordinal, hc, hentries, hseq, hcordinal⟩

/-! ## When a request is taken (R86) -/

theorem canTake_eq_false {s : State} (h : s.resetAsserted = true ∨ s.upstream.phase ≠ .idle ∨ s.upstream.urdy = true) :
    s.canTake = false := by
  unfold State.canTake
  rcases h with h | h | h <;> simp [h]

/-- Settles O11: the port takes nothing unless it can, and the withdrawal of UREQ touches URDY and the answer alone. -/
theorem oneUpstreamTransactionAtATime : Obligations.OneUpstreamTransactionAtATime := by
  intro s a m d
  refine ⟨fun h => ⟨?write, ?read⟩, rfl⟩
  case write => simp [exec, execUpstreamWrite, canTake_eq_false h]
  case read => simp [exec, execUpstreamRead, canTake_eq_false h]

/-! ## Reads (R94, R95) -/

theorem takeRead_of_covered {s : State} {a : Addr} (m : Lanes) (h : (s.lookup a).1 = 0xF) :
    takeRead a m s = completeUpstream (some (s.lookup a).2) s :=
  if_pos (beq_iff_eq.mpr h)

theorem takeRead_of_uncovered {s : State} {a : Addr} (m : Lanes) (h : (s.lookup a).1 ≠ 0xF) :
    takeRead a m s = sendUpstream (.read a m) .read (.memoryRead a) s :=
  if_neg (mt beq_iff_eq.mp h)

/-- Settles O12: the lookup covers the word or not. -/
theorem readIsAnsweredOrClaimed : Obligations.ReadIsAnsweredOrClaimed := by
  intro s a m hcan
  rw [exec_upstreamRead_of_canTake hcan]
  refine ⟨fun hcovered => ?answered, fun hcovered hfree => ?claimed⟩
  case answered => rw [takeRead_of_covered m hcovered]; rfl
  case claimed => rw [takeRead_of_uncovered m hcovered, sendUpstream_eq s _ _ _ hfree]

theorem exec_memoryReadComplete_of_flight {s : State} {a : Addr} (dd : Word)
    (h : s.port.transaction = some (.memoryRead a)) :
    exec (.memoryReadComplete dd) s =
      .next (completeUpstream (some (mergeLanes dd (s.lookup a).2 (s.lookup a).1)) (acknowledge (.memoryRead a) s)) := by
  simp only [exec, execMemoryReadComplete, h]

/-- Settles O14: the answer is the word of memory with the lanes of the second lookup laid over it. -/
theorem memoryReadMergesHeldLanes : Obligations.MemoryReadMergesHeldLanes := by
  intro s a dd hflight
  refine ⟨mergeLanes dd (s.lookup a).2 (s.lookup a).1, ?_, laneByte_mergeLanes dd _ _⟩
  rw [exec_memoryReadComplete_of_flight dd hflight]
  rfl

end Sys2Proof.Machine
end

section
/-! PROOFS. Completions at the memory: direct writes (O15), entries and receipts (O16 to O20), the waiting write that a departure
re-examines (O21), and what DRDY and the strobes do (O22 to O24). -/

namespace Sys2Proof.Machine

section

variable {s : State} {a : Addr} {m : Lanes} {d : Word} {r : RecordIdx} {b : BatchRecord} {e : Entry}

/-! ## The rows of the completions (R124) -/

theorem exec_directWriteComplete_of_flight (h : s.port.transaction = some (.directWrite a m d)) :
    exec .directWriteComplete s = .next (completeUpstream none (acknowledge (.directWrite a m d) s)) := by
  simp only [exec, execDirectWriteComplete, h]

theorem exec_entryWriteComplete_of_flight (h : s.port.transaction = some (.entryWrite a m d)) :
    exec .entryWriteComplete s =
      .next (settle (ownEntryCompletion (Work.start (acknowledge (.entryWrite a m d) s)))) := by
  simp only [exec, execEntryWriteComplete, h]

theorem exec_receiptWriteComplete_of_flight (h : s.port.transaction = some (.receiptWrite a d)) :
    exec .receiptWriteComplete s =
      .next (settle (ownReceiptCompletion (Work.start (acknowledge (.receiptWrite a d) s)))) := by
  simp only [exec, execReceiptWriteComplete, h]

/-- An event that tells the release engine nothing, with no write waiting, ends as it is. -/
theorem settle_of_untold {w : Work} (htold : w.told = false) (hwait : w.st.upstream.phase ≠ .wait) : settle w = w.st := by
  rw [settle_noWait w hwait, htold, if_neg Bool.false_ne_true]

end

/-- Settles O15: the acknowledgement stores the strobed lanes, and the transaction completes upstream. -/
theorem directWriteCompletes : Obligations.DirectWriteCompletes := by
  intro s a m d hflight
  refine ⟨_, writtenLanes_store (.directWrite a m d) d s.memory rfl, ?_⟩
  rw [exec_directWriteComplete_of_flight hflight]
  rfl

/-- Settles O16: the departure tells the release engine nothing, and no write waits to be re-examined. -/
theorem entryWriteAsksForTheNext : Obligations.EntryWriteAsksForTheNext := by
  intro s r b e next rest a m d hwrite hentries hflight hwait
  refine ⟨_, writtenLanes_store (.entryWrite a m d) d s.memory rfl, ?_⟩
  rw [exec_entryWriteComplete_of_flight hflight, own_next _ hwrite hentries]
  exact congrArg Host.Outcome.next (settle_of_untold rfl hwait)

/-- Settles O17: the same for the last entry, whose departure has the receipt word composed and claimed. -/
theorem lastEntryAsksForTheReceipt : Obligations.LastEntryAsksForTheReceipt := by
  intro s r b e address a m d hwrite hentries hreceipt hflight hwait
  obtain ⟨word, hword, hown⟩ := own_receipt (.entryWrite a m d) hwrite hentries hreceipt
  refine ⟨_, word, _, writtenLanes_store (.entryWrite a m d) d s.memory rfl, rfl, hword, ?_⟩
  rw [exec_entryWriteComplete_of_flight hflight, hown]
  exact congrArg Host.Outcome.next (settle_of_untold rfl hwait)

/-! ## Retirement (R80) -/

/-- The retirement of a record before it completes an apply or a drain: what the engine and the upstream port are then told. -/
def retired (r : RecordIdx) (b : BatchRecord) (w : Work) : Work :=
  (w.map (retireRecord r b)).tell.report

theorem retire_eq (r : RecordIdx) (b : BatchRecord) (w : Work) :
    retire r b w = drainIfEmpty (applyIfLost (retired r b w)) := rfl

section

variable (r : RecordIdx) (b : BatchRecord) (w : Work)

/-- A value of a window other than its closing mark is, after a retirement, what the retirement of the record makes of it. -/
theorem retire_proj {α : Type} (f : WindowState → α) (hclose : ∀ d, f { d with closing := false } = f d) (V : WindowIdx) :
    f (retire r b w).st.windows[V.val] = f (retireRecord r b w.st).windows[V.val] := by
  rw [retire_eq, drainIfEmpty_proj f hclose, applyIfLost_proj f hclose]
  rfl

theorem retireRecord_window (s : State) (V : WindowIdx) :
    (retireRecord r b s).windows[V.val] =
      if b.window = V then
        { s.windows[V] with
          lastRetired := b.seq.getD s.windows[V].lastRetired
          retired := s.windows[V].retired + 1 }
      else s.windows[V] := by
  rw [retireRecord_windows, windows_set_get]
  split
  next h => subst h; rfl
  next => rfl

theorem retire_flag : (retire r b w).st.flagSet (.retire b.window) = true := by
  rw [retire_eq]
  exact drainIfEmpty_flag _ _ (applyIfLost_flag _ _ (handFlag_self _ _))

theorem retire_records : (retire r b w).st.records = w.st.records.set r.val none r.isLt := by
  rw [retire_eq, drainIfEmpty_records, applyIfLost_records]
  rfl

theorem retire_engine : (retire r b w).st.engine = Engine.reset := by
  rw [retire_eq, drainIfEmpty_engine, applyIfLost_engine]
  rfl

end

/-- An evaluation of an idle engine that names no batch starts none of a free record. -/
theorem evaluate_releasing_ne {s : State} {r : RecordIdx} (hfree : s.records[r.val] = none)
    (hidle : s.engine.releasing = none) : (evaluate s).engine.releasing ≠ some r := by
  rcases evaluate_cases s with ⟨h, -⟩ | ⟨q, c, -, -, hc, h⟩
  · rw [h, hidle]
    exact (Option.some_ne_none r).symm
  · rw [h, startBatch_releasing q s c hc]
    rintro ⟨rfl⟩
    exact absurd (hc.symm.trans hfree) (Option.some_ne_none c)

/-- With no write waiting the end of the event leaves a freed record free, and the engine off it. -/
theorem settle_freed {w : Work} {r : RecordIdx} (hfree : w.st.records[r.val] = none)
    (hidle : w.st.engine.releasing = none) (hwait : w.st.upstream.phase ≠ .wait) :
    (settle w).records[r] = none ∧ (settle w).engine.releasing ≠ some r := by
  rw [settle_noWait w hwait]
  split
  · exact ⟨evaluate_free _ r hfree, evaluate_releasing_ne hfree hidle⟩
  · exact ⟨hfree, by rw [hidle]; exact (Option.some_ne_none r).symm⟩

/-- Settles O18: the retirement counts, flags and frees, and what follows in its event keeps the counters, the flag and, with
no write waiting, the free record. -/
theorem retirementFreesTheRecord : Obligations.RetirementFreesTheRecord := by
  intro c s r b q a m d hretires hseq
  obtain ⟨w, b', x, hexec, hwindow, hseq', hwindows, -, hup, -, -, -, -, -, hport, hdata, haddr, hstrobes, hmemory⟩ :=
    own_retire hretires
  have hget (V : WindowIdx) : (retireRecord r b' w.st).windows[V.val] =
      if b.window = V then { s.windows[V] with lastRetired := q, retired := s.windows[V].retired + 1 } else s.windows[V] := by
    rw [retireRecord_window, hwindow, hseq', hseq, hwindows]
    rfl
  have hretired (V : WindowIdx) : (settle (retire r b' w)).windows[V.val].retired =
      if b.window = V then s.windows[V].retired + 1 else s.windows[V].retired := by
    rw [(settle_counters _ V).2.1, retire_proj r b' w WindowState.retired (fun _ => rfl), hget]
    split <;> rfl
  have hlast (V : WindowIdx) : (settle (retire r b' w)).windows[V.val].lastRetired =
      if b.window = V then q else s.windows[V].lastRetired := by
    rw [(settle_counters _ V).1, retire_proj r b' w WindowState.lastRetired (fun _ => rfl), hget]
    split <;> rfl
  have hrecovering : (settle (retire r b' w)).recovering := by
    apply settle_recovering
    unfold State.recovering
    rw [retire_port, hport]
    exact ⟨rfl, rfl⟩
  refine ⟨_, hexec, ?memory, (hlast _).trans (if_pos rfl), (hretired _).trans (if_pos rfl), ?flag, fun V hV => ?other,
    hrecovering.1, hrecovering.2, fun hwait => ?freed⟩
  case memory =>
    have hwritten := writtenLanes_store x d s.memory hdata
    rwa [← hmemory, haddr, hstrobes, ← retire_memory r b' w, ← settle_memory] at hwritten
  case flag => exact settle_flag _ _ (hwindow ▸ retire_flag r b' w)
  case other => exact ⟨(hlast V).trans (if_neg hV.symm), (hretired V).trans (if_neg hV.symm)⟩
  case freed =>
    have hup' : (retire r b' w).st.upstream = s.upstream := (retire_upstream r b' w).trans hup
    have hquiet : (retire r b' w).st.upstream.phase ≠ .wait := hup' ▸ hwait
    have hfree : (retire r b' w).st.records[r.val] = none := by rw [retire_records, records_set_get, if_pos rfl]
    obtain ⟨hrecord, hengine⟩ := settle_freed hfree (by rw [retire_engine]; rfl) hquiet
    exact ⟨hrecord, hengine, (settle_upstream_noWait _ hquiet).trans hup'⟩

/-! ## Applies and drains that complete (R135, R142, R143) -/

theorem completeApply_appliedIn (w : Work) : AppliedIn w.st (completeApply w).st := by
  refine ⟨rfl, rfl, fun V => ?closing, handFlag_self _ _⟩
  case closing => exact congrArg WindowState.closing (installStaged_window w.st V)

/-- What follows a completed apply in its event, being no other apply, keeps it so. -/
theorem AppliedIn.congr {s t u : State} (h : AppliedIn s t) (hlive : u.live = t.live) (hpending : u.applyPending = t.applyPending)
    (hclosing : ∀ V : WindowIdx, u.windows[V.val].closing = t.windows[V.val].closing)
    (hflag : t.flagSet .applied = true → u.flagSet .applied = true) : AppliedIn s u := by
  obtain ⟨hl, hp, hc, hf⟩ := h
  exact ⟨hlive.trans hl, hpending.trans hp, fun V => (hclosing V).trans (hc V), hflag hf⟩

theorem AppliedIn.settle {s : State} {w : Work} (h : AppliedIn s w.st) : AppliedIn s (settle w) :=
  h.congr (settle_live w) (settle_applyPending w) (fun V => (settle_counters w V).2.2) (settle_flag w .applied)

/-- R142 point 2: the check in LOST completes a pending apply or leaves the event as it is. -/
theorem applyIfLost_cases (w : Work) : applyIfLost w = w ∨ w.st.applyPending = true ∧ applyIfLost w = completeApply w := by
  unfold applyIfLost applyIfEmpty
  split
  · split
    next h => exact .inr ⟨(Bool.and_eq_true_iff.mp h).1, rfl⟩
    next => exact .inl rfl
  · exact .inl rfl

theorem applyIfLost_of_not_pending {w : Work} (h : w.st.applyPending = false) : applyIfLost w = w := by
  rcases applyIfLost_cases w with heq | ⟨hpending, -⟩
  · exact heq
  · exact absurd (h.symm.trans hpending) Bool.false_ne_true

section

variable {w : Work}

theorem completeDrain_of_not_pending (h : w.st.applyPending = false) :
    completeDrain w = (changeMode .bypass w).map (handFlag .drained) := by
  have hpending : ¬(changeMode .bypass w).st.applyPending = true := by
    rw [changeMode_applyPending, h]
    exact Bool.false_ne_true
  exact congrArg (fun v : Work => v.map (handFlag .drained)) (if_neg hpending)

theorem completeDrain_mode (w : Work) : (completeDrain w).st.mode = .bypass := by
  unfold completeDrain
  exact (applyAtBypass_mode _).trans rfl

theorem completeDrain_reported (w : Work) : (completeDrain w).reported = true :=
  applyAtBypass_rep (changeMode .bypass w) rfl

theorem completeDrain_not_pending (w : Work) : (completeDrain w).st.applyPending = false := by
  cases h : w.st.applyPending with
  | true => exact (completeDrain_installs w h).2.1
  | false =>
    rw [completeDrain_of_not_pending h]
    exact h

/-- R142 points 2 and 3: a pending apply has completed once the mode is BYPASS, in LOST already or then. -/
theorem completeDrain_applyIfLost_appliedIn (h : w.st.applyPending = true) :
    AppliedIn w.st (completeDrain (applyIfLost w)).st := by
  rcases applyIfLost_cases w with heq | ⟨-, heq⟩
  · rw [heq]
    exact completeDrain_installs w h
  · rw [heq, completeDrain_of_not_pending (w := completeApply w) rfl]
    exact (completeApply_appliedIn w).congr rfl rfl (fun _ => rfl) (handFlag_keeps _ .applied .drained)

end

section

variable {r : RecordIdx} {b : BatchRecord} {w : Work}

theorem applyIfLost_retired_records :
    (applyIfLost (retired r b w)).st.records = w.st.records.set r.val none r.isLt := by
  rw [applyIfLost_records]
  rfl

theorem applyIfLost_retired_mode : (applyIfLost (retired r b w)).st.mode = w.st.mode := by
  rw [applyIfLost_mode]
  rfl

theorem applyIfLost_retired_storeEmpty_iff :
    (applyIfLost (retired r b w)).st.storeEmpty = true ↔ ∀ q : RecordIdx, q ≠ r → w.st.records[q.val] = none := by
  simp only [storeEmpty_iff, applyIfLost_retired_records, records_set_get, ite_eq_left_iff, ne_eq, eq_comm (a := r)]

theorem retire_of_last (hmode : w.st.mode = .draining) (hlast : ∀ q : RecordIdx, q ≠ r → w.st.records[q.val] = none) :
    retire r b w = completeDrain (applyIfLost (retired r b w)) := by
  rw [retire_eq, drainIfEmpty, applyIfLost_retired_mode, hmode, applyIfLost_retired_storeEmpty_iff.mpr hlast]
  rfl

theorem retire_of_not_last (hother : ¬∀ q : RecordIdx, q ≠ r → w.st.records[q.val] = none) :
    retire r b w = applyIfLost (retired r b w) := by
  rw [retire_eq, drainIfEmpty, Bool.eq_false_iff.mpr (mt applyIfLost_retired_storeEmpty_iff.mp hother), Bool.and_false,
    if_neg Bool.false_ne_true]

end

/-- Settles O19: the retirement leaves another record in use and the mode as it is, or the drain completes, and with it the
apply that is pending; in BYPASS the waiting write is direct. -/
theorem lastRetirementCompletesTheDrain : Obligations.LastRetirementCompletesTheDrain := by
  intro c s r b a m d hretires hdraining
  obtain ⟨w, b', x, hexec, -, -, -, hrecords, hup, hmode, hlive, hstaged, hpending, -, hport, -, -, -, -⟩ :=
    own_retire hretires
  refine ⟨_, hexec, fun ⟨q, hq, hused⟩ => ?another, fun hlast => ?last⟩
  case another =>
    have hother : ¬∀ q : RecordIdx, q ≠ r → w.st.records[q.val] = none := fun h =>
      absurd ((hrecords q hq).symm.trans (h q hq)) (Option.isSome_iff_ne_none.mp hused)
    rw [settle_mode, retire_of_not_last hother, applyIfLost_retired_mode, hmode, hdraining]
  case last =>
    have hbypass : (retire r b' w).st.mode = .bypass := by
      rw [retire_of_last (hmode.trans hdraining) fun q hq => (hrecords q hq).trans (hlast q hq), completeDrain_mode]
    have hfree (q : RecordIdx) : (retire r b' w).st.records[q.val] = none := by
      rw [retire_records, records_set_get]
      split
      next => rfl
      next h => exact (hrecords q (Ne.symm h)).trans (hlast q (Ne.symm h))
    have hretire := retire_of_last (b := b') (hmode.trans hdraining) fun q hq => (hrecords q hq).trans (hlast q hq)
    refine ⟨(settle_mode _).trans hbypass, ?drained, ?notPending, ?records, fun hp => ?applied, fun hp => ?live,
      fun y n z hwait htransaction => ?direct⟩
    case drained => exact settle_flag _ _ (hretire ▸ handFlag_self _ _)
    case notPending => rw [settle_applyPending, hretire, completeDrain_not_pending]
    case records =>
      exact (settle_chain _).keeps (P := BH) BH_change (fun _ => hfree) ((settle_mode _).trans hbypass)
    case applied =>
      have happlied : AppliedIn (retired r b' w).st (retire r b' w).st :=
        hretire ▸ completeDrain_applyIfLost_appliedIn (hpending.trans hp)
      obtain ⟨hl, -, hc, hf⟩ := happlied.settle
      exact ⟨hl.trans hstaged, hf, hc⟩
    case live =>
      have hstill : (retired r b' w).st.applyPending = false := hpending.trans hp
      rw [settle_live, hretire, applyIfLost_of_not_pending hstill, completeDrain_keeps _ hstill]
      exact hlive
    case direct =>
      refine settle_direct _ y n z (hretire ▸ completeDrain_reported _) ?_ ?_ ?_ (classify_bypass hbypass y)
      · rw [retire_upstream, hup, hwait]
      · rw [retire_upstream, hup, htransaction]
      · unfold State.recovering
        rw [retire_port, hport]
        exact ⟨rfl, rfl⟩

/-! ## Completions without an owner (R124) -/

/-- With the engine idle, or no write of its own in flight, a completion finds no batch. -/
theorem inFlightBatch_eq_none {s : State} {phase : EnginePhase} (hphase : phase ≠ .idle)
    (h : s.engine.phase = .idle ∨ s.engine.write ≠ .inFlight) : s.inFlightBatch phase = none := by
  refine if_neg fun hown => ?_
  obtain ⟨hp, hw⟩ := Bool.and_eq_true_iff.mp hown
  rcases h with h | h
  · exact hphase ((beq_iff_eq.mp hp).symm.trans h)
  · exact h (beq_iff_eq.mp hw)

theorem ownEntryCompletion_of_none {w : Work} (h : w.st.inFlightBatch .entries = none) : ownEntryCompletion w = w := by
  unfold ownEntryCompletion
  rw [h]

theorem ownReceiptCompletion_of_none {w : Work} (h : w.st.inFlightBatch .receipt = none) : ownReceiptCompletion w = w := by
  unfold ownReceiptCompletion
  rw [h]

/-- Settles O20: the completion finds no batch of its own, so the acknowledgement is all that happens. -/
theorem completionWithoutOwnerChangesMemoryAlone : Obligations.CompletionWithoutOwnerChangesMemoryAlone := by
  intro s a m d hnone
  refine ⟨fun hflight => ⟨_, writtenLanes_store (.entryWrite a m d) d s.memory rfl, ?entry⟩,
    fun hflight => ⟨_, writtenLanes_store (.receiptWrite a d) d s.memory rfl, ?receipt⟩⟩
  case entry =>
    rw [exec_entryWriteComplete_of_flight hflight,
      ownEntryCompletion_of_none (w := Work.start (acknowledge (.entryWrite a m d) s))
        (inFlightBatch_eq_none (s := acknowledge (.entryWrite a m d) s) (by decide) hnone)]
    rfl
  case receipt =>
    rw [exec_receiptWriteComplete_of_flight hflight,
      ownReceiptCompletion_of_none (w := Work.start (acknowledge (.receiptWrite a d) s))
        (inFlightBatch_eq_none (s := acknowledge (.receiptWrite a d) s) (by decide) hnone)]
    rfl

/-! ## The waiting write at a departure (R23, R99, R100) -/

/-- The part once the first entry of the batch `b` of record r has left for memory, `next` and `rest` remaining, before the
waiting write is looked at again. -/
def State.departed (s : State) (r : RecordIdx) (b : BatchRecord) (next : Entry) (rest : List Entry) (x : Claim) : State :=
  { s.setRecord r (some { b with entries := next :: rest, written := b.written + 1 }) with
    port := { s.port.acknowledged with releaseClaim := some (.entryWrite next.addr next.lanes next.data) }
    engine := { s.engine with write := .waiting }
    memory := x.store x.strobes s.memory }

section

variable {s : State} {r q : RecordIdx} {b : BatchRecord} {e next : Entry} {rest : List Entry} {x : Claim} {a : Addr}
  {m : Lanes} {d : Word} {W : WindowIdx}

theorem departed_record_self : (s.departed r b next rest x).records[r.val] =
    some { b with entries := next :: rest, written := b.written + 1 } :=
  (records_set_get _ r r _).trans (if_pos rfl)

theorem departed_record_other (hq : q ≠ r) : (s.departed r b next rest x).records[q.val] = s.records[q.val] :=
  (records_set_get _ r q _).trans (if_neg hq.symm)

/-- R2: a departure frees a slot. -/
theorem departed_occupancy (hb : s.records[r] = some b) (hentries : b.entries = e :: next :: rest) :
    (s.departed r b next rest x).occupancy + 1 = s.occupancy := by
  have h := occupancy_of_set (s := s) (t := s.departed r b next rest x) rfl
  rw [show s.records[r.val] = some b from hb] at h
  simp only [recordEntries, hentries, List.length_cons] at h
  omega

theorem departed_batchesOf (hb : s.records[r] = some b) (V : WindowIdx) :
    (s.departed r b next rest x).batchesOf V = s.batchesOf V :=
  batchesOf_departure s r b { b with entries := next :: rest, written := b.written + 1 } hb rfl
    (s.departed r b next rest x) rfl rfl rfl V

/-- Of the entries held for a word, a departure takes at most the one in the batch that it leaves. -/
theorem mem_heldFor_departed (hb : s.records[r] = some b) (hW : coherentWindow s.live a = some W)
    {h : RecordIdx × Entry} (hh : h.1 ≠ r) : h ∈ (s.departed r b next rest x).heldFor a ↔ h ∈ s.heldFor a := by
  rw [mem_heldFor hW, mem_heldFor (s := s.departed r b next rest x) hW, departed_batchesOf hb, departed_record_other hh]

theorem heldFor_departed_eq_nil (hb : s.records[r] = some b) (hW : coherentWindow s.live a = some W)
    (hheld : s.heldFor a = [(r, e)]) (hleft : ∀ f ∈ next :: rest, f.addr ≠ a) :
    (s.departed r b next rest x).heldFor a = [] := by
  refine List.eq_nil_iff_forall_not_mem.mpr fun ⟨q, f⟩ hmem => ?_
  by_cases hr : q = r
  · subst hr
    obtain ⟨-, c, hc, hfind⟩ := (mem_heldFor (s := s.departed q b next rest x) hW (q, f)).mp hmem
    obtain rfl := Option.some.inj (departed_record_self.symm.trans hc)
    exact absurd (((find_eq_none_iff _ a).mpr hleft).symm.trans hfind) (Option.some_ne_none f).symm
  · have hin := (mem_heldFor_departed hb hW hr).mp hmem
    rw [hheld, List.mem_singleton] at hin
    exact hr (congrArg Prod.fst hin)

/-- The event of a departure: it is reported to the upstream port, and the release engine is told nothing (R23). -/
theorem exec_departure {y : Addr} {n : Lanes} {z : Word} (hwrite : WriteInFlight s .entries r b)
    (hentries : b.entries = e :: next :: rest) (hflight : s.port.transaction = some (.entryWrite y n z)) :
    exec .entryWriteComplete s =
      .next (settle ⟨s.departed r b next rest (.entryWrite y n z), false, true⟩) := by
  rw [exec_entryWriteComplete_of_flight hflight, own_next _ hwrite hentries]
  rfl

theorem reexamine_of_wait {w : Work} (hwait : w.st.upstream.phase = .wait)
    (htransaction : w.st.upstream.transaction = some (.write a m d)) : reexamine w = reclassify a m d w := by
  unfold reexamine
  rw [hwait, htransaction]
  rfl

/-- A waiting write off the commit word that the store can take now is stored and completes, and that is the end. -/
theorem settle_of_held {u : State} (hwait : u.upstream.phase = .wait)
    (htransaction : u.upstream.transaction = some (.write a m d)) (hheld : GoesHeld u a W)
    (hcommit : u.live[W].isCommit a = false) (hroom : u.canStore W a = true) :
    settle ⟨u, false, true⟩ = u.withHeld W a m d := by
  have hclass : u.classify a = .held W := (classify_goesHeld hheld).trans (if_pos hroom)
  have hcommit' : (storeHeld W a m d u).live[W].isCommit a = false := by rw [storeHeld_live]; exact hcommit
  have hquiet : commitSeal W a ⟨u.withHeld W a m d, false, true⟩ = ⟨u.withHeld W a m d, false, true⟩ :=
    if_neg fun h => absurd (hcommit'.symm.trans (Bool.and_eq_true_iff.mp h).2) Bool.false_ne_true
  have hre : reexamine ⟨u, false, true⟩ = ⟨u.withHeld W a m d, false, true⟩ := by
    rw [reexamine_of_wait (w := ⟨u, false, true⟩) hwait htransaction, reclassify, hclass]
    exact hquiet
  unfold settle
  rw [if_pos rfl, hre]
  rfl

/-- A waiting write that is blocked still waits on under its cause. -/
theorem settle_of_blocked {u : State} {why : Cause} (hwait : u.upstream.phase = .wait)
    (htransaction : u.upstream.transaction = some (.write a m d)) (hblocked : Blocked u a W why) :
    settle ⟨u, false, true⟩ = recordCause why W u := by
  have hre : reexamine ⟨u, false, true⟩ = ⟨recordCause why W u, false, true⟩ := by
    rw [reexamine_of_wait (w := ⟨u, false, true⟩) hwait htransaction, reclassify, classify_blocked hblocked]
    rfl
  unfold settle
  rw [if_pos rfl, hre]
  rfl

end

/-- Settles O21: with one slot free again a held write is stored; with the last entry of its word gone a write in DRAINING is
direct; with another entry of it held, the write is blocked as before. -/
theorem departureReexaminesTheWaitingWrite : Obligations.DepartureReexaminesTheWaitingWrite := by
  intro s r b e next rest y n z a m d hwrite hentries hflight hwait htransaction
  have hb : s.records[r] = some b := hwrite.2.2.2
  rw [exec_departure hwrite hentries hflight]
  refine ⟨fun W q o hheld hcommit hopen hq ho hnew hoccupancy => ?stored,
    fun W hmode hW hclosing hheld hleft => ⟨_, rfl, ?direct⟩, fun W h hmode hW hclosing hheld hh => ⟨_, rfl, ?blocked⟩⟩
  case stored =>
    have hslot : (s.departed r b next rest (.entryWrite y n z)).occupancy < 1024 := by
      have := departed_occupancy (x := .entryWrite y n z) hb hentries
      omega
    have ho' : (s.departed r b next rest (.entryWrite y n z)).records[q] = some o := (departed_record_other hq).trans ho
    have htarget : (s.departed r b next rest (.entryWrite y n z)).storeTarget W = some q := storeTarget_of_open hopen
    rw [settle_of_held (u := s.departed r b next rest (.entryWrite y n z)) hwait htransaction hheld hcommit
      (canStore_of_slot hopen hslot)]
    refine ⟨_, rfl, withHeld_upstream _ W a m d, ?idle, ?record⟩
    case idle => rw [withHeld_window htarget]
    case record =>
      rw [withHeld_record htarget, ho', addHeld, add_of_new_word _ hnew]
      rfl
  case direct =>
    refine settle_direct ⟨s.departed r b next rest (.entryWrite y n z), false, true⟩ a m d rfl hwait htransaction
      ⟨rfl, rfl⟩ (classify_direct (.inr (.inr ⟨hmode, heldFor_departed_eq_nil hb hW hheld hleft, fun V hV => ?_⟩)))
    obtain rfl : W = V := Option.some.inj (hW.symm.trans hV)
    exact hclosing
  case blocked =>
    have hstill : (s.departed r b next rest (.entryWrite y n z)).heldFor a ≠ [] :=
      List.ne_nil_of_mem ((mem_heldFor_departed hb hW hh).mpr hheld)
    rw [settle_of_blocked (u := s.departed r b next rest (.entryWrite y n z)) (why := .b) hwait htransaction
      ⟨hmode, hW, hclosing, hstill⟩]
    rfl

/-! ## DRDY (R119, R122, R125) -/

section

variable {s : State} {u v : Claim}

theorem arbitrate_of_none (hu : s.port.upstreamClaim = none) (hv : s.port.releaseClaim = none) : arbitrate s = s := by
  unfold arbitrate
  rw [hu, hv]

theorem arbitrate_of_upstream (hu : s.port.upstreamClaim = some u) (hv : s.port.releaseClaim = none) :
    arbitrate s = grantUpstream u 0 s := by
  unfold arbitrate
  rw [hu, hv]

theorem arbitrate_of_release (hu : s.port.upstreamClaim = none) (hv : s.port.releaseClaim = some v) :
    arbitrate s = grantRelease v s := by
  unfold arbitrate
  rw [hu, hv]

theorem arbitrate_below_share (hu : s.port.upstreamClaim = some u) (hv : s.port.releaseClaim = some v)
    (hshare : s.port.passedOver < s.timing.share) : arbitrate s = grantUpstream u (s.port.passedOver + 1) s := by
  unfold arbitrate
  rw [hu, hv]
  exact if_pos hshare

theorem arbitrate_at_share (hu : s.port.upstreamClaim = some u) (hv : s.port.releaseClaim = some v)
    (hshare : s.port.passedOver = s.timing.share) : arbitrate s = grantRelease v s := by
  unfold arbitrate
  rw [hu, hv]
  exact if_neg (Nat.not_lt.mpr hshare.ge)

/-- The part with DRDY withdrawn and the port FREE, before a waiting claim is granted. -/
def State.drdyWithdrawn (s : State) : State :=
  { s with port := { s.port with drdy := false, phase := .free } }

theorem exec_drdyRelease_of_asserted (hreset : s.resetAsserted = false) (hdrdy : s.port.drdy = true) :
    exec .drdyRelease s = .next (arbitrate s.drdyWithdrawn) :=
  calc
    exec .drdyRelease s = .next (releaseDrdy s) := congrArg Host.Outcome.next (if_pos hdrdy)
    _ = .next (grant s.drdyWithdrawn) :=
      congrArg Host.Outcome.next (if_neg fun h => Bool.false_ne_true (hreset.symm.trans h))
    _ = .next (arbitrate s.drdyWithdrawn) := congrArg Host.Outcome.next (if_pos rfl)

end

/-- Settles O22: with RSTn withdrawn the port is FREE, and the arbiter chooses among the claims that wait. -/
theorem drdyReleaseGrantsByTheShare : Obligations.DrdyReleaseGrantsByTheShare := by
  intro s u v hreset hdrdy
  rw [exec_drdyRelease_of_asserted hreset hdrdy]
  refine ⟨fun hu hv => ?none, fun hu hv => ?upstream, fun hu hv => ?release, fun hu hv hshare => ?below,
    fun hu hv hshare => ?equal⟩
  case none => rw [arbitrate_of_none (s := s.drdyWithdrawn) hu hv]; rfl
  case upstream => rw [arbitrate_of_upstream (s := s.drdyWithdrawn) hu hv]; rfl
  case release => rw [arbitrate_of_release (s := s.drdyWithdrawn) hu hv]; rfl
  case below => rw [arbitrate_below_share (s := s.drdyWithdrawn) hu hv hshare]; rfl
  case equal => rw [arbitrate_at_share (s := s.drdyWithdrawn) hu hv hshare]; rfl

/-- Settles O23: the phase FREE has no transaction to complete. -/
theorem strayDrdyCompletesNothing : Obligations.StrayDrdyCompletesNothing := by
  intro s hreset hfree
  simp only [exec, execStrayDrdy, hreset, hfree, Bool.false_eq_true, if_false, beq_self_eq_true, if_true]

/-! ## Bytes of memory (R119, R125) -/

/-- A byte of memory is as it was, or the write in flight strobes it and it is that write's. -/
def SameOrWritten (s t : State) (k : Nat) : Prop :=
  SameByte s t k ∨
    ∃ (x : Claim) (d : Word) (i : Fin 4), s.port.transaction = some x ∧ x.data = some d ∧
      x.strobes.getLsbD i.val = true ∧ k = laneKey x.addr i.val ∧ t.memory.read k = some (laneByte d i)

theorem sameOrWritten_of_memory {s t : State} (k : Nat) (h : t.memory = s.memory) : SameOrWritten s t k :=
  .inl (congrArg (fun memory => Memory.read memory k) h)

/-- A write in flight reaches memory in lanes that it strobes. -/
theorem sameOrWritten_of_store {s t : State} {x : Claim} {lanes : Lanes} (k : Nat) (hflight : s.port.transaction = some x)
    (hlanes : ∀ i : Fin 4, lanes.getLsbD i.val = true → x.strobes.getLsbD i.val = true)
    (h : t.memory = x.store lanes s.memory) : SameOrWritten s t k := by
  unfold SameOrWritten SameByte
  rw [h]
  rcases store_same x lanes s.memory k hlanes with hsame | ⟨d, i, hd, hi, hk, hread⟩
  · exact .inl hsame
  · exact .inr ⟨x, d, i, hflight, hd, hi, hk, hread⟩

theorem cutTransaction_sameOrWritten (s : State) (k : Nat) : SameOrWritten s (cutTransaction s) k := by
  unfold cutTransaction
  split
  next => exact sameOrWritten_of_memory k rfl
  next x hcut =>
    have hflight : s.port.transaction = some x := (Option.filter_eq_some_iff.mp hcut).1
    refine sameOrWritten_of_store (lanes := x.strobes &&& Config.cutLanes s.freeIndex) k hflight (fun i hi => ?_) rfl
    rw [BitVec.getLsbD_and, Bool.and_eq_true] at hi
    exact hi.1

/-- What follows the acknowledgement of the transaction in flight changes no byte of memory. -/
theorem sameOrWritten_of_acknowledge {s t : State} {x : Claim} (k : Nat) (hflight : s.port.transaction = some x)
    (h : t.memory = (acknowledge x s).memory) : SameOrWritten s t k :=
  sameOrWritten_of_store k hflight (fun _ hi => hi) (h.trans (acknowledge_memory x s))

theorem exec_directWriteComplete_cases (s : State) :
    exec .directWriteComplete s = .next s ∨ ∃ x, s.port.transaction = some x ∧
      exec .directWriteComplete s = .next (completeUpstream none (acknowledge x s)) := by
  simp only [exec, execDirectWriteComplete]
  split
  next h => exact .inr ⟨_, h, rfl⟩
  next => exact .inl rfl

theorem exec_entryWriteComplete_cases (s : State) :
    exec .entryWriteComplete s = .next s ∨ ∃ x, s.port.transaction = some x ∧
      exec .entryWriteComplete s = .next (settle (ownEntryCompletion (Work.start (acknowledge x s)))) := by
  simp only [exec, execEntryWriteComplete]
  split
  next h => exact .inr ⟨_, h, rfl⟩
  next => exact .inl rfl

theorem exec_receiptWriteComplete_cases (s : State) :
    exec .receiptWriteComplete s = .next s ∨ ∃ x, s.port.transaction = some x ∧
      exec .receiptWriteComplete s = .next (settle (ownReceiptCompletion (Work.start (acknowledge x s)))) := by
  simp only [exec, execReceiptWriteComplete]
  split
  next h => exact .inr ⟨_, h, rfl⟩
  next => exact .inl rfl

/-- The four commands that can change a byte change only bytes that the write in flight strobes. -/
theorem exec_sameOrWritten_of_changes {c : Instr} {s t : State} (k : Nat) (hc : changesMemory c = true)
    (h : exec c s = .next t) : SameOrWritten s t k := by
  cases c with
  | directWriteComplete =>
    rcases exec_directWriteComplete_cases s with heq | ⟨x, hflight, heq⟩
    all_goals obtain rfl := Host.Outcome.next.inj (heq.symm.trans h)
    · exact sameOrWritten_of_memory k rfl
    · exact sameOrWritten_of_acknowledge k hflight (completeUpstream_memory _ _)
  | entryWriteComplete =>
    rcases exec_entryWriteComplete_cases s with heq | ⟨x, hflight, heq⟩
    all_goals obtain rfl := Host.Outcome.next.inj (heq.symm.trans h)
    · exact sameOrWritten_of_memory k rfl
    · exact sameOrWritten_of_acknowledge k hflight ((settle_memory _).trans (ownEntryCompletion_memory _))
  | receiptWriteComplete =>
    rcases exec_receiptWriteComplete_cases s with heq | ⟨x, hflight, heq⟩
    all_goals obtain rfl := Host.Outcome.next.inj (heq.symm.trans h)
    · exact sameOrWritten_of_memory k rfl
    · exact sameOrWritten_of_acknowledge k hflight ((settle_memory _).trans (ownReceiptCompletion_memory _))
  | resetLine =>
    obtain rfl := Host.Outcome.next.inj h
    exact cutTransaction_sameOrWritten s k
  | _ => exact Bool.noConfusion (show false = true from hc)

theorem changesMemory_eq_false {c : Instr} (hdirect : c ≠ .directWriteComplete) (hentry : c ≠ .entryWriteComplete)
    (hreceipt : c ≠ .receiptWriteComplete) (hreset : c ≠ .resetLine) : changesMemory c = false := by
  cases c with
  | directWriteComplete => exact absurd rfl hdirect
  | entryWriteComplete => exact absurd rfl hentry
  | receiptWriteComplete => exact absurd rfl hreceipt
  | resetLine => exact absurd rfl hreset
  | _ => rfl

/-- Settles O24: the three completions and the reset line write what is in flight, and no other command changes memory. -/
theorem memoryChangesOnlyInStrobedLanes : Obligations.MemoryChangesOnlyInStrobedLanes := by
  intro c s t k h
  refine ⟨?byte, fun hdirect hentry hreceipt hreset => ?same⟩
  case byte =>
    cases hc : changesMemory c with
    | true => exact exec_sameOrWritten_of_changes k hc h
    | false => exact sameOrWritten_of_memory k (exec_memory h hc)
  case same =>
    have hmemory : t.memory = s.memory := exec_memory h (changesMemory_eq_false hdirect hentry hreceipt hreset)
    exact congrArg (fun memory => Memory.read memory k) hmemory

end Sys2Proof.Machine
end

section
/-! PROOFS. The scan: what line events make of the tracker (O25 to O27), the supervision expiry (O28), the order of ordinals (O29),
the idle counts (O30) and the late check (O31). -/

namespace Sys2Proof.Machine

/-! ## Line events: the tracker first, then the rest of the event (R51 to R58) -/

section

variable {s : State}

theorem exec_frameStart_of_awake (h : s.resetAsserted = false) :
    exec .frameStart s = .next (settle (applyIfEmpty (lineEvent (trackFrame s)))) :=
  congrArg Host.Outcome.next (if_neg fun hasserted => Bool.false_ne_true (h.symm.trans hasserted))

theorem exec_lineStart_of_awake (h : s.resetAsserted = false) :
    exec .lineStart s = .next (settle (lineEvent (trackLine s))) :=
  congrArg Host.Outcome.next (if_neg fun hasserted => Bool.false_ne_true (h.symm.trans hasserted))

theorem exec_lineEvent_of_reset {c : Instr} (hc : c = .frameStart ∨ c = .lineStart) (h : s.resetAsserted = true) :
    exec c s = .next s := by
  rcases hc with rfl | rfl
  all_goals exact congrArg Host.Outcome.next (if_pos h)

/-- What follows the tracker in a frame-start leaves it. -/
theorem frameEvent_tracker (u : State) : (settle (applyIfEmpty (lineEvent u))).tracker = u.tracker := by
  rw [settle_tracker, applyIfEmpty_tracker, lineEvent_tracker]

/-- What follows the tracker in a line-start leaves it. -/
theorem lineEvent_settled_tracker (u : State) : (settle (lineEvent u)).tracker = u.tracker := by
  rw [settle_tracker, lineEvent_tracker]

@[simp] theorem reportGeometry_tracker (wrong : Bool) (k : Tracker) (s : State) :
    (reportGeometry wrong k s).tracker = s.tracker := by
  unfold reportGeometry
  split <;> rfl

@[simp] theorem reportLock_tracker (locks : Bool) (s : State) : (reportLock locks s).tracker = s.tracker := by
  unfold reportLock
  split <;> rfl

theorem trackFrame_of_unset (h : s.timing.lines = none) : trackFrame s = s := by
  unfold trackFrame
  rw [h]

theorem trackLine_of_unset (h : s.timing.lines = none) : trackLine s = s := by
  unfold trackLine
  rw [h]

theorem trackFrame_of_set {T : Nat} (h : s.timing.lines = some T) :
    trackFrame s =
      reportLock (s.tracker.locks T)
        (reportGeometry (s.tracker.runsShort T) s.tracker
          { s with tracker := s.tracker.afterFrame T s.timing.supervision }) := by
  unfold trackFrame
  rw [h]

theorem trackLine_of_set {T : Nat} (h : s.timing.lines = some T) :
    trackLine s =
      reportGeometry (s.tracker.runsLong T) s.tracker { s with tracker := s.tracker.afterLine T s.timing.supervision } := by
  unfold trackLine
  rw [h]

theorem trackFrame_tracker {T : Nat} (h : s.timing.lines = some T) :
    (trackFrame s).tracker = s.tracker.afterFrame T s.timing.supervision := by
  rw [trackFrame_of_set h, reportLock_tracker, reportGeometry_tracker]

theorem trackLine_tracker {T : Nat} (h : s.timing.lines = some T) :
    (trackLine s).tracker = s.tracker.afterLine T s.timing.supervision := by
  rw [trackLine_of_set h, reportGeometry_tracker]

end

/-- Settles O27: with the timing unset the tracker takes no part, and the rest of the event leaves it. -/
theorem unsetTimingIgnoresTheScan : Obligations.UnsetTimingIgnoresTheScan := by
  intro s c hc
  refine ⟨exec_lineEvent_of_reset hc, fun hunset => ?_⟩
  cases hreset : s.resetAsserted with
  | true => exact ⟨s, exec_lineEvent_of_reset hc hreset, rfl⟩
  | false =>
    rcases hc with rfl | rfl
    · refine ⟨_, exec_frameStart_of_awake hreset, ?_⟩
      rw [frameEvent_tracker, trackFrame_of_unset hunset]
    · refine ⟨_, exec_lineStart_of_awake hreset, ?_⟩
      rw [lineEvent_settled_tracker, trackLine_of_unset hunset]

/-! ## A frame-start at the tracker (Table 4-4) -/

section

variable {k : Tracker} {T : Nat}

theorem getD_zero_eq_iff {line : Option Nat} {n : Nat} (hn : n ≠ 0) : line.getD 0 = n ↔ line = some n := by
  cases line with
  | none => simp [hn.symm]
  | some l => simp

theorem locks_iff (hT : 8 ≤ T) :
    k.locks T = true ↔ k.state = .acquire ∧ k.line = some (T - 1) ∧ k.overrun = false := by
  have h := getD_zero_eq_iff (line := k.line) (n := T - 1) (by omega)
  simp [Tracker.locks, h, and_assoc]

theorem runsShort_iff (hT : 8 ≤ T) : k.runsShort T = true ↔ k.state = .locked ∧ k.line ≠ some (T - 1) := by
  have h := getD_zero_eq_iff (line := k.line) (n := T - 1) (by omega)
  simp [Tracker.runsShort, h]

/-- R52, R54, R55: the state a frame-start leaves, in each state. -/
theorem stateAfterFrame_eq (hT : 8 ≤ T) :
    k.stateAfterFrame T =
      match k.state with
      | .lost => .acquire
      | .acquire => if k.line = some (T - 1) ∧ k.overrun = false then .locked else .acquire
      | .locked => if k.line = some (T - 1) then .locked else .acquire := by
  unfold Tracker.stateAfterFrame
  cases hk : k.state with
  | lost => rfl
  | acquire => simp only [locks_iff hT, hk, true_and]
  | locked => simp only [runsShort_iff hT, hk, true_and, ne_eq, ite_not]

end

section

variable {s : State} {T : Nat}

/-- R54: a frame-start that enters LOCKED hands the flag. -/
theorem trackFrame_flag_of_locks (hlines : s.timing.lines = some T) (h : s.tracker.locks T = true) :
    (trackFrame s).flagSet .locked = true := by
  rw [trackFrame_of_set hlines, h]
  exact handFlag_self _ _

/-- R55, R59: a frame-start that finds the frame short hands the incident. -/
theorem trackFrame_handed (hlines : s.timing.lines = some T) (h : s.tracker.runsShort T = true) :
    Handed (s.tracker.incident .geometry) s (trackFrame s) := by
  rw [trackFrame_of_set hlines, h]
  have hhanded := handIncident_handed (s.tracker.incident .geometry)
    { s with tracker := s.tracker.afterFrame T s.timing.supervision }
  refine (hhanded.congr (s' := s) rfl rfl).mono ?_
  unfold reportLock
  split
  · exact handFlag_grows _ _
  · exact Grows.refl _

end

/-- Settles O25: the tracker moves as Table 4-4 says, and the flag and the incident outlast the rest of the event. -/
theorem frameStartMovesTheTracker : Obligations.FrameStartMovesTheTracker := by
  intro s T hreset hlines hT
  have htracker : (settle (applyIfEmpty (lineEvent (trackFrame s)))).tracker =
      s.tracker.afterFrame T s.timing.supervision := by
    rw [frameEvent_tracker, trackFrame_tracker hlines]
  have hstate := stateAfterFrame_eq (k := s.tracker) hT
  refine ⟨_, exec_frameStart_of_awake hreset, ?tracker, fun hacquire hlocked => ?flag, fun hlocked hacquire => ?incident⟩
  case tracker =>
    refine htracker.trans ?_
    cases hwas : s.tracker.state <;> simp [Tracker.afterFrame, hstate, hwas]
  case flag =>
    rw [htracker, Tracker.afterFrame, hstate, hacquire] at hlocked
    have hright : s.tracker.line = some (T - 1) ∧ s.tracker.overrun = false := by
      by_contra hwrong
      exact absurd ((if_neg hwrong).symm.trans hlocked) (by decide)
    exact grows_flag (frame_grows s) .locked (trackFrame_flag_of_locks hlines ((locks_iff hT).mpr ⟨hacquire, hright⟩))
  case incident =>
    rw [htracker, Tracker.afterFrame, hstate, hlocked] at hacquire
    have hshort : s.tracker.line ≠ some (T - 1) := fun hright =>
      absurd ((if_pos hright).symm.trans hacquire) (by decide)
    exact (trackFrame_handed hlines ((runsShort_iff hT).mpr ⟨hlocked, hshort⟩)).mono (frame_grows s)

/-! ## A line-start at the tracker (Table 4-4) -/

section

variable {k : Tracker} {T line n : Nat}

theorem afterLine_of_lost (hk : k.state = .lost) : k.afterLine T n = k := by
  unfold Tracker.afterLine
  rw [hk]

/-- R53: the count goes on up to 4095, and then the overrun is marked. -/
theorem countOn_counted (hline : k.line = some line) (hle : line ≤ 4095) :
    ({ k.countOn with state := .acquire, supervision := some n } : Tracker) = k.counted n := by
  unfold Tracker.countOn Tracker.counted Config.lastLine
  rw [hline, Option.getD_some]
  by_cases hlt : line < 4095
  · rw [if_pos hlt, Nat.min_eq_right hlt]
    simp [hlt.ne]
  · obtain rfl : line = 4095 := Nat.le_antisymm hle (Nat.not_lt.mp hlt)
    simp

theorem afterLine_of_acquire (hk : k.state = .acquire) (hline : k.line = some line) (hle : line ≤ 4095) :
    k.afterLine T n = k.counted n := by
  rw [← countOn_counted hline hle]
  unfold Tracker.afterLine Tracker.countOn
  rw [hk]
  dsimp only
  split <;> simp

theorem runsLong_of_last (hk : k.state = .locked) (hline : k.line = some (T - 1)) : k.runsLong T = true := by
  simp [Tracker.runsLong, hk, hline]

theorem runsLong_of_below (hline : k.line = some line) (hlt : line < T - 1) : k.runsLong T = false := by
  simp [Tracker.runsLong, hline, hlt]

theorem afterLine_of_locked (hk : k.state = .locked) (hline : k.line = some line) (hlt : line < T - 1) :
    k.afterLine T n = { k with line := some (line + 1), supervision := some n } := by
  unfold Tracker.afterLine
  rw [hk]
  dsimp only
  rw [runsLong_of_below hline hlt, hline]
  rfl

theorem afterLine_of_long (hk : k.state = .locked) (hline : k.line = some (T - 1)) (hT : T ≤ 4096) :
    k.afterLine T n = k.counted n := by
  rw [← countOn_counted hline (by omega)]
  unfold Tracker.afterLine
  rw [hk]
  dsimp only
  rw [runsLong_of_last hk hline]
  rfl

end

/-- Settles O26: the tracker moves as Table 4-4 says in each state, and the incident outlasts the rest of the event. -/
theorem lineStartMovesTheTracker : Obligations.LineStartMovesTheTracker := by
  intro s T hreset hlines hT
  refine ⟨_, exec_lineStart_of_awake hreset, ?_⟩
  rw [lineEvent_settled_tracker, trackLine_tracker hlines]
  refine ⟨afterLine_of_lost, fun hk line => afterLine_of_acquire hk, fun hk line => afterLine_of_locked hk,
    fun hk hline hle => ⟨afterLine_of_long hk hline hle, ?_⟩⟩
  have hhanded : Handed (s.tracker.incident .geometry) s (trackLine s) := by
    rw [trackLine_of_set hlines, runsLong_of_last hk hline]
    exact (handIncident_handed _ { s with tracker := s.tracker.afterLine T s.timing.supervision }).congr rfl rfl
  rw [Tracker.incident, hline] at hhanded
  exact hhanded.mono (line_grows s)

/-! ## The supervision expiry (R57, R59) -/

/-- The part once the supervision expiry has put the tracker in LOST, before what this lets happen. -/
def State.scanLost (s : State) : State :=
  handFlag .lost { handIncident (s.tracker.incident .syncLost) s with tracker := s.tracker.lose }

theorem expireSupervision_eq (s : State) : expireSupervision s = settle (applyIfLost (Work.start s.scanLost).tell) := rfl

theorem expireSupervision_grows (s : State) : Grows s.scanLost.incidents (expireSupervision s).incidents :=
  (applyIfLost_grows (Work.start s.scanLost).tell).trans (settle_grows _)

/-- Settles O28: the expiry hands what it hands before the tracker is LOST, and the rest of the event adds to that. -/
theorem supervisionExpiryLosesTheScan : Obligations.SupervisionExpiryLosesTheScan := by
  intro s
  refine ⟨fun hstopped => ?stopped, fun hrunning => ?running⟩
  case stopped => simp only [exec, execSupervisionExpiry, hstopped, Option.isSome_none, Bool.false_eq_true, if_false]
  case running =>
    refine ⟨expireSupervision s, congrArg Host.Outcome.next (if_pos (Option.isSome_iff_ne_none.mpr hrunning)), ?tracker,
      grows_flag (expireSupervision_grows s) .lost (handFlag_self _ _), ?incident⟩
    case tracker =>
      rw [expireSupervision_eq, settle_tracker, applyIfLost_tracker]
      rfl
    case incident =>
      have hgrows : Grows (handIncident (s.tracker.incident .syncLost) s).incidents s.scanLost.incidents :=
        handFlag_grows .lost { handIncident (s.tracker.incident .syncLost) s with tracker := s.tracker.lose }
      exact (handIncident_handed _ s).mono (hgrows.trans (expireSupervision_grows s))

/-! ## The order of ordinals (R7) -/

/-- Across the wrap, the difference of two ordinals near one base is that of their distances from it. -/
theorem toNat_ordinal_sub (base : BitVec 32) {i j : Nat} (hi : i < 2 ^ 31) (hj : j < 2 ^ 31) :
    (base + BitVec.ofNat 32 j - (base + BitVec.ofNat 32 i)).toNat = if i ≤ j then j - i else 2 ^ 32 - (i - j) := by
  simp only [BitVec.toNat_sub, BitVec.toNat_add, BitVec.toNat_ofNat]
  have := base.isLt
  split <;> omega

/-- Settles O29: the comparison is not symmetric, and the difference of near ordinals says which was sealed first. -/
theorem ordinalsCompareAcrossTheWrap : Obligations.OrdinalsCompareAcrossTheWrap := by
  refine ⟨fun x y => olderOrdinal_asymm, fun base i j hi hj => ?_⟩
  unfold olderOrdinal
  rw [toNat_ordinal_sub base hi hj, Bool.and_eq_true, decide_eq_true_iff, decide_eq_true_iff]
  split <;> omega

/-! ## What follows the tracker in a line event (R15, R58, R76) -/

/-- The part once the tracker has taken a line event, a line-start or a frame-start. -/
def Tracked (s u : State) : Prop :=
  u = trackLine s ∨ u = trackFrame s

/-- The event that follows it: a frame-start can complete an apply before it ends. -/
def FollowsTracker (u : State) (w : Work) : Prop :=
  w = lineEvent u ∨ w = applyIfEmpty (lineEvent u)

theorem exec_lineEvent_of_awake {s : State} {c : Instr} (hreset : s.resetAsserted = false)
    (hc : c = .lineStart ∨ c = .frameStart) :
    ∃ u w, Tracked s u ∧ FollowsTracker u w ∧ exec c s = .next (settle w) := by
  rcases hc with rfl | rfl
  · exact ⟨_, _, .inl rfl, .inl rfl, exec_lineStart_of_awake hreset⟩
  · exact ⟨_, _, .inr rfl, .inr rfl, exec_frameStart_of_awake hreset⟩

section

variable {s u : State} {w : Work}

/-- The tracker's part of a line event touches the tracker and the incident unit alone. -/
theorem Tracked.eq (h : Tracked s u) : u = { s with tracker := u.tracker, incidents := u.incidents } := by
  rcases h with rfl | rfl
  · unfold trackLine
    split
    · rfl
    · unfold reportGeometry
      split <;> rfl
  · unfold trackFrame
    split
    · rfl
    · unfold reportLock reportGeometry
      split <;> split <;> rfl

theorem Tracked.windows (h : Tracked s u) : u.windows = s.windows := by rw [h.eq]
theorem Tracked.live (h : Tracked s u) : u.live = s.live := by rw [h.eq]
theorem Tracked.records (h : Tracked s u) : u.records = s.records := by rw [h.eq]
theorem Tracked.timing (h : Tracked s u) : u.timing = s.timing := by rw [h.eq]
theorem Tracked.engine (h : Tracked s u) : u.engine = s.engine := by rw [h.eq]
theorem Tracked.port (h : Tracked s u) : u.port = s.port := by rw [h.eq]
theorem Tracked.upstream (h : Tracked s u) : u.upstream = s.upstream := by rw [h.eq]
theorem Tracked.applyPending (h : Tracked s u) : u.applyPending = s.applyPending := by rw [h.eq]

/-- A line event that leaves the tracker LOCKED has found nothing wrong, and so handed no incident. -/
theorem Tracked.no_incident (h : Tracked s u) (hlocked : u.tracker.state = .locked) :
    u.incidents.queue = s.incidents.queue ∧ u.incidents.dropped = s.incidents.dropped := by
  rcases h with rfl | rfl
  · cases hlines : s.timing.lines with
    | none => rw [trackLine_of_unset hlines]; exact ⟨rfl, rfl⟩
    | some T =>
      have hlong : ¬s.tracker.runsLong T = true := fun hlong => by
        rw [trackLine_tracker hlines] at hlocked
        unfold Tracker.afterLine at hlocked
        rw [(beq_iff_eq.mp (Bool.and_eq_true_iff.mp hlong).1 : s.tracker.state = .locked), hlong] at hlocked
        have hacquire : TrackerState.acquire = .locked := hlocked
        exact absurd hacquire (by decide)
      rw [trackLine_of_set hlines, reportGeometry, if_neg hlong]
      exact ⟨rfl, rfl⟩
  · cases hlines : s.timing.lines with
    | none => rw [trackFrame_of_unset hlines]; exact ⟨rfl, rfl⟩
    | some T =>
      have hshort : ¬s.tracker.runsShort T = true := fun hshort => by
        rw [trackFrame_tracker hlines, Tracker.afterFrame, Tracker.stateAfterFrame,
          (beq_iff_eq.mp (Bool.and_eq_true_iff.mp hshort).1 : s.tracker.state = .locked), hshort] at hlocked
        have hacquire : TrackerState.acquire = .locked := hlocked
        exact absurd hacquire (by decide)
      rw [trackFrame_of_set hlines, reportGeometry, if_neg hshort]
      unfold reportLock
      split <;> exact ⟨rfl, rfl⟩

/-- The event that follows: what the completion of an apply can change apart, it is what the line event makes. -/
theorem FollowsTracker.records (h : FollowsTracker u w) : w.st.records = (lineEvent u).st.records := by
  rcases h with rfl | rfl
  · rfl
  · exact applyIfEmpty_records _

theorem FollowsTracker.engine (h : FollowsTracker u w) : w.st.engine = u.engine := by
  rcases h with rfl | rfl
  · exact lineEvent_engine u
  · exact (applyIfEmpty_engine _).trans (lineEvent_engine u)

theorem FollowsTracker.port (h : FollowsTracker u w) : w.st.port = u.port := by
  rcases h with rfl | rfl
  · exact lineEvent_port u
  · exact (applyIfEmpty_port _).trans (lineEvent_port u)

theorem FollowsTracker.tracker (h : FollowsTracker u w) : w.st.tracker = u.tracker := by
  rcases h with rfl | rfl
  · exact lineEvent_tracker u
  · exact (applyIfEmpty_tracker _).trans (lineEvent_tracker u)

theorem FollowsTracker.grows (h : FollowsTracker u w) : Grows (lateCheck u).incidents w.st.incidents := by
  rw [← lineEvent_incidents]
  rcases h with rfl | rfl
  · exact Grows.refl _
  · exact applyIfEmpty_grows _

theorem FollowsTracker.proj {α : Type} (f : WindowState → α) (hclose : ∀ d, f { d with closing := false } = f d)
    (h : FollowsTracker u w) (V : WindowIdx) : f w.st.windows[V.val] = f (lineEvent u).st.windows[V.val] := by
  rcases h with rfl | rfl
  · rfl
  · exact applyIfEmpty_proj f hclose _ V

end

/-! ## The idle counts (R15) -/

/-- A line event at whose end no write is looked at again: none waits, or no apply has completed. -/
theorem exec_lineEvent_quiet {s : State} {c : Instr} (hreset : s.resetAsserted = false)
    (hc : c = .lineStart ∨ c = .frameStart ∧ (s.upstream.phase ≠ .wait ∨ s.applyPending = false)) :
    ∃ u w, Tracked s u ∧ FollowsTracker u w ∧ exec c s = .next (settle w) ∧
      (w.st.upstream.phase ≠ .wait ∨ w.reported = false) := by
  rcases hc with rfl | ⟨rfl, hquiet⟩
  · exact ⟨_, _, .inl rfl, .inl rfl, exec_lineStart_of_awake hreset, .inr (lineEvent_reported _)⟩
  · refine ⟨_, _, .inr rfl, .inr rfl, exec_frameStart_of_awake hreset, ?_⟩
    rcases hquiet with hwait | hpending
    · refine .inl ?_
      rw [applyIfEmpty_upstream, lineEvent_upstream, trackFrame_upstream]
      exact hwait
    · refine .inr ?_
      rw [apply_none _ (by rw [lineEvent_applyPending, trackFrame_applyPending, hpending]), lineEvent_reported]

/-- The end of an event at which no write is looked at again leaves of a window what the start of a release leaves. -/
theorem settle_quiet_proj {α : Type} (f : WindowState → α) (hstart : ∀ d r, f (startedWindow d r) = f d) {w : Work}
    (h : w.st.upstream.phase ≠ .wait ∨ w.reported = false) (V : WindowIdx) :
    f (settle w).windows[V.val] = f w.st.windows[V.val] := by
  rcases settle_frame w h with heq | heq
  · rw [heq]
  · rw [heq, evaluate_proj f hstart]

/-- Settles O30: the counts and the seals of the line event, which the rest of its event leaves. -/
theorem lineEventsCountAndSealIdleWindows : Obligations.LineEventsCountAndSealIdleWindows := by
  intro s c W hreset hc
  obtain ⟨u, w, hu, hw, hexec, hquiet⟩ := exec_lineEvent_quiet hreset hc
  have hidle : (settle w).windows[W.val].idle = (lineEvent u).st.windows[W.val].idle := by
    rw [settle_quiet_proj WindowState.idle (fun _ _ => rfl) hquiet, hw.proj WindowState.idle fun _ => rfl]
  have hopen : (settle w).windows[W.val].openBatch = (lineEvent u).st.windows[W.val].openBatch := by
    rw [settle_quiet_proj WindowState.openBatch (fun _ _ => rfl) hquiet, hw.proj WindowState.openBatch fun _ => rfl]
  have hlast : (settle w).windows[W.val].lastSealed = (lineEvent u).st.windows[W.val].lastSealed := by
    rw [settle_quiet_proj WindowState.lastSealed (fun _ _ => rfl) hquiet, hw.proj WindowState.lastSealed fun _ => rfl]
  obtain ⟨hseals, hkeeps⟩ := lineEvent_seals u W
  rw [hu.windows, hu.live, hu.records, ← hopen, ← hlast] at hseals
  rw [hu.windows, hu.live, ← hopen, ← hlast] at hkeeps
  refine ⟨settle w, hexec, ?counts, hseals, hkeeps⟩
  case counts =>
    exact (hidle.trans (lineEvent_window_counts u W)).trans (by rw [hu.windows]; rfl)

/-! ## The late check (R76, R77) -/

/-- R76: the scan is on the rows of a batch of which some entries are written and some are not. -/
def TornAt (k : Tracker) (firstLine : Nat) (b : BatchRecord) : Prop :=
  k.state = .locked ∧ 1 ≤ b.written ∧ b.entries ≠ [] ∧
    ∃ line, k.line = some line ∧ firstLine + b.firstRow ≤ line ∧ line ≤ firstLine + b.lastRow

/-- The releasing batch at the end of a line event: it may be late, and keeps its ground. -/
theorem lineEvent_late {u : State} {r : RecordIdx} {b : BatchRecord} (hphase : u.engine.phase = .entries)
    (hreleasing : u.engine.releasing = some r) (hb : u.records[r.val] = some b) :
    ∃ c, (lineEvent u).st.records[r.val] = some c ∧ c.ground = b.ground ∧
      (c.late = true ↔ b.late = true ∨ TornAt u.tracker u.timing.firstLine b) := by
  obtain ⟨hlate, -⟩ := lateCheck_with u r b hphase hreleasing hb fun _ _ => trivial
  obtain ⟨c, hc, -, -, hclate, hcground, -⟩ :=
    sealAll_record (lateCheck u).idleSeals ((Work.start (lateCheck u)).tell.map countIdle) r _ hlate
  refine ⟨c, hc, hcground, ?_⟩
  rw [hclate, Bool.or_eq_true, decide_eq_true_iff]
  rfl

/-- Settles O31: the late check is made with the tracker as the event leaves it, and neither the seals nor the end of the
event touch what it marks. -/
theorem lateCheckMarksATornBatch : Obligations.LateCheckMarksATornBatch := by
  intro s c r b hreset hc hfree hphase hreleasing hb
  obtain ⟨u, w, hu, hw, hexec⟩ := exec_lineEvent_of_awake hreset hc
  have hphase' : u.engine.phase = .entries := by rw [hu.engine, hphase]
  have hreleasing' : u.engine.releasing = some r := by rw [hu.engine, hreleasing]
  have hb' : u.records[r.val] = some b := by rw [hu.records]; exact hb
  obtain ⟨b₁, hb₁, hground₁, hlate₁⟩ := lineEvent_late hphase' hreleasing' hb'
  rw [← hw.records] at hb₁
  have hport : w.st.port = s.port := hw.port.trans hu.port
  have hengine : w.st.engine = s.engine := hw.engine.trans hu.engine
  obtain ⟨⟨b₂, hb₂, hlate₂, hground₂⟩, hengine₂⟩ :=
    settle_busy w r b₁ hb₁ (by rw [NoClaimWaitsInFree, hport]; exact hfree) (by rw [hengine, hphase]; decide)
  have htracker : (settle w).tracker = u.tracker := (settle_tracker w).trans hw.tracker
  rw [← hlate₂, hu.timing, ← htracker] at hlate₁
  refine ⟨_, b₂, hexec, hb₂, hengine₂.trans hengine, hground₂.trans hground₁, fun hlate => hlate₁.mpr (.inl hlate),
    fun hnot => ⟨?iff, fun hlate => ?handed⟩⟩
  case iff =>
    rw [hlate₁, hnot]
    simp [TornAt]
  case handed =>
    have htorn : TornAt u.tracker u.timing.firstLine b := by
      rw [hu.timing, ← htracker]
      exact (hlate₁.mp hlate).resolve_left (by simp [hnot])
    have hhanded := (lateCheck_with u r b hphase' hreleasing' hb' fun _ _ => trivial).2 hnot htorn
    obtain ⟨hqueue, hdropped⟩ := hu.no_incident htorn.1
    rw [htracker]
    exact (hhanded.congr hqueue.symm hdropped.symm).mono (hw.grows.trans (settle_grows w))

end Sys2Proof.Machine
end

section
/-! PROOFS. Stalls and forced release: the stall expiry (O32) and what it marks under each cause (O33, O34). -/

namespace Sys2Proof.Machine

/-! ## The expiry, whatever its cause (R107, R108) -/

/-- The part that has handed the incident of a stall expiry, before the action of its cause. -/
def State.stallReported (s : State) : State :=
  handIncident s.stallIncident s

theorem reportedLine_eq (k : Tracker) : k.reportedLine = if k.state = .lost then none else k.line := by
  unfold Tracker.reportedLine
  cases k.state <;> rfl

/-- The event of a stall expiry: the incident, the action, the restart of the timer. -/
theorem exec_stallExpiry_of_wait {s : State} (hwait : s.upstream.phase = .wait) (htimer : s.upstream.stallTimer ≠ none) :
    exec .stallExpiry s = .next (settle ((expiryAction (Work.start s.stallReported)).map restartTimer)) :=
  exec_stallExpiry hwait htimer

theorem expiryAction_quiet (s : State) : (expiryAction (Work.start s)).reported = false :=
  expiryAction_reported _

theorem stallExpiry_upstream (s : State) :
    (settle ((expiryAction (Work.start s.stallReported)).map restartTimer)).upstream =
      { s.upstream with stallTimer := startedTimer s.timing.stallLimit } := by
  have h : (restartTimer (expiryAction (Work.start s.stallReported)).st).upstream =
      { s.upstream with stallTimer := startedTimer s.timing.stallLimit } := by
    simp [State.stallReported, Work.start]
  rcases settle_expiry _ (expiryAction_quiet s.stallReported) with heq | heq
  · rw [heq, h]
  · rw [heq, evaluate_upstream, h]

theorem stallExpiry_grows (s : State) :
    Grows s.stallReported.incidents
      (settle ((expiryAction (Work.start s.stallReported)).map restartTimer)).incidents := by
  have h := settle_grows ((expiryAction (Work.start s.stallReported)).map restartTimer)
  rwa [Work.map, restartTimer_incidents, expiryAction_incidents] at h

/-- Settles O32: the action of the cause and the end of the event leave the port but for its timer, and only add incidents. -/
theorem stallExpiryReportsAndRestarts : Obligations.StallExpiryReportsAndRestarts := by
  intro s hwait htimer
  refine ⟨_, exec_stallExpiry_of_wait hwait htimer, ?upstream, ?incident⟩
  case upstream => rw [stallExpiry_upstream, startedTimer_eq]
  case incident =>
    rw [← reportedLine_eq]
    exact (handIncident_handed s.stallIncident s).mono (stallExpiry_grows s)

/-! ## Cause A with an unmarked SEALED batch (R110) -/

theorem oldest_unmarkedSealed {s : State} {W : WindowIdx} {r : RecordIdx} {b : BatchRecord}
    (hr : r ∈ s.windows[W].sealedQueue) (hb : s.records[r] = some b) (hmark : b.mark = none)
    (holdest : ∀ (U : WindowIdx) (q : RecordIdx) (d : BatchRecord), q ∈ s.windows[U].sealedQueue → s.records[q] = some d →
      d.mark = none → q ≠ r → olderOrdinal (s.ordinalOf r) (s.ordinalOf q) = true) :
    s.oldest s.unmarkedSealed = some r := by
  refine oldest_eq s r _ ((mem_unmarkedSealed s r).mpr ⟨⟨W, hr⟩, b, hb, hmark⟩) fun q hq hne => ?_
  obtain ⟨⟨U, hU⟩, d, hd, hunmarked⟩ := (mem_unmarkedSealed s q).mp hq
  exact holdest U q d hU hd hunmarked hne

theorem windowOfRecord_of_some {s : State} {r : RecordIdx} {b : BatchRecord} (hb : s.records[r] = some b) :
    s.windowOfRecord r = b.window := by
  unfold State.windowOfRecord
  rw [hb]
  rfl

theorem expiryAction_a_of_oldest {w : Work} {r : RecordIdx} {b : BatchRecord} (hcause : w.st.upstream.cause = some .a)
    (holdest : w.st.oldest w.st.unmarkedSealed = some r) (hb : w.st.records[r] = some b) :
    expiryAction w = forceMark .stall b.window r w := by
  unfold expiryAction
  rw [hcause]
  dsimp only [expireA]
  rw [holdest]
  dsimp only
  rw [windowOfRecord_of_some hb]

theorem stallExpiry_marks_the_oldest {s : State} {V W : WindowIdx} {r : RecordIdx} {b : BatchRecord}
    (hwait : s.upstream.phase = .wait) (htimer : s.upstream.stallTimer ≠ none) (hcause : s.upstream.cause = some .a)
    (hr : r ∈ s.windows[W].sealedQueue) (hb : s.records[r] = some b) (hV : b.window = V) (hmark : b.mark = none)
    (holdest : ∀ (U : WindowIdx) (q : RecordIdx) (d : BatchRecord), q ∈ s.windows[U].sealedQueue → s.records[q] = some d →
      d.mark = none → q ≠ r → olderOrdinal (s.ordinalOf r) (s.ordinalOf q) = true) :
    ∃ t b', exec .stallExpiry s = .next t ∧ t.records[r] = some b' ∧ b'.mark = some .stall ∧ b'.entries = b.entries ∧
      ∀ (q : RecordIdx) (d : BatchRecord), q ≠ r → s.records[q] = some d → q ∉ s.olderThan V r →
        ∃ d', t.records[q] = some d' ∧ d'.mark = d.mark ∧ d'.entries = d.entries := by
  have haction : expiryAction (Work.start s.stallReported) = forceMark .stall V r (Work.start s.stallReported) :=
    hV ▸ expiryAction_a_of_oldest (w := Work.start s.stallReported) hcause
      (oldest_unmarkedSealed (s := s.stallReported) hr hb hmark holdest) hb
  have hquiet : (forceMark .stall V r (Work.start s.stallReported)).reported = false := rfl
  have hmarked : (forceMark .stall V r (Work.start s.stallReported)).st.records[r.val] = some (b.force .stall) := by
    rw [forceMark_get, if_pos (by simp)]
    exact congrArg (Option.map _) hb
  obtain ⟨b', hb', hbmark, hbentries, -⟩ := expiry_record _ hquiet r _ hmarked
  rw [exec_stallExpiry_of_wait hwait htimer, haction]
  refine ⟨_, b', rfl, hb', ?mark, hbentries, fun q d hne hd hyoung => ?other⟩
  case mark => rw [hbmark, force_mark, hmark]; rfl
  case other =>
    have hleft : (forceMark .stall V r (Work.start s.stallReported)).st.records[q.val] = some d := by
      rw [forceMark_get, if_neg]
      · exact hd
      · have hyoung' : q ∉ s.stallReported.olderThan V r := hyoung
        simpa [hne] using hyoung'
    obtain ⟨d', hd', hdmark, hdentries, -⟩ := expiry_record _ hquiet q _ hleft
    exact ⟨d', hd', hdmark, hdentries⟩

/-! ## Cause A with none (R111) -/

theorem oldest_eq_none_of_marked {s : State}
    (hmarked : ∀ (U : WindowIdx) (q : RecordIdx) (d : BatchRecord), q ∈ s.windows[U].sealedQueue → s.records[q] = some d →
      d.mark ≠ none) : s.oldest s.unmarkedSealed = none := by
  have hnil : s.unmarkedSealed = [] := by
    refine List.eq_nil_iff_forall_not_mem.mpr fun q hq => ?_
    obtain ⟨⟨U, hU⟩, d, hd, hunmarked⟩ := (mem_unmarkedSealed s q).mp hq
    exact hmarked U q d hU hd hunmarked
  rw [hnil]
  rfl

theorem expiryAction_a_of_largest {w : Work} {W : WindowIdx} {r : RecordIdx} (hcause : w.st.upstream.cause = some .a)
    (hnone : w.st.oldest w.st.unmarkedSealed = none) (hlargest : w.st.largestOpen (List.finRange 8) = some W)
    (hopen : w.st.windows[W].openBatch = some r) : expiryAction w = forceMark .stall W r (sealOpen W w) := by
  unfold expiryAction
  rw [hcause]
  dsimp only [expireA]
  rw [hnone]
  dsimp only [sealLargest]
  rw [hlargest]
  dsimp only
  rw [hopen]

theorem stallExpiry_seals_the_largest {s : State} {W : WindowIdx} {r : RecordIdx} {b : BatchRecord}
    (hwait : s.upstream.phase = .wait) (htimer : s.upstream.stallTimer ≠ none) (hcause : s.upstream.cause = some .a)
    (hmarked : ∀ (U : WindowIdx) (q : RecordIdx) (d : BatchRecord), q ∈ s.windows[U].sealedQueue → s.records[q] = some d →
      d.mark ≠ none)
    (hopen : s.windows[W].openBatch = some r) (hb : s.records[r] = some b) (hmark : b.mark = none)
    (hlargest : ∀ V : WindowIdx, s.windows[V].openBatch ≠ none → V ≠ W →
      s.openCount V < s.openCount W ∨ s.openCount V = s.openCount W ∧ W < V) :
    ∃ t b', exec .stallExpiry s = .next t ∧ t.windows[W].openBatch = none ∧
      t.windows[W].lastSealed = s.windows[W].lastSealed + 1 ∧ t.records[r] = some b' ∧ b'.entries = b.entries ∧
      b'.seq = some (s.windows[W].lastSealed + 1) ∧ b'.ordinal = some (s.sealOrdinal + 1) ∧
      (TooLarge s b → b'.mark = some .oversize) ∧ (¬TooLarge s b → b'.mark = some .stall) := by
  have hyoung : r ∉ s.windows[W].sealedQueue := fun hr => hmarked W r b hr hb hmark
  have hfound : s.stallReported.largestOpen (List.finRange 8) = some W :=
    largestOpen_eq s.stallReported W (Option.isSome_iff_exists.mpr ⟨r, hopen⟩) _ pairwise_finRange8 (List.mem_finRange W)
      fun V _ hV hne => hlargest V (Option.isSome_iff_ne_none.mp hV) hne
  have haction := expiryAction_a_of_largest (w := Work.start s.stallReported) hcause
    (oldest_eq_none_of_marked (s := s.stallReported) hmarked) hfound hopen
  have hquiet : (forceMark .stall W r (sealOpen W (Work.start s.stallReported))).reported = false :=
    sealOpen_reported W _
  have hwindow := sealOpen_window_self (w := Work.start s.stallReported) hopen hb
  obtain ⟨c, hc, -, hcentries, hcseq, hcordinal⟩ := sealOpen_record_self (w := Work.start s.stallReported) hopen hb
  have hcmark : c.mark = if s.stallReported.oversize b then (b.mark <|> some .oversize) else b.mark := by
    obtain ⟨c', hc', -, hmark'⟩ :=
      sealOpen_standing W (Work.start s.stallReported) r r b b hopen hb hyoung hb (.inl hopen)
    rw [Option.some.inj (hc.symm.trans hc'), hmark']
    rfl
  have hforced : (forceMark .stall W r (sealOpen W (Work.start s.stallReported))).st.records[r.val] =
      some (c.force .stall) := by
    rw [forceMark_get, if_pos (by simp), hc]
    rfl
  obtain ⟨b', hb', hbmark, hbentries, hbseq, hbordinal⟩ := expiry_record _ hquiet r _ hforced
  rw [exec_stallExpiry_of_wait hwait htimer, haction]
  rw [force_mark, hcmark, hmark] at hbmark
  refine ⟨_, b', rfl, ?openBatch, ?lastSealed, hb', hbentries.trans hcentries, hbseq.trans hcseq,
    hbordinal.trans hcordinal, fun hlarge => ?oversize, fun hfits => ?stall⟩
  case openBatch =>
    exact (expiry_window _ hquiet W WindowState.openBatch fun _ _ => rfl).trans (by rw [forceMark_windows, hwindow]; rfl)
  case lastSealed =>
    exact (expiry_window _ hquiet W WindowState.lastSealed fun _ _ => rfl).trans (by rw [forceMark_windows, hwindow]; rfl)
  case oversize => rw [hbmark, if_pos ((oversize_iff s.stallReported b).mpr hlarge)]; rfl
  case stall => rw [hbmark, if_neg (mt (oversize_iff s.stallReported b).mp hfits)]; rfl

/-- Settles O33: with an unmarked SEALED batch the oldest is found and marked; with none, the largest open batch is sealed
first, whose oversize check can mark it before STALL does. -/
theorem expiryUnderAMarksTheOldestOrSealsTheLargest : Obligations.ExpiryUnderAMarksTheOldestOrSealsTheLargest :=
  ⟨fun _ _ _ _ _ => stallExpiry_marks_the_oldest, fun _ _ _ _ => stallExpiry_seals_the_largest⟩

/-! ## Causes B and C (R112, R113) -/

/-- The record with its reason, when it is one the expiry marks. -/
theorem map_force_entries {d : BatchRecord} (reason : ForceReason) (P : Prop) [Decidable P] :
    ∃ d', (if P then (some d).map (fun b => b.force reason) else some d) = some d' ∧ d'.entries = d.entries ∧
      d'.mark = if P then d.mark <|> some reason else d.mark := by
  by_cases h : P
  · exact ⟨d.force reason, if_pos h, rfl, by rw [force_mark, if_pos h]⟩
  · exact ⟨d, if_neg h, rfl, (if_neg h).symm⟩

theorem forceMark_record (V : WindowIdx) (r : RecordIdx) (w : Work) {q : RecordIdx} {d : BatchRecord}
    (hd : w.st.records[q.val] = some d) :
    ∃ d', (forceMark .stall V r w).st.records[q.val] = some d' ∧ d'.entries = d.entries ∧
      d'.mark = if q ∈ w.st.olderThan V r ++ [r] then d.mark <|> some .stall else d.mark := by
  rw [forceMark_get, hd]
  exact map_force_entries .stall _

theorem markAll_record (reason : ForceReason) (rs : List RecordIdx) (w : Work) {q : RecordIdx} {d : BatchRecord}
    (hd : w.st.records[q.val] = some d) :
    ∃ d', (markAll reason rs w).st.records[q.val] = some d' ∧ d'.entries = d.entries ∧
      d'.mark = if q ∈ rs then d.mark <|> some reason else d.mark := by
  rw [markAll_get, hd]
  exact map_force_entries reason _

/-- The record is in use, with the entries of the one it was. -/
def HoldsEntries (q : RecordIdx) (d : BatchRecord) (w : Work) : Prop :=
  ∃ d', w.st.records[q.val] = some d' ∧ d'.entries = d.entries

theorem HoldsEntries.forceMark {q : RecordIdx} {d : BatchRecord} {w : Work} (h : HoldsEntries q d w) (V : WindowIdx)
    (r : RecordIdx) : HoldsEntries q d (forceMark .stall V r w) := by
  obtain ⟨c, hc, hcd⟩ := h
  obtain ⟨d', hd', hentries, -⟩ := forceMark_record V r w hc
  exact ⟨d', hd', hentries.trans hcd⟩

theorem HoldsEntries.markAll {q : RecordIdx} {d : BatchRecord} {w : Work} (h : HoldsEntries q d w) (rs : List RecordIdx) :
    HoldsEntries q d (markAll .stall rs w) := by
  obtain ⟨c, hc, hcd⟩ := h
  obtain ⟨d', hd', hentries, -⟩ := markAll_record .stall rs w hc
  exact ⟨d', hd', hentries.trans hcd⟩

theorem HoldsEntries.sealOpen {q : RecordIdx} {d : BatchRecord} {w : Work} (h : HoldsEntries q d w) (V : WindowIdx) :
    HoldsEntries q d (sealOpen V w) := by
  obtain ⟨c, hc, hcd⟩ := h
  obtain ⟨d', hd', hentries, -⟩ := sealOpen_record V w q c hc
  exact ⟨d', hd', hentries.trans hcd⟩

theorem HoldsEntries.sealLargest {q : RecordIdx} {d : BatchRecord} {w : Work} (h : HoldsEntries q d w) :
    HoldsEntries q d (sealLargest w) := by
  unfold Machine.sealLargest
  split
  · exact h
  · split
    · exact h
    · exact (h.sealOpen _).forceMark _ _

theorem HoldsEntries.expireA {q : RecordIdx} {d : BatchRecord} {w : Work} (h : HoldsEntries q d w) :
    HoldsEntries q d (expireA w) := by
  unfold Machine.expireA
  split
  · exact h.forceMark _ _
  · exact h.sealLargest

theorem HoldsEntries.expireB {q : RecordIdx} {d : BatchRecord} {w : Work} (h : HoldsEntries q d w) :
    HoldsEntries q d (expireB w) := by
  unfold Machine.expireB
  split
  · split
    · exact h
    · exact h.forceMark _ _
  · exact h
  · exact h

/-- An expiry under whatever cause leaves each record in use, with its entries. -/
theorem HoldsEntries.expiryAction {q : RecordIdx} {d : BatchRecord} {w : Work} (h : HoldsEntries q d w) :
    HoldsEntries q d (expiryAction w) := by
  unfold Machine.expiryAction
  split
  · exact h.expireA
  · exact h.expireB
  · exact h.markAll _
  · exact h

theorem expiryAction_b_of_held {w : Work} {a : Addr} {m : Lanes} {x : Word} {h : RecordIdx × Entry}
    {older : List (RecordIdx × Entry)} {b : BatchRecord} (hcause : w.st.upstream.cause = some .b)
    (hwrite : w.st.upstream.transaction = some (.write a m x)) (hheld : w.st.heldFor a = h :: older)
    (hb : w.st.records[h.1] = some b) : expiryAction w = forceMark .stall b.window h.1 w := by
  simp only [expiryAction, hcause, expireB, hwrite, hheld, windowOfRecord_of_some hb]

theorem expiryAction_c {w : Work} (hcause : w.st.upstream.cause = some .c) :
    expiryAction w = markAll .stall (w.st.sealedOf w.st.closingWindows) w := by
  simp only [expiryAction, hcause, expireC]

theorem mem_sealedOf_closing (s : State) (q : RecordIdx) :
    q ∈ s.sealedOf s.closingWindows ↔ ∃ W : WindowIdx, s.windows[W].closing = true ∧ q ∈ s.windows[W].sealedQueue := by
  simp [State.sealedOf, State.closingWindows]

/-- Settles O34: under cause B the newest batch that holds the word is marked with those older than it, under cause C every
SEALED batch of a closing window; the end of the event keeps the marks. -/
theorem expiryUnderBAndC : Obligations.ExpiryUnderBAndC := by
  intro s q d hwait htimer hd
  obtain ⟨c, hc, hcd⟩ := HoldsEntries.expiryAction (w := Work.start s.stallReported) (q := q) (d := d) ⟨d, hd, rfl⟩
  obtain ⟨d', hd', hmark, hentries, -⟩ := expiry_record _ (expiryAction_quiet s.stallReported) q c hc
  refine ⟨_, d', exec_stallExpiry_of_wait hwait htimer, hd', hentries.trans hcd, ?causeB, fun hcause => ?causeC⟩
  case causeB =>
    intro a m x h older b hcause hwrite hheld hb
    obtain ⟨e, he, -, hemark⟩ := forceMark_record b.window h.1 (Work.start s.stallReported) (q := q) (d := d) hd
    rw [← expiryAction_b_of_held (w := Work.start s.stallReported) hcause hwrite hheld hb, hc] at he
    rw [hmark, Option.some.inj he, hemark]
    refine if_congr ?_ rfl rfl
    rw [List.mem_append, List.mem_singleton, or_comm]
    rfl
  case causeC =>
    obtain ⟨e, he, -, hemark⟩ :=
      markAll_record .stall (s.stallReported.sealedOf s.stallReported.closingWindows) (Work.start s.stallReported) (q := q)
        (d := d) hd
    have haction := expiryAction_c (w := Work.start s.stallReported) hcause
    rw [hmark, Option.some.inj (hc.symm.trans ((congrArg (fun w => w.st.records[q.val]) haction).trans he)), hemark]
    refine ⟨fun hin => if_pos ((mem_sealedOf_closing s q).mpr hin), fun hout => if_neg fun hin => ?_⟩
    obtain ⟨W, hclosing, hq⟩ := (mem_sealedOf_closing s q).mp hin
    exact hout W hclosing hq

end Sys2Proof.Machine
end

section
/-! PROOFS. Eligibility and the oversize check: what the scan leaves room for (O35, O36). -/

namespace Sys2Proof.Machine

/-! ## Eligibility (R63 to R65) -/

theorem clears_iff (s : State) {b : BatchRecord} {T : Nat} (hrows : b.firstRow ≤ b.lastRow) (hT : s.timing.lines = some T)
    (line : Nat) :
    s.clears b line = true ↔
      ClearsTheScan (s.timing.firstLine + b.firstRow) (s.timing.firstLine + b.lastRow) b.entries.length T s.timing.rate
        line := by
  have htotal : s.timing.total = T := by rw [Timing.total, hT, Option.getD_some]
  have hexcluded : inBand (s.firstLineOf b) (s.lastLineOf b) line = false ↔
      line < s.timing.firstLine + b.firstRow ∨ s.timing.firstLine + b.lastRow < line := by
    rw [inBand, Bool.and_eq_false_iff, decide_eq_false_iff_not, decide_eq_false_iff_not, not_le, not_le]
    rfl
  rw [State.clears, Bool.and_eq_true, Bool.not_eq_true', hexcluded, decide_eq_true_eq, distance, htotal, ClearsTheScan]
  by_cases hbefore : line < s.timing.firstLine + b.firstRow
  · have hnotAfter : ¬s.timing.firstLine + b.lastRow < line := by omega
    simp [State.firstLineOf, hbefore, hnotAfter]
  · simp [State.firstLineOf, hbefore]

theorem blanking_iff (s : State) (line : Nat) :
    s.blanking line = true ↔ line < s.timing.firstLine ∨ s.timing.firstLine + s.timing.active ≤ line := by
  simp [State.blanking]

theorem onSchedule_iff (s : State) (b : BatchRecord) (line : Nat) :
    s.onSchedule b line = true ↔
      s.clears b line = true ∧
        (s.live[b.window].policy = .chase ∨ s.live[b.window].policy = .frame ∧ s.blanking line = true) := by
  unfold State.onSchedule
  cases s.live[b.window].policy <;> simp

theorem batchEligible_iff (s : State) (b : BatchRecord) :
    s.batchEligible b = true ↔
      b.mark ≠ none ∨ s.tracker.state = .lost ∨
        s.tracker.state = .locked ∧ ∃ line, s.tracker.line = some line ∧ s.onSchedule b line = true := by
  unfold State.batchEligible
  cases b.mark with
  | some reason => simp
  | none => cases s.tracker.state <;> simp [Option.any_eq_true]

theorem eligible_of_some {s : State} {r : RecordIdx} {b : BatchRecord} (hb : s.records[r] = some b) :
    s.eligible r = s.batchEligible b := by
  rw [State.eligible, hb, Option.any_some]

/-- Settles O35: eligibility is the mark, the state of the tracker, and the scan's place. -/
theorem eligibilityFollowsTheScan : Obligations.EligibilityFollowsTheScan := by
  intro s r b T hb hrows hT
  simp only [eligible_of_some hb, batchEligible_iff, onSchedule_iff, clears_iff s hrows hT, blanking_iff]

/-! ## The oversize check at a seal (R16, R66) -/

theorem exec_sealWindows_of_ends {s : State} {set : BitVec 8} (hends : Ends s .sealWindows [set]) :
    exec (.sealWindows set) s = .next (answerStatus .ok (sealNamed (windowsOf set) s)) :=
  calc
    exec (.sealWindows set) s =
        .next (onRequest .sealWindows [set] (fun s => answerStatus .ok (sealNamed (windowsOf set) s)) s) := rfl
    _ = .next (answerStatus .ok (sealNamed (windowsOf set) s)) := by rw [ends_run hends]

/-- The end of an event that took in no write keeps each record in use, with its mark and its entries. -/
theorem settle_record_of_quiet {w : Work} (hquiet : w.reported = false) {q : RecordIdx} {d : BatchRecord}
    (hd : w.st.records[q.val] = some d) :
    ∃ d', (settle w).records[q.val] = some d' ∧ d'.entries = d.entries ∧ d'.mark = d.mark := by
  rw [settle_quiet w hquiet]
  split
  · rcases evaluate_record w.st q d hd with h | ⟨⟨ground, h⟩, -⟩
    · exact ⟨d, h, rfl, rfl⟩
    · exact ⟨startedBatch d ground, h, rfl, rfl⟩
  · exact ⟨d, hd, rfl, rfl⟩

theorem not_standsIn_of_window_ne {s : State} (hstand : BatchesStand s) {V W : WindowIdx} {q : RecordIdx}
    {d : BatchRecord} (hd : s.records[q] = some d) (hV : d.window = V) (hne : W ≠ V) : ¬s.standsIn W q := fun h =>
  hne ((standsIn_window hstand hd h).symm.trans hV)

theorem BatchesStand.open_not_sealed {s : State} (hstand : BatchesStand s) {W : WindowIdx} {r : RecordIdx}
    (hopen : s.windows[W].openBatch = some r) : r ∉ s.windows[W].sealedQueue := fun hr => by
  obtain ⟨c, hc, hopened, -⟩ := hstand.1 W r hopen
  obtain ⟨e, he, hsealed, -⟩ := hstand.2.1 W r hr
  rw [Option.some.inj (hc.symm.trans he), hsealed] at hopened
  exact BatchState.noConfusion hopened

theorem sealAll_marks_oversize {s : State} (hstand : BatchesStand s) {Ws : List WindowIdx} (hnodup : Ws.Nodup)
    {q : RecordIdx} {d : BatchRecord} (hd : s.records[q] = some d) (hin : d.window ∈ Ws)
    (hlarge : OpenBatchTooLarge s d.window) (hq : s.standsIn d.window q) :
    ∃ d', (sealAll Ws (Work.start s)).st.records[q.val] = some d' ∧ d'.entries = d.entries ∧
      d'.mark = (d.mark <|> some .oversize) := by
  obtain ⟨r, b, hopen, hb, hbig⟩ := hlarge
  obtain ⟨c, hc, -, hwindow⟩ := hstand.1 d.window r hopen
  obtain ⟨d', hd', hentries, hmark⟩ :=
    sealAll_standing Ws d.window (Work.start s) r q b d hnodup hin hopen hb (hstand.open_not_sealed hopen) hd hq fun W _ hne =>
      ⟨not_standsIn_of_window_ne hstand hc hwindow hne, not_standsIn_of_window_ne hstand hd rfl hne⟩
  exact ⟨d', hd', hentries, hmark.trans (if_pos ((oversize_iff s b).mpr hbig))⟩

theorem sealAll_keeps_mark {s : State} (hstand : BatchesStand s) {Ws : List WindowIdx} (hnodup : Ws.Nodup)
    {q : RecordIdx} {d : BatchRecord} (hd : s.records[q] = some d)
    (hspared : d.window ∉ Ws ∨ ¬OpenBatchTooLarge s d.window ∨ ¬s.standsIn d.window q) :
    ∃ d', (sealAll Ws (Work.start s)).st.records[q.val] = some d' ∧ d'.entries = d.entries ∧ d'.mark = d.mark := by
  by_cases hin : d.window ∈ Ws ∧ s.standsIn d.window q
  · obtain ⟨hnamed, hq⟩ := hin
    have hfits : ¬OpenBatchTooLarge s d.window := by
      rcases hspared with h | h | h
      · exact absurd hnamed h
      · exact h
      · exact absurd hq h
    rcases hopen : s.windows[d.window].openBatch with _ | r
    · refine ⟨d, ?_, rfl, rfl⟩
      rw [sealAll_unsealed Ws d.window (Work.start s) q hnodup hopen fun W _ hne =>
        not_standsIn_of_window_ne hstand hd rfl hne]
      exact hd
    · obtain ⟨b, hb, hopened, hwindow⟩ := hstand.1 d.window r hopen
      have hsmall : ¬s.oversize b = true := fun h => hfits ⟨r, b, hopen, hb, (oversize_iff s b).mp h⟩
      obtain ⟨d', hd', hentries, hmark⟩ :=
        sealAll_standing Ws d.window (Work.start s) r q b d hnodup hnamed hopen hb (hstand.open_not_sealed hopen) hd hq
          fun W _ hne =>
            ⟨not_standsIn_of_window_ne hstand hb hwindow hne, not_standsIn_of_window_ne hstand hd rfl hne⟩
      exact ⟨d', hd', hentries, hmark.trans (if_neg hsmall)⟩
  · refine ⟨d, ?_, rfl, rfl⟩
    rw [sealAll_untouched Ws (Work.start s) q hnodup]
    · exact hd
    · intro W hW hq
      have hwindow := standsIn_window hstand hd hq
      exact hin ⟨hwindow ▸ hW, hwindow ▸ hq⟩

/-- R16: SEAL marks exactly the batches of a window whose open batch is too large. -/
theorem sealWindows_marks {s : State} {set : BitVec 8} (hstand : BatchesStand s) (hends : Ends s .sealWindows [set])
    {q : RecordIdx} {d : BatchRecord} (hd : s.records[q] = some d) :
    ∃ t d', exec (.sealWindows set) s = .next t ∧ t.records[q] = some d' ∧ d'.entries = d.entries ∧
      (set.getLsbD d.window.val = true ∧ OpenBatchTooLarge s d.window ∧
          (s.windows[d.window].openBatch = some q ∨ q ∈ s.windows[d.window].sealedQueue) →
        d'.mark = (d.mark <|> some .oversize)) ∧
      (set.getLsbD d.window.val = false ∨ ¬OpenBatchTooLarge s d.window ∨
          s.windows[d.window].openBatch ≠ some q ∧ q ∉ s.windows[d.window].sealedQueue →
        d'.mark = d.mark) := by
  have hended (c : BatchRecord) (hc : (sealAll (windowsOf set) (Work.start s)).st.records[q.val] = some c) :
      ∃ d', (answerStatus .ok (sealNamed (windowsOf set) s)).records[q] = some d' ∧ d'.entries = c.entries ∧
        d'.mark = c.mark := by
    rw [answerStatus_records]
    exact settle_record_of_quiet (sealAll_reported _ _) hc
  rw [exec_sealWindows_of_ends hends]
  by_cases hmarked : set.getLsbD d.window.val = true ∧ OpenBatchTooLarge s d.window ∧ s.standsIn d.window q
  · obtain ⟨hnamed, hlarge, hq⟩ := hmarked
    obtain ⟨c, hc, hcentries, hcmark⟩ := sealAll_marks_oversize hstand (windowsOf_nodup set) hd
      ((mem_windowsOf set d.window).mpr hnamed) hlarge hq
    obtain ⟨d', hd', hentries, hmark⟩ := hended c hc
    refine ⟨_, d', rfl, hd', hentries.trans hcentries, fun _ => hmark.trans hcmark, fun hspared => ?_⟩
    rcases hspared with h | h | ⟨hopen, hsealed⟩
    · exact absurd (hnamed.symm.trans h) Bool.noConfusion
    · exact absurd hlarge h
    · exact absurd hq (not_or.mpr ⟨hopen, hsealed⟩)
  · have hspared : d.window ∉ windowsOf set ∨ ¬OpenBatchTooLarge s d.window ∨ ¬s.standsIn d.window q := by
      rw [mem_windowsOf, ← not_and_or, ← not_and_or]
      exact hmarked
    obtain ⟨c, hc, hcentries, hcmark⟩ := sealAll_keeps_mark hstand (windowsOf_nodup set) hd hspared
    obtain ⟨d', hd', hentries, hmark⟩ := hended c hc
    exact ⟨_, d', rfl, hd', hentries.trans hcentries, fun h => absurd h hmarked, fun _ => hmark.trans hcmark⟩

/-! ## What the oversize check leaves room for (R66) -/

/-- A CHASE batch that is not too large clears the scan on the line after its last row. -/
theorem clearsTheScan_after_last_row {la lb n T K line : Nat} (hrows : la ≤ lb) (hlast : lb < T) (hn : 0 < n)
    (hfits : n ≤ K * (T - (lb - la + 1))) (hline : line = if lb = T - 1 then 0 else lb + 1) :
    ClearsTheScan la lb n T K line := by
  unfold ClearsTheScan
  split at hline
  · next hend =>
    have hgap : T - (lb - la + 1) = la - line := by omega
    have hla : line < la := by
      by_contra hnone
      rw [hgap, Nat.sub_eq_zero_of_le (not_lt.mp hnone), Nat.mul_zero] at hfits
      omega
    exact .inl ⟨hla, hgap ▸ hfits⟩
  · have hgap : T - (lb - la + 1) = T - line + la := by omega
    exact .inr ⟨by omega, hgap ▸ hfits⟩

/-- A FRAME batch that is not too large clears the scan on the first line of blanking. -/
theorem clearsTheScan_at_blanking {la lb n T K F A line : Nat} (hF : F ≤ la) (hlast : lb < F + A) (hT : F + A ≤ T)
    (hblank : 0 < F ∨ A < T) (hfits : n ≤ K * (la + (T - F - A))) (hline : line = if F + A = T then 0 else F + A) :
    ClearsTheScan la lb n T K line ∧ (line < F ∨ F + A ≤ line) := by
  unfold ClearsTheScan
  split at hline
  · next hend =>
    have hgap : la + (T - F - A) = la - line := by omega
    exact ⟨.inl ⟨by omega, hgap ▸ hfits⟩, by omega⟩
  · have hgap : la + (T - F - A) = T - line + la := by omega
    exact ⟨.inr ⟨by omega, hgap ▸ hfits⟩, by omega⟩

/-- Settles O36: SEAL marks what is too large, and what is not too large has its line in every frame. -/
theorem notOversizeIsEligibleOnceAFrame : Obligations.NotOversizeIsEligibleOnceAFrame := by
  refine ⟨fun s set q d hstand hends hd => sealWindows_marks hstand hends hd, ?_⟩
  intro s r b T line hb hrows hT hlast hactive hfits hlocked hline
  have htotal : s.timing.lines.getD 0 = T := by rw [hT, Option.getD_some]
  have hroom : (s.live[b.window].policy = .chase →
        b.entries.length ≤ s.timing.rate * (T - (s.timing.firstLine + b.lastRow - (s.timing.firstLine + b.firstRow) + 1))) ∧
      (s.live[b.window].policy = .frame → (0 < s.timing.firstLine ∨ s.timing.active < T) ∧
        b.entries.length ≤ s.timing.rate * (s.timing.firstLine + b.firstRow + (T - s.timing.firstLine - s.timing.active))) := by
    simp only [TooLarge, htotal, not_or, not_and, gt_iff_lt, not_lt] at hfits
    obtain ⟨hchase, hframe, hblank⟩ := hfits
    refine ⟨hchase, fun h => ?_⟩
    have hsome : 0 < s.timing.firstLine ∨ s.timing.active < T := by have := hblank h; omega
    exact ⟨hsome, hframe h hsome⟩
  have hiff := eligibilityFollowsTheScan s r b T hb hrows hT
  refine ⟨fun hchase hat hentries => hiff.mpr (.inr (.inr ⟨hlocked, line, hline, ?_, .inl hchase⟩)),
    fun hframe hat => hiff.mpr (.inr (.inr ⟨hlocked, line, hline, ?_⟩))⟩
  · exact clearsTheScan_after_last_row (by omega) (by omega) (List.length_pos_of_ne_nil hentries) (hroom.1 hchase) hat
  · obtain ⟨hblank, hn⟩ := hroom.2 hframe
    obtain ⟨hclears, hin⟩ :=
      clearsTheScan_at_blanking (lb := s.timing.firstLine + b.lastRow) (by omega) (by omega) hactive hblank hn hat
    exact ⟨hclears, .inr ⟨hframe, hin⟩⟩

end Sys2Proof.Machine
end

section
/-! PROOFS. What a line event starts (O37), and RSTn (O38). -/

namespace Sys2Proof.Machine

/-! ## The start of a batch (R70) -/

theorem evaluate_of_choice {s : State} {r : RecordIdx} (hidle : s.engine.phase = .idle) (hchoice : s.choice = some r) :
    evaluate s = startBatch r s := by
  unfold evaluate
  rw [hidle, hchoice]
  rfl

theorem startBatch_frameByte {s : State} {r : RecordIdx} {b : BatchRecord} (hb : s.records[r] = some b) :
    (startBatch r s).engine.frameByte = none := by
  rw [startBatch_some r s b hb, requestEntry_engine_frameByte, reportForced_engine]
  rfl

theorem groundOf_eq (s : State) (b : BatchRecord) :
    s.groundOf b = if b.mark ≠ none then .forced else if s.tracker.state = .lost then .free else .scheduled := by
  unfold State.groundOf
  cases b.mark <;> simp

/-- The start of a release: the record, the queue, the engine and the claim of the first entry. -/
theorem startBatch_started {s : State} {r : RecordIdx} {b : BatchRecord} (hb : s.records[r] = some b) :
    Started s (startBatch r s) r b (s.groundOf b) := by
  refine ⟨?record, ?queue, startBatch_phase r s b hb, startBatch_releasing r s b hb, startBatch_frameByte hb,
    fun e rest hentries => ?entry⟩
  case record => exact (congrArg (·[r.val]) (startBatch_records r s b hb)).trans ((records_set_get ..).trans (if_pos rfl))
  case queue =>
    have hwindow : (startBatch r s).windows[b.window.val] = startedWindow s.windows[b.window] r :=
      (congrArg (·[b.window.val]) (startBatch_windows r s b hb)).trans ((windows_set_get ..).trans (if_pos rfl))
    exact congrArg WindowState.sealedQueue hwindow
  case entry =>
    have hport : (reportForced b (takeBatch r b s)).port = s.port := reportForced_port b _
    rw [startBatch_some r s b hb, hentries, ← hport]
    exact requestEntry_start _ e rest

theorem startBatch_forced_handed {s : State} {r : RecordIdx} {b : BatchRecord} (hb : s.records[r] = some b)
    (hmark : b.mark ≠ none) : Handed (s.forcedIncident b) s (startBatch r s) := by
  have hforced : reportForced b (takeBatch r b s) = handIncident (s.forcedIncident b) (takeBatch r b s) :=
    if_pos (Option.isSome_iff_ne_none.mpr hmark)
  have hhanded : Handed (s.forcedIncident b) s (handIncident (s.forcedIncident b) (takeBatch r b s)) :=
    handIncident_handed (s.forcedIncident b) (takeBatch r b s)
  rw [startBatch_some r s b hb, hforced]
  refine hhanded.mono ?_
  rw [requestEntry_incidents]
  exact Grows.refl _

/-! ## A line event that seals nothing and finds the engine IDLE (R15, R68, R76) -/

theorem lateCheck_of_idle {s : State} (hidle : s.engine.phase = .idle) : lateCheck s = s := by
  unfold lateCheck
  rw [hidle]
  exact if_neg (by simp)

/-- What a line event does with no batch to seal and none to find late. -/
def countedLine (s : State) : Work :=
  (Work.start s).tell.map countIdle

theorem lineEvent_of_no_seal {s : State} (hidle : s.engine.phase = .idle)
    (hnone : ∀ W ∈ s.idleSeals, s.windows[W].openBatch = none) : lineEvent s = countedLine s := by
  unfold lineEvent idleEvent
  rw [lateCheck_of_idle hidle]
  refine sealAll_none _ _ fun W hW => ?_
  exact (countIdle_openBatch s W).1.trans (hnone W hW)

/-- Nothing has changed that a choice among the batches depends on, but for the tracker and the live windows. -/
structure SameBatches (s v : State) : Prop where
  records : v.records = s.records
  timing : v.timing = s.timing
  engine : v.engine = s.engine
  port : v.port = s.port
  queue : ∀ W : WindowIdx, v.windows[W.val].sealedQueue = s.windows[W.val].sealedQueue

section

variable {s v : State} (h : SameBatches s v)

include h

theorem SameBatches.candidates : v.candidates = s.candidates := by
  unfold State.candidates
  exact congrArg (List.filterMap · _) (funext fun W => congrArg List.head? (h.queue W))

theorem SameBatches.unmarked (q : RecordIdx) : v.unmarked q = s.unmarked q := by
  unfold State.unmarked
  rw [h.records]

theorem SameBatches.ordinalOf (q : RecordIdx) : v.ordinalOf q = s.ordinalOf q := by
  unfold State.ordinalOf
  rw [h.records]

theorem SameBatches.eligible (q : RecordIdx) :
    v.eligible q = ({ s with tracker := v.tracker, live := v.live } : State).eligible q := by
  have hv : v.eligible q = ({ v with records := s.records, timing := s.timing } : State).eligible q := by
    rw [← h.records, ← h.timing]
  exact hv

theorem SameBatches.started {t : State} {r : RecordIdx} {b : BatchRecord} {ground : Ground}
    (hstarted : Started v t r b ground) : Started s t r b ground := by
  obtain ⟨hrecord, hqueue, hphase, hreleasing, hbyte, hentry⟩ := hstarted
  have hleft : v.windows[b.window].sealedQueue = s.windows[b.window].sealedQueue := h.queue b.window
  rw [hleft] at hqueue
  rw [h.port] at hentry
  exact ⟨hrecord, hqueue, hphase, hreleasing, hbyte, hentry⟩

end

theorem applyIfEmpty_queue (w : Work) : (applyIfEmpty w).st.incidents.queue = w.st.incidents.queue := by
  unfold applyIfEmpty
  split <;> rfl

theorem applyIfEmpty_told (w : Work) : (applyIfEmpty w).told = w.told := by
  unfold applyIfEmpty
  split <;> rfl

theorem Tracked.queue {s u : State} (h : Tracked s u) : u.incidents.queue.length ≤ s.incidents.queue.length + 1 := by
  rcases h with rfl | rfl
  · exact trackLine_queue s
  · exact trackFrame_queue s

theorem Tracked.idleSeals {s u : State} (h : Tracked s u) : u.idleSeals = s.idleSeals := by
  unfold State.idleSeals
  rw [h.live, h.windows]

/-- What follows the tracker, when there is no batch to seal and none to find late, is told to the engine. -/
theorem FollowsTracker.sameBatches {s u : State} {w : Work} (hu : Tracked s u) (hw : FollowsTracker u w)
    (hidle : s.engine.phase = .idle) (hnone : ∀ W ∈ s.idleSeals, s.windows[W].openBatch = none) :
    SameBatches s w.st ∧ w.told = true ∧ w.st.incidents.queue = u.incidents.queue := by
  have hline : lineEvent u = countedLine u :=
    lineEvent_of_no_seal (by rw [hu.engine, hidle]) (by rw [hu.idleSeals, hu.windows]; exact hnone)
  have hqueue (W : WindowIdx) : (countedLine u).st.windows[W.val].sealedQueue = s.windows[W.val].sealedQueue := by
    show (countIdle u).windows[W.val].sealedQueue = _
    rw [← hu.windows, countIdle_windows, ofFn_get]
    rfl
  refine ⟨⟨?records, ?timing, hw.engine.trans hu.engine, hw.port.trans hu.port, fun W => ?queue⟩, ?told, ?incidents⟩
  case records => rw [hw.records, hline]; exact hu.records
  case queue => rw [hw.proj WindowState.sealedQueue fun _ => rfl, hline, hqueue]
  all_goals rcases hw with rfl | rfl
  case timing.inl => rw [hline]; exact hu.timing
  case timing.inr => rw [applyIfEmpty_timing, hline]; exact hu.timing
  case told.inl => rw [hline]; rfl
  case told.inr => rw [applyIfEmpty_told, hline]; rfl
  case incidents.inl => rw [hline]; rfl
  case incidents.inr => rw [applyIfEmpty_queue, hline]; rfl

theorem settle_of_told {w : Work} (htold : w.told = true) (h : w.st.upstream.phase ≠ .wait ∨ w.reported = false) :
    settle w = evaluate w.st := by
  rcases h with h | h
  · rw [settle_noWait w h, if_pos htold]
  · rw [settle_quiet w h, if_pos htold]

/-- A line event that seals nothing and finds the engine IDLE evaluates the batches as they stood. -/
theorem exec_lineEvent_evaluates {s : State} {c : Instr} (hreset : s.resetAsserted = false)
    (hidle : s.engine.phase = .idle)
    (hc : c = .lineStart ∨ c = .frameStart ∧ (s.upstream.phase ≠ .wait ∨ s.applyPending = false))
    (hnone : ∀ W ∈ s.idleSeals, s.windows[W].openBatch = none) :
    ∃ v, exec c s = .next (evaluate v) ∧ SameBatches s v ∧
      v.incidents.queue.length ≤ s.incidents.queue.length + 1 := by
  obtain ⟨u, w, hu, hw, hexec, hquiet⟩ := exec_lineEvent_quiet hreset hc
  obtain ⟨hsame, htold, hqueue⟩ := hw.sameBatches hu hidle hnone
  exact ⟨w.st, hexec.trans (congrArg Host.Outcome.next (settle_of_told htold hquiet)), hsame, hqueue ▸ hu.queue⟩

/-- The FORCED incident of a batch with a mark finds a place in the queue. -/
theorem forced_queued {s : State} {r : RecordIdx} {b : BatchRecord} (hb : s.records[r] = some b) {reason : ForceReason}
    (hmark : b.mark = some reason) :
    (startBatch r s).flagSet .incident = true ∧
      (s.incidents.queue.length < 8 →
        ⟨.forced, some b.window, b.seq, if s.tracker.state = .lost then none else s.tracker.line, s.tracker.frameCounter,
          some (.force reason)⟩ ∈ (startBatch r s).incidents.queue) := by
  obtain ⟨hflag, hjoins, -⟩ := startBatch_forced_handed hb (by rw [hmark]; exact Option.some_ne_none reason)
  refine ⟨hflag, fun hroom => (hjoins hroom).subset (List.mem_append_right _ (List.mem_singleton.mpr ?_))⟩
  rw [State.forcedIncident, reportedLine_eq, hmark]
  rfl

/-- Settles O37: the event counts and tracks, and then makes one evaluation of the batches it found. -/
theorem lineEventStartsTheOldestEligibleHead : Obligations.LineEventStartsTheOldestEligibleHead := by
  intro s c hreset hidle hc hseals
  have hnone : ∀ W ∈ s.idleSeals, s.windows[W].openBatch = none := fun W hW => by
    obtain ⟨hset, -, hreached⟩ := (mem_idleSeals s W).mp hW
    exact (hseals W).resolve_right (not_or.mpr ⟨hset, not_not.mpr hreached⟩)
  obtain ⟨v, hexec, hsame, hqueue⟩ := exec_lineEvent_evaluates hreset hidle hc hnone
  have hidle' : v.engine.phase = .idle := by rw [hsame.engine, hidle]
  refine ⟨evaluate v, _, hexec, rfl, ?_⟩
  rw [evaluate_tracker, evaluate_live]
  simp only [← hsame.eligible, ← hsame.candidates, ← hsame.unmarked, ← hsame.ordinalOf]
  refine ⟨fun hineligible => ?nothing, fun r b hr hb heligible hmarked holdest => ?starts⟩
  case nothing =>
    have hchoice : v.choice = none := by
      by_contra hsome
      obtain ⟨r, hr⟩ := Option.ne_none_iff_exists'.mp hsome
      obtain ⟨hmem, heligible⟩ := choice_mem v r hr
      exact absurd ((hineligible r hmem).symm.trans heligible) Bool.noConfusion
    rw [evaluate_none v hchoice]
    exact ⟨hsame.engine, hsame.records, hsame.port⟩
  case starts =>
    have hb' : v.records[r] = some b := by rw [hsame.records]; exact hb
    rw [evaluate_of_choice hidle' (choice_eq v r b hb' hr heligible hmarked holdest)]
    refine ⟨?started, fun reason hmark => ?incident⟩
    case started =>
      rw [← groundOf_eq]
      exact hsame.started (startBatch_started hb')
    case incident =>
      obtain ⟨hflag, hjoins⟩ := forced_queued hb' hmark
      exact ⟨hflag, fun hroom => hjoins (by omega)⟩

/-! ## RSTn (R125, R145) -/

theorem exec_resetLine (s : State) : exec .resetLine s = .next (assertReset (cutTransaction s)) := rfl

theorem exec_resetLineEnd (s : State) : exec .resetLineEnd s = .next (if s.resetAsserted then endReset s else s) := rfl

/-- Settles O38: the assertion cuts the transaction in flight and sets everything else to its reset value; the end frees
the port. -/
theorem resetLineClearsThePart : Obligations.ResetLineClearsThePart := by
  refine fun s => ⟨⟨_, exec_resetLine s, ?cleared, cutTransaction_sameOrWritten s⟩, fun hreset => ?ends, fun hreset => ?idle⟩
  case cleared =>
    unfold assertReset
    rw [cutTransaction_port, cutTransaction_pending]
    rfl
  case ends => rw [exec_resetLineEnd, hreset]; rfl
  case idle => rw [exec_resetLineEnd, hreset]; rfl

end Sys2Proof.Machine
end

section
/-! PROOFS. The service link: bits in and out (O39), frames that are no command (O40), and the reports (O41). -/

namespace Sys2Proof.Machine

/-! ## Clocking (R158) -/

theorem exec_frameBegin_of_idle {s : State} (hawake : s.resetAsserted = false) (hidle : s.link.inProgress = false) :
    exec .frameBegin s = .next { s with link := s.link.start } :=
  congrArg Host.Outcome.next (if_neg (by simp [hawake, hidle]))

theorem exec_rise {s : State} (hbusy : s.link.inProgress = true) (b : Bool) :
    exec (.sckRisingEdge b) s = .next { s with link := s.link.takeBit b } :=
  congrArg Host.Outcome.next (if_pos hbusy)

theorem exec_rise_of_idle {s : State} (hidle : s.link.inProgress = false) (b : Bool) :
    exec (.sckRisingEdge b) s = .next s :=
  congrArg Host.Outcome.next (if_neg (by simp [hidle]))

theorem exec_fall {s : State} (hbusy : s.link.inProgress = true) :
    exec .sckFallingEdge s = .next { s with link := s.link.shiftOut } :=
  congrArg Host.Outcome.next (if_pos hbusy)

theorem exec_fall_of_idle {s : State} (hidle : s.link.inProgress = false) : exec .sckFallingEdge s = .next s :=
  congrArg Host.Outcome.next (if_neg (by simp [hidle]))

theorem shifted_in_eq (c : Byte) (b : Bool) :
    (c <<< 1 ||| (BitVec.ofBool b).setWidth 8) = (c.extractLsb' 0 7 ++ BitVec.ofBool b : Byte) := by
  refine BitVec.eq_of_getLsbD_eq fun i hi => ?_
  refine Eq.trans ?_ (BitVec.getLsbD_append (x := c.extractLsb' 0 7) (y := BitVec.ofBool b)).symm
  rcases i with _ | i
  · simp
  · simp only [BitVec.getLsbD_eq_getElem hi, BitVec.getElem_or, BitVec.getElem_shiftLeft]
    simp [Nat.lt_of_succ_lt_succ hi, BitVec.getLsbD_eq_getElem (Nat.lt_of_succ_lt hi)]

theorem takeBit_of_few (l : Link) (h : l.bits < 7) (b : Bool) :
    l.takeBit b = { l with bits := l.bits + 1, current := l.current.extractLsb' 0 7 ++ BitVec.ofBool b } := by
  rw [← shifted_in_eq]
  exact if_neg (by simp; omega)

theorem shiftOut_of_few (l : Link) (h : l.outBits < 7) : l.shiftOut = { l with outBits := l.outBits + 1 } :=
  if_neg (by simp; omega)

/-- The byte count stops at 68 and the bytes stored at 67. -/
theorem takeByte_eq (l : Link) (hbits : l.bits = 0) (hstored : l.stored.length = min l.byteCount 67) (b : Byte) :
    l.takeByte b =
      { l with
        current := 0
        byteCount := if l.byteCount < 68 then l.byteCount + 1 else l.byteCount
        stored := (l.stored ++ [b]).take 67 } := by
  have hkept : (if l.byteCount < 67 then l.stored ++ [b] else l.stored) = (l.stored ++ [b]).take 67 := by
    split
    · next hroom => rw [List.take_of_length_le]; simp; omega
    · next hfull => rw [List.take_append_of_le_length (by omega), List.take_of_length_le (by omega)]
  unfold Link.takeByte Config.storedBytes
  rw [hkept, hbits]
  simp only [Nat.lt_succ_iff]

theorem sdo_of_busy {s : State} (hbusy : s.link.inProgress = true) :
    s.sdo = some (s.link.outByte.getLsbD (7 - s.link.outBits)) :=
  if_pos hbusy

theorem sdo_of_idle {s : State} (hidle : s.link.inProgress = false) : s.sdo = none :=
  if_neg (by simp [hidle])

/-- Settles O39: each edge of SCK is one bit, eight of them a byte, and none is taken while no frame is in progress. -/
theorem linkClocksBytesInAndOut : Obligations.LinkClocksBytesInAndOut := by
  intro s
  refine ⟨fun hawake hidle => exec_frameBegin_of_idle hawake hidle, fun hbusy hfew b => ?bitIn, fun hbusy hfew => ?bitOut,
    fun hidle => ⟨sdo_of_idle hidle, exec_fall_of_idle hidle, exec_rise_of_idle hidle⟩,
    fun hbusy hbits hstored b => ?byteIn, fun hbusy hposition hout p j hj => ?bytesOut⟩
  case bitIn => rw [exec_rise hbusy, takeBit_of_few s.link hfew]
  case bitOut => rw [exec_fall hbusy, shiftOut_of_few s.link hfew]
  case byteIn => rw [execAll_bits (bitsOf b) s hbusy, takeBits b s.link hbits, takeByte_eq s.link hbits hstored]
  case bytesOut =>
    exact ⟨_, execAll_falls (8 * p + j) s hbusy, by rw [shiftOut_iter p j hj s.link hposition hout], by
      rw [shiftOut_iter p j hj s.link hposition hout]; exact sdo_of_busy hbusy⟩

/-! ## Frames that are no command (R162 to R164) -/

theorem exec_malformedFrame_of_ends {s : State} {bytes : List Byte} {extra : Nat} {c : StatusCode}
    (hends : s.frameCanBe bytes extra = true) (hstatus : malformedStatus (judgeFrame bytes extra) = some c) :
    exec (.malformedFrame bytes extra) s = .next (s.answered c []) := by
  show execMalformedFrame bytes extra s = _
  unfold execMalformedFrame
  rw [hstatus]
  exact congrArg Host.Outcome.next (if_pos hends)

theorem keepResponse_eq (s : State) : keepResponse s = s.answered s.link.response.status s.link.response.payload := rfl

theorem judgeFrame_readBack {b : Byte} (hb : b = 0x00 ∨ b = 0xFF) (rest : List Byte) (extra : Nat) :
    judgeFrame (b :: rest) extra = .readBack := by
  have hcount : (countOf (b :: rest) == 0 && extra == 0) = false := by
    rw [Bool.and_eq_false_iff]
    exact .inl (by simp [countOf])
  have hfirst : ((storedOf (b :: rest))[0]? == some 0x00 || (storedOf (b :: rest))[0]? == some 0xFF) = true := by
    have hhead : (storedOf (b :: rest))[0]? = some b := rfl
    rw [hhead]
    rcases hb with rfl | rfl <;> rfl
  unfold judgeFrame judge
  rw [hcount, hfirst]
  rfl

section

variable {bytes : List Byte} {extra : Nat} (hsome : bytes ≠ [] ∨ extra ≠ 0) (h0 : bytes.head? ≠ some 0x00)
  (hFF : bytes.head? ≠ some 0xFF)

include hsome h0 hFF

theorem judgeFrame_length
    (h : ¬(extra = 0 ∧ (bytes.getD 1 0).toNat ≤ 64 ∧ bytes.length = (bytes.getD 1 0).toNat + 3)) :
    judgeFrame bytes extra = .length :=
  (judge_cases bytes extra hsome h0 hFF).trans (if_neg h)

variable (hsized : extra = 0 ∧ (bytes.getD 1 0).toNat ≤ 64 ∧ bytes.length = (bytes.getD 1 0).toNat + 3)

include hsized

theorem judgeFrame_check
    (h : bytes.getD ((bytes.getD 1 0).toNat + 2) 0 ≠ checkByte (bytes.take ((bytes.getD 1 0).toNat + 2))) :
    judgeFrame bytes extra = .check :=
  (judge_cases bytes extra hsome h0 hFF).trans ((if_pos hsized).trans (if_pos h))

variable (hcheck : bytes.getD ((bytes.getD 1 0).toNat + 2) 0 = checkByte (bytes.take ((bytes.getD 1 0).toNat + 2)))

include hcheck

theorem judgeFrame_unknown (h : commandOf (bytes.getD 0 0) = none) : judgeFrame bytes extra = .unknown := by
  refine (judge_cases bytes extra hsome h0 hFF).trans ((if_pos hsized).trans ((if_neg (not_not.mpr hcheck)).trans ?_))
  rw [h]

theorem judgeFrame_payloadLength {c : Command} (h : commandOf (bytes.getD 0 0) = some c)
    (hlength : (bytes.getD 1 0).toNat ≠ payloadLength c) : judgeFrame bytes extra = .payloadLength := by
  refine (judge_cases bytes extra hsome h0 hFF).trans ((if_pos hsized).trans ((if_neg (not_not.mpr hcheck)).trans ?_))
  rw [h]
  exact if_neg hlength

end

/-- Settles O40: a frame with no bit, a frame that reads back, and each way in which a frame can be malformed. -/
theorem framesThatAreNoCommand : Obligations.FramesThatAreNoCommand := by
  refine ⟨fun s hends => ?noBit, fun s b rest extra hb hends => ?readBack, ?malformed, crc_zero⟩
  case noBit => exact (congrArg Host.Outcome.next (if_pos hends)).trans (by rw [keepResponse_eq])
  case readBack =>
    have htaken : (s.frameCanBe (b :: rest) extra && judgeFrame (b :: rest) extra == .readBack) = true := by
      rw [hends, judgeFrame_readBack hb]
      rfl
    exact (congrArg Host.Outcome.next (if_pos htaken)).trans (by rw [keepResponse_eq])
  case malformed =>
    intro s bytes extra hends hsome h0 hFF
    refine ⟨fun hsized => ?_, fun hsized hcheck => ?_, fun hsized hcheck => ⟨fun hnone => ?_, fun c hc hlength => ?_⟩⟩
    all_goals refine exec_malformedFrame_of_ends hends ?_
    · rw [judgeFrame_length hsome h0 hFF hsized]; rfl
    · rw [judgeFrame_check hsome h0 hFF hsized hcheck]; rfl
    · rw [judgeFrame_unknown hsome h0 hFF hsized hcheck ((commandOf_none _).mpr hnone)]; rfl
    · rw [judgeFrame_payloadLength hsome h0 hFF hsized hcheck (hc ▸ commandOf_commandByte c) hlength]; rfl

/-! ## Reports (R38, R44, R49, R166, R167) -/

/-- A request that only reports is answered with what the part holds. -/
theorem report_of_ends {s : State} {c : Command} {payload : List Byte} (hends : Ends s c payload) (run : State → State)
    (hlength : payload.length = payloadLength c := by rfl) :
    Host.Outcome.next (onRequest c payload run s) = (.next (run s) : Result) :=
  congrArg Host.Outcome.next (ends_run hends run hlength)

theorem statusLine_eq (k : Tracker) :
    k.statusLine = if k.state = .lost then 0xFFFF else BitVec.ofNat 16 (k.line.getD 0) := by
  unfold Tracker.statusLine
  cases k.state <;> rfl

theorem boolByte_isSome {α : Type} (x : Option α) : boolByte x.isSome = if x = none then 0 else 1 := by
  cases x <;> rfl

theorem stallByte_of_wait {u : UpstreamPort} (hwait : u.phase = .wait) :
    u.stallByte = byteOf ((u.cause.map causeCode).getD 0) :=
  if_pos (by simp [hwait])

theorem stallByte_of_not_wait {u : UpstreamPort} (hwait : u.phase ≠ .wait) : u.stallByte = 0 :=
  if_neg (by simp [hwait])

theorem exec_status_of_ends {s : State} (hends : Ends s .status []) :
    exec .status s = .next (s.answered .ok s.statusPayload) :=
  report_of_ends hends fun s => answer ⟨.ok, s.statusPayload⟩ s

theorem exec_getTiming_of_ends {s : State} (hends : Ends s .getTiming []) :
    exec .getTiming s = .next (s.answered .ok (timingResponse s.timing)) :=
  report_of_ends hends fun s => answer ⟨.ok, timingResponse s.timing⟩ s

theorem exec_getWindow_of_ends {s : State} {index table : BitVec 8} (hends : Ends s .getWindow [index, table]) :
    exec (.getWindow index table) s = .next (getWindow index table s) :=
  report_of_ends hends (getWindow index table)

theorem exec_windowStatus_of_ends {s : State} {index : BitVec 8} (hends : Ends s .windowStatus [index]) :
    exec (.windowStatus index) s = .next (windowStatus index s) :=
  report_of_ends hends (windowStatus index)

theorem windowOf_of_ge {index : BitVec 8} (h : 8 ≤ index.toNat) : windowOf index = none :=
  dif_neg (Nat.not_lt.mpr h)

theorem namedRecord_of_named {s : State} {index table : BitVec 8} {W : WindowIdx} {r : WindowRecord}
    (hindex : index.toNat = W.val) (htable : table = 0 ∧ s.live[W] = r ∨ table = 1 ∧ s.staged[W] = r) :
    s.namedRecord index table = some r := by
  unfold State.namedRecord
  rw [windowOf_val hindex]
  rcases htable with ⟨rfl, rfl⟩ | ⟨rfl, rfl⟩ <;> rfl

theorem namedRecord_of_none (s : State) {index table : BitVec 8} (h : 8 ≤ index.toNat ∨ 2 ≤ table.toNat) :
    s.namedRecord index table = none := by
  unfold State.namedRecord
  rcases h with h | h
  · rw [windowOf_of_ge h]
  · split
    · next hzero => omega
    · next hone => omega
    · rfl

theorem getWindow_of_some {s : State} {index table : BitVec 8} {r : WindowRecord} (h : s.namedRecord index table = some r) :
    getWindow index table s = s.answered .ok (recordResponse r) := by
  unfold getWindow
  rw [h]
  rfl

theorem getWindow_of_none {s : State} {index table : BitVec 8} (h : s.namedRecord index table = none) :
    getWindow index table s = s.answered .range [] := by
  unfold getWindow
  rw [h]
  rfl

theorem releasingOf_isSome (s : State) (W : WindowIdx) :
    (s.releasingOf W).isSome = s.engine.releasing.any fun r => s.records[r].any fun b => b.window == W := by
  unfold State.releasingOf
  cases s.engine.releasing with
  | none => rfl
  | some r => cases s.records[r].any fun b => b.window == W <;> simp

theorem windowPayload_eq (s : State) (W : WindowIdx) :
    s.windowPayload W =
      windowStatusBytes W (s.windows[W].openBatch.map fun r => (recordEntries s.records[r]).length) s.windows[W]
        (s.engine.releasing.any fun r => s.records[r].any fun b => b.window == W) := by
  have hopen : s.windows[W].openBatch.isSome = (s.openEntries W).isSome := (Option.isSome_map ..).symm
  unfold State.windowPayload windowStatusBytes
  dsimp only
  rw [releasingOf_isSome, hopen, boolByte_isSome]
  rfl

theorem windowStatus_of_some {s : State} {index : BitVec 8} {W : WindowIdx} (h : index.toNat = W.val) :
    windowStatus index s = s.answered .ok (s.windowPayload W) := by
  unfold windowStatus
  rw [windowOf_val h]
  rfl

theorem windowStatus_of_none {s : State} {index : BitVec 8} (h : 8 ≤ index.toNat) :
    windowStatus index s = s.answered .range [] := by
  unfold windowStatus
  rw [windowOf_of_ge h]
  rfl

/-- Settles O41: each report answers with the bytes of what the part holds, and changes nothing else. -/
theorem reportsAreSnapshots : Obligations.ReportsAreSnapshots := by
  intro s
  refine ⟨fun hends => ?ident, fun hends => ?status, fun hends => ?timing,
    fun index table hends => ⟨fun W r hindex htable => ?window, fun hrange => ?noWindow⟩,
    fun index hends => ⟨fun W hindex => ?dynamic, fun hrange => ?noDynamic⟩⟩
  case ident => exact report_of_ends hends (answer ⟨.ok, identityPayload⟩)
  case status =>
    rw [exec_status_of_ends hends, pad, pad, ← statusLine_eq]
    by_cases hwait : s.upstream.phase = .wait
    · rw [if_pos hwait, State.statusPayload, stallByte_of_wait hwait]
      rcases s.upstream.cause with _ | cause
      · rfl
      · cases cause <;> rfl
    · rw [if_neg hwait, State.statusPayload, stallByte_of_not_wait hwait]
      rfl
  case timing =>
    rw [exec_getTiming_of_ends hends, timingResponse, boolByte_isSome]
    rfl
  case window =>
    rw [exec_getWindow_of_ends hends, getWindow_of_some (namedRecord_of_named hindex htable), recordResponse,
      boolByte_isSome]
    rfl
  case noWindow => rw [exec_getWindow_of_ends hends, getWindow_of_none (namedRecord_of_none s hrange)]
  case dynamic => rw [exec_windowStatus_of_ends hends, windowStatus_of_some hindex, windowPayload_eq]
  case noDynamic => rw [exec_windowStatus_of_ends hends, windowStatus_of_none hrange]

end Sys2Proof.Machine
end

section
/-! PROOFS. The configuration: SET_TIMING (O44), STAGE_WINDOW (O45) and APPLY, taken at once in BYPASS (O46). -/

namespace Sys2Proof.Machine

/-! ## SET_TIMING (R47, R48) -/

theorem exec_setTiming_of_ends {s : State} {v : TimingFields} (hends : Ends s .setTiming (timingPayload v)) :
    exec (.setTiming v) s = .next (setTiming v s) :=
  report_of_ends hends (setTiming v)

theorem setTiming_refused {s : State} {v : TimingFields} (h : s.timingStatus v ≠ .ok) :
    setTiming v s = s.answered (s.timingStatus v) [] :=
  if_neg (by simp [h])

theorem setTiming_accepted {s : State} {v : TimingFields} (h : s.timingStatus v = .ok) :
    setTiming v s = (acceptTiming v s).answered .ok [] :=
  if_pos (by simp [h])

theorem timingStatus_of_mode {s : State} (v : TimingFields) (hmode : s.mode ≠ .bypass) : s.timingStatus v = .state :=
  if_pos (by simp [hmode])

theorem timingStatus_of_range {s : State} {v : TimingFields} (hmode : s.mode = .bypass)
    (hwrong : ¬TimingInRange v ∨ ¬FitsActive s.live v.active.toNat) : s.timingStatus v = .range := by
  rw [← timingInRange_iff, ← tableFits_iff] at hwrong
  unfold State.timingStatus
  rw [hmode]
  rcases hwrong with h | h <;> simp [h]

theorem timingStatus_ok {s : State} {v : TimingFields} (hmode : s.mode = .bypass) (hrange : TimingInRange v)
    (hfits : FitsActive s.live v.active.toNat) : s.timingStatus v = .ok := by
  unfold State.timingStatus
  rw [hmode, (timingInRange_iff v).mpr hrange, (tableFits_iff _ _).mpr hfits]
  rfl

/-- R48: the part whose tracker has entered LOST, with the LOST flag if it was not LOST before. -/
def State.scanStopped (s : State) : State :=
  { s with
    tracker := if s.tracker.state = .lost then s.tracker else ⟨.lost, none, false, s.tracker.frameCounter, none⟩
    incidents :=
      if s.tracker.state = .lost then s.incidents
      else { s.incidents with flags := s.incidents.flags ||| flagMask .lost } }

theorem loseTracker_of_not_pending {w : Work} (hpending : w.st.applyPending = false) :
    (loseTracker w).reported = w.reported ∧ (loseTracker w).st = w.st.scanStopped := by
  unfold loseTracker State.scanStopped
  by_cases hlost : w.st.tracker.state = .lost
  · simp [hlost]
  · rw [if_neg (by simpa using hlost), if_neg hlost, if_neg hlost]
    have hsame := applyIfLost_of_not_pending
      (w := (w.map fun s => handFlag .lost { s with tracker := s.tracker.lose }).tell) hpending
    rw [hsame]
    exact ⟨rfl, rfl⟩

theorem settle_of_no_batch {w : Work} (hquiet : w.reported = false) (hfree : ∀ r : RecordIdx, w.st.records[r.val] = none) :
    settle w = w.st := by
  rw [settle_quiet w hquiet, evaluate_empty w.st hfree, ite_self]

/-- In BYPASS no apply is pending and no record in use, so an accepted SET_TIMING does nothing more. -/
theorem acceptTiming_of_bypass {s : State} (v : TimingFields) (hmode : s.mode = .bypass) (hholds : BypassHoldsNothing s)
    (hclosing : ClosingOnlyWhilePending s) :
    acceptTiming v s = ({ s with timing := timingOf v } : State).scanStopped := by
  have hpending : s.applyPending = false := by
    by_contra h
    exact hclosing.1 (Bool.not_eq_false _ ▸ h) hmode
  have hfree : ∀ r : RecordIdx, s.records[r.val] = none := (BH_iff s).mp hholds hmode
  obtain ⟨hquiet, hstopped⟩ := loseTracker_of_not_pending (w := Work.start { s with timing := timingOf v }) hpending
  rw [acceptTiming, settle_of_no_batch hquiet (by rw [hstopped]; exact hfree), hstopped]
  rfl

/-- Settles O44: the mode, the ranges and the live table are looked at in this order. -/
theorem setTimingIsJudgedInOrder : Obligations.SetTimingIsJudgedInOrder := by
  intro s v hends
  rw [exec_setTiming_of_ends hends]
  refine ⟨fun hmode => ?mode, fun hmode => ⟨fun hwrong => ?range, fun hrange hfits hholds hclosing => ?accepted⟩⟩
  case mode =>
    have hstatus := timingStatus_of_mode v hmode
    rw [setTiming_refused (by rw [hstatus]; decide), hstatus]
  case range =>
    have hstatus := timingStatus_of_range hmode hwrong
    rw [setTiming_refused (by rw [hstatus]; decide), hstatus]
  case accepted =>
    rw [setTiming_accepted (timingStatus_ok hmode hrange hfits), acceptTiming_of_bypass v hmode hholds hclosing]
    rfl

/-! ## STAGE_WINDOW (R36, R37, R169) -/

theorem exec_stageWindow_of_ends {s : State} {index : BitVec 8} {f : RecordFields}
    (hends : Ends s .stageWindow (index :: recordPayload f)) :
    exec (.stageWindow index f) s = .next (stageWindow index f s) :=
  report_of_ends hends (stageWindow index f)

theorem policyOf_of_unknown {code : BitVec 8} (h : 4 ≤ code.toNat) : policyOf code = none := by
  unfold policyOf
  split
  · omega
  · omega
  · omega
  · omega
  · rfl

theorem policyOf_ne_off {code : BitVec 8} (h : code ≠ 0) : policyOf code ≠ some .off := by
  have hne : code.toNat ≠ 0 := fun hzero => h (BitVec.eq_of_toNat_eq hzero)
  unfold policyOf
  split
  · omega
  · simp
  · simp
  · simp
  · simp

theorem stagedRecord_of_unknown {f : RecordFields} (h : 4 ≤ f.policy.toNat) : stagedRecord f = none := by
  unfold stagedRecord
  rw [policyOf_of_unknown h]

theorem stagedRecord_off {f : RecordFields} (h : f.policy = 0) : stagedRecord f = some offRecord := by
  unfold stagedRecord
  rw [h]
  rfl

/-- A record of a policy other than OFF is staged as it is given, when its fields are in range. -/
theorem stagedRecord_of_policy {f : RecordFields} {p : Policy} (hp : policyOf f.policy = some p) (hoff : p ≠ .off) :
    stagedRecord f = if recordInRange f then some (recordOf p f) else none := by
  unfold stagedRecord
  rw [hp]
  cases p with
  | off => exact absurd rfl hoff
  | direct | chase | frame => rfl

theorem stagedRecord_of_range {f : RecordFields} (hoff : f.policy ≠ 0) (h : ¬RecordInRange f) : stagedRecord f = none := by
  rcases hp : policyOf f.policy with _ | p
  · unfold stagedRecord
    rw [hp]
  · have hpoff : p ≠ .off := fun heq => policyOf_ne_off hoff (heq ▸ hp)
    rw [stagedRecord_of_policy hp hpoff, if_neg (mt (recordInRange_iff f).mp h)]

theorem recordOf_eq (p : Policy) (f : RecordFields) :
    recordOf p f =
      ⟨p, f.base, f.pitch.toNat, f.rows.toNat, f.firstRow.toNat, f.commitOffset.toNat,
        if f.receiptPresent = 1 then some f.receipt else none, f.idleSeal.toNat⟩ := by
  simp only [recordOf, beq_iff_eq]

theorem stageWindow_busy {s : State} (h : s.applyPending = true) (index : BitVec 8) (f : RecordFields) :
    stageWindow index f s = s.answered .busy [] :=
  if_pos h

theorem stageWindow_refused {s : State} (h : s.applyPending = false) {index : BitVec 8} {f : RecordFields}
    (hnone : windowOf index = none ∨ stagedRecord f = none) : stageWindow index f s = s.answered .range [] := by
  unfold stageWindow stageRecord
  rw [h, if_neg Bool.false_ne_true]
  rcases hnone with hnone | hnone
  · rw [hnone]
    rfl
  · rw [hnone]
    cases windowOf index <;> rfl

theorem stageWindow_accepted {s : State} (h : s.applyPending = false) {index : BitVec 8} {f : RecordFields} {W : WindowIdx}
    {r : WindowRecord} (hW : index.toNat = W.val) (hr : stagedRecord f = some r) :
    stageWindow index f s = ({ s with staged := s.staged.set W.val r W.isLt } : State).answered .ok [] := by
  unfold stageWindow stageRecord
  rw [h, if_neg Bool.false_ne_true, windowOf_val hW, hr]
  rfl

/-- The policy codes of Table 11-6 other than OFF. -/
theorem policyOf_of_code {code : BitVec 8} {p : Policy}
    (h : p = .direct ∧ code = 1 ∨ p = .chase ∧ code = 2 ∨ p = .frame ∧ code = 3) :
    policyOf code = some p ∧ p ≠ .off := by
  rcases h with ⟨rfl, rfl⟩ | ⟨rfl, rfl⟩ | ⟨rfl, rfl⟩ <;> exact ⟨rfl, by decide⟩

/-- Settles O45: BUSY comes first, then RANGE, and an OFF record is staged without its other fields. -/
theorem stageWindowIsJudgedInOrder : Obligations.StageWindowIsJudgedInOrder := by
  intro s index f hends
  rw [exec_stageWindow_of_ends hends]
  refine ⟨fun hbusy => ?busy, fun hfree => ⟨fun hwrong => ?range, fun W hW => ⟨fun hoff => ?off, fun p hp hrange => ?on⟩⟩⟩
  case busy => rw [stageWindow_busy hbusy]
  case range =>
    rw [stageWindow_refused hfree]
    rcases hwrong with hindex | hunknown | ⟨hoff, hfields⟩
    · exact .inl (windowOf_of_ge hindex)
    · exact .inr (stagedRecord_of_unknown hunknown)
    · exact .inr (stagedRecord_of_range hoff hfields)
  case off => rw [stageWindow_accepted hfree hW (stagedRecord_off hoff), offRecord]
  case on =>
    obtain ⟨hpolicy, hpoff⟩ := policyOf_of_code hp
    have hstaged : stagedRecord f = some (recordOf p f) := by
      rw [stagedRecord_of_policy hpolicy hpoff, if_pos ((recordInRange_iff f).mpr hrange)]
    rw [stageWindow_accepted hfree hW hstaged, recordOf_eq]

/-! ## APPLY (R139, R140) -/

theorem exec_apply_of_ends {s : State} (hends : Ends s .apply []) : exec .apply s = .next (applyStaged s) :=
  report_of_ends hends applyStaged

theorem applyStaged_refused {s : State} {c : StatusCode} (hstatus : s.applyStatus = c) (hc : c ≠ .ok) :
    applyStaged s = s.answered c [] := by
  unfold applyStaged
  rw [hstatus, if_neg (by simp [hc])]
  rfl

theorem applyStaged_accepted {s : State} (hstatus : s.applyStatus = .ok) :
    applyStaged s = (acceptApply s).answered .ok [] :=
  if_pos (by simp [hstatus])

section

variable {s : State}

theorem applyStatus_busy (h : s.applyPending = true) : s.applyStatus = .busy :=
  if_pos h

variable (hfree : s.applyPending = false)

include hfree

theorem applyStatus_already (h : s.staged = s.live) : s.applyStatus = .already := by
  simp [State.applyStatus, hfree, h]

theorem applyStatus_of_differs (h : s.staged ≠ s.live) : s.applyStatus = (checkTable s.staged s.timing).getD .ok := by
  simp [State.applyStatus, hfree, h]

end

section

variable {table : Vector WindowRecord 8} {t : Timing}

theorem checkTable_of_unset (h : t.lines = none) : checkTable table t = some .state := by
  simp [checkTable, h]

variable (hset : t.lines ≠ none)

include hset

theorem checkTable_of_overlap (h : Overlapping table) : checkTable table t = some .overlap := by
  simp [checkTable, hset, (tableOverlaps_iff table).mpr h]

variable (happart : ¬Overlapping table)

include happart

theorem checkTable_of_misfit (h : ¬FitsActive table t.active) : checkTable table t = some .range := by
  simp [checkTable, hset, mt (tableOverlaps_iff table).mp happart, mt (tableFits_iff table _).mp h]

variable (hfits : FitsActive table t.active)

include hfits

theorem checkTable_of_receipt (h : ReceiptInside table) : checkTable table t = some .overlap := by
  simp [checkTable, hset, mt (tableOverlaps_iff table).mp happart, (tableFits_iff table _).mpr hfits,
    (receipt_iff table).mpr h]

theorem checkTable_passes (h : ¬ReceiptInside table) : checkTable table t = none := by
  simp [checkTable, hset, mt (tableOverlaps_iff table).mp happart, (tableFits_iff table _).mpr hfits,
    mt (receipt_iff table).mp h]

end

/-- R140: in BYPASS, and with no write to look at again, the staged table is live at once. -/
theorem acceptApply_of_bypass {s : State} (hmode : s.mode = .bypass) (hwait : s.upstream.phase ≠ .wait) :
    acceptApply s = handFlag .applied { s with live := s.staged } := by
  unfold acceptApply
  rw [if_pos (by simp [hmode])]
  exact settle_of_untold rfl hwait

/-- Settles O46: the checks in their order, the first that fails giving the status. -/
theorem applyIsJudgedInOrder : Obligations.ApplyIsJudgedInOrder := by
  intro s hends
  rw [exec_apply_of_ends hends]
  refine ⟨fun hbusy => ?busy, fun hfree => ⟨fun hsame => ?already, fun hdiffers => ⟨fun hunset => ?unset, fun hset => ?set⟩⟩⟩
  case busy => rw [applyStaged_refused (applyStatus_busy hbusy) (by decide)]
  case already => rw [applyStaged_refused (applyStatus_already hfree hsame) (by decide)]
  all_goals have hstatus := applyStatus_of_differs hfree hdiffers
  case unset =>
    rw [checkTable_of_unset hunset] at hstatus
    rw [applyStaged_refused hstatus (by decide)]
    rfl
  case set =>
    refine ⟨fun hoverlap => ?overlap, fun hapart => ⟨fun hmisfit => ?misfit, fun hfits => ⟨fun hreceipt => ?receipt,
      fun hclear hmode hwait => ?accepted⟩⟩⟩
    case overlap =>
      rw [checkTable_of_overlap hset hoverlap] at hstatus
      rw [applyStaged_refused hstatus (by decide)]
      rfl
    case misfit =>
      rw [checkTable_of_misfit hset hapart hmisfit] at hstatus
      rw [applyStaged_refused hstatus (by decide)]
      rfl
    case receipt =>
      rw [checkTable_of_receipt hset hapart hfits hreceipt] at hstatus
      rw [applyStaged_refused hstatus (by decide)]
      rfl
    case accepted =>
      rw [checkTable_passes hset hapart hfits hclear] at hstatus
      rw [applyStaged_accepted hstatus, acceptApply_of_bypass hmode hwait]
      rfl

end Sys2Proof.Machine
end

section
/-! PROOFS. SEAL and FLUSH (O52), RESTART (O53) and DISABLE with discard (O51). -/

namespace Sys2Proof.Machine

/-! ## SEAL and FLUSH (R16, R116) -/

theorem exec_flush_of_ends {s : State} {set : BitVec 8} (hends : Ends s .flush [set]) :
    exec (.flush set) s = .next (answerStatus .ok (flushNamed (windowsOf set) s)) :=
  report_of_ends hends fun s => answerStatus .ok (flushNamed (windowsOf set) s)

/-- After the seals of the named windows, and whatever else leaves a window's seals alone, they stand as SEAL asks. -/
theorem seals_of_named {s t : State} {set : BitVec 8} (huse : OpenInUse s)
    (hseals : ∀ W : WindowIdx,
      t.windows[W.val].openBatch = (sealAll (windowsOf set) (Work.start s)).st.windows[W.val].openBatch ∧
        t.windows[W.val].lastSealed = (sealAll (windowsOf set) (Work.start s)).st.windows[W.val].lastSealed)
    (W : WindowIdx) :
    (set.getLsbD W.val = true → SealedIn s t W) ∧
      (set.getLsbD W.val = false →
        t.windows[W].openBatch = s.windows[W].openBatch ∧ t.windows[W].lastSealed = s.windows[W].lastSealed) := by
  obtain ⟨hopen, hlast⟩ := hseals W
  obtain ⟨hnamed, hother⟩ := sealNamed_windows s (windowsOf set) (windowsOf_nodup set) huse W
  refine ⟨fun hin => ?_, fun hout => ?_⟩
  · obtain ⟨hnone, hcount⟩ := hnamed ((mem_windowsOf set W).mpr hin)
    exact ⟨hopen.trans hnone, hlast.trans hcount⟩
  · have hsame := hother (mt (mem_windowsOf set W).mp (hout ▸ Bool.false_ne_true))
    exact ⟨hopen.trans (congrArg _ hsame), hlast.trans (congrArg _ hsame)⟩

theorem flushNamed_seals (s : State) (Ws : List WindowIdx) (W : WindowIdx) :
    (flushNamed Ws s).windows[W.val].openBatch = (sealAll Ws (Work.start s)).st.windows[W.val].openBatch ∧
      (flushNamed Ws s).windows[W.val].lastSealed = (sealAll Ws (Work.start s)).st.windows[W.val].lastSealed := by
  obtain ⟨hopen, hlast⟩ := evaluate_seal (markSealed .flush Ws (sealAll Ws (Work.start s))) (sealAll_reported Ws _) W
  rw [markSealed_windows] at hopen hlast
  exact ⟨hopen, hlast⟩

/-- R116: a batch that is SEALED or open before stands in its window's queue after the seals. -/
theorem sealAll_queues {s : State} (huse : OpenInUse s) {Ws : List WindowIdx} (hnodup : Ws.Nodup) {W : WindowIdx}
    (hW : W ∈ Ws) {r : RecordIdx} (hr : r ∈ s.windows[W].sealedQueue ∨ s.windows[W].openBatch = some r) :
    r ∈ (sealAll Ws (Work.start s)).st.windows[W.val].sealedQueue := by
  rcases hr with hr | hr
  · exact sealAll_queue Ws W (Work.start s) r hr
  · rw [sealAll_window Ws W (Work.start s) r hnodup hW hr (Option.isSome_iff_ne_none.mpr (huse W r hr))]
    exact List.mem_append_right _ (List.mem_singleton.mpr rfl)

theorem flushNamed_marks {s : State} (huse : OpenInUse s) {Ws : List WindowIdx} (hnodup : Ws.Nodup) {W : WindowIdx}
    (hW : W ∈ Ws) {r : RecordIdx} {b : BatchRecord} (hb : s.records[r] = some b)
    (hr : r ∈ s.windows[W].sealedQueue ∨ s.windows[W].openBatch = some r) :
    ∃ b', (flushNamed Ws s).records[r] = some b' ∧ b'.entries = b.entries ∧ b'.mark ≠ none ∧
      (∀ reason, b.mark = some reason → b'.mark = some reason) ∧
      (b.mark = none → (∀ V : WindowIdx, s.windows[V].openBatch = none) → b'.mark = some .flush) := by
  obtain ⟨c, hc, hcentries, hckeeps⟩ := sealAll_mark Ws (Work.start s) r b hb
  have hsealed : r ∈ (sealAll Ws (Work.start s)).st.sealedOf Ws :=
    List.mem_flatMap.mpr ⟨W, hW, sealAll_queues huse hnodup hW hr⟩
  obtain ⟨d, hd, hdentries, hdmark⟩ := markAll_record .flush ((sealAll Ws (Work.start s)).st.sealedOf Ws) _ hc
  rw [if_pos hsealed] at hdmark
  obtain ⟨b', hb', hentries, hmark⟩ :=
    settle_record_of_quiet (w := markSealed .flush Ws (sealAll Ws (Work.start s))) (sealAll_reported Ws _) hd
  rw [hdmark] at hmark
  refine ⟨b', hb', hentries.trans (hdentries.trans hcentries), ?marked, fun reason hreason => ?keeps, fun hnone hopen => ?flush⟩
  case marked => rw [hmark]; cases c.mark <;> exact Option.some_ne_none _
  case keeps => rw [hmark, hckeeps reason hreason]; rfl
  case flush =>
    rw [sealAll_none Ws (Work.start s) fun V _ => hopen V] at hc
    have hcb : c = b := Option.some.inj (hc.symm.trans hb)
    rw [hmark, hcb, hnone]
    rfl

/-- Settles O52: both seal the named windows; FLUSH then marks every SEALED batch of theirs. -/
theorem sealAndFlushActOnTheNamedWindows : Obligations.SealAndFlushActOnTheNamedWindows := by
  intro s set huse
  refine ⟨fun hends => ⟨_, exec_sealWindows_of_ends hends, rfl, ?named⟩,
    fun hends => ⟨_, exec_flush_of_ends hends, rfl, fun W => ?flush⟩⟩
  case named => exact seals_of_named huse fun W => evaluate_seal _ (sealAll_reported _ _) W
  case flush =>
    obtain ⟨hnamed, hother⟩ := seals_of_named (t := answerStatus .ok (flushNamed (windowsOf set) s)) huse
      (flushNamed_seals s (windowsOf set)) W
    exact ⟨fun hin => ⟨hnamed hin, fun r b hr hb =>
      flushNamed_marks huse (windowsOf_nodup set) ((mem_windowsOf set W).mpr hin) hb hr⟩, hother⟩

/-! ## The end of an event in BYPASS with the store empty (R130) -/

theorem settle_waitIsDirect {s : State} {w : Work} (hreported : w.reported = true) (hmode : w.st.mode = .bypass)
    (hupstream : w.st.upstream = s.upstream) : WaitIsDirect s (settle w) := by
  intro a m d hwait hwrite
  refine settle_upstream_direct w a m d hreported (by rw [hupstream]; exact hwait) (by rw [hupstream]; exact hwrite) ?_
  unfold State.classify
  rw [hmode]

/-! ## RESTART (R146) -/

theorem exec_restart_of_ends {s : State} (hends : Ends s .restart []) :
    exec .restart s = .next (answer freshResponse (restartPart s)) :=
  report_of_ends hends fun s => answer freshResponse (restartPart s)

theorem replicate_none (r : RecordIdx) : (Vector.replicate 16 (none : Option BatchRecord))[r.val] = none := by
  simp

/-- Settles O53: RESTART clears block by block, and then at most sends a waiting write to memory. -/
theorem restartClearsTheRunTimeState : Obligations.RestartClearsTheRunTimeState := by
  intro s hends
  have hfree : ∀ r : RecordIdx, (restartState s).records[r.val] = none := replicate_none
  obtain ⟨hengine, hclaim, hpassed, hrecords, hwindows, hordinal, hincidents, hidle⟩ :=
    settle_bypass (Work.start (restartState s)).tell.report rfl hfree rfl
  have htables : (restartPart s).live = s.live ∧ (restartPart s).staged = s.staged ∧ (restartPart s).timing = s.timing :=
    ⟨settle_live _, settle_staged _, settle_timing _⟩
  refine ⟨_, exec_restart_of_ends hends, rfl, settle_mode _, settle_applyPending _, htables.1, htables.2.1, htables.2.2,
    fun r => ?records, hordinal, fun W => ?windows, settle_tracker _, hengine, hincidents, hclaim, hpassed rfl,
    fun hwait => ?quiet, ?direct⟩
  case records => exact (congrArg (·[r.val]) hrecords).trans (hfree r)
  case windows => exact (congrArg (·[W.val]) hwindows).trans (ofFn_get _ W)
  case quiet =>
    have hsame : restartPart s = restartState s := hidle hwait
    have hport : (restartPart s).upstream = s.upstream ∧
        (restartPart s).port = { s.port with releaseClaim := none, passedOver := 0 } := by rw [hsame]; exact ⟨rfl, rfl⟩
    exact hport
  case direct => exact settle_waitIsDirect (w := (Work.start (restartState s)).tell.report) rfl rfl rfl

/-! ## DISABLE with discard (R137, R138) -/

theorem exec_disableDiscard_of_ends {s : State} {selector : BitVec 8} (hends : Ends s .disable [selector])
    (hselector : selector = 1) : exec (.disableDiscard selector) s = .next (disableDiscard s) := by
  subst hselector
  exact report_of_ends hends disableDiscard

theorem exec_disableDiscard_of_range {s : State} {selector : BitVec 8} (hends : Ends s .disable [selector])
    (h0 : selector ≠ 0) (h1 : selector ≠ 1) : exec (.disableDiscard selector) s = .next (s.answered .range []) := by
  show execDisableDiscard selector s = _
  unfold execDisableDiscard
  rw [if_neg (by simpa using h1), if_neg (by simpa using h0)]
  exact report_of_ends hends (answerStatus .range)

theorem disableDiscard_of_bypass {s : State} (hmode : s.mode = .bypass) : disableDiscard s = s.answered .already [] :=
  if_pos (by simp [hmode])

theorem disableDiscard_of_other {s : State} (hmode : s.mode ≠ .bypass) :
    disableDiscard s = answerStatus .ok (discard s) :=
  if_neg (by simp [hmode])

/-- The part once a discard has dropped the store and ended the release, before the mode changes. -/
def State.dropped (s : State) : State :=
  endRelease (dropAll s)

/-- The event of a discard, before it ends. -/
def discardWork (s : State) : Work :=
  (applyAtBypass (changeMode .bypass (Work.start s.dropped))).map (reportDiscard s)

theorem discard_eq (s : State) : discard s = settle (discardWork s) := rfl

theorem discard_bypass_of_pending {s : State} (h : s.applyPending = true) :
    applyAtBypass (changeMode .bypass (Work.start s.dropped)) =
      completeApply (changeMode .bypass (Work.start s.dropped)) := by
  have hpending : (changeMode .bypass (Work.start s.dropped)).st.applyPending = true :=
    (endRelease_applyPending (dropAll s)).trans h
  exact if_pos hpending

theorem discard_bypass_of_not_pending {s : State} (h : s.applyPending = false) :
    applyAtBypass (changeMode .bypass (Work.start s.dropped)) = changeMode .bypass (Work.start s.dropped) := by
  have hpending : (changeMode .bypass (Work.start s.dropped)).st.applyPending = false :=
    (endRelease_applyPending (dropAll s)).trans h
  exact if_neg (by rw [hpending]; exact Bool.false_ne_true)

section

variable (s : State)

theorem discardWork_mode : (discardWork s).st.mode = .bypass := by
  refine (reportDiscard_mode s _).trans ?_
  unfold applyAtBypass
  split <;> rfl

theorem discardWork_reported : (discardWork s).reported = true := by
  unfold discardWork applyAtBypass
  split <;> rfl

theorem discardWork_upstream : (discardWork s).st.upstream = s.upstream := by
  simp [discardWork, State.dropped, Work.map, Work.start]

theorem discardWork_staged : (discardWork s).st.staged = s.staged := by
  simp [discardWork, State.dropped, Work.map, Work.start]

theorem discardWork_sealOrdinal : (discardWork s).st.sealOrdinal = s.sealOrdinal := by
  simp [discardWork, State.dropped, Work.map, Work.start]

theorem discardWork_tracker : (discardWork s).st.tracker = s.tracker := by
  simp [discardWork, State.dropped, Work.map, Work.start]

theorem discardWork_records (r : RecordIdx) : (discardWork s).st.records[r.val] = none := by
  simp [discardWork, State.dropped, Work.map, Work.start]

theorem discardWork_engine : (discardWork s).st.engine = Engine.reset := by
  simp [discardWork, State.dropped, Work.map, Work.start]

theorem discardWork_claim : (discardWork s).st.port.releaseClaim = none := by
  simp [discardWork, State.dropped, Work.map, Work.start]

theorem dropped_window (W : WindowIdx) :
    s.dropped.windows[W.val] = { s.windows[W] with openBatch := none, sealedQueue := [] } :=
  (congrArg (·[W.val]) (endRelease_windows (dropAll s))).trans (ofFn_get _ W)

end

section

variable {s : State}

theorem discardWork_of_pending (h : s.applyPending = true) (W : WindowIdx) :
    (discardWork s).st.windows[W.val] = { s.windows[W] with openBatch := none, sealedQueue := [], closing := false } ∧
      (discardWork s).st.live = s.staged ∧ (discardWork s).st.applyPending = false ∧
      (discardWork s).st.flagSet .applied = true := by
  have hwork : (discardWork s).st = reportDiscard s (installStaged { s.dropped with mode := .bypass }) :=
    congrArg (fun w : Work => reportDiscard s w.st) (discard_bypass_of_pending h)
  rw [hwork, reportDiscard_windows, reportDiscard_live, reportDiscard_applyPending, installStaged_window]
  refine ⟨?window, ?live, rfl, ?flag⟩
  case window =>
    exact congrArg (fun d : WindowState => { d with closing := false }) (dropped_window s W)
  case live => exact endRelease_staged (dropAll s)
  case flag =>
    unfold reportDiscard
    split
    · exact handIncident_keeps _ _ _ (handFlag_self _ _)
    · exact handFlag_self _ _

theorem discardWork_of_not_pending (h : s.applyPending = false) (W : WindowIdx) :
    (discardWork s).st.windows[W.val] = { s.windows[W] with openBatch := none, sealedQueue := [] } ∧
      (discardWork s).st.live = s.live ∧ (discardWork s).st.applyPending = false := by
  have hwork : (discardWork s).st = reportDiscard s { s.dropped with mode := .bypass } :=
    congrArg (fun w : Work => reportDiscard s w.st) (discard_bypass_of_not_pending h)
  rw [hwork, reportDiscard_windows, reportDiscard_live, reportDiscard_applyPending]
  exact ⟨dropped_window s W, endRelease_live (dropAll s), (endRelease_applyPending (dropAll s)).trans h⟩

theorem discardWork_window (W : WindowIdx) :
    (discardWork s).st.windows[W.val] =
      { s.windows[W] with
        openBatch := none, sealedQueue := [], closing := !s.applyPending && s.windows[W].closing } := by
  cases hpending : s.applyPending with
  | true => exact (discardWork_of_pending hpending W).1
  | false => exact (discardWork_of_not_pending hpending W).1

/-- What becomes of the incident unit before the DISCARD incident: the flags alone can change. -/
theorem applyAtBypass_queue (w : Work) :
    (applyAtBypass w).st.incidents.queue = w.st.incidents.queue ∧
      (applyAtBypass w).st.incidents.dropped = w.st.incidents.dropped := by
  unfold applyAtBypass
  split <;> exact ⟨rfl, rfl⟩

theorem discardWork_incidents :
    (s.occupancy = 0 →
        (discardWork s).st.incidents.queue = s.incidents.queue ∧
          (discardWork s).st.incidents.dropped = s.incidents.dropped) ∧
      (1 ≤ s.occupancy → Handed s.discardIncident s (discardWork s).st) := by
  have hbefore := applyAtBypass_queue (changeMode .bypass (Work.start s.dropped))
  have hdropped : s.dropped.incidents = s.incidents := endRelease_incidents (dropAll s)
  have hqueue : (applyAtBypass (changeMode .bypass (Work.start s.dropped))).st.incidents.queue = s.incidents.queue :=
    hbefore.1.trans (congrArg IncidentUnit.queue hdropped)
  have hcount : (applyAtBypass (changeMode .bypass (Work.start s.dropped))).st.incidents.dropped = s.incidents.dropped :=
    hbefore.2.trans (congrArg IncidentUnit.dropped hdropped)
  unfold discardWork Work.map reportDiscard
  refine ⟨fun hempty => ?_, fun hsome => ?_⟩
  · rw [if_neg (by omega)]
    exact ⟨hqueue, hcount⟩
  · rw [if_pos hsome]
    exact (handIncident_handed s.discardIncident _).congr hqueue.symm hcount.symm

theorem discardIncident_eq (s : State) :
    s.discardIncident =
      ⟨.discard, none, none, if s.tracker.state = .lost then none else s.tracker.line, s.tracker.frameCounter,
        some (.dropped s.occupancy)⟩ := by
  rw [State.discardIncident, reportedLine_eq]

/-- A discard leaves everything but the upstream port and its claim as it is before the end of the event. -/
theorem discard_accepted (s : State) :
    (discard s).mode = .bypass ∧ (discard s).staged = s.staged ∧ (discard s).sealOrdinal = s.sealOrdinal ∧
      (discard s).tracker = s.tracker ∧ (∀ r : RecordIdx, (discard s).records[r] = none) ∧
      (∀ W : WindowIdx,
        (discard s).windows[W] =
          { s.windows[W] with
            openBatch := none, sealedQueue := [], closing := !s.applyPending && s.windows[W].closing }) ∧
      (discard s).engine = Engine.reset ∧ (discard s).port.releaseClaim = none ∧
      (s.applyPending = true →
        (discard s).live = s.staged ∧ (discard s).applyPending = false ∧ (discard s).flagSet .applied = true) ∧
      (s.applyPending = false → (discard s).live = s.live ∧ (discard s).applyPending = false) ∧
      (s.upstream.phase ≠ .wait → (discard s).upstream = s.upstream) ∧ WaitIsDirect s (discard s) ∧
      (s.occupancy = 0 →
        (discard s).incidents.queue = s.incidents.queue ∧ (discard s).incidents.dropped = s.incidents.dropped) ∧
      (1 ≤ s.occupancy → Handed s.discardIncident s (discard s)) := by
  obtain ⟨hengine, hclaim, -, hrecords, hwindows, hordinal, hincidents, hidle⟩ :=
    settle_bypass (discardWork s) (discardWork_mode s) (discardWork_records s) (discardWork_claim s)
  have hhanded := discardWork_incidents (s := s)
  rw [discard_eq]
  refine ⟨(settle_mode _).trans (discardWork_mode s), (settle_staged _).trans (discardWork_staged s),
    hordinal.trans (discardWork_sealOrdinal s), (settle_tracker _).trans (discardWork_tracker s),
    fun r => (congrArg (·[r.val]) hrecords).trans (discardWork_records s r),
    fun W => (congrArg (·[W.val]) hwindows).trans (discardWork_window W), hengine.trans (discardWork_engine s), hclaim,
    fun hpending => ?pending, fun hpending => ?notPending, fun hwait => ?quiet,
    settle_waitIsDirect (discardWork_reported s) (discardWork_mode s) (discardWork_upstream s), ?empty, ?handed⟩
  case pending =>
    obtain ⟨-, hlive, hnone, hflag⟩ := discardWork_of_pending hpending 0
    exact ⟨(settle_live _).trans hlive, (settle_applyPending _).trans hnone, settle_flag _ _ hflag⟩
  case notPending =>
    obtain ⟨-, hlive, hnone⟩ := discardWork_of_not_pending hpending 0
    exact ⟨(settle_live _).trans hlive, (settle_applyPending _).trans hnone⟩
  case quiet => rw [hidle (by rw [discardWork_upstream]; exact hwait), discardWork_upstream]
  case empty => rw [hincidents]; exact hhanded.1
  case handed => exact fun hsome => (hhanded.2 hsome).mono (settle_grows _)

end

/-- Settles O51: a discard frees every record, ends the release, completes a pending apply and sends a waiting write on. -/
theorem disableDiscardDropsEverything : Obligations.DisableDiscardDropsEverything := by
  intro s selector hends
  refine ⟨exec_disableDiscard_of_range hends, fun hselector hmode => ?already, fun hselector hmode => ?accepted⟩
  all_goals rw [exec_disableDiscard_of_ends hends hselector]
  case already => rw [disableDiscard_of_bypass hmode]
  case accepted =>
    rw [disableDiscard_of_other hmode, ← discardIncident_eq]
    exact ⟨_, rfl, rfl, discard_accepted s⟩

end Sys2Proof.Machine
end

section
/-! PROOFS. DISABLE with drain (O50), APPLY outside BYPASS (O47), and the frame-start that completes it (O48). -/

namespace Sys2Proof.Machine

/-! ## DISABLE with drain (R133 to R135) -/

theorem exec_disableDrain_of_ends {s : State} {selector : BitVec 8} (hends : Ends s .disable [selector])
    (hselector : selector = 0) : exec (.disableDrain selector) s = .next (disableDrain s) := by
  subst hselector
  exact report_of_ends hends disableDrain

theorem exec_disableDrain_of_range {s : State} {selector : BitVec 8} (hends : Ends s .disable [selector])
    (h0 : selector ≠ 0) (h1 : selector ≠ 1) : exec (.disableDrain selector) s = .next (s.answered .range []) := by
  show execDisableDrain selector s = _
  unfold execDisableDrain
  rw [if_neg (by simpa using h0), if_neg (by simpa using h1)]
  exact report_of_ends hends (answerStatus .range)

theorem disableDrain_of_active {s : State} (hmode : s.mode = .active) : disableDrain s = answerStatus .ok (beginDrain s) :=
  if_pos (by simp [hmode])

theorem disableDrain_of_other {s : State} (hmode : s.mode ≠ .active) : disableDrain s = s.answered .already [] :=
  if_neg (by simp [hmode])

/-- The part that has entered DRAINING and sealed every window's open batch. -/
def drainWork (s : State) : Work :=
  sealAll (List.finRange 8) (changeMode .draining (Work.start s))

theorem beginDrain_eq (s : State) : beginDrain s = settle (drainIfEmpty (drainWork s)) := rfl

section

variable (s : State)

theorem drainWork_mode : (drainWork s).st.mode = .draining := by
  rw [drainWork, sealAll_mode]
  rfl

theorem drainWork_staged : (drainWork s).st.staged = s.staged := by
  rw [drainWork, sealAll_staged]
  rfl

theorem drainWork_live : (drainWork s).st.live = s.live := by
  rw [drainWork, sealAll_live]
  rfl

theorem drainWork_upstream : (drainWork s).st.upstream = s.upstream := by
  rw [drainWork, sealAll_upstream]
  rfl

theorem drainWork_applyPending : (drainWork s).st.applyPending = s.applyPending := by
  rw [drainWork, sealAll_applyPending]
  rfl

theorem drainWork_closing (W : WindowIdx) : (drainWork s).st.windows[W.val].closing = s.windows[W].closing := by
  rw [drainWork, sealAll_proj WindowState.closing fun _ _ => rfl]
  rfl

theorem drainWork_storeEmpty_iff : (drainWork s).st.storeEmpty = true ↔ s.recordsInUse = 0 := by
  rw [storeEmpty_iff, recordsInUse_eq_zero, drainWork, ← sealAll_recordsInUse]
  rfl

end

section

variable {s : State}

theorem drainWork_seals (huse : OpenInUse s) (W : WindowIdx) : SealedIn s (drainWork s).st W := by
  unfold drainWork
  generalize hall : List.finRange 8 = Ws
  have hin : W ∈ Ws := hall ▸ List.mem_finRange W
  exact sealAll_sealed Ws W (changeMode .draining (Work.start s)) (hall ▸ List.nodup_finRange 8) hin
    fun r hr => Option.isSome_iff_ne_none.mpr (huse W r hr)

/-- Neither the completion of a drain nor the end of an event outside ACTIVE touches a seal. -/
theorem SealedIn.settle_drain {W : WindowIdx} {w : Work} (h : SealedIn s w.st W) (hmode : w.st.mode = .draining) :
    SealedIn s (settle (drainIfEmpty w)) W := by
  have hinactive : (drainIfEmpty w).st.mode = .draining ∨ (drainIfEmpty w).st.mode = .bypass := by
    unfold drainIfEmpty
    split
    · exact .inr (completeDrain_mode w)
    · exact .inl hmode
  obtain ⟨hopen, hlast⟩ := settle_seal (drainIfEmpty w) W fun _ a => classify_not_held_draining hinactive a W
  obtain ⟨hnone, hcount⟩ := h
  exact ⟨hopen.trans ((drainIfEmpty_proj WindowState.openBatch (fun _ => rfl) w W).trans hnone),
    hlast.trans ((drainIfEmpty_proj WindowState.lastSealed (fun _ => rfl) w W).trans hcount)⟩

theorem drainIfEmpty_of_batches (h : s.recordsInUse ≠ 0) : drainIfEmpty (drainWork s) = drainWork s :=
  if_neg fun hempty => h ((drainWork_storeEmpty_iff s).mp (Bool.and_eq_true_iff.mp hempty).2)

theorem drainIfEmpty_of_empty (h : s.recordsInUse = 0) : drainIfEmpty (drainWork s) = completeDrain (drainWork s) :=
  if_pos (by rw [drainWork_mode, (drainWork_storeEmpty_iff s).mpr h]; rfl)

theorem beginDrain_of_batches (h : s.recordsInUse ≠ 0) :
    (beginDrain s).mode = .draining ∧ (beginDrain s).live = s.live ∧ (beginDrain s).applyPending = s.applyPending ∧
      ∀ W : WindowIdx, (beginDrain s).windows[W].closing = s.windows[W].closing := by
  rw [beginDrain_eq, drainIfEmpty_of_batches h, settle_mode, settle_live, settle_applyPending]
  exact ⟨drainWork_mode s, drainWork_live s, drainWork_applyPending s,
    fun W => (settle_counters _ W).2.2.trans (drainWork_closing s W)⟩

theorem beginDrain_of_empty (h : s.recordsInUse = 0) :
    (beginDrain s).mode = .bypass ∧ (beginDrain s).flagSet .drained = true ∧ WaitIsDirect s (beginDrain s) ∧
      (s.applyPending = true → AppliedIn s (beginDrain s)) ∧
      (s.applyPending = false → (beginDrain s).live = s.live) := by
  rw [beginDrain_eq, drainIfEmpty_of_empty h]
  refine ⟨(settle_mode _).trans (completeDrain_mode _), settle_flag _ _ (handFlag_self _ _),
    settle_waitIsDirect (completeDrain_reported _) (completeDrain_mode _)
      ((completeDrain_upstream _).trans (drainWork_upstream s)), fun hpending => ?pending, fun hpending => ?notPending⟩
  case pending =>
    obtain ⟨hlive, hnone, hclosing, hflag⟩ :=
      completeDrain_installs (drainWork s) ((drainWork_applyPending s).trans hpending)
    exact AppliedIn.settle ⟨hlive.trans (drainWork_staged s), hnone, hclosing, hflag⟩
  case notPending =>
    rw [settle_live, completeDrain_keeps _ ((drainWork_applyPending s).trans hpending), drainWork_live]

end

/-- Settles O50: every open batch is sealed; with the store empty the drain completes in the same event. -/
theorem disableDrainSealsEverything : Obligations.DisableDrainSealsEverything := by
  intro s selector hends
  refine ⟨exec_disableDrain_of_range hends, fun hselector hmode => ?already, fun hselector hmode huse => ?accepted⟩
  all_goals rw [exec_disableDrain_of_ends hends hselector]
  case already => rw [disableDrain_of_other hmode]
  case accepted =>
    rw [disableDrain_of_active hmode]
    have hseals (W : WindowIdx) : SealedIn s (beginDrain s) W := by
      rw [beginDrain_eq]
      exact (drainWork_seals huse W).settle_drain (drainWork_mode s)
    have hbatches := beginDrain_of_batches (s := s)
    have hempty := beginDrain_of_empty (s := s)
    have hstaged := beginDrain_staged s
    generalize beginDrain s = t at hseals hbatches hempty hstaged ⊢
    exact ⟨_, rfl, rfl, hstaged, hseals, hbatches, hempty⟩

/-! ## APPLY outside BYPASS (R141, R142) -/

/-- The part that has taken the apply, marked the windows it closes and sealed those that differ. -/
def closeWork (s : State) : Work :=
  (sealAll ((List.finRange 8).filter s.differs) ((Work.start s).map markClosing)).report

theorem acceptApply_of_other {s : State} (hmode : s.mode ≠ .bypass) : acceptApply s = settle (applyIfLost (closeWork s)) := by
  unfold acceptApply
  rw [if_neg (by simp [hmode])]
  rfl

/-- R141: the window is closing already, or the apply is to change its record. -/
def State.closes (s : State) (W : WindowIdx) : Prop :=
  s.windows[W].closing = true ∨ s.staged[W] ≠ s.live[W]

theorem differs_iff (s : State) (W : WindowIdx) : s.differs W = true ↔ s.staged[W] ≠ s.live[W] := by
  simp [State.differs]

section

variable (s : State)

theorem closeWork_live : (closeWork s).st.live = s.live := by
  rw [closeWork, Work.report, sealAll_live]
  rfl

theorem closeWork_staged : (closeWork s).st.staged = s.staged := by
  rw [closeWork, Work.report, sealAll_staged]
  rfl

theorem closeWork_tracker : (closeWork s).st.tracker = s.tracker := by
  rw [closeWork, Work.report, sealAll_tracker]
  rfl

theorem closeWork_applyPending : (closeWork s).st.applyPending = true := by
  rw [closeWork, Work.report, sealAll_applyPending]
  rfl

theorem markClosing_window (W : WindowIdx) :
    (markClosing s).windows[W.val] = { s.windows[W] with closing := s.windows[W].closing || s.differs W } :=
  ofFn_get _ W

theorem closeWork_closing_iff (W : WindowIdx) : (closeWork s).st.windows[W.val].closing = true ↔ s.closes W := by
  have hclosing : (closeWork s).st.windows[W.val].closing = (markClosing s).windows[W.val].closing := by
    rw [closeWork, Work.report, sealAll_proj WindowState.closing fun _ _ => rfl]
    rfl
  rw [hclosing, markClosing_window, Bool.or_eq_true, differs_iff]
  rfl

theorem markClosing_hasBatch (W : WindowIdx) : (markClosing s).hasBatch W = s.hasBatch W := by
  rw [hasBatch_eq, hasBatch_eq, markClosing_window]
  rfl

theorem closeWork_hasBatch (W : WindowIdx) : (closeWork s).st.hasBatch W = s.hasBatch W := by
  rw [closeWork, Work.report, sealAll_hasBatch]
  exact markClosing_hasBatch s W

theorem closeWork_closingEmpty_iff :
    (closeWork s).st.closingEmpty = true ↔ ∀ W : WindowIdx, s.closes W → s.hasBatch W = false := by
  simp only [closingEmpty_iff, closeWork_closing_iff, closeWork_hasBatch]

end

section

variable {s : State}

theorem closeWork_seals (huse : OpenInUse s) {W : WindowIdx} (hdiffers : s.staged[W] ≠ s.live[W]) :
    SealedIn s (closeWork s).st W := by
  have hwindow := markClosing_window s W
  have hin : W ∈ (List.finRange 8).filter s.differs :=
    List.mem_filter.mpr ⟨List.mem_finRange W, (differs_iff s W).mpr hdiffers⟩
  have hnodup : ((List.finRange 8).filter s.differs).Nodup := (List.nodup_finRange 8).filter _
  unfold closeWork
  generalize (List.finRange 8).filter s.differs = Ws at hin hnodup ⊢
  have hseals := sealAll_sealed Ws W ((Work.start s).map markClosing) hnodup hin fun r hr =>
    Option.isSome_iff_ne_none.mpr (huse W r ((congrArg WindowState.openBatch hwindow).symm.trans hr))
  have hbefore : ((Work.start s).map markClosing).st.windows[W.val] =
      { s.windows[W] with closing := s.windows[W].closing || s.differs W } := hwindow
  rw [hbefore] at hseals
  exact hseals

theorem applyIfLost_closeWork_completes (hlost : s.tracker.state = .lost)
    (hempty : ∀ W : WindowIdx, s.closes W → s.hasBatch W = false) :
    applyIfLost (closeWork s) = completeApply (closeWork s) := by
  unfold applyIfLost applyIfEmpty
  rw [closeWork_tracker, closeWork_applyPending, (closeWork_closingEmpty_iff s).mpr hempty, hlost]
  rfl

theorem applyIfLost_closeWork_waits
    (hwaits : ¬(s.tracker.state = .lost ∧ ∀ W : WindowIdx, s.closes W → s.hasBatch W = false)) :
    applyIfLost (closeWork s) = closeWork s := by
  unfold applyIfLost
  split
  · next hlost =>
    rw [closeWork_tracker, beq_iff_eq] at hlost
    refine if_neg fun hcomplete => hwaits ⟨hlost, (closeWork_closingEmpty_iff s).mp ?_⟩
    exact (Bool.and_eq_true_iff.mp hcomplete).2
  · rfl

theorem acceptApply_completes (hmode : s.mode ≠ .bypass) (hlost : s.tracker.state = .lost)
    (hempty : ∀ W : WindowIdx, s.closes W → s.hasBatch W = false) : AppliedIn s (acceptApply s) := by
  rw [acceptApply_of_other hmode, applyIfLost_closeWork_completes hlost hempty]
  obtain ⟨hlive, hrest⟩ := installed (closeWork s) _ rfl
  exact ⟨hlive.trans (closeWork_staged s), hrest⟩

theorem acceptApply_waits (hmode : s.mode ≠ .bypass) (huse : OpenInUse s)
    (hwaits : ¬(s.tracker.state = .lost ∧ ∀ W : WindowIdx, s.closes W → s.hasBatch W = false)) :
    (acceptApply s).applyPending = true ∧ (acceptApply s).live = s.live ∧
      ∀ W : WindowIdx,
        ((acceptApply s).windows[W].closing = true ↔ s.closes W) ∧
          (s.staged[W] ≠ s.live[W] → SealedIn s (acceptApply s) W) := by
  rw [acceptApply_of_other hmode, applyIfLost_closeWork_waits hwaits]
  refine ⟨(settle_applyPending _).trans (closeWork_applyPending s), (settle_live _).trans (closeWork_live s),
    fun W => ⟨?closing, fun hdiffers => ?sealed⟩⟩
  case closing =>
    have hkept := (settle_counters (closeWork s) W).2.2
    rw [← closeWork_closing_iff, ← hkept]
    rfl
  case sealed =>
    obtain ⟨hopen, hlast⟩ := settle_seal (closeWork s) W fun _ a =>
      classify_not_held_closing W ((closeWork_closing_iff s W).mpr (.inr hdiffers)) a
    obtain ⟨hnone, hcount⟩ := closeWork_seals huse hdiffers
    exact ⟨hopen.trans hnone, hlast.trans hcount⟩

end

/-- Settles O47: outside BYPASS an accepted apply closes the windows that differ and seals them, and completes at once only
where the tracker is LOST and no closing window has a batch. -/
theorem applyClosesTheWindowsThatDiffer : Obligations.ApplyClosesTheWindowsThatDiffer := by
  intro s hends hstatus hmode huse
  rw [exec_apply_of_ends hends, applyStaged_accepted hstatus]
  exact ⟨_, rfl, rfl, acceptApply_staged s, acceptApply_mode s, fun ⟨hlost, hempty⟩ => acceptApply_completes hmode hlost hempty,
    acceptApply_waits hmode huse⟩

/-! ## The frame-start that completes a pending apply (R142, R143) -/

/-- What a line event and the seals it brings leave of a window. -/
theorem lineEvent_proj {α : Type} (f : WindowState → α) (hseal : ∀ d r, f (sealedWindow d r) = f d)
    (hidle : ∀ d n, f { d with idle := n } = f d) (s : State) (W : WindowIdx) :
    f (lineEvent s).st.windows[W.val] = f s.windows[W.val] := by
  have hcount : (countIdle (lateCheck s)).windows[W.val] =
      { s.windows[W.val] with idle := idleAfter s.windows[W.val].idle } := by
    rw [← lateCheck_windows s]
    exact ofFn_get _ W
  unfold lineEvent idleEvent
  rw [sealAll_proj f hseal]
  exact (congrArg f hcount).trans (hidle _ _)

section

variable {s : State}

/-- The frame-start, once the tracker has taken it, before it can complete an apply. -/
def frameWork (s : State) : Work :=
  lineEvent (trackFrame s)

theorem frameWork_proj {α : Type} (f : WindowState → α) (hseal : ∀ d r, f (sealedWindow d r) = f d)
    (hidle : ∀ d n, f { d with idle := n } = f d) (W : WindowIdx) :
    f (frameWork s).st.windows[W.val] = f s.windows[W.val] := by
  rw [frameWork, lineEvent_proj f hseal hidle, trackFrame_windows]

theorem frameWork_hasBatch (W : WindowIdx) : (frameWork s).st.hasBatch W = s.hasBatch W := by
  have hreleasing : (trackFrame s).releasingOf W = s.releasingOf W :=
    releasingOf_congr W (congrArg Engine.releasing (trackFrame_engine s)) fun q => by rw [trackFrame_records]
  rw [frameWork, lineEvent_hasBatch, hasBatch_eq, hasBatch_eq, trackFrame_windows, hreleasing]

theorem frameWork_closing (W : WindowIdx) : (frameWork s).st.windows[W.val].closing = s.windows[W.val].closing :=
  frameWork_proj WindowState.closing (fun _ _ => rfl) (fun _ _ => rfl) W

theorem frameWork_closingEmpty_iff :
    (frameWork s).st.closingEmpty = true ↔ ∀ W : WindowIdx, s.windows[W.val].closing = true → s.hasBatch W = false := by
  simp only [closingEmpty_iff, frameWork_closing, frameWork_hasBatch]

theorem frameWork_completes (hpending : s.applyPending = true)
    (hempty : ∀ W : WindowIdx, s.windows[W.val].closing = true → s.hasBatch W = false) :
    applyIfEmpty (frameWork s) = completeApply (frameWork s) := by
  have hstill : (frameWork s).st.applyPending = true := by
    rw [frameWork, lineEvent_applyPending, trackFrame_applyPending, hpending]
  exact if_pos (by rw [hstill, frameWork_closingEmpty_iff.mpr hempty]; rfl)

theorem frameWork_waits (hwaits : ¬∀ W : WindowIdx, s.windows[W.val].closing = true → s.hasBatch W = false) :
    applyIfEmpty (frameWork s) = frameWork s :=
  if_neg fun hcomplete => hwaits (frameWork_closingEmpty_iff.mp (Bool.and_eq_true_iff.mp hcomplete).2)

theorem frameWork_kept (W : WindowIdx) :
    (settle (applyIfEmpty (frameWork s))).windows[W].lastRetired = s.windows[W].lastRetired ∧
      (settle (applyIfEmpty (frameWork s))).windows[W].retired = s.windows[W].retired := by
  obtain ⟨hlast, hretired, -⟩ := settle_counters (applyIfEmpty (frameWork s)) W
  rw [applyIfEmpty_proj WindowState.lastRetired fun _ => rfl,
    frameWork_proj WindowState.lastRetired (fun _ _ => rfl) fun _ _ => rfl] at hlast
  rw [applyIfEmpty_proj WindowState.retired fun _ => rfl,
    frameWork_proj WindowState.retired (fun _ _ => rfl) fun _ _ => rfl] at hretired
  exact ⟨hlast, hretired⟩

theorem frameWork_staged : (frameWork s).st.staged = s.staged := by
  rw [frameWork, lineEvent_staged, trackFrame_staged]

theorem frameWork_upstream : (frameWork s).st.upstream = s.upstream := by
  rw [frameWork, lineEvent_upstream, trackFrame_upstream]

/-- A waiting write to a word that lies in no coherent window of the table that becomes live goes to memory. -/
theorem completeApply_write_direct {w : Work} {a : Addr} {m : Lanes} {d : Word} (hwait : w.st.upstream.phase = .wait)
    (hwrite : w.st.upstream.transaction = some (.write a m d)) (hoff : coherentWindow w.st.staged a = none) :
    (settle (completeApply w)).upstream = ⟨some (.write a m d), .direct, none, none, none, false, none⟩ :=
  settle_upstream_direct (completeApply w) a m d rfl hwait hwrite (classify_direct (.inr (.inl hoff)))

end

/-- Settles O48: a frame-start completes the pending apply where no closing window has a batch. -/
theorem frameStartCompletesAPendingApply : Obligations.FrameStartCompletesAPendingApply := by
  intro s hreset hpending
  refine ⟨_, exec_frameStart_of_awake hreset, ?staged, ?mode, frameWork_kept, fun hempty => ?completes, fun hwaits => ?waits⟩
  case staged => exact (settle_staged _).trans ((applyIfEmpty_staged _).trans frameWork_staged)
  case mode => rw [settle_mode, applyIfEmpty_mode, lineEvent_mode, trackFrame_mode]
  case completes =>
    have hcompletes := frameWork_completes hpending hempty
    rw [frameWork] at hcompletes
    rw [hcompletes]
    obtain ⟨hlive, hrest⟩ := installed (frameWork s) _ rfl
    exact ⟨⟨hlive.trans frameWork_staged, hrest⟩, fun a m d hwait hwrite hoff =>
      completeApply_write_direct (w := frameWork s) (by rw [frameWork_upstream]; exact hwait)
        (by rw [frameWork_upstream]; exact hwrite) (by rw [frameWork_staged]; exact hoff)⟩
  case waits =>
    have hwaiting := frameWork_waits hwaits
    rw [frameWork] at hwaiting
    rw [hwaiting, settle_applyPending, settle_live, lineEvent_applyPending, lineEvent_live, trackFrame_applyPending,
      trackFrame_live, quiet_upstream _ (lineEvent_reported _), lineEvent_upstream, trackFrame_upstream]
    exact ⟨hpending, rfl, rfl, fun W => (settle_counters _ W).2.2.trans (frameWork_closing W)⟩

end Sys2Proof.Machine
end

section
/-! PROOFS. What commands leave unchanged (O54), and that reads see the latest write (O55). -/

namespace Sys2Proof.Machine

/-- Settles O54: block by block, what the commands that may not change it leave of it. -/
theorem blocksChangeOnlyByTheirCommands : Obligations.BlocksChangeOnlyByTheirCommands := fun _ _ _ h =>
  ⟨exec_upstream h, exec_live h, exec_staged h, exec_windows h, exec_records h, exec_sealOrdinal h, exec_timing h,
    exec_tracker h, exec_engine h, exec_port h, exec_mode h, exec_applyPending h, exec_incidents h, exec_link h,
    exec_resetAsserted h, fun hc k => congrArg (fun memory => Memory.read memory k) (exec_memory h hc), exec_freeIndex h,
    exec_pending h⟩

/-! ## What a read sees, by the entries found and the memory (R27, R95) -/

theorem seen_eq (s : State) (w : Addr) (i : Fin 4) :
    s.seen w i =
      if (coverage (s.found w)).1.getLsbD i.val then some (laneByte (coverage (s.found w)).2 i)
      else s.memory.read (laneKey w i.val) := by
  rw [State.seen, lookup_found]

theorem seen_of_found_nil {s : State} {w : Addr} (h : s.found w = []) (i : Fin 4) :
    s.seen w i = s.memory.read (laneKey w i.val) := by
  rw [seen_eq, h]
  exact if_neg (by simp [coverage])

/-- With the same entries found, a lane reads the same if its byte of memory is the same. -/
theorem seen_congr_lane {s t : State} {w : Addr} {i : Fin 4} (hfound : t.found w = s.found w)
    (hmemory : t.memory.read (laneKey w i.val) = s.memory.read (laneKey w i.val)) : t.seen w i = s.seen w i := by
  rw [seen_eq, seen_eq, hfound, hmemory]

/-- The newer of the entries found come first, then the older, then the memory. -/
theorem seen_of_append {s : State} {w : Addr} {newer older : List Entry} (h : s.found w = newer ++ older) (i : Fin 4) :
    s.seen w i =
      if (coverage newer).1.getLsbD i.val then some (laneByte (coverage newer).2 i)
      else if (coverage older).1.getLsbD i.val then some (laneByte (coverage older).2 i)
      else s.memory.read (laneKey w i.val) := by
  obtain ⟨hlanes, hbyte⟩ := coverage_append newer older i
  rw [seen_eq, h, hlanes, hbyte]
  cases (coverage newer).1.getLsbD i.val <;> simp

theorem read_writeWord_of_ne {v w : Addr} (hne : w ≠ v) (lanes : Lanes) (d : Word) (memory : Memory) (i : Fin 4) :
    (writeWord v lanes d memory).read (laneKey w i.val) = memory.read (laneKey w i.val) :=
  writeWord_read_other v lanes d memory _ fun _ _ hkey => hne (laneKey_inj.mp hkey).1

/-! ## A held write (R8 to R10, R91) -/

theorem chain_batchesStand {s t : State} (h : Chain s t) (hstand : BatchesStand s) : BatchesStand t := by
  induction h with
  | refl => exact hstand
  | tail _ hchange ih => exact change_batchesStand hchange ih

theorem commitSeal_found (W : WindowIdx) (a : Addr) (w : Work) (v : Addr) :
    (commitSeal W a w).st.found v = w.st.found v := by
  unfold commitSeal
  split
  · exact sealOpen_found W w v
  · rfl

theorem storeWrite_found (W : WindowIdx) (a : Addr) (m : Lanes) (d : Word) (s : State) (v : Addr) :
    (storeWrite W a m d (Work.start s)).st.found v = (storeHeld W a m d s).found v :=
  commitSeal_found W a ((Work.start s).map fun s => completeUpstream none (storeHeld W a m d s)) v

/-- An evaluation at the end of the event changes nothing that a read sees. -/
theorem settle_seen {w : Work} (hquiet : w.reported = false) (hstand : BatchesStand w.st)
    (hidle : w.st.engine.phase = .idle → w.st.engine.releasing = none) (v : Addr) (i : Fin 4) :
    (settle w).seen v i = w.st.seen v i := by
  rw [settle_quiet w hquiet]
  split
  · exact seen_congr (evaluate_found hstand hidle v) (evaluate_memory w.st) i
  · rfl

theorem heldWrite_seen {s : State} {a : Addr} {m : Lanes} {d : Word} {W : WindowIdx} (hstand : BatchesStand s)
    (hone : OneReleasing s) (hcan : s.canTake = true) (hheld : GoesHeld s a W) (hroom : s.canStore W a = true) (w : Addr)
    (i : Fin 4) :
    (settle (storeWrite W a m d (Work.start s))).seen w i =
      if w = a ∧ m.getLsbD i.val = true then some (laneByte d i) else s.seen w i := by
  have hclass : s.classify a = .held W := (classify_goesHeld hheld).trans (if_pos hroom)
  have hstand' := chain_batchesStand (storeWrite_chain W a m d (Work.start s) hclass (nothingSent_of_canTake hcan)) hstand
  have hengine : (storeWrite W a m d (Work.start s)).st.engine = s.engine := storeWrite_engine W a m d (Work.start s)
  calc
    (settle (storeWrite W a m d (Work.start s))).seen w i = (storeWrite W a m d (Work.start s)).st.seen w i :=
      settle_seen (storeWrite_reported W a m d (Work.start s)) hstand' (by rw [hengine]; exact hone.2) w i
    _ = (storeHeld W a m d s).seen w i :=
      seen_congr (storeWrite_found W a m d s w)
        ((storeWrite_memory W a m d (Work.start s)).trans (storeHeld_memory W a m d s).symm) i
    _ = _ := storeHeld_seen hstand hheld.2.1 hroom w i

/-! ## A direct write (R92, R93) -/

theorem found_of_no_entry {s : State} {a : Addr}
    (h : ∀ (r : RecordIdx) (b : BatchRecord), s.records[r] = some b → ∀ e ∈ b.entries, e.addr ≠ a) : s.found a = [] := by
  unfold State.found
  split
  · rfl
  · refine List.filterMap_eq_nil_iff.mpr fun r _ => ?_
    rcases hb : s.records[r] with _ | b
    · rfl
    · exact (find_eq_none_iff b a).mpr (h r b hb)

theorem directWrite_seen {s : State} {a : Addr} {m : Lanes} {d : Word} (hmeets : DirectWriteMeetsNoEntry s)
    (hown : UpstreamClaimIsItsOwn s) (hflight : s.port.transaction = some (.directWrite a m d)) (w : Addr) (i : Fin 4) :
    (completeUpstream none (acknowledge (.directWrite a m d) s)).seen w i =
      if w = a ∧ m.getLsbD i.val = true then some (laneByte d i) else s.seen w i := by
  have hfound (v : Addr) : (completeUpstream none (acknowledge (.directWrite a m d) s)).found v = s.found v := rfl
  have hmemory : (completeUpstream none (acknowledge (.directWrite a m d) s)).memory = writeWord a m d s.memory := rfl
  by_cases hw : w = a
  · subst hw
    obtain ⟨hphase, hwrite⟩ := hown.1 w m d (.inr hflight)
    have hnone : s.found w = [] := found_of_no_entry (hmeets hphase w m d hwrite)
    rw [seen_of_found_nil ((hfound w).trans hnone), seen_of_found_nil hnone, hmemory, writeWord_read_lane]
    exact if_congr (by simp) rfl rfl
  · rw [if_neg fun h => hw h.1]
    exact seen_congr_lane (hfound w) (by rw [hmemory]; exact read_writeWord_of_ne hw m d s.memory i)

/-! ## The write of an entry that others follow (R23, R72) -/

/-- The batches of a window that are not RELEASING, newest first. -/
def State.heldBatches (s : State) (W : WindowIdx) : List RecordIdx :=
  s.windows[W].openBatch.toList ++ s.windows[W].sealedQueue.reverse

theorem found_of_releasing {s : State} {a : Addr} {r : RecordIdx} {b : BatchRecord}
    (hW : coherentWindow s.live a = some b.window) (hreleasing : s.engine.releasing = some r) (hb : s.records[r] = some b) :
    s.found a =
      (s.heldBatches b.window).filterMap (fun q => s.records[q].bind fun c => c.find a) ++ (b.find a).toList := by
  have hlast : s.releasingOf b.window = some r := by
    unfold State.releasingOf
    rw [hreleasing]
    refine if_pos ?_
    dsimp only
    rw [hb]
    simp
  unfold State.found
  rw [hW]
  dsimp only
  rw [State.batchesOf, hlast, List.filterMap_append, filterMap_toList, hb]
  rfl

theorem not_mem_heldBatches {s : State} (hstand : BatchesStand s) {r : RecordIdx} (hreleasing : s.engine.releasing = some r)
    (W : WindowIdx) : r ∉ s.heldBatches W := by
  obtain ⟨b, hb, hstate⟩ := hstand.2.2.2.2 r hreleasing
  intro hmem
  rcases List.mem_append.mp hmem with hopen | hsealed
  · obtain ⟨c, hc, hopened, -⟩ := hstand.1 W r (Option.mem_toList.mp hopen)
    rw [Option.some.inj (hb.symm.trans hc), hopened] at hstate
    exact BatchState.noConfusion hstate
  · obtain ⟨c, hc, hqueued, -⟩ := hstand.2.1 W r (List.mem_reverse.mp hsealed)
    rw [Option.some.inj (hb.symm.trans hc), hqueued] at hstate
    exact BatchState.noConfusion hstate

section

variable {s : State} {r : RecordIdx} {b : BatchRecord} {e next : Entry} {rest : List Entry} {x : Claim}

/-- The entry that leaves is found for no other word. -/
theorem departed_found_other (hb : s.records[r] = some b) (hentries : b.entries = e :: next :: rest) {w : Addr}
    (hw : w ≠ e.addr) : (s.departed r b next rest x).found w = s.found w := by
  refine found_congr w rfl (fun W => departed_batchesOf hb W) fun q => ?_
  by_cases hq : q = r
  · subst hq
    have hfind : b.find w = ({ b with entries := next :: rest, written := b.written + 1 } : BatchRecord).find w := by
      unfold BatchRecord.find
      rw [hentries]
      exact List.find?_cons_of_neg (by simpa using Ne.symm hw)
    rw [departed_record_self, show s.records[q.val] = some b from hb, Option.bind_some, Option.bind_some, hfind]
  · rw [departed_record_other hq]

/-- The entries found for the word of the entry that leaves: those of the newer batches, and before it leaves itself. -/
theorem departed_found_self (hstand : BatchesStand s) (hW : coherentWindow s.live e.addr = some b.window)
    (hreleasing : s.engine.releasing = some r) (hb : s.records[r] = some b) (hentries : b.entries = e :: next :: rest)
    (honce : (b.entries.map Entry.addr).Nodup) :
    ∃ newer, s.found e.addr = newer ++ [e] ∧ (s.departed r b next rest x).found e.addr = newer := by
  have hself : b.find e.addr = some e := by
    unfold BatchRecord.find
    rw [hentries]
    exact List.find?_cons_of_pos (by simp)
  have hgone : ({ b with entries := next :: rest, written := b.written + 1 } : BatchRecord).find e.addr = none := by
    rw [hentries, List.map_cons, List.nodup_cons] at honce
    exact (find_eq_none_iff _ _).mpr fun f hf haddr => honce.1 (List.mem_map.mpr ⟨f, hf, haddr⟩)
  have hnewer : ∀ q ∈ s.heldBatches b.window,
      ((s.departed r b next rest x).records[q].bind fun c => c.find e.addr) = s.records[q].bind fun c => c.find e.addr := by
    intro q hq
    have hne : q ≠ r := fun heq => not_mem_heldBatches hstand hreleasing b.window (heq ▸ hq)
    exact congrArg (Option.bind · fun c => c.find e.addr) (departed_record_other hne)
  refine ⟨_, by rw [found_of_releasing hW hreleasing hb, hself]; rfl, ?_⟩
  have hafter := found_of_releasing (s := s.departed r b next rest x) (a := e.addr) (r := r)
    (b := { b with entries := next :: rest, written := b.written + 1 }) hW hreleasing departed_record_self
  rw [hafter, hgone, Option.toList_none, List.append_nil]
  exact List.filterMap_congr hnewer

theorem departed_seen (honce : NoWordTwice s) (hstand : BatchesStand s) (hlie : EntriesLieInTheirWindow s)
    (hreleasing : s.engine.releasing = some r) (hb : s.records[r] = some b) (hentries : b.entries = e :: next :: rest)
    (w : Addr) (i : Fin 4) :
    (s.departed r b next rest (.entryWrite e.addr e.lanes e.data)).seen w i = s.seen w i := by
  have hmemory : (s.departed r b next rest (.entryWrite e.addr e.lanes e.data)).memory =
      writeWord e.addr e.lanes e.data s.memory := rfl
  by_cases hw : w = e.addr
  · subst hw
    obtain ⟨-, -, -, hspan⟩ := hlie r b hb
    have hW := (hspan e (by rw [hentries]; exact List.mem_cons_self)).1
    obtain ⟨newer, hbefore, hafter⟩ := departed_found_self (x := .entryWrite e.addr e.lanes e.data) hstand hW hreleasing hb
      hentries (honce r b hb)
    have hlanes : (coverage [e]).1.getLsbD i.val = e.lanes.getLsbD i.val := by simp [coverage]
    have hbyte : e.lanes.getLsbD i.val = true → laneByte (coverage [e]).2 i = laneByte e.data i := fun hin => by
      rw [coverage, laneByte_mergeLanes, if_pos hin]
    rw [seen_eq, hafter, hmemory, writeWord_read_lane, seen_of_append hbefore, hlanes]
    by_cases hin : e.lanes.getLsbD i.val = true
    · rw [if_pos hin, if_pos hin, hbyte hin]
    · rw [if_neg hin, if_neg hin]
  · exact seen_congr_lane (departed_found_other hb hentries hw)
      (by rw [hmemory]; exact read_writeWord_of_ne hw e.lanes e.data s.memory i)

end

/-! ## Reads (R94 to R96) -/

theorem seen_of_covered {s : State} {a : Addr} (h : (s.lookup a).1 = 0xF) (i : Fin 4) :
    s.seen a i = some (laneByte (s.lookup a).2 i) := by
  refine if_pos ?_
  rw [h]
  fin_cases i <;> rfl

/-- The lookup's lanes over a word that agrees with what is known of the memory are what a read sees. -/
theorem seen_in_answer {s : State} {a : Addr} {dd : Word}
    (hdd : ∀ (i : Fin 4) (b : Byte), s.memory.read (laneKey a i.val) = some b → laneByte dd i = b) {i : Fin 4} {b : Byte}
    (hseen : s.seen a i = some b) : laneByte (mergeLanes dd (s.lookup a).2 (s.lookup a).1) i = b := by
  rw [laneByte_mergeLanes]
  unfold State.seen at hseen
  split at hseen
  · next hcovered => rw [if_pos hcovered]; exact Option.some.inj hseen
  · next huncovered => rw [if_neg huncovered]; exact hdd i b hseen

/-- Settles O55: a write puts its bytes in front of what a read sees, the departure of an entry moves its bytes to memory, and
a read answers with what it sees. -/
theorem readsSeeTheLatestWrite : Obligations.ReadsSeeTheLatestWrite := by
  intro s
  refine ⟨?held, ?direct, ?departure, ?covered, ?memory⟩
  case held =>
    intro a m d W hstand hone hcan hm hheld hroom
    exact ⟨_, exec_held hcan hm hheld hroom, heldWrite_seen hstand hone hcan hheld hroom⟩
  case direct =>
    intro a m d hmeets hown hflight
    exact ⟨_, exec_directWriteComplete_of_flight hflight, directWrite_seen hmeets hown hflight⟩
  case departure =>
    intro r b e next rest a m d honce hstand hlie hfirst hwrite hentries hflight hwait
    obtain ⟨hphase, hinFlight, hreleasing, hb⟩ := hwrite
    obtain ⟨q, c, f, tail, hq, hc, hcentries, rfl, rfl, rfl⟩ := hfirst.2.2 hphase hinFlight a m d hflight
    obtain rfl := Option.some.inj (hreleasing.symm.trans hq)
    obtain rfl := Option.some.inj (hb.symm.trans hc)
    obtain ⟨rfl, -⟩ := List.cons.inj (hentries.symm.trans hcentries)
    refine ⟨_, exec_departure ⟨hphase, hinFlight, hreleasing, hb⟩ hentries hflight, fun w i => ?_⟩
    rw [settle_of_untold rfl hwait]
    exact departed_seen honce hstand hlie hreleasing hb hentries w i
  case covered =>
    intro a m hcan hcovered
    refine ⟨_, (s.lookup a).2, exec_upstreamRead_of_canTake hcan, ?_, seen_of_covered hcovered⟩
    rw [takeRead_of_covered m hcovered]
    rfl
  case memory =>
    intro a dd hflight hdd
    exact ⟨_, _, exec_memoryReadComplete_of_flight dd hflight, rfl, fun _ _ hseen => seen_in_answer hdd hseen⟩

end Sys2Proof.Machine
end
